-- ==== Sys2Proof/Word.lean ====
section
/-! DEFINITION. Word types and their plainest arithmetic. -/

namespace Sys2Proof

/-- A byte of memory. -/
abbrev Byte := BitVec 8
/-- An instruction word, and one lane's v register (R27, R52). -/
abbrev Word := BitVec 32
/-- An s register, an address or a 64-bit operand (R27). -/
abbrev DWord := BitVec 64
/-- A register field of a format (R58, R64, R66, R68). -/
abbrev RegNo := BitVec 6
/-- The payload of an `ext` word (R74). -/
abbrev Payload := BitVec 24

/-- Bits hi down to lo of a word, as a word of the width asked for. -/
abbrev bitsOf {n : Nat} (x : BitVec n) (lo w : Nat) : BitVec w := BitVec.extractLsb' lo w x

/-- One bit of a word. -/
abbrev bitOf {n : Nat} (x : BitVec n) (i : Nat) : Bool := x.getLsbD i

/-- The one-bit word of a Bool. -/
abbrev ofBit (b : Bool) : BitVec 1 := BitVec.ofBool b

end Sys2Proof
end

