-- ==== Sys2Proof/Config.lean ====
section
/-! DEFINITION. What an implementation fixes and the spec leaves open: constants with no body, so that no proof sees
their values. -/

namespace Sys2Proof

/-- The home slice (0 to 511) of a line, from its line number; not architected (R222). -/
opaque Config.homeSlice : Nat → Nat
/-- The die that homes a CXL or host line; the spread is not architected (R222). -/
opaque Config.homeDie : Nat → Nat
/-- The set a line takes within its slice; not architected (R222). -/
opaque Config.lineSet : Nat → Nat
/-- The choice among the ways a line may enter; not architected (R222). -/
opaque Config.victim : Nat → Nat
/-- The address of the Hamada firmware's default handler that TRAPVEC holds until a program writes it (R364). -/
opaque Config.firmwareTrapvec : DWord
/-- The cause byte that the status word records when a per-group or group-wide word in a handler raises a double trap:
R366 and R383 name none for it (DESIGN CHOICE, assumption 2). -/
opaque Config.doubleTrapCause : BitVec 8
/-- `%blk` and `%core` of a cluster trap handler, which R23 ties to a block (DESIGN CHOICE, assumption 2). -/
opaque Config.handlerPlace : Nat → Nat → DWord
/-- The 4 KiB page of own DRAM that the firmware allots to a context as its save area when no request names one (R381). -/
opaque Config.saveArea : Nat → Nat
/-- The bytes of a core image or a ridge thread image in a save area, by cycle and address: R381 architects none of them. -/
opaque Config.imageByte : Nat → Nat → BitVec 8
/-- Whether `ldc` reads a byte as stored last, or as memory held it at the launch's admission, by the cycle, the destination
register, the lane and the byte's address; R171 allows either (DESIGN CHOICE, assumption 21). -/
opaque Config.constFresh : Nat → Nat → Nat → Nat → Bool

end Sys2Proof
end

