-- ==== Sys2Proof/Machine/Fmap.lean ====
section
/-! DEFINITION. Sparse arrays in one canonical form: keys strictly rising, no entry equal to what an unlisted key
reads as. Registers, memory, stash and the accumulator bank are all held so. -/

namespace Sys2Proof.Machine

/-- A sparse array: a key that is not listed reads as the array's default. -/
abbrev Fmap (α : Type) := List (Nat × α)

/-- The value at a key; `dflt` where the key is not listed. -/
def Fmap.get {α : Type} (dflt : α) : Fmap α → Nat → α
  | [], _ => dflt
  | (k, v) :: rest, i => if i = k then v else if i < k then dflt else Fmap.get dflt rest i

/-- Write one key, keeping the canonical form: writing the default removes the entry. -/
def Fmap.set {α : Type} [DecidableEq α] (dflt : α) : Fmap α → Nat → α → Fmap α
  | [], i, x => if x = dflt then [] else [(i, x)]
  | (k, v) :: rest, i, x =>
    if i < k then (if x = dflt then (k, v) :: rest else (i, x) :: (k, v) :: rest)
    else if i = k then (if x = dflt then rest else (i, x) :: rest)
    else (k, v) :: Fmap.set dflt rest i x

/-- Every key of the array lies above `lo`, keys rise strictly and no value is the default. -/
def Fmap.wfAbove {α : Type} [DecidableEq α] (dflt : α) : Option Nat → Fmap α → Bool
  | _, [] => true
  | lo, (k, v) :: rest =>
    (match lo with | none => true | some l => decide (l < k)) && decide (v ≠ dflt) &&
      Fmap.wfAbove dflt (some k) rest

/-- The canonical form. -/
def Fmap.wf {α : Type} [DecidableEq α] (dflt : α) (m : Fmap α) : Bool := Fmap.wfAbove dflt none m

/-- Write a list of key and value pairs, in order. -/
def Fmap.setAll {α : Type} [DecidableEq α] (dflt : α) (m : Fmap α) : List (Nat × α) → Fmap α
  | [] => m
  | (k, v) :: rest => Fmap.setAll dflt (Fmap.set dflt m k v) rest

/-- Drop every key of a range, so that it reads as the default. -/
def Fmap.clear {α : Type} (m : Fmap α) (lo n : Nat) : Fmap α :=
  m.filter (fun p => p.1 < lo || lo + n ≤ p.1)

/-- `n` consecutive values from `lo` on. -/
def Fmap.slice {α : Type} (dflt : α) (m : Fmap α) (lo n : Nat) : List α :=
  (List.range n).map (fun i => Fmap.get dflt m (lo + i))

/-- Replace the i-th element of a list. -/
def listSet {α : Type} : List α → Nat → α → List α
  | [], _, _ => []
  | _ :: xs, 0, y => y :: xs
  | x :: xs, i + 1, y => x :: listSet xs i y

/-- Apply a function to the i-th element of a list. -/
def listModify {α : Type} (f : α → α) : List α → Nat → List α
  | [], _ => []
  | x :: xs, 0 => f x :: xs
  | x :: xs, i + 1 => x :: listModify f xs i

/-- Remove the i-th element of a list. -/
def listDrop {α : Type} : List α → Nat → List α
  | [], _ => []
  | _ :: xs, 0 => xs
  | x :: xs, i + 1 => x :: listDrop xs i

/-- The position of the first element that meets `p`. -/
def listFind {α : Type} (p : α → Bool) : List α → Nat → Option Nat
  | [], _ => none
  | x :: xs, i => if p x then some i else listFind p xs (i + 1)

end Sys2Proof.Machine
end

