-- ==== Sys2Proof/Syntax.lean ====
section
/-! DEFINITION. The instructions: one constructor for each row of spec/opcode_table.json. A row with an encoding holds
its format's fields, named as the spec names them (R58 to R68); a row without one is an event of the machine (spec/95)
and holds what the event is about. -/

namespace Sys2Proof

/-- The A format (R58) with the immediate of its `ext`, if there is one. `cmp` reads d as [5:3] predicate and [2:0]
condition (R60), `sel` reads t as its predicate; other layouts are their entries'. -/
structure AWord where
  /-- the chain bit of the instruction's last word -/
  c : Bool
  d : RegNo
  a : RegNo
  b : RegNo
  t : BitVec 3
  ea : Bool
  eb : Bool
  u : Bool
  ext : Option Payload
  deriving DecidableEq, Repr, Inhabited

/-- The B format (R63). -/
structure BWord where
  c : Bool
  p : BitVec 3
  neg : Bool
  cond : Bool
  off : BitVec 19
  deriving DecidableEq, Repr, Inhabited

/-- The G format of `guard` (R73); its chain bit is always 1. -/
structure GWord where
  p : BitVec 3
  neg : Bool
  count : BitVec 2
  deriving DecidableEq, Repr, Inhabited

/-- The M format with its payload (R64); c is the chain bit of the `ext`. -/
structure MWord where
  c : Bool
  d : RegNo
  base : RegNo
  index : RegNo
  func : BitVec 6
  size : BitVec 3
  scope : BitVec 3
  order : BitVec 2
  hint : BitVec 2
  ea : Bool
  u : Bool
  off : BitVec 12
  deriving DecidableEq, Repr, Inhabited

/-- The K format with its payload (R66). -/
structure KWord where
  c : Bool
  d : RegNo
  a : RegNo
  b : RegNo
  func : BitVec 6
  dims : BitVec 3
  bits : BitVec 5
  op : BitVec 16
  deriving DecidableEq, Repr, Inhabited

/-- The Q format (R67); the payload's fields differ by sub-op (R112). -/
structure QWord where
  c : Bool
  n6 : BitVec 6
  m2 : BitVec 2
  fmt : BitVec 4
  core : BitVec 2
  ctx : Bool
  low : BitVec 5
  pay : Payload
  deriving DecidableEq, Repr, Inhabited

/-- The Y format (R68). -/
structure YWord where
  c : Bool
  d : RegNo
  a : RegNo
  imm : BitVec 8
  deriving DecidableEq, Repr, Inhabited

/-- A unit that self-test names (R442, R443), in the numbering of the maintenance log (R411). -/
inductive Piece where
  | core (die core : Nat)
  | l2way (die slice way : Nat)
  | dramFrame (die frame : Nat)
  | lane (port lane : Nat)
  /-- a row of a core's memories: its stash, L1, caches or register tiers -/
  | coreRow (die core row : Nat)
  deriving DecidableEq, Repr, Inhabited

/-- What an error leaves that cannot be corrected (R368, R441): bytes of memory, of a die's scratchpad ways or of a block's stash,
the word of a v register in the near tier, or the data of one transfer from L2 to a core: of a destination or of a queue entry that awaits it, by
its number among those; nothing, when every value was corrected or no data was met. -/
inductive ErrorPlace where
  | nothing
  | memory (pa len : Nat)
  | scratch (key len : Nat)
  | stash (blk off len : Nat)
  | vreg (blk slot reg lane : Nat)
  | transfer (k : Nat)
  | queueTransfer (k : Nat)
  deriving DecidableEq, Repr, Inhabited

/-- An error as a unit reports it (R442): whether it was corrected, and what it leaves when it was not. -/
structure ErrorFound where
  corrected : Bool
  left : ErrorPlace
  deriving DecidableEq, Repr, Inhabited

/-- Whose flit of copy data it is (R421): its sender, whether it answers a read of this device, and its tag. -/
structure CopyFlit where
  src : BitVec 12
  answer : Bool
  tag : BitVec 20
  /-- places among its bytes that a copy to its receiver does not write -/
  holes : List Nat
  deriving DecidableEq, Repr, Inhabited

/-- A replicated launch at its issuer (R425): its number there, whether the maintenance service admits it (R390), and whether the message is
the issuer's word that the launch has failed (R426; DESIGN CHOICE, assumption 44). -/
structure ReplicaOf where
  ctx : Nat
  priv : Bool
  ended : Bool
  deriving DecidableEq, Repr, Inhabited

/-- The device at the other end of a port (R419): the number it sends, and which device it is. -/
structure Neighbour where
  num : BitVec 12
  ident : BitVec 128
  deriving DecidableEq, Repr, Inhabited

/-- An HDM decoder (R416): the first offset and the length of its range of the CXL tier, how many root ports it is interleaved
over, and the granularity in bytes. -/
structure Hdm where
  first : Nat
  len : Nat
  ports : Nat
  gran : Nat
  deriving DecidableEq, Repr, Inhabited

/-- The values that the firmware writes into the registers of a context before its launch's first agent issues (R396). -/
structure CtxRegs where
  spwin : DWord
  splim : Word
  formto : Word
  tslice : DWord
  pdrain : Word
  psave : Word
  deriving DecidableEq, Repr, Inhabited

/-- A firmware image as the boot ROM finds it (R437, R438): its bytes, the public key and the signature that come with it, what its header
says, and the system configuration it carries (R419), and what its firmware sets up. -/
structure BootImage where
  bytes : List Byte
  key : List Byte
  signature : List Byte
  version : Word
  minVersion : Word
  /-- each device that the configuration lists, by its identifier, with its number (R419) -/
  devices : List (BitVec 128 × BitVec 12)
  sources : List (BitVec 32)
  /-- HDM decoders the firmware programs (R416) -/
  decoders : List Hdm
  /-- what its firmware writes into each context's registers (R396) -/
  regs : CtxRegs
  /-- code base of the cluster trap handler it brings; 0 for none (R380) -/
  handlerBase : DWord
  /-- page table root of the front program, and its request blocks (R415) -/
  frontRoot : Nat
  front : List DWord
  deriving DecidableEq, Repr, Inhabited

/-- A request of a Hamada service (R409): by a named service block, or by a datagram of its bytes 0 to 63. -/
inductive Req where
  | block (i : Nat)
  | datagram (source : BitVec 32) (bytes : List Byte)
  deriving DecidableEq, Repr, Inhabited

/-- A request message of another device (R421, R422). -/
structure RemoteReq where
  src : BitVec 12
  tag : BitVec 20
  addr : Nat
  size : Nat
  op : BitVec 5
  data : DWord
  cmp : DWord
  /-- the bytes of a store, by their place after `addr` -/
  cells : List Host.Cell
  /-- an agent of a launch has sent it, and counts it (R322) -/
  counted : Bool
  deriving DecidableEq, Repr, Inhabited

/-- One constructor for each row of the opcode table. -/
inductive Instr where
  /-- NOP (R72) -/
  | nop (c : Bool)
  /-- GUARD (R73) -/
  | guard (w : GWord)
  /-- EXT (R74) -/
  | ext (c : Bool) (x : Payload)
  /-- BR (R334) -/
  | br (w : BWord)
  /-- BRS (R338) -/
  | brs (w : BWord)
  /-- BRI (R334) -/
  | bri (w : BWord)
  /-- CALL (R335) -/
  | call (w : BWord)
  /-- RET (R335) -/
  | ret (w : BWord)
  /-- JOIN (R42) -/
  | join (w : BWord)
  /-- REGANG (R336) -/
  | regang (w : BWord)
  /-- EXIT (R340) -/
  | exit (w : BWord)
  /-- YIELD (R341) -/
  | yield (w : BWord)
  /-- REGION (R327) -/
  | region (w : BWord)
  /-- BKPT (R343) -/
  | bkpt (w : BWord)
  /-- TRAPI (R343) -/
  | trapi (w : BWord)
  /-- ADD (R141) -/
  | add (w : AWord)
  /-- SUB (R141) -/
  | sub (w : AWord)
  /-- MUL (R141) -/
  | mul (w : AWord)
  /-- MULHI (R141) -/
  | mulhi (w : AWord)
  /-- MAD (R141) -/
  | mad (w : AWord)
  /-- MIN (R141) -/
  | min (w : AWord)
  /-- MAX (R141) -/
  | max (w : AWord)
  /-- ABS (R141) -/
  | abs (w : AWord)
  /-- NEG (R141) -/
  | neg (w : AWord)
  /-- AND (R141) -/
  | and (w : AWord)
  /-- OR (R141) -/
  | or (w : AWord)
  /-- XOR (R141) -/
  | xor (w : AWord)
  /-- NOT (R141) -/
  | not (w : AWord)
  /-- SHL (R142) -/
  | shl (w : AWord)
  /-- SHR (R142) -/
  | shr (w : AWord)
  /-- SRA (R142) -/
  | sra (w : AWord)
  /-- ROT (R142) -/
  | rot (w : AWord)
  /-- BFX (R142) -/
  | bfx (w : AWord)
  /-- BFI (R142) -/
  | bfi (w : AWord)
  /-- POPC (R141) -/
  | popc (w : AWord)
  /-- CLZ (R141) -/
  | clz (w : AWord)
  /-- CTZ (R141) -/
  | ctz (w : AWord)
  /-- CMP (R143) -/
  | cmp (w : AWord)
  /-- SEL (R144) -/
  | sel (w : AWord)
  /-- FADD (R147) -/
  | fadd (w : AWord)
  /-- FSUB (R147) -/
  | fsub (w : AWord)
  /-- FMUL (R147) -/
  | fmul (w : AWord)
  /-- FMA (R147) -/
  | fma (w : AWord)
  /-- FMIN (R148) -/
  | fmin (w : AWord)
  /-- FMAX (R148) -/
  | fmax (w : AWord)
  /-- FNEG (R147) -/
  | fneg (w : AWord)
  /-- FABS (R147) -/
  | fabs (w : AWord)
  /-- FCMP (R149) -/
  | fcmp (w : AWord)
  /-- FCLASS (R150) -/
  | fclass (w : AWord)
  /-- FSCALE (R151) -/
  | fscale (w : AWord)
  /-- FRND (R152) -/
  | frnd (w : AWord)
  /-- FDOT2 (R153) -/
  | fdot2 (w : AWord)
  /-- FPACK (R154) -/
  | fpack (w : AWord)
  /-- FUNPK (R154) -/
  | funpk (w : AWord)
  /-- FRCP (R252) -/
  | frcp (w : AWord)
  /-- FRSQ (R279) -/
  | frsq (w : AWord)
  /-- FSQRT (R279) -/
  | fsqrt (w : AWord)
  /-- FEXP2 (R252) -/
  | fexp2 (w : AWord)
  /-- FLOG2 (R252) -/
  | flog2 (w : AWord)
  /-- CVT (R157) -/
  | cvt (w : AWord)
  /-- CVTBFP (R158) -/
  | cvtbfp (w : AWord)
  /-- FMTSET (R159) -/
  | fmtset (w : AWord)
  /-- FMTGET (R160) -/
  | fmtget (w : AWord)
  /-- MOV (R161) -/
  | mov (w : AWord)
  /-- MOVI (R162) -/
  | movi (w : AWord)
  /-- LMOV (R271) -/
  | lmov (w : AWord)
  /-- BCAST (R272) -/
  | bcast (w : AWord)
  /-- VRED (R251) -/
  | vred (w : AWord)
  /-- VSCAN (R275) -/
  | vscan (w : AWord)
  /-- VOTE (R276) -/
  | vote (w : AWord)
  /-- SAMPLE (R278) -/
  | sample (w : AWord)
  /-- GETSV (R163) -/
  | getsv (w : AWord)
  /-- LD (R167) -/
  | ld (w : MWord)
  /-- ST (R168) -/
  | st (w : MWord)
  /-- LDC (R171) -/
  | ldc (w : MWord)
  /-- LDL (R235) -/
  | ldl (w : MWord)
  /-- STL (R236) -/
  | stl (w : MWord)
  /-- CP (R237) -/
  | cp (w : MWord)
  /-- CPCLOSE (R239) -/
  | cpclose (w : MWord)
  /-- CPWAIT (R239) -/
  | cpwait (w : MWord)
  /-- QLD (R243) -/
  | qld (w : MWord)
  /-- STMAP (R244) -/
  | stmap (w : MWord)
  /-- STUNMAP (R245) -/
  | stunmap (w : MWord)
  /-- STFL (R245) -/
  | stfl (w : MWord)
  /-- PREF (R247) -/
  | pref (w : MWord)
  /-- KVX (R248) -/
  | kvx (w : MWord)
  /-- ATOM (R305) -/
  | atom (w : MWord)
  /-- ATOM_ORD_ADD (R315) -/
  | atomOrdAdd (w : MWord)
  /-- RED (R307) -/
  | red (w : MWord)
  /-- RED_ORD (R308) -/
  | redOrd (w : MWord)
  /-- APPEND (R314) -/
  | append (w : MWord)
  /-- APPEND_DECL (R313) -/
  | appendDecl (w : MWord)
  /-- EFLUSH (R310) -/
  | eflush (w : MWord)
  /-- FENCE (R319) -/
  | fence (w : MWord)
  /-- BAR_SYNC (R136) -/
  | barSync (w : MWord)
  /-- BAR_ARRIVE (R136) -/
  | barArrive (w : MWord)
  /-- BAR_WAIT (R136) -/
  | barWait (w : MWord)
  /-- PBAR_ARRIVE (R132) -/
  | pbarArrive (w : MWord)
  /-- PBAR_WAIT (R134) -/
  | pbarWait (w : MWord)
  /-- MONWAIT (R320) -/
  | monwait (w : MWord)
  /-- MONWAKE (R321) -/
  | monwake (w : MWord)
  /-- DRAIN (R322) -/
  | drain (w : MWord)
  /-- BCMP (R345) -/
  | bcmp (w : AWord)
  /-- BFIND (R346) -/
  | bfind (w : AWord)
  /-- BPERM (R347) -/
  | bperm (w : AWord)
  /-- HCRC (R348) -/
  | hcrc (w : AWord)
  /-- HMIX (R349) -/
  | hmix (w : AWord)
  /-- ACSTEP (R326) -/
  | acstep (w : AWord)
  /-- CKPACK (R188) -/
  | ckpack (w : KWord)
  /-- CKUNPK (R188) -/
  | ckunpk (w : KWord)
  /-- CKADD (R189) -/
  | ckadd (w : KWord)
  /-- CKSUB (R189) -/
  | cksub (w : KWord)
  /-- CKCMP (R191) -/
  | ckcmp (w : KWord)
  /-- CKBOX (R193) -/
  | ckbox (w : KWord)
  /-- CKNEXT (R194) -/
  | cknext (w : KWord)
  /-- CKPREV (R194) -/
  | ckprev (w : KWord)
  /-- CKSPLIT (R195) -/
  | cksplit (w : KWord)
  /-- CKLVL (R192) -/
  | cklvl (w : KWord)
  /-- WKSET (R198) -/
  | wkset (w : MWord)
  /-- WKSET_IMG (R213) -/
  | wksetImg (w : MWord)
  /-- WKADD (R206) -/
  | wkadd (w : MWord)
  /-- WKNEXT (R201) -/
  | wknext (w : MWord)
  /-- WKDONE (R208) -/
  | wkdone (w : MWord)
  /-- WKRES (R209) -/
  | wkres (w : MWord)
  /-- WKMAP (R210) -/
  | wkmap (w : MWord)
  /-- WKSTAT (R211) -/
  | wkstat (w : MWord)
  /-- WKSTAT_IMG (R213) -/
  | wkstatImg (w : MWord)
  /-- MINIT (R118) -/
  | minit (w : QWord)
  /-- MTILE (R119) -/
  | mtile (w : QWord)
  /-- MMA (R120) -/
  | mma (w : QWord)
  /-- CRMM (R120) -/
  | crmm (w : QWord)
  /-- MWAIT (R122) -/
  | mwait (w : QWord)
  /-- MDRAIN (R123) -/
  | mdrain (w : QWord)
  /-- MLOAD (R124) -/
  | mload (w : QWord)
  /-- CRDRAIN (R125) -/
  | crdrain (w : QWord)
  /-- CRLOAD (R126) -/
  | crload (w : QWord)
  /-- CRMERGE (R104) -/
  | crmerge (w : QWord)
  /-- CRSTAT (R127) -/
  | crstat (w : QWord)
  /-- CSRR (R397) -/
  | csrr (w : YWord)
  /-- CSRW (R398) -/
  | csrw (w : YWord)
  /-- CSRW_WAYPART (R224) -/
  | csrwWaypart (w : YWord)
  /-- TRET (R399) -/
  | tret (w : YWord)
  /-- TLBINV (R400) -/
  | tlbinv (w : YWord)
  /-- CACHEOP_ALLOC (R392) -/
  | cacheopAlloc (w : YWord)
  /-- CACHEOP_WB (R403) -/
  | cacheopWb (w : YWord)
  /-- CACHEOP_INV (R404) -/
  | cacheopInv (w : YWord)
  /-- CACHEOP_WBINV (R403) -/
  | cacheopWbinv (w : YWord)
  /-- CACHEOP_WB_WAY (R403) -/
  | cacheopWbWay (w : YWord)
  /-- CACHEOP_INV_WAY (R403) -/
  | cacheopInvWay (w : YWord)
  /-- CACHEOP_WBINV_WAY (R393) -/
  | cacheopWbinvWay (w : YWord)
  /-- LAUNCH (R406) -/
  | launch (w : YWord)
  /-- IDLE (R401) -/
  | idle (w : YWord)
  /-- HALT (R402) -/
  | halt (w : YWord)
  /-- MFREEZE (R408) -/
  | mfreeze (w : YWord)
  /-- MTHAW (R408) -/
  | mthaw (w : YWord)
  /-- REGISTER_FILL (R31) -/
  | registerFill (k : Nat)
  /-- QUEUE_ENTRY_FILL (R243) -/
  | queueEntryFill (k : Nat)
  /-- FAULT_RESOLVED (R375) -/
  | faultResolved (k : Nat) (cells : List Host.Cell)
  /-- FAULT_REFUSED (R375) -/
  | faultRefused (k : Nat)
  /-- SWAP (R358) -/
  | swap (core pos : Nat)
  /-- SWAP_TRANSFER_DONE (R39) -/
  | swapTransferDone (core : Nat)
  /-- ADMISSION (R350) -/
  | admission (die : Nat)
  /-- DEPENDENCY_MET (R351) -/
  | dependencyMet (ctx : Nat)
  /-- BLOCK_PLACEMENT (R354) -/
  | blockPlacement (ctx : Nat)
  /-- YELM_FORMER_PLACE (R46) -/
  | yelmFormerPlace (blk : Nat)
  /-- FORMTO_FLUSH (R46) -/
  | formtoFlush (blk i : Nat)
  /-- CREST_READS_COMPLETE (R117) -/
  | crestReadsComplete (core x : Nat)
  /-- CREST_TILE (R100) -/
  | crestTile (core x : Nat)
  /-- CREST_COMPLETE (R106) -/
  | crestComplete (core x : Nat)
  /-- DRAIN_TAKES_EFFECT (R116) -/
  | drainTakesEffect (core x : Nat)
  /-- FREEZE_STOP (R108) -/
  | freezeStop (core x : Nat)
  /-- WALKER_WAIT_END (R201) -/
  | walkerWaitEnd (core slot : Nat)
  /-- PREFETCH_COMPLETE (R203) -/
  | prefetchComplete (k : Nat) (failed : Bool)
  /-- POINT_FORCED_BY_TIME (R201) -/
  | pointForcedByTime (core slot i : Nat)
  /-- COPY_COMPLETE (R228) -/
  | copyComplete (k : Nat) (ecc : Bool)
  /-- MONITOR_WAKE (R320) -/
  | monitorWake (k : Nat)
  /-- MONWAIT_POLL_TIMEOUT (R320) -/
  | monwaitPollTimeout (k : Nat)
  /-- IDLE_TIMEOUT (R401) -/
  | idleTimeout (k : Nat)
  /-- FLUSH (R309) -/
  | flush (ctx : Nat)
  /-- TURN (R313) -/
  | turn (ctx i : Nat)
  /-- LAUNCH_COMPLETE (R407) -/
  | launchComplete (ctx : Nat)
  /-- SLICE_EXPIRY (R362) -/
  | sliceExpiry (ctx : Nat)
  /-- PDRAIN_EXPIRY (R379) -/
  | pdrainExpiry (ctx : Nat)
  /-- CORE_IMAGE_DONE (R380) -/
  | coreImageDone (ctx core : Nat)
  /-- PSAVE_EXPIRY (R380) -/
  | psaveExpiry (ctx : Nat)
  /-- MAINT_ADMIT (R411) -/
  | maintAdmit (r : Req)
  /-- MAINT_READ_LOG (R411) -/
  | maintReadLog (r : Req)
  /-- MAINT_FENCE_MAP (R411) -/
  | maintFenceMap (r : Req)
  /-- MGMT_SET_CAP (R445) -/
  | mgmtSetCap (r : Req)
  /-- MGMT_READ_POWER (R411) -/
  | mgmtReadPower (r : Req)
  /-- MGMT_PREEMPT (R378) -/
  | mgmtPreempt (r : Req)
  /-- MGMT_RESTORE (R384) -/
  | mgmtRestore (r : Req)
  /-- DEBUG_ATTACH (R411) -/
  | debugAttach (r : Req)
  /-- DEBUG_DETACH (R411) -/
  | debugDetach (r : Req)
  /-- DEBUG_STOP_REQUEST (R385) -/
  | debugStopRequest (r : Req)
  /-- DEBUG_STEP (R387) -/
  | debugStep (r : Req)
  /-- DEBUG_RESUME (R411) -/
  | debugResume (r : Req)
  /-- DEBUG_READ (R411) -/
  | debugRead (r : Req)
  /-- DEBUG_WRITE (R411) -/
  | debugWrite (r : Req)
  /-- DEBUG_CORE_STOP (R386) -/
  | debugCoreStop (r : Req)
  /-- FRONT_REQUEST (R415) -/
  | frontRequest (i : Nat)
  /-- ATTESTATION_REQUEST (R440) -/
  | attestationRequest (nonce : BitVec 256)
  /-- POWER_GOOD (R437) -/
  | powerGood (mgmt heotte : Option BootImage) (failed : List Piece)
  /-- ERROR_DETECTED (R442) -/
  | errorDetected (u : Piece) (e : ErrorFound)
  /-- SELF_TEST_DONE (R442) -/
  | selfTestDone (u : Piece) (passed : Bool)
  /-- POWER_OVER_CAP (R445) -/
  | powerOverCap
  /-- JUNCTION_100C (R446) -/
  | junction100c (die : Nat)
  /-- JUNCTION_110C (R446) -/
  | junction110c (die : Nat)
  /-- DRAM_85C (R447) -/
  | dram85c (die : Nat)
  /-- DRAM_BELOW_80C (R447) -/
  | dramBelow80c (die : Nat)
  /-- REMOTE_LOAD_REQUEST (R422) -/
  | remoteLoadRequest (m : RemoteReq)
  /-- LOAD_REPLY (R421) -/
  | loadReply (k : Nat) (bytes : List Byte)
  /-- REMOTE_STORE (R422) -/
  | remoteStore (m : RemoteReq)
  /-- STORE_ACKNOWLEDGEMENT (R421) -/
  | storeAcknowledgement (k : Nat)
  /-- REMOTE_ATOMIC (R422) -/
  | remoteAtomic (m : RemoteReq)
  /-- ATOMIC_REPLY (R421) -/
  | atomicReply (k : Nat) (data : Option DWord)
  /-- COPY_DATA (R421) -/
  | copyData (m : CopyFlit) (addr size : Nat) (bytes : List Byte)
  /-- START_BARRIER (R425) -/
  | startBarrier (src : BitVec 12) (gen : DWord)
  /-- REDUCTION_LOAD_REQUEST (R424) -/
  | reductionLoadRequest (m : RemoteReq)
  /-- REDUCTION_REPLY (R424) -/
  | reductionReply (k : Nat) (src : BitVec 12) (data : Option DWord)
  /-- DRAIN_SWEEP (R427) -/
  | drainSweep (ctx : Nat) (src : BitVec 12) (phase sweep sent received : DWord) (op : BitVec 2)
  /-- LAUNCH_PACKET_REPLICATION (R425) -/
  | launchPacketReplication (src : BitVec 12) (x : ReplicaOf) (va : DWord) (packet : List Byte)
  /-- LINK_CONTROL (R420) -/
  | linkControl (port : Nat)
  /-- RESERVED_FLIT (R421) -/
  | reservedFlit (port : Nat) (cls : BitVec 4)
  /-- MESSAGE_FAILURE (R423) -/
  | messageFailure (k : Nat)
  /-- REPLICATION_TIMEOUT (R426) -/
  | replicationTimeout (ctx : Nat)
  /-- HOST_DEVICE_ACCESS (R414) -/
  | hostDeviceAccess (write : Bool) (addr size : Nat) (bytes : List Byte)
  /-- BACK_INVALIDATE_RESPONSE (R414) -/
  | backInvalidateResponse (line : Nat)
  /-- HOST_SNOOP (R414) -/
  | hostSnoop (line : Nat) (write : Bool)
  /-- PAGE_MIGRATION (R226) -/
  | pageMigration (src dst size : Nat) (cells : List Host.Cell)
  /-- MEMORY_FORM_COMPLETE (R117) -/
  | memoryFormComplete (core x : Nat)
  /-- NEIGHBOUR_LINK_TRAINING (R419) -/
  | neighbourLinkTraining (port : Nat) (n : Neighbour)
  /-- SERVICE_BLOCK_ADDRESS_WRITE (R409) -/
  | serviceBlockAddressWrite (i : Nat) (addr : DWord)
  /-- POWER_OFF (R439) -/
  | powerOff
  deriving DecidableEq, Repr, Inhabited

end Sys2Proof
end

