-- ==== Sys2Proof/Machine/State.lean ====
section
/-! DEFINITION. The state of one TX9 device, as plain data: every register, queue, unit and memory the spec names, the
packet in issue, and the agenda that orders the coming steps. -/

namespace Sys2Proof.Machine

/-- The trap causes (R368), and ECC's kin that only reports carry. -/
inductive Cause where
  | none | illegal | pipeConflict | emptyRead | stackFull | xlate | perm | misalign | spWindow | peerStash | determ | bkpt
  | soft | matrixOp | queue | priv | ecc | deadline | ckDesc | capacity
  deriving DecidableEq, Repr, Inhabited

/-- The agents that issue packets (R40, R364), by block number and group slot, or by cluster. -/
inductive Agent where
  /-- an execute group: block number and group slot -/
  | group (blk slot : Nat)
  /-- the access slice of a block -/
  | access (blk : Nat)
  /-- the ridge thread of a block -/
  | ridge (blk : Nat)
  /-- the cluster trap handler of a cluster, 0 to 31 of the package -/
  | handler (clu : Nat)
  deriving DecidableEq, Repr, Inhabited

/-- An entry of a slice's reconvergence stack (R42). -/
structure StackEntry where
  /-- true for a path entry, false for a rejoin entry -/
  path : Bool
  pc : Word
  mask : BitVec 4
  fmt : Word
  deriving DecidableEq, Repr, Inhabited

/-- The `bar` word that a group's slices issued last in a phase: its form, its packet, and its place there. -/
structure BarWant where
  form : Option Nat
  pc : Word
  idx : Nat
  deriving DecidableEq, Repr, Inhabited

/-- What a slice whose packet has committed still waits for. -/
inductive Hold where
  /-- nothing: it may issue -/
  | free
  /-- instance k of the group's per-group series (R234) -/
  | inst (k : Nat)
  /-- instance k of the group's `region` series (R327) -/
  | region (k : Nat)
  /-- a unit that serves the group: its turn, the walker, a monitor, a drain, a full engine -/
  | unit
  /-- flush k of the launch (R310) -/
  | flush (k : Nat)
  /-- the other slices at `regang.all` (R44) -/
  | regang
  /-- the completion of phase `ph` of named barrier `id` (R136) -/
  | bar (id ph : Nat)
  /-- the completion of the phase of barrier `id` in which it has arrived already: then it arrives in the next, and waits on when it `sync`s (R136) -/
  | late (id : Nat) (want : BarWant) (sync : Bool)
  /-- `idle n`, since a cycle (R401) -/
  | idle (since n : Nat)
  /-- `yield`, until the group is active again (R341) -/
  | yield
  deriving DecidableEq, Repr, Inhabited

/-- A slice of four lanes: its place, masks and stack (R21, R27, R42, R44) and its counts in the group's series (R342). -/
structure Slice where
  pc : Word
  mask : BitVec 4
  live : BitVec 4
  /-- words of the packet at a PC that have begun before the packet, each with whether it is of a handler (assumption 77) -/
  ahead : List (Bool × Word × Nat)
  fmt : Word
  lk : Word
  stack : List StackEntry
  parted : Bool
  former : BitVec 64
  hold : Hold
  laneCnt : Nat
  grpCnt : Nat
  regCnt : Nat
  /-- `yield` words issued (R341) -/
  yieldCnt : Nat
  /-- entries popped of each queue (R36) -/
  qpos : Fmap Nat
  /-- 1 + the phase of the last arrival on each named barrier; 0 for none (R136) -/
  barPhase : Fmap Nat
  /-- `bar` arrivals issued on each named barrier -/
  barCnt : Fmap Nat
  /-- the arrivals issued since the region entry: barrier, number and phase joined (R373) -/
  barLog : List (Nat × Nat × Nat)
  /-- `pbar.arrive` words issued on each slot, keyed core*16 + slot (R134) -/
  pbarCnt : Fmap Nat
  deriving DecidableEq, Repr, Inhabited

/-- An instance of a group-wide lane word, with the operands its slices read at issue (R269). -/
structure LaneInst where
  k : Nat
  word : Instr
  issued : BitVec 64
  acts : BitVec 256
  a : Fmap DWord
  b : Fmap DWord
  preds : BitVec 256
  /-- the uniform operand each issuing slice read: slice, whether its act was not empty, value -/
  uni : List (Nat × Bool × DWord)
  deriving DecidableEq, Repr, Inhabited

/-- An instance of the per-group series (R234), or of `region` (R327). -/
structure GrpInst where
  k : Nat
  word : Instr
  pc : Word
  /-- the place of the word in its packet -/
  idx : Nat
  issued : BitVec 64
  lanes : BitVec 256
  vals : Fmap DWord
  deriving DecidableEq, Repr, Inhabited

/-- One entry of a queue (R229, R230). -/
structure QEntry where
  words : Fmap Word
  filled : Bool
  /-- lanes whose word is marked in error (R423) -/
  err : List Nat
  deriving DecidableEq, Repr, Inhabited

/-- A queue: the number of entries freed before the first one held, and the entries held (R229, R374). -/
structure Queue where
  base : Nat
  entries : List QEntry
  deriving DecidableEq, Repr, Inhabited

/-- Where an access is performed once its address is decoded and translated (R216, R223, R418). -/
inductive Loc where
  /-- own device or host memory, by physical address -/
  | mem (pa : Nat)
  /-- a scratchpad byte of a die, keyed die*2^29 + window offset -/
  | scratch (k : Nat)
  /-- a stash byte of a block -/
  | stash (blk off : Nat)
  /-- bonded DRAM of another device -/
  | remote (dev : BitVec 12) (off : Nat)
  /-- the same offset on every device of the replication set (R424) -/
  | reduction (off : Nat)
  deriving DecidableEq, Repr, Inhabited

/-- A copy that is not complete (R227, R237): pieces in row order, each a global location, a stash offset and a length. -/
structure CopyOp where
  blk : Nat
  slot : Nat
  id : Nat
  out : Bool
  pieces : List (Loc × Nat × Nat)
  /-- lines of memory it owns until it completes (R231) -/
  lines : List Nat
  /-- the bytes that have come of a global side on another device, by their place in the copy (R421) -/
  bytes : Fmap Byte
  /-- its bytes have been written, but flits to another device are still to be acknowledged (R290) -/
  sent : Bool
  /-- an uncorrected error has met a byte of it (R239) -/
  bad : Bool
  deriving DecidableEq, Repr, Inhabited

/-- An execute group (R27): registers, F/E bits, slices, instances and trap state (R364). -/
structure Group where
  slot : Nat
  spawned : Bool
  exited : Bool
  /-- keyed register*256 + lane -/
  v : Fmap Word
  /-- v and s registers whose value is marked in error (R423), keyed as v and s -/
  vBad : Fmap Bool
  sBad : Fmap Bool
  /-- true for an empty register, keyed register*64 + slice (R30) -/
  vEmpty : Fmap Bool
  s : Fmap DWord
  sEmpty : Fmap Bool
  /-- predicates, keyed p*256 + lane (p7 is never written) -/
  p : Fmap Bool
  ckf : Fmap Byte
  /-- sticky flags: inexact, underflow, overflow, divide, invalid from bit 0 (R163) -/
  flags : BitVec 5
  /-- %tid of each lane of a spawned group (R23) -/
  tids : Fmap Nat
  slices : List Slice
  queues : List Queue
  laneInsts : List LaneInst
  grpInsts : List GrpInst
  regInsts : List GrpInst
  /-- REC (R327) -/
  recCnt : Word
  /-- the slices as they stood at the entry of the open region (R342) -/
  region : Option (List Slice)
  /-- the partly formed group-wide lane words at that entry (R269) -/
  regionLanes : List LaneInst
  /-- group arrivals made on each `pbar` slot (R134) -/
  pbarDone : Fmap Nat
  cause : DWord
  epc : DWord
  inHandler : Bool
  /-- TRAPVEC as it stood at the trap entry (R398) -/
  vec : DWord
  priv : Bool
  /-- the slices that run the handler (R366) -/
  handler : BitVec 64
  /-- copies issued after the last `cpclose`, by copy id (R228) -/
  openCopies : List Nat
  /-- closed batches that are not complete: sequence number and copy ids -/
  batches : List (Nat × List Nat)
  copySeq : Nat
  /-- an uncorrected error has met a pending copy, and the batches one has met (R239) -/
  openBad : Bool
  badBatches : List Nat
  eflushes : Nat
  /-- `yield` words that have acted (R341) -/
  yields : Nat
  /-- `red.ord` contributions made by each lane (R308) -/
  ordSeq : Fmap Nat
  /-- active position 0 to 7 (R356), or none in the pending set -/
  pos : Option Nat
  /-- cycle it entered the pending set, or since when it has been blocked (R38) -/
  since : Nat
  stopped : Bool
  /-- a step under way (R387): the slice whose gang steps, and the request -/
  stepping : Option (Nat × Req)
  /-- the packets its slices stood at when a rolled-back fault was delivered (R375) -/
  rolledPc : List Word
  /-- the lowest slice of the gang that issued last (R356) -/
  rrLast : Option Nat
  deriving DecidableEq, Repr, Inhabited

/-- A scalar thread: access slice (R241), ridge thread (R89) or cluster trap handler (R380). -/
structure Thread where
  pc : Word
  /-- words of the packet at a PC that have begun before the packet, each with whether it is of a handler (assumption 77) -/
  ahead : List (Bool × Word × Nat)
  s : Fmap DWord
  sEmpty : Fmap Bool
  sBad : Fmap Bool
  p : BitVec 8
  lk : Word
  flags : BitVec 5
  cause : DWord
  epc : DWord
  inHandler : Bool
  /-- TRAPVEC as it stood at the trap entry (R398) -/
  vec : DWord
  priv : Bool
  /-- what it waits for: `monwait`, `idle`, a freeze -/
  hold : Hold
  exited : Bool
  /-- a BKPT has gone to the debug service (R364) -/
  stopped : Bool
  deriving DecidableEq, Repr, Inhabited

/-- A named barrier (R136). -/
structure Bar where
  phases : Nat
  /-- groups that have arrived in the current phase, as block*16 + slot -/
  arrived : List Nat
  /-- arrivals in the current phase of groups that have exited since (R137) -/
  gone : Nat
  /-- slices of each group that have issued in the current phase -/
  issued : Fmap (BitVec 64)
  /-- fixed by the first group arrival: the form's sN count, or none without sN -/
  form : Option (Option Nat)
  /-- what each group's slices issued last -/
  wanted : Fmap BarWant
  deriving DecidableEq, Repr, Inhabited

/-- A stash mapping (R220). -/
structure StashMap where
  off : Nat
  len : Nat
  /-- physical address of each entry's line -/
  lines : List Nat
  filled : Fmap Bool
  dirty : Fmap Bool
  deriving DecidableEq, Repr, Inhabited

/-- A spawn record (R45). -/
structure SpawnRec where
  tid : Nat
  target : Word
  fmt : Word
  liveRegs : BitVec 16
  regs : List Word
  deriving DecidableEq, Repr, Inhabited

/-- Records the yelm former has gathered for one (target, fmt) pair (R46). -/
structure Former where
  target : Word
  fmt : Word
  recs : List SpawnRec
  last : Nat
  deriving DecidableEq, Repr, Inhabited

/-- A block on its core (R21, R40). Blocks keep their number for good; `ended` marks one that has ended (R41). -/
structure Block where
  ctx : Nat
  idx : Nat
  core : Nat
  cset : Nat
  stashBytes : Nat
  stash : Fmap Byte
  maps : List StashMap
  groups : List Group
  access : Option Thread
  ridge : Option Thread
  ridgeCtx : Nat
  bars : List Bar
  spawnCap : Nat
  spawnUsed : Nat
  formers : List Former
  built : List Former
  ended : Bool
  deriving DecidableEq, Repr, Inhabited

/-- A cluster set: its blocks and its barriers 24 to 31 (R21, R136). -/
structure ClusterSet where
  ctx : Nat
  blocks : List Nat
  bars : List Bar
  deriving DecidableEq, Repr, Inhabited

/-- A launch packet as it was read (R405). -/
structure Packet where
  codeBase : DWord
  entry : Word
  accessEntry : Word
  ridgeEntry : Word
  groups : Nat
  regs8 : Nat
  csetCode : BitVec 2
  cls : BitVec 2
  promise : Bool
  prio : Nat
  ridgeBind : Bool
  stash4k : Nat
  spawn : Nat
  grid : Nat
  params : DWord
  done : DWord
  depAddr : DWord
  depVal : DWord
  cwinBase : DWord
  cwinLen : Nat
  replicate : DWord
  gen : DWord
  /-- a byte marked zero is not zero -/
  dirtyZero : Bool
  deriving DecidableEq, Repr, Inhabited

/-- Where a launch stands (R350 to R355, R407). -/
inductive LaunchState where
  | read | waiting | queued | placing | running | drained | saved | done | failed
  deriving DecidableEq, Repr, Inhabited

/-- A staged contribution of `red.ord` (R308). -/
structure Contribution where
  addr : Nat
  ea : DWord
  blk : Nat
  grp : Nat
  lane : Nat
  seq : Nat
  epoch : Nat
  fadd : Bool
  wide : Bool
  x : DWord
  /-- the core it came from, and whether it is still in that core's eave buffer -/
  core : Nat
  buffered : Bool
  deriving DecidableEq, Repr, Inhabited

/-- A group waiting for its turn on an ordered stream (R313). -/
structure TurnReq where
  blk : Nat
  slot : Nat
  word : Instr
  /-- where the stream's word or descriptor lies -/
  locs : List Loc
  /-- slices that issued, and the lanes of their masks -/
  issued : BitVec 64
  lanes : BitVec 256
  vals : Fmap DWord
  deriving DecidableEq, Repr, Inhabited

/-- An ordered stream (R313): its address, kind, and the groups (as %blk*16 + slot) that have claimed or declined. -/
structure Stream where
  ea : DWord
  /-- none before the first claim; true for `append` -/
  isAppend : Option Bool
  past : List Nat
  /-- groups that have claimed and whose turn is still to come -/
  waiting : List TurnReq
  deriving DecidableEq, Repr, Inhabited

/-- A group that has joined the open drain phase (R322): the register its `drain` writes, and the instance that waits. -/
structure DrainReq where
  blk : Nat
  slot : Nat
  sreg : RegNo
  inst : GrpInst
  deriving DecidableEq, Repr, Inhabited

/-- Pre-emption under way (R378 to R383). -/
structure Preempt where
  level : Nat
  start : Nat
  levelStart : Nat
  /-- PDRAIN and PSAVE as they stood when the pre-emption began (R398) -/
  drainLimit : Nat
  saveLimit : Nat
  save : Option Nat
  pdrainMissed : Bool
  psaveMissed : Bool
  doubleTrap : Bool
  unresolved : Bool
  /-- cores whose image is still to be written -/
  cores : List Nat
  requester : Option Req
  deriving DecidableEq, Repr, Inhabited

/-- A context: one launch's agents and its per-context registers (R396). -/
structure Ctx where
  packet : Packet
  va : DWord
  /-- where the status word lies, when the packet's page allows writing (R406) -/
  statusLoc : Option Loc
  /-- admitted by the maintenance service (R390) -/
  privLaunch : Bool
  die : Nat
  nextDie : Nat
  arrival : Nat
  state : LaunchState
  /-- physical address of the page table's root (R369) -/
  root : Nat
  /-- the bytes of the page tables as translations see them (R370, R400) -/
  tables : Fmap Byte
  /-- what memory held when the launch was admitted, for the constant window (R171) -/
  constMem : Fmap Byte
  spwin : DWord
  splim : Word
  formto : Word
  tslice : DWord
  pdrain : Word
  psave : Word
  promise : Bool
  trapvec : DWord
  /-- TRAPVEC still names the firmware's default handler (R364) -/
  trapDefault : Bool
  slice : DWord
  staged : List Contribution
  flushes : Nat
  broken : Bool
  /-- a message of the launch has failed since the last drain (R423) -/
  failedMsg : Bool
  streams : List Stream
  placed : Nat
  preempt : Option Preempt
  /-- Heotte messages sent and received (R322) -/
  sent : DWord
  received : DWord
  /-- drain phases completed, and the sweeps of the open one (R427) -/
  phase : Nat
  sweepNo : Nat
  /-- this sweep's flit has gone to the parent -/
  sweepSent : Bool
  /-- sums that children have sent in this sweep -/
  childSums : List (BitVec 12 × DWord × DWord)
  /-- sums of the last sweep, when one has returned -/
  lastSum : Option (DWord × DWord)
  /-- groups that have joined the open phase -/
  drains : List DrainReq
  /-- devices that have answered a replicated launch, with the cause 0 for admitted (R426) -/
  answers : List (BitVec 12 × BitVec 8)
  /-- the device that sent a replicated packet here; none where it was launched (R425) -/
  origin : Option (BitVec 12)
  /-- the request that admits the launch (R411), until its status word is written -/
  requester : Option Req
  /-- the completion counter's translation has failed at completion (R407) -/
  doneFault : Option Cause
  deriving DecidableEq, Repr, Inhabited

/-- What an instruction can set beside its destination, so that a `getsv` waits for it (R164). -/
inductive Sets where
  | nothing
  /-- the sticky flags -/
  | flags
  /-- %ckf, as every curve-key instruction -/
  | ckf
  deriving DecidableEq, Repr, Inhabited

/-- A producer that has issued and not yet written its destination (R31). -/
structure Fill where
  agent : Agent
  /-- the slices whose gang issued it (R164) -/
  issued : List Nat
  /-- v register words, keyed register*256 + lane -/
  v : List (Nat × Word)
  /-- v registers made full, keyed register*64 + slice -/
  vFull : List Nat
  s : List (Nat × DWord)
  sFull : List Nat
  flags : BitVec 5
  /-- what its instruction can set -/
  sets : Sets
  /-- replies still awaited from other devices (R422), and the tag they carry -/
  await : Nat
  tag : Nat
  /-- words whose value is marked in error, keyed as v (R423) -/
  vErr : List Nat
  /-- the s value is marked in error -/
  sErr : Bool
  deriving DecidableEq, Repr, Inhabited

/-- A queue entry whose loads are still to be performed (R243): block, slot, queue, entry number, the lanes' locations,
and how many bytes each loads. -/
structure QFill where
  blk : Nat
  slot : Nat
  q : Nat
  entry : Nat
  locs : List (List Loc)
  size : BitVec 3
  /-- replies still awaited from other devices, the tag they carry, and the words that have come -/
  await : Nat
  tag : Nat
  words : Fmap Word
  err : List Nat
  /-- the load is an acquire: it holds back later accesses of its access slice (R243) -/
  acq : Bool
  deriving DecidableEq, Repr, Inhabited

/-- An entry of a core's address monitor table, or a polling wait (R320). -/
structure Monitor where
  agent : Agent
  core : Nat
  /-- none while it polls -/
  line : Option Nat
  ea : DWord
  geu : Bool
  wide : Bool
  sreg : RegNo
  val : DWord
  /-- a write has reached the line since the last look -/
  woken : Bool
  /-- a `monwake` has reached the entry since it was armed -/
  called : Bool
  /-- the word lies on another device, whose writes it sees by reading again -/
  far : Bool
  since : Nat
  /-- SPWIN and SPLIM as they stood when the word issued (R398) -/
  win : DWord
  lim : Word
  /-- the instance that waits, which issues again after a rollback -/
  inst : GrpInst
  deriving DecidableEq, Repr, Inhabited

/-- A translation fault under way (R371). -/
structure FaultRec where
  core : Nat
  agent : Agent
  slices : List Nat
  cause : Cause
  pc : Word
  word : Nat
  lane : Option Nat
  addr : DWord
  /-- REC of the group (R371) -/
  recCnt : Word
  rolled : Bool
  deriving DecidableEq, Repr, Inhabited

/-- An `mma`, `crmm`, drain or memory form that a Crest context holds (R107, R114). -/
structure CrestOp where
  word : Instr
  q : QWord
  /-- where a memory form writes, decoded at issue (R115) -/
  pieces : List (Loc × Nat × Nat)
  /-- the group slot and registers of a register form; none once the group has exited (R116) -/
  dst : Option (Nat × List Nat)
  /-- lines of memory it owns until it completes (R231) -/
  lines : List Nat
  readsDone : Bool
  /-- a memory form has written its bytes, but messages to another device are still to be acknowledged (R117, R422) -/
  sent : Bool
  /-- the words of A and B with their norms, keyed by their place after the base register (R95) -/
  bufA : Fmap Word
  bufB : Fmap Word
  /-- steps done within the instruction, and the next tile of the step (R100) -/
  step : Nat
  tile : Nat
  deriving DecidableEq, Repr, Inhabited

/-- A winner-list entry: f32 value and index (R91). -/
abbrev Winner := Word × Word

/-- A Crest context (R91). -/
structure Crest where
  mode : BitVec 2
  k1 : BitVec 4
  steps : Word
  step : Word
  colBase : Word
  vRows : BitVec 16
  vCols : BitVec 16
  /-- keyed 1024*m + n -/
  bank : Fmap Word
  abandon : Fmap Bool
  lists : Fmap (List Winner)
  nans : Fmap (BitVec 16)
  frozen : Bool
  /-- a freeze waits for the tile in progress (R108) -/
  freezing : Bool
  shapeM : Nat
  shapeN : Nat
  ops : List CrestOp
  /-- the block that drives it, if any -/
  blk : Option Nat
  deriving DecidableEq, Repr, Inhabited

/-- A point of an iteration set (R199, R201). -/
structure WPoint where
  /-- the id, or none when the record could not be read (R203) -/
  id : Option Word
  /-- tiles: address and bytes -/
  tiles : List (DWord × Nat)
  /-- where its record lies, and whether the walker has still to read it (R199) -/
  record : DWord
  unread : Bool
  /-- lines of its tiles on other devices that a prefetch has brought to their homes, by number -/
  brought : List Nat
  dc : Nat
  t0 : Nat
  forced : Bool
  fault : Bool
  handed : Bool
  deriving DecidableEq, Repr, Inhabited

/-- A `wknext` waiting at a slot (R201). -/
structure WkReq where
  blk : Nat
  slot : Nat
  d : RegNo
  p : BitVec 3
  sC : RegNo
  /-- its examination has formed its candidates and waits -/
  examined : Bool
  /-- the ids handed to it, while map bits on another device are still to be set (R203) -/
  ids : Option (List Word)
  deriving DecidableEq, Repr, Inhabited

/-- A walker slot (R197, R198). -/
structure WSlot where
  holder : Option Nat
  /-- how many sets the slot has been given -/
  serial : Nat
  /-- the 64 bytes of the set descriptor, with the current count in bytes 0 to 3 (R176) -/
  desc : List Byte
  points : List WPoint
  handed : Nat
  deferrals : Nat
  forced : Nat
  completions : Nat
  waiting : List WkReq
  deriving DecidableEq, Repr, Inhabited

/-- A prefetch in flight for a point's tile (R203). -/
structure Prefetch where
  core : Nat
  slot : Nat
  serial : Nat
  point : Nat
  /-- the block whose translations it uses -/
  blk : Nat
  va : DWord
  deriving DecidableEq, Repr, Inhabited

/-- A gang that an issue slot has selected for its cycle: block, group slot and lowest slice, and the gang of its group that was
selected after it (R356). -/
structure Place where
  blk : Nat
  slot : Nat
  slice : Nat
  next : Option Nat
  deriving DecidableEq, Repr, Inhabited

/-- An issue slot of a core (R356): whether the group in its upper position takes first choice next, and the gangs of its cycle
that are still to act. -/
structure IssueSlot where
  upper : Bool
  rest : List Place
  deriving DecidableEq, Repr, Inhabited

/-- A core's units. -/
structure CoreState where
  crest : List Crest
  walker : List WSlot
  /-- a swap's incoming group whose registers are on the way (R39): block and slot -/
  transfer : Option (Nat × Nat)
  coreStop : Bool
  /-- its four issue slots -/
  slots : List IssueSlot
  /-- the Crest context that was granted a tile last (R100) -/
  lastCrest : Nat
  /-- 1 + the block whose access slice issued last, 0 for none (R241) -/
  accessLast : Nat
  /-- the split of its 1 MiB: bytes of stash; the L1 holds the rest (R9, R218) -/
  stash : Nat
  deriving DecidableEq, Repr, Inhabited

/-- A line that a caching way of L2 holds (R222). -/
structure L2Line where
  line : Nat
  die : Nat
  slice : Nat
  set : Nat
  way : Nat
  /-- placed by `cacheop.alloc` (R392) -/
  exempt : Bool
  /-- the bytes memory holds behind a dirty line; none for a clean one -/
  behind : Option (List Byte)
  deriving DecidableEq, Repr, Inhabited

/-- A line in the update-only state (R307): the operation and size that its copies combine, the words memory held before, and
each core's partial of a word, in the order in which the cores took them. `Device.mem` shows the words as they stand once the
home has combined every copy. -/
structure ULine where
  line : Nat
  op : BitVec 5
  wide : Bool
  base : Fmap DWord
  /-- core, address of the word, partial -/
  parts : List (Nat × Nat × DWord)
  deriving DecidableEq, Repr, Inhabited

/-- What an answer from another device serves. -/
inductive RemoteUse where
  /-- nothing but its completion: a store or a `red` -/
  | done
  /-- the fill or queue entry of this tag (R31, R243) -/
  | fill (tag : Nat)
  /-- a waiting `monwait` (R320) -/
  | poll
  /-- bytes that a word must have before it acts: of the gang whose first slice this is, or of the whole agent; without an
  agent, of the request of this number -/
  | fetch (gang : Option Nat)
  /-- the copy of this number, whose bytes from this place on it carries (R227) -/
  | copy (id pos : Nat)
  /-- the record of a point of a set: core, slot, serial, index (R199) -/
  | record (core slot serial point : Nat)
  /-- a write of the visited map of a slot, and the agent whose word makes it: none for a hand-out (R203, R206) -/
  | mapBit (core slot : Nat) (word : Option Agent)
  /-- bytes that a walker word stores (R211, R214) -/
  | unit
  /-- a line that a prefetch brings to its home, for a point of a set: core, slot, serial, index (R203) -/
  | bring (core slot serial point : Nat)
  /-- bytes of an image that a memory form of a Crest context has written, and the barrier field of one that has left the context (R115, R117) -/
  | image (core n : Nat) (bar : BitVec 4)
  /-- the dependency word of a context (R351) -/
  | dep
  /-- the wake of a `monwake.sys` (R321) -/
  | wake
  /-- a store of the distributor or a Hamada core: a status word, or a completion counter (R406, R407) -/
  | firm
  deriving DecidableEq, Repr, Inhabited

/-- Part of an answer: the lane it belongs to, none for an s register, the place in that lane's value, and the place and
length in the answer. -/
structure RemotePart where
  lane : Option Nat
  pos : Nat
  off : Nat
  cnt : Nat
  deriving DecidableEq, Repr, Inhabited

/-- A remote operation whose reply or acknowledgement is awaited (R421): `cnt` bytes at `addr` of device `dev`. -/
structure RemoteOp where
  /-- the agent that issued it; none for the distributor, the walker and completions -/
  agent : Option Agent
  ctx : Nat
  dev : BitVec 12
  kind : BitVec 4
  tag : BitVec 20
  addr : Nat
  cnt : Nat
  use : RemoteUse
  parts : List RemotePart
  reg : RegNo
  /-- size code of each lane's access -/
  size : BitVec 3
  /-- an acquire: it holds back later accesses of its thread (R282) -/
  acq : Bool
  /-- the sum so far of a reduction load, and the replicas still to answer it (R424) -/
  acc : DWord
  left : List (BitVec 12)
  /-- the message could not be delivered; a release at `sys` still waits for it (R423) -/
  failed : Bool
  deriving DecidableEq, Repr, Inhabited

/-- Bytes of another device that have come for a word that has still to act; none when the message failed. -/
structure Fetched where
  /-- none for the front program and the Hamada services -/
  agent : Option Agent
  gang : Option Nat
  dev : BitVec 12
  addr : Nat
  bytes : Option (List Byte)
  deriving DecidableEq, Repr, Inhabited

/-- A message that leaves the device: its destination, class and tag (R420), and what it carries. -/
structure OutMsg where
  dst : BitVec 12
  cls : BitVec 4
  tag : BitVec 20
  addr : Nat
  size : Nat
  /-- operation of an atomic, as func [4:0] -/
  op : BitVec 5
  data : DWord
  aux : DWord
  bytes : List Byte
  /-- the bytes of a store, by their place after `addr` -/
  cells : List Host.Cell
  /-- an agent of a launch has sent it, and counts it (R322) -/
  counted : Bool
  deriving DecidableEq, Repr, Inhabited

/-- An entry of the maintenance log (R411). -/
structure LogEntry where
  cycles : Nat
  kind : Nat
  die : Nat
  unit : DWord
  detail : DWord
  deriving DecidableEq, Repr, Inhabited

/-- A saved context (R380, R384), by save area: its blocks by number, and for each block its Crest context, its walker
slots by slot number, and the monitors and drains its groups wait at. -/
structure Saved where
  area : Nat
  ctx : Nat
  blocks : List (Nat × Block)
  crests : List (Nat × Crest)
  walkers : List (Nat × Nat × WSlot)
  /-- groups whose `drain` waited; they join again on resume (R322) -/
  drains : List DrainReq
  deriving DecidableEq, Repr, Inhabited

/-- An XMSS key (R439): what it derives its one-time keys and randomisers from, and its public seed, 32 bytes each. -/
structure XmssKey where
  secret : List Byte
  prf : List Byte
  seed : List Byte
  deriving DecidableEq, Repr, Inhabited

/-- An attestation response (R440). -/
structure Attestation where
  ident : BitVec 128
  digests : List (BitVec 256)
  version : Word
  index : Nat
  /-- fenced cores, L2 ways, DRAM frames and lanes -/
  fenced : List Nat
  devNum : BitVec 12
  nonce : BitVec 256
  signature : List Byte
  deriving DecidableEq, Repr, Inhabited

/-- A service's reply that leaves as a datagram (R409). -/
structure Reply where
  dst : BitVec 32
  seq : DWord
  result : BitVec 16
  data : List Byte
  deriving DecidableEq, Repr, Inhabited

/-- Power and boot (R437). -/
inductive BootState where
  | off | rom | running
  deriving DecidableEq, Repr, Inhabited

/-- A record of an object's form summary (R433): first and last packet of a span, whether it is closed, and whether it holds
an order-sensitive unordered form (flags [0] and [1]). -/
structure FormRecord where
  first : Nat
  last : Nat
  closed : Bool
  unordered : Bool
  deriving DecidableEq, Repr, Inhabited

/-- What the Hamada cores keep: logs, power, fuses, identity, services (R409 to R412, R415, R419, R437 to R447). -/
structure Hamada where
  /-- fenced pieces (R443) and pieces under self-test (R442) -/
  fenced : List Piece
  testing : List (Piece × Bool)
  log : List LogEntry
  cap : Nat
  /-- clocks of the dies in MHz (R445) -/
  clocks : List Nat
  /-- DRAM refresh doubled, by die (R447) -/
  hotDram : List Bool
  /-- module power, junction and DRAM temperatures as last measured (R411) -/
  sensors : List Nat
  ident : BitVec 128
  devNum : BitVec 12
  /-- the configuration lists this device, so that its Heotte ports may come up (R419) -/
  listed : Bool
  /-- the numbers that the configuration lists (R419) -/
  numbers : List (BitVec 12)
  /-- ports that are up, with the neighbour's number and which device it is (R419) -/
  ports : List (Nat × BitVec 12 × BitVec 128)
  /-- numbers that this device has sent to its neighbours in link training, by port (R419) -/
  announced : List (Nat × BitVec 12)
  minVersion : Word
  xmssBits : Nat
  xmssNext : Nat
  /-- the device's own identity key, and the digest of the Greath image key, both fused at manufacture (R438, R439) -/
  identity : XmssKey
  imageKey : BitVec 256
  /-- fuse bit 0: the image is fetched over Heotte port 0 first (R437) -/
  bootPath : Bool
  /-- no image was accepted, and the leader has reported so over the management port (R437) -/
  bootReport : Bool
  digests : List (BitVec 256)
  /-- management source addresses the configuration lists (R409) -/
  sources : List (BitVec 32)
  /-- service block addresses (R409) -/
  services : List DWord
  /-- the sequence each named service block was last served with -/
  servedSeq : List DWord
  /-- request blocks of the front program: address and acknowledged sequence (R415) -/
  front : List (DWord × DWord)
  /-- page table root of the front program and the services -/
  frontRoot : Nat
  /-- form summaries that the loader holds, by the code base of their object (R434) -/
  summaries : List (DWord × List FormRecord)
  /-- code base of the cluster trap handler (R380) -/
  handlerBase : DWord
  /-- HDM decoders (R416) -/
  decoders : List Hdm
  /-- the values that the firmware writes into the registers of a context (R396) -/
  regs : CtxRegs
  /-- the contexts the debug service is attached to, the last attached first (R411) -/
  attached : List Nat
  /-- the named service block served last (R409) -/
  lastBlock : Nat
  attests : List Attestation
  replies : List Reply
  /-- requests being served: service, request and its sequence (R412) -/
  serving : List (Nat × Req × DWord)
  /-- contributions of a launch that one home slice stages by itself, and 2 MiB pages that the firmware can give to spill areas
  (R308) -/
  stageRoom : Nat
  spillPages : Nat
  /-- stores of the distributor and the Hamada cores that wait for lines an engine owns (R231), in order -/
  stores : List (List (Loc × Byte))
  deriving DecidableEq, Repr, Inhabited

/-- What the device keeps for the fabric (R420 to R427). -/
structure Fabric where
  remotes : List RemoteOp
  outbox : List OutMsg
  /-- bytes of other devices that words wait for (R422) -/
  fetched : List Fetched
  /-- tags given to fills and messages so far -/
  tags : Nat
  /-- highest generation started, by 64-device block (R426) -/
  gens : Fmap DWord
  /-- lines a host caches (R414) -/
  hostLines : List Nat
  /-- start flits that have come: device and generation (R425) -/
  starts : List (BitVec 12 × DWord)
  deriving DecidableEq, Repr, Inhabited

/-- The device: everything the spec gives it. -/
structure Device where
  now : Nat
  boot : BootState
  /-- bytes by physical address (R418) -/
  mem : Fmap Byte
  l2 : List L2Line
  /-- lines that cores hold in the update-only state (R307) -/
  ulines : List ULine
  /-- keyed die*32 + domain -/
  waypart : Fmap (BitVec 16)
  /-- scratchpad bytes, keyed die*2^29 + window offset (R223) -/
  scratch : Fmap Byte
  /-- SWAPTH, by die -/
  swapth : Fmap (BitVec 16)
  /-- bytes that ECC cannot deliver (R368, R441), keyed as `locKey` numbers their places -/
  poison : Fmap Bool
  /-- 1 + the thread of a cluster's ridge core that issued last, 0 for none (R89) -/
  ridgeLast : Fmap Nat
  ctxs : List Ctx
  blocks : List Block
  sets : List ClusterSet
  cores : List CoreState
  /-- cluster trap handlers: cluster, context saved or restored, thread (R380, R382) -/
  handlers : List (Nat × Nat × Thread)
  fills : List Fill
  /-- queue entries whose loads are still to be performed (R243) -/
  qfills : List QFill
  copies : List CopyOp
  copyId : Nat
  monitors : List Monitor
  prefetches : List Prefetch
  faults : List FaultRec
  saved : List Saved
  fab : Fabric
  ham : Hamada
  deriving DecidableEq, Repr, Inhabited

/-- How the packet in issue stands. -/
inductive IssueStatus where
  /-- its words are being performed -/
  | run
  /-- it cannot issue yet: nothing of it is performed (R32, R56) -/
  | waits
  /-- a trap has cancelled it (R56) -/
  | trapped
  /-- a translation fault has cancelled it (R371) -/
  | faulted
  /-- it cannot issue yet, and has asked another device for bytes that it needs (R422) -/
  | asked
  deriving DecidableEq, Repr, Inhabited

/-- The guard in force in the chain being performed (R73). -/
structure Guard where
  p : BitVec 3
  neg : Bool
  /-- words it still governs; none for all that remain -/
  left : Option Nat
  deriving DecidableEq, Repr, Inhabited

/-- The packet in issue: its agent and gang, and the device as it stood when the packet and the chain began. Words read
`rd` and write `State.dev`; a trap starts again from `base` (R55, R56). -/
structure Issue where
  agent : Agent
  slices : List Nat
  pc : Word
  word : Nat
  guard : Option Guard
  /-- the word before this one takes the `ext` that follows it (R74) -/
  extOk : Bool
  base : Device
  rd : Device
  /-- a word has set the gang's packet counters -/
  moved : Bool
  status : IssueStatus
  deriving DecidableEq, Repr, Inhabited

/-- One item of the agenda. -/
inductive Act where
  /-- this event of the table happens -/
  | event (i : Instr)
  /-- this agent issues a packet, from the gang that holds this slice -/
  | issue (a : Agent) (slice : Nat)
  /-- nothing but time passes -/
  | pass (cycles : Nat)
  deriving DecidableEq, Repr, Inhabited

/-- The machine's state. -/
structure State where
  dev : Device
  iss : Option Issue
  /-- the order of the coming steps; the model's own order when it is empty (DESIGN CHOICE, assumption 1) -/
  agenda : List Act
  /-- packets issued so far: where the model's own order goes round the gangs (DESIGN CHOICE, assumption 1) -/
  turn : Nat
  deriving DecidableEq, Repr, Inhabited

/-- Why the machine stops. -/
inductive Fault where
  /-- raised by `step` when the agenda asks a device that has not booted for anything but power: nothing else happens
  before boot step 6 (R437). Safe: no claim rests on what such an item would do. -/
  | notBooted
  deriving DecidableEq, Repr, Inhabited

/-- Why an instruction has no meaning here. -/
inductive Refusal where
  /-- raised by exec's arm of an instruction that has no meaning yet. Safe. -/
  | notModelled (mnemonic : String)
  /-- raised by exec of an encoded instruction when no packet is in issue. Safe: `step` always sets one. -/
  | noIssue
  deriving DecidableEq, Repr, Inhabited

/-- A Crest context at device reset (R91). -/
def Crest.reset : Crest where
  mode := 0
  k1 := 0
  steps := 0
  step := 0
  colBase := 0
  vRows := 0xFFFF
  vCols := 0xFFFF
  bank := []
  abandon := []
  lists := []
  nans := []
  frozen := false
  freezing := false
  shapeM := 0
  shapeN := 0
  ops := []
  blk := none

/-- A walker slot that no block holds (R197). -/
def WSlot.reset : WSlot where
  holder := none
  serial := 0
  desc := []
  points := []
  handed := 0
  deferrals := 0
  forced := 0
  completions := 0
  waiting := []

/-- A core with nothing resident. -/
def CoreState.reset : CoreState where
  crest := [Crest.reset, Crest.reset]
  walker := [WSlot.reset, WSlot.reset, WSlot.reset, WSlot.reset]
  transfer := none
  coreStop := false
  slots := List.replicate 4 { upper := false, rest := [] }
  lastCrest := 1
  accessLast := 0
  stash := 0

/-- The reset values of R396. -/
def CtxRegs.reset : CtxRegs where
  spwin := 0
  splim := 0
  formto := 512
  tslice := 0
  pdrain := 1048576
  psave := 4194304

/-- The Hamada cores after boot step 6, on a device whose configuration does not list it. -/
def Hamada.reset : Hamada where
  fenced := []
  testing := []
  log := []
  cap := 2800
  clocks := [1800, 1800, 1800, 1800]
  hotDram := [false, false, false, false]
  sensors := []
  ident := 0
  devNum := 0
  listed := false
  numbers := []
  ports := []
  announced := []
  minVersion := 0
  xmssBits := 1
  xmssNext := 0
  identity := { secret := List.replicate 32 0, prf := List.replicate 32 0, seed := List.replicate 32 0 }
  imageKey := 0
  bootPath := false
  bootReport := false
  digests := []
  sources := []
  services := List.replicate 8 0
  servedSeq := List.replicate 8 0
  front := []
  frontRoot := 0
  summaries := []
  handlerBase := 0
  decoders := []
  regs := CtxRegs.reset
  attached := []
  lastBlock := 7
  attests := []
  replies := []
  serving := []
  stageRoom := 1024
  spillPages := 65536
  stores := []

/-- No message in flight. -/
def Fabric.reset : Fabric where
  remotes := []
  outbox := []
  fetched := []
  tags := 0
  gens := []
  hostLines := []
  starts := []

/-- The device after boot step 6 (R437): control registers at the values of R396, memory cleared, nothing resident. -/
def Device.reset : Device where
  now := 0
  boot := .running
  mem := []
  l2 := []
  ulines := []
  waypart := []
  scratch := []
  swapth := []
  poison := []
  ridgeLast := []
  ctxs := []
  blocks := []
  sets := []
  cores := List.replicate 128 CoreState.reset
  handlers := []
  fills := []
  qfills := []
  copies := []
  copyId := 0
  monitors := []
  prefetches := []
  faults := []
  saved := []
  fab := Fabric.reset
  ham := Hamada.reset

/-- The machine right after reset. -/
def State.reset : State where
  dev := Device.reset
  iss := none
  agenda := []
  turn := 0

end Sys2Proof.Machine
end

