-- ==== Sys2Proof/Machine/Mem.lean ====
section
/-! DEFINITION. Addresses and memory: windows (R216, R223), page tables (R369, R370), physical addresses (R418), L2 lines
(R222), and reading and writing bytes at their point of performance. -/

namespace Sys2Proof.Machine

/-- Why an address reaches nothing: a trap taken precisely, or a translation fault (R368, R371). -/
inductive Bad where
  | trap (c : Cause)
  | fault (c : Cause)
  deriving DecidableEq, Repr, Inhabited

/-- What an access does. `sum` is `ld.b32` or `ld.b64`, the loads that R424 lets reach a replicated reduction. -/
inductive Acc where
  | load | store | atomic | fetch | sum
  deriving DecidableEq, Repr, Inhabited

/-- The block of an agent, if it has one. -/
def Agent.blk? : Agent → Option Nat
  | .group b _ => some b
  | .access b => some b
  | .ridge b => some b
  | .handler _ => none

def Device.block (d : Device) (b : Nat) : Block := (d.blocks[b]?).getD default
def Device.ctx (d : Device) (c : Nat) : Ctx := (d.ctxs[c]?).getD default
def Device.core (d : Device) (k : Nat) : CoreState := (d.cores[k]?).getD default
def Block.group (b : Block) (k : Nat) : Group := (b.groups[k]?).getD default

def Device.modBlock (d : Device) (b : Nat) (f : Block → Block) : Device := { d with blocks := listModify f d.blocks b }
def Device.modCtx (d : Device) (c : Nat) (f : Ctx → Ctx) : Device := { d with ctxs := listModify f d.ctxs c }
def Device.modCore (d : Device) (k : Nat) (f : CoreState → CoreState) : Device :=
  { d with cores := listModify f d.cores k }
def Device.modGroup (d : Device) (b k : Nat) (f : Group → Group) : Device :=
  d.modBlock b (fun x => { x with groups := listModify f x.groups k })

/-- The handler entry of a cluster. -/
def Device.handlerOf (d : Device) (clu : Nat) : Option (Nat × Nat × Thread) := d.handlers.find? (fun h => h.1 == clu)

/-- The context of an agent. -/
def Device.ctxOf (d : Device) : Agent → Nat
  | .group b _ => (d.block b).ctx
  | .access b => (d.block b).ctx
  | .ridge b => (d.block b).ctx
  | .handler c => ((d.handlerOf c).map (fun h => h.2.1)).getD 0

/-- The die an agent runs on. -/
def Device.dieOf (d : Device) : Agent → Nat
  | .group b _ => (d.block b).core / 32
  | .access b => (d.block b).core / 32
  | .ridge b => (d.block b).core / 32
  | .handler c => c / 8

/-! Page tables. -/

/-- The 8-byte entry at a physical address, from the bytes translations see. -/
def tableEntry (t : Fmap Byte) (pa : Nat) : Nat :=
  (List.range 8).foldr (fun i acc => (Fmap.get 0 t (pa + i)).toNat + 256 * acc) 0

/-- Bits hi..lo of an entry. -/
def pteBits (e lo w : Nat) : Nat := (e / 2 ^ lo) % 2 ^ w

/-- An entry whose reserved bits are not as R370 asks, at a level. -/
def pteMalformed (e level : Nat) : Bool :=
  pteBits e 52 12 != 0 || pteBits e 8 4 != 0 || pteBits e 2 1 != 0 || (level != 0 && pteBits e 7 1 != 0) ||
    (level == 0 && pteBits e 1 1 != 1) || (3 ≤ level && pteBits e 1 1 == 1)

/-- The rights a leaf must give an access (R370). -/
def rightsOk (e : Nat) (priv : Bool) (k : Acc) : Bool :=
  (priv || pteBits e 6 1 == 1) &&
    match k with
    | .load | .sum => pteBits e 3 1 == 1
    | .store => pteBits e 4 1 == 1
    | .atomic => pteBits e 3 1 == 1 && pteBits e 4 1 == 1
    | .fetch => pteBits e 5 1 == 1

/-- A physical address that breaks R418. -/
def paBroken (pa : Nat) : Bool :=
  match pteBits pa 50 2 with
  | 0 => pteBits pa 44 6 != 0 || (pteBits pa 43 1 == 0 && 2 ^ 38 ≤ pteBits pa 0 43)
  | 2 => pteBits pa 38 12 != 0
  | _ => false

/-- The 16 entries of a 64 KiB page agree (R369). -/
def contOk (t : Fmap Byte) (table idx : Nat) : Bool :=
  let lo := idx / 16 * 16
  let e0 := tableEntry t (table + 8 * lo)
  pteBits e0 12 40 % 16 == 0 &&
    (List.range 16).all (fun i => tableEntry t (table + 8 * (lo + i)) == e0 + i * 4096)

/-- Walk the tables down from a level, whose table is at `table`; the physical address of `va` (R369, R370). -/
def walk (t : Fmap Byte) (priv : Bool) (k : Acc) (va : Nat) : Nat → Nat → Except Cause Nat
  | level, table =>
    let idx := pteBits va (12 + 9 * level) (if level = 4 then 8 else 9)
    let e := tableEntry t (table + 8 * idx)
    if pteBits e 0 1 == 0 then .error .xlate
    else if pteMalformed e level then .error .perm
    else if pteBits e 1 1 == 1 then
      let page := 2 ^ (12 + 9 * level)
      let frame := pteBits e 12 40 * 4096
      if frame % page != 0 then .error .perm
      else if level == 0 && pteBits e 7 1 == 1 && !contOk t table idx then .error .perm
      else if !rightsOk e priv k then .error .perm
      else if paBroken (frame + va % page) then .error .perm
      else .ok (frame + va % page)
    else
      match level with
      | 0 => .error .perm
      | l + 1 => walk t priv k va l (pteBits e 12 40 * 4096)

/-- Translate an address of the ordinary window in a context. -/
def Ctx.translate (c : Ctx) (priv : Bool) (k : Acc) (va : Nat) : Except Cause Nat :=
  walk c.tables priv k va 4 c.root

/-! Windows. -/

/-- The WAYPART value of a domain of a die (R223). -/
def Device.wayPart (d : Device) (die dom : Nat) : BitVec 16 := Fmap.get 0xFFFF d.waypart (die * 32 + dom)

/-- Whether a way of a slice is fenced (R225). -/
def Device.wayFenced (d : Device) (die slice way : Nat) : Bool := d.ham.fenced.contains (.l2way die slice way)

/-- The enabled scratchpad window holds the address (R223). -/
def Ctx.inScratch (c : Ctx) (va : Nat) : Bool :=
  bitOf c.spwin 0 && va / 2 ^ 29 == (bitsOf c.spwin 29 27).toNat

/-- The scratchpad location of an address in the window (R223). -/
def Device.scratchLoc (d : Device) (c : Ctx) (die : Nat) (priv : Bool) (va : Nat) : Except Bad Loc :=
  let o := va % 2 ^ 29
  let j := o / 2 ^ 24
  let w := o / 2 ^ 20 % 16
  let slice := 16 * j + o / 2 ^ 16 % 16
  if !priv && !bitOf c.spwin 1 then .error (.trap .perm)
  else if c.splim.toNat ≤ o then .error (.trap .spWindow)
  else if bitOf (d.wayPart die j) w then .error (.trap .spWindow)
  else if d.wayFenced die slice w then .error (.trap .spWindow)
  else .ok (.scratch (die * 2 ^ 29 + o))

/-- The block of the issuer's cluster set on a core of the cluster (R217). -/
def Device.peerBlock (d : Device) (b n : Nat) : Option Nat :=
  let set := (d.sets[(d.block b).cset]?).getD default
  set.blocks.find? (fun p => (d.block p).core % 4 == n)

/-- The location a physical address reaches (R418). -/
def Device.paLoc (d : Device) (pa : Nat) : Loc :=
  match pteBits pa 50 2 with
  | 2 => .reduction (pteBits pa 0 38)
  | 3 =>
    let n := BitVec.ofNat 12 (pteBits pa 38 12)
    if n == d.ham.devNum then .mem (pteBits pa 0 38) else .remote n (pteBits pa 0 38)
  | _ => .mem pa

/-- Decode and translate one byte address for a context's agent (R216, R223, R369). -/
def Device.decodeAddr (d : Device) (c : Ctx) (blk : Option Nat) (die : Nat) (priv : Bool) (k : Acc) (va : DWord) :
    Except Bad Loc :=
  let low := (bitsOf va 0 56).toNat
  let off := (bitsOf va 0 20).toNat
  match (bitsOf va 56 8).toNat with
  | 0 =>
    if c.inScratch low then d.scratchLoc c die priv low
    else
      match c.translate priv k low with
      | .error e => .error (.fault e)
      | .ok pa =>
        match d.paLoc pa with
        | .reduction o => if k = .sum then .ok (.reduction o) else .error (.trap .perm)
        | l => .ok l
  | 0xFE =>
    if low / 2 ^ 20 != 0 then .error (.trap .xlate)
    else
      match blk with
      | none => .error (.trap .perm)
      | some b => if (d.block b).stashBytes ≤ off then .error (.trap .perm) else .ok (.stash b off)
  | 0xFD =>
    if (bitsOf va 50 6).toNat != 0 || (bitsOf va 20 28).toNat != 0 then .error (.trap .xlate)
    else
      match blk with
      | none => .error (.trap .peerStash)
      | some b =>
        match d.peerBlock b (bitsOf va 48 2).toNat with
        | none => .error (.trap .peerStash)
        | some p => if (d.block p).stashBytes ≤ off then .error (.trap .perm) else .ok (.stash p off)
  | _ => .error (.trap .xlate)

/-- The location i bytes further on, within a page. -/
def Loc.add : Loc → Nat → Loc
  | .mem pa, i => .mem (pa + i)
  | .scratch k, i => .scratch (k + i)
  | .stash b o, i => .stash b (o + i)
  | .remote n o, i => .remote n (o + i)
  | .reduction o, i => .reduction (o + i)

/-- The locations of n bytes from an address on, at most a page of them: every window and page changes its answer only at
a 4 KiB boundary, so the first byte speaks for its page and the last byte for the next. -/
def Device.decodeRange (d : Device) (c : Ctx) (blk : Option Nat) (die : Nat) (priv : Bool) (k : Acc) (va : DWord)
    (n : Nat) : Except Bad (List Loc) :=
  match d.decodeAddr c blk die priv k va with
  | .error e => .error e
  | .ok l0 =>
    let room := 4096 - va.toNat % 4096
    if n ≤ room then .ok ((List.range n).map l0.add)
    else
      match d.decodeAddr c blk die priv k (va + BitVec.ofNat 64 room) with
      | .error e => .error e
      | .ok l1 => .ok ((List.range room).map l0.add ++ (List.range (n - room)).map l1.add)

/-- `decodeRange` for an agent. -/
def Device.reach (d : Device) (a : Agent) (priv : Bool) (k : Acc) (va : DWord) (n : Nat) : Except Bad (List Loc) :=
  d.decodeRange (d.ctx (d.ctxOf a)) a.blk? (d.dieOf a) priv k va n

/-! L2. -/

/-- The die that homes a physical line (R222). -/
def homeDieOf (line : Nat) : Nat := if line < 2 ^ 31 then line / 2 ^ 29 else Config.homeDie line % 4
/-- The home slice of a line. -/
def homeSliceOf (line : Nat) : Nat := Config.homeSlice line % 512
/-- The set of a line within a way of its slice: 512 lines to a way. -/
def lineSetOf (line : Nat) : Nat := Config.lineSet line % 512

/-- The ways of a slice that cache (R223, R225). -/
def Device.cachingWays (d : Device) (die slice : Nat) : List Nat :=
  (List.range 16).filter (fun w => bitOf (d.wayPart die (slice / 16)) w && !d.wayFenced die slice w)

/-- The 128 bytes of a line as they stand. -/
def Device.lineBytes (d : Device) (line : Nat) : List Byte := Fmap.slice 0 d.mem (line * 128) 128

/-- A line that an access brings in: into a free caching way, or in place of a line that is not exempt; performed against
memory when every way holds an exempt line (R222, R392). -/
def Device.l2Insert (d : Device) (line : Nat) (behind : Option (List Byte)) : Device :=
  let die := homeDieOf line
  let slice := homeSliceOf line
  let set := lineSetOf line
  let here := d.l2.filter (fun x => x.die == die && x.slice == slice && x.set == set)
  let ways := d.cachingWays die slice
  let free := ways.filter (fun w => !here.any (fun x => x.way == w))
  let cand := if free.isEmpty then ways.filter (fun w => !here.any (fun x => x.way == w && x.exempt)) else free
  { d with l2 := match cand[Config.victim line % (max cand.length 1)]? with
      | none => d.l2
      | some w =>
        { line := line, die := die, slice := slice, set := set, way := w, exempt := false, behind := behind } ::
          d.l2.filter (fun x => !(x.die == die && x.slice == slice && x.set == set && x.way == w)) }

/-- An access at a line's home: present afterwards, and dirty after a write; `behind` keeps what memory held (R222). It
recalls every update-only copy (R307). -/
def Device.touch (d : Device) (write : Bool) (line : Nat) : Device :=
  let old := if write then some (d.lineBytes line) else none
  { d with
    ulines := d.ulines.filter (fun u => u.line != line)
    l2 :=
      if d.l2.any (fun x => x.line == line) then
        if write then d.l2.map (fun x => if x.line == line then { x with behind := x.behind.or old } else x) else d.l2
      else (d.l2Insert line old).l2 }

/-- A line of the CXL tier that no HDM decoder maps (R416). -/
def Device.unmapped (d : Device) (pa : Nat) : Bool :=
  pteBits pa 43 9 == 1 && !d.ham.decoders.any (fun r => r.first ≤ pteBits pa 0 43 && pteBits pa 0 43 < r.first + r.len)

/-! Stash mappings (R220). -/

/-- The mapping that covers a stash offset, if one does. -/
def Block.mapAt (b : Block) (off : Nat) : Option StashMap :=
  b.maps.find? (fun m => m.off ≤ off && off < m.off + m.len)

/-- The memory behind a mapped stash byte; any other location as it is. -/
def Device.settle (d : Device) : Loc → Loc
  | .stash b off =>
    match (d.block b).mapAt off with
    | some m => .mem ((m.lines[(off - m.off) / 128]?).getD 0 * 128 + off % 128)
    | none => .stash b off
  | l => l

/-- A touch of a mapped entry fills it, and a write makes it dirty (R220). -/
def Device.fillEntry (d : Device) (write : Bool) : Loc → Device
  | .stash b off =>
    match (d.block b).mapAt off with
    | none => d
    | some m0 =>
      d.modBlock b (fun x => { x with maps := x.maps.map (fun m =>
        if m.off == m0.off then
          { m with filled := Fmap.set false m.filled ((off - m.off) / 128) true,
                   dirty := if write then Fmap.set false m.dirty ((off - m.off) / 128) true else m.dirty }
        else m) })
  | _ => d

/-- A stash entry: its block, and its number in the stash. -/
abbrev StashEntry := Nat × Nat
/-- The stash entries through which accesses reach memory. -/
def entriesOf (ls : List Loc) : List StashEntry :=
  ls.filterMap (fun l => match l with | .stash b off => some (b, off / 128) | _ => none)

/-- Change the mapped entries of a line that are not in `keep`. -/
def Device.modEntries (d : Device) (keep : List StashEntry) (line : Nat) (f : StashMap → (Nat → Bool) → StashMap) : Device :=
  if d.blocks.all (fun b => b.maps.isEmpty) then d
  else
    { d with blocks := d.blocks.mapIdx (fun i b =>
        { b with maps := b.maps.map (fun m =>
          f m (fun e => m.lines[e]? == some line && !keep.contains (i, m.off / 128 + e))) }) }
/-- Another agent writes a line or takes it owned: every mapped entry of the line becomes unfilled, but for those through
which the access came (R220). -/
def Device.unfill (d : Device) (keep : List StashEntry) (line : Nat) : Device :=
  d.modEntries keep line (fun m hit =>
    { m with filled := m.filled.filter (fun p => !hit p.1), dirty := m.dirty.filter (fun p => !hit p.1) })
/-- Another agent reads a line: its dirty mapped entries are written back and stay filled (R220). -/
def Device.cleanEntries (d : Device) (keep : List StashEntry) (line : Nat) : Device :=
  d.modEntries keep line (fun m hit => { m with dirty := m.dirty.filter (fun p => !hit p.1) })

/-! Reading and writing. -/

/-- The byte at a location of this device; 0 at a location of another device, which a reply delivers (R421). -/
def Device.byteAt (d : Device) (l : Loc) : Byte :=
  match d.settle l with
  | .mem pa => Fmap.get 0 d.mem pa
  | .scratch k => Fmap.get 0 d.scratch k
  | .stash b off => Fmap.get 0 (d.block b).stash off
  | .reduction off => Fmap.get 0 d.mem off
  | .remote _ _ => 0

/-- The number little-endian bytes make. -/
def bytesNat (bs : List Byte) : Nat := bs.foldr (fun b acc => b.toNat + 256 * acc) 0

/-- The little-endian value at locations. -/
def Device.valueAt (d : Device) (ls : List Loc) : DWord := BitVec.ofNat 64 (bytesNat (ls.map d.byteAt))

/-- The low n bytes of a value, lowest first. -/
def bytesOf (n : Nat) (x : DWord) : List Byte := (List.range n).map (fun i => bitsOf x (8 * i) 8)

/-- Remove repetitions, keeping the first. -/
def dedup (xs : List Nat) : List Nat := xs.foldr (fun x acc => x :: acc.filter (fun y => y != x)) []

/-- The lines of memory that locations lie in. -/
def Device.linesOf (d : Device) (ls : List Loc) : List Nat :=
  dedup (ls.filterMap (fun l => match d.settle l with | .mem pa => some (pa / 128) | .reduction o => some (o / 128) | _ => none))

/-- A number for a byte's location, whatever window it lies in. -/
def locKey : Loc → Nat
  | .mem pa => pa
  | .stash b off => 2 ^ 67 + (b * 2 ^ 20 + off)
  | .scratch k => 2 ^ 68 + k
  | .remote n off => 2 ^ 69 + (n.toNat * 2 ^ 38 + off)
  | .reduction off => off
/-- A number for the 128 bytes that hold a location. -/
def lineKey (l : Loc) : Nat := locKey l / 128

/-- Loads at these locations bring in their lines and fill their mapped entries. -/
def Device.touchLoads (d : Device) (ls : List Loc) : Device :=
  let d := (d.linesOf ls).foldl (fun d n => (d.touch false n).cleanEntries (entriesOf ls) n) d
  ls.foldl (fun d l => d.fillEntry false l) d

/-- Without `idle`. -/
def Hold.awake : Hold → Hold
  | .idle _ _ => .free
  | h => h

/-- `idle` ends on the cores of a test (R401); a cluster handler stands at its cluster's first core. -/
def Device.endIdle (d : Device) (on : Nat → Bool) : Device :=
  { d with
    blocks := d.blocks.map (fun b =>
      if on b.core then
        { b with groups := b.groups.map (fun g => { g with slices := g.slices.map (fun s => { s with hold := s.hold.awake }) }) }
      else b)
    handlers := d.handlers.map (fun h =>
      if on (h.1 * 4) then (h.1, h.2.1, { h.2.2 with hold := h.2.2.hold.awake }) else h) }

/-- The front program watches a line of one of its request blocks, with an entry of core 0's table (R415). -/
def Device.frontLine (d : Device) (line : Nat) : Bool := d.ham.front.any (fun f => f.1.toNat / 128 == line)

/-- A write to a line wakes the monitors armed on it (R320) and ends `idle` on their cores (R401). -/
def Device.wakeLine (d : Device) (line : Nat) : Device :=
  let hit := fun (m : Monitor) => m.line == some line
  if d.monitors.any hit || d.frontLine line then
    let cores := (d.monitors.filter hit).map (fun m => m.core) ++ (if d.frontLine line then [0] else [])
    ({ d with monitors := d.monitors.map (fun m => if hit m then { m with woken := true } else m) } : Device).endIdle cores.contains
  else d

/-- Write one byte at a location of this device. -/
def Device.setByte (d : Device) (l : Loc) (x : Byte) : Device :=
  match d.settle l with
  | .mem pa => { d with mem := Fmap.set 0 d.mem pa x }
  | .scratch k => { d with scratch := Fmap.set 0 d.scratch k x }
  | .stash b off => d.modBlock b (fun k => { k with stash := Fmap.set 0 k.stash off x })
  | _ => d

/-- Bytes written are delivered again (R368, R441). -/
def Device.cured (d : Device) (ls : List Loc) : Device :=
  if d.poison.isEmpty then d else { d with poison := Fmap.setAll false d.poison (ls.map (fun l => (locKey (d.settle l), false))) }

/-- Stores at these locations, in order: lines become dirty, mapped entries fill, other copies are recalled, monitors wake. -/
def Device.storeAll (d : Device) (ws : List (Loc × Byte)) : Device :=
  let ls := ws.map Prod.fst
  let lines := d.linesOf ls
  let d1 := lines.foldl (fun d n => d.touch true n) d
  let d2 := ls.foldl (fun d l => d.fillEntry true l) d1
  let d3 := (ws.foldl (fun d p => d.setByte p.1 p.2) d2).cured ls
  let d4 := lines.foldl (fun d n => d.unfill (entriesOf ls) n) d3
  if d4.monitors.isEmpty && d4.ham.front.isEmpty then d4 else (dedup (ls.map (fun l => lineKey (d4.settle l)))).foldl Device.wakeLine d4

/-- Store an n-byte value at its locations. -/
def Device.storeValue (d : Device) (ls : List Loc) (x : DWord) : Device :=
  d.storeAll (ls.zip (bytesOf ls.length x))

/-- The host gives back the lines that it caches of these locations (R414). -/
def Device.hostGives (d : Device) (ls : List Loc) : Device :=
  { d with fab := { d.fab with hostLines := d.fab.hostLines.filter (fun n => !(d.linesOf ls).contains n) } }
/-- A byte that no memory answers for (R416). -/
def Device.noMemory (d : Device) (l : Loc) : Bool := match d.settle l with | .mem pa => d.unmapped pa | _ => false
/-- A byte that cannot be delivered: no memory answers for it (R416), or an error in it cannot be corrected (R441). -/
def Device.lostByte (d : Device) (l : Loc) : Bool :=
  d.noMemory l || Fmap.get false d.poison (locKey (d.settle l))

/-- A line an engine owns and has not written yet (R231). -/
def Device.owned (d : Device) (line : Nat) : Bool :=
  d.copies.any (fun c => c.lines.contains line) ||
    d.cores.any (fun k => k.crest.any (fun x => x.ops.any (fun o => o.lines.contains line)))

/-- Lines taken owned, as for a write (R220, R231). -/
def Device.takeOwned (d : Device) (through : List Loc) (lines : List Nat) : Device :=
  lines.foldl (fun d n => d.unfill (entriesOf through) n) d

/-- A self-test of a unit holds accesses to a location: a line or a scratchpad byte of an L2 way, a byte of a DRAM frame, or a stash byte of
the core whose row it is (R442). The spec does not say which bytes a row holds (DESIGN CHOICE, assumption 88). -/
def Device.testHolds (d : Device) (u : Piece) (l : Loc) : Bool :=
  match u, l with
  | .coreRow die core _, .stash b _ => (d.block b).core == die * 32 + core
  | .l2way die slice way, .scratch k => k / 2 ^ 29 == die && k % 2 ^ 29 == slice / 16 * 2 ^ 24 + way * 2 ^ 20 + slice % 16 * 2 ^ 16 + k % 2 ^ 16
  | .l2way die slice way, l =>
    match d.settle l with
    | .mem pa => d.l2.any (fun x => x.line == pa / 128 && x.die == die && x.slice == slice && x.way == way)
    | _ => false
  | .dramFrame _ f, l => match d.settle l with | .mem pa => pa / 2 ^ 21 == f | _ => false
  | _, _ => false
/-- A self-test holds an access. -/
def Device.underTest (d : Device) (ls : List Loc) : Bool := d.ham.testing.any (fun t => ls.any (d.testHolds t.1))

/-- Some line of these locations is owned by an engine, or under test. -/
def Device.ownedLocs (d : Device) (ls : List Loc) : Bool := (d.linesOf ls).any d.owned || d.underTest ls

end Sys2Proof.Machine
end

