-- ==== Sys2Proof/Machine/View.lean ====
section
/-! DEFINITION. Registers as an agent sees them. A scalar thread is seen as a group of one slice and one lane, so that one
set of register operations serves every agent. -/

namespace Sys2Proof.Machine

/-- A slice at a packet with the lanes it starts with, and nothing else. -/
def Slice.fresh (pc : Word) (live : BitVec 4) : Slice where
  pc := pc
  ahead := []
  mask := live
  live := live
  fmt := 0
  lk := 0
  stack := []
  parted := false
  former := 0
  hold := .free
  laneCnt := 0
  grpCnt := 0
  regCnt := 0
  yieldCnt := 0
  qpos := []
  barPhase := []
  barCnt := []
  barLog := []
  pbarCnt := []

/-- A group with the reset values of R27, at an entry packet, with parameter pointer `param` in s0 (R12). -/
def Group.fresh (slot : Nat) (slices : List Slice) (param : DWord) : Group where
  slot := slot
  spawned := false
  exited := false
  v := []
  vBad := []
  sBad := []
  vEmpty := []
  s := Fmap.set 0 [] 0 param
  sEmpty := []
  p := []
  ckf := []
  flags := 0
  tids := []
  slices := slices
  queues := List.replicate 8 { base := 0, entries := [] }
  laneInsts := []
  grpInsts := []
  regInsts := []
  recCnt := 0
  region := some slices
  regionLanes := []
  pbarDone := []
  cause := 0
  epc := 0
  inHandler := false
  vec := 0
  priv := false
  handler := 0
  openCopies := []
  batches := []
  copySeq := 0
  openBad := false
  badBatches := []
  eflushes := 0
  yields := 0
  ordSeq := []
  pos := none
  since := 0
  stopped := false
  stepping := none
  rolledPc := []
  rrLast := none

/-- A thread seen as a group of one lane. -/
def Thread.toGroup (t : Thread) : Group :=
  { Group.fresh 0 [{ Slice.fresh t.pc (if t.exited then 0 else 1) with
      ahead := t.ahead, lk := t.lk, hold := t.hold }] 0 with
    s := t.s, sEmpty := t.sEmpty, sBad := t.sBad, flags := t.flags, cause := t.cause, epc := t.epc,
    inHandler := t.inHandler, vec := t.vec, priv := t.priv, exited := t.exited, stopped := t.stopped, region := none, regionLanes := [],
    p := (List.range 7).filterMap (fun i => if bitOf t.p i then some (i * 256, true) else none) }

/-- The thread that a one-lane group stands for. -/
def Group.toThread (g : Group) : Thread :=
  let sl : Slice := (g.slices[0]?).getD default
  { pc := sl.pc, ahead := sl.ahead, s := g.s, sEmpty := g.sEmpty, sBad := g.sBad,
    p := (List.range 7).foldl (fun acc i => if Fmap.get false g.p (i * 256) then acc ||| BitVec.ofNat 8 (2 ^ i) else acc) 0,
    lk := sl.lk, flags := g.flags, cause := g.cause, epc := g.epc, inHandler := g.inHandler, vec := g.vec, priv := g.priv,
    hold := sl.hold, stopped := g.stopped, exited := g.exited || (sl.live == 0) }

/-- The registers of an agent. -/
def Device.view (d : Device) : Agent → Group
  | .group b k => (d.block b).group k
  | .access b => (((d.block b).access).getD default).toGroup
  | .ridge b => (((d.block b).ridge).getD default).toGroup
  | .handler c => (match d.handlerOf c with | some h => h.2.2 | none => (default : Thread)).toGroup

/-- Put an agent's registers back. -/
def Device.putView (d : Device) (a : Agent) (g : Group) : Device :=
  match a with
  | .group b k => d.modGroup b k (fun _ => g)
  | .access b => d.modBlock b (fun x => { x with access := x.access.map (fun _ => g.toThread) })
  | .ridge b => d.modBlock b (fun x => { x with ridge := x.ridge.map (fun _ => g.toThread) })
  | .handler c =>
    { d with handlers := d.handlers.map (fun h => if h.1 == c then (h.1, h.2.1, g.toThread) else h) }

/-- Change an agent's registers. -/
def Device.modView (d : Device) (a : Agent) (f : Group → Group) : Device := d.putView a (f (d.view a))

/-- An agent with lanes (R40). -/
def Agent.isGroup : Agent → Bool
  | .group _ _ => true
  | _ => false

/-! Registers of a group. -/

def Group.vAt (g : Group) (r lane : Nat) : Word := Fmap.get 0 g.v (r * 256 + lane)
def Group.sAt (g : Group) (r : Nat) : DWord := Fmap.get 0 g.s r
/-- A predicate of a lane; p7 reads 1 (R27). -/
def Group.pAt (g : Group) (p lane : Nat) : Bool := p == 7 || Fmap.get false g.p (p * 256 + lane)
def Group.vIsEmpty (g : Group) (r slice : Nat) : Bool := Fmap.get false g.vEmpty (r * 64 + slice)
def Group.sIsEmpty (g : Group) (r : Nat) : Bool := Fmap.get false g.sEmpty r
def Group.ckfAt (g : Group) (lane : Nat) : Byte := Fmap.get 0 g.ckf lane
def Group.slice (g : Group) (i : Nat) : Slice := (g.slices[i]?).getD default

/-- Write v register words, keyed register*256 + lane; an error mark goes with the value it marked. -/
def Group.setV (g : Group) (ws : List (Nat × Word)) : Group :=
  { g with v := Fmap.setAll 0 g.v ws,
           vBad := if g.vBad.isEmpty then g.vBad else Fmap.setAll false g.vBad (ws.map (fun p => (p.1, false))) }
/-- Write an s register. -/
def Group.setS (g : Group) (r : Nat) (x : DWord) : Group :=
  { g with s := Fmap.set 0 g.s r x, sBad := if g.sBad.isEmpty then g.sBad else Fmap.set false g.sBad r false }
/-- Write predicate bits, keyed p*256 + lane; a write to p7 is discarded (R27). -/
def Group.setP (g : Group) (ws : List (Nat × Bool)) : Group :=
  { g with p := Fmap.setAll false g.p (ws.filter (fun p => p.1 < 7 * 256)) }
/-- Mark v registers of slices empty or full. -/
def Group.markV (g : Group) (e : Bool) (rs slices : List Nat) : Group :=
  { g with vEmpty := Fmap.setAll false g.vEmpty (rs.flatMap (fun r => slices.map (fun s => (r * 64 + s, e)))) }
/-- Mark s registers empty or full. -/
def Group.markS (g : Group) (e : Bool) (rs : List Nat) : Group :=
  { g with sEmpty := Fmap.setAll false g.sEmpty (rs.map (fun r => (r, e))) }

def Group.modSlice (g : Group) (i : Nat) (f : Slice → Slice) : Group := { g with slices := listModify f g.slices i }
/-- Change every slice of a list. -/
def Group.modSlices (g : Group) (is : List Nat) (f : Slice → Slice) : Group :=
  { g with slices := g.slices.mapIdx (fun i s => if is.contains i then f s else s) }

/-- The lanes of a slice's mask, in ascending order (R51). -/
def maskLanes (slice : Nat) (m : BitVec 4) : List Nat :=
  (List.range 4).filterMap (fun i => if bitOf m i then some (4 * slice + i) else none)
/-- The lanes of the current masks of slices (R51). -/
def Group.lanesOf (g : Group) (slices : List Nat) : List Nat :=
  slices.flatMap (fun i => maskLanes i (g.slice i).mask)
/-- A slice runs the handler of its group (R366). -/
def Group.handles (g : Group) (i : Nat) : Bool := g.inHandler && bitOf g.handler i
/-- The words of a slice's packet that have begun before it (assumption 77). -/
def Group.aheadOf (g : Group) (i : Nat) : List Nat :=
  (g.slice i).ahead.filterMap (fun q => if q.1 == g.handles i && q.2.1 == (g.slice i).pc then some q.2.2 else none)
/-- The live slices (R24). -/
def Group.liveSlices (g : Group) : List Nat :=
  (List.range g.slices.length).filter (fun i => (g.slice i).live != 0)

/-! Queues (R36, R230, R374). -/

/-- How far a slice has read queue q. -/
def Slice.qAt (s : Slice) (q : Nat) : Nat := Fmap.get 0 s.qpos q

/-- Entry number n of queue q, while the queue holds it. -/
def Group.qEntry (g : Group) (q n : Nat) : Option QEntry :=
  let x := (g.queues[q]?).getD default
  if n < x.base then none else x.entries[n - x.base]?

/-- A pop by a slice of the entry `k` beyond its position finds nothing to read (R230). -/
def Group.qIsEmpty (g : Group) (q slice k : Nat) : Bool :=
  match g.qEntry q ((g.slice slice).qAt q + k) with
  | none => true
  | some e => !e.filled

/-- The word of a lane in the entry `k` beyond its slice's position. -/
def Group.qWord (g : Group) (q lane k : Nat) : Word :=
  match g.qEntry q ((g.slice (lane / 4)).qAt q + k) with
  | none => 0
  | some e => Fmap.get 0 e.words lane

/-- Free the entries that every live slice has popped and that no open region retains (R36, R374). -/
def Group.freeQueues (g : Group) : Group :=
  if g.queues.all (fun q => q.entries.isEmpty) then g
  else
    let at' := fun (q i : Nat) =>
      match g.region with
      | none => (g.slice i).qAt q
      | some sl => min ((g.slice i).qAt q) (((sl[i]?).getD default).qAt q)
    { g with queues := g.queues.mapIdx (fun q x =>
        let low := g.liveSlices.foldl (fun m i => min m (at' q i)) (x.base + x.entries.length)
        { base := x.base + (low - x.base), entries := x.entries.drop (low - x.base) }) }

/-- Pop the named queues in these slices (R36). -/
def Group.pop (g : Group) (qs : List Nat) (slices : List Nat) : Group :=
  if qs.isEmpty then g
  else
    (g.modSlices slices (fun s => { s with qpos := qs.foldl (fun m q => Fmap.set 0 m q (Fmap.get 0 m q + 1)) s.qpos })).freeQueues

/-- End the open region (R342); the queue entries it retained are freed (R374). -/
def Group.endRegion (g : Group) : Group := ({ g with region := none } : Group).freeQueues

/-! The packet in issue. -/

/-- The agent's registers as the chain reads them (R55). -/
def Issue.view (x : Issue) : Group := x.rd.view x.agent
/-- gang_lanes (R51). -/
def Issue.gangLanes (x : Issue) : List Nat := x.view.lanesOf x.slices
/-- A lane passes the guard in force (R73). -/
def Issue.passes (x : Issue) (g : Group) (lane : Nat) : Bool :=
  match x.guard with
  | none => true
  | some u => g.pAt u.p.toNat lane != u.neg
/-- The lanes that perform the word (R73, R139). -/
def Issue.act (x : Issue) : List Nat := let g := x.view; (g.lanesOf x.slices).filter (x.passes g)
/-- The member slices in which some lane performs the word. -/
def Issue.actSlices (x : Issue) : List Nat := let l := x.act; x.slices.filter (fun s => l.any (fun i => i / 4 == s))
/-- lowest(gang_lanes(G)), the lane that stands for the gang in a uniform word (R140). -/
def Issue.lead (x : Issue) : Nat := (x.gangLanes.head?).getD 0

end Sys2Proof.Machine
end

