-- ==== Sys2Proof/Machine/Message.lean ====
section
/-! DEFINITION. The maintenance log and what is put under test (R411, R442), and messages to other devices (R421, R422): runs of bytes that lie on one device, requests and the operations that
await their answers, and stores wherever their bytes lie. -/

namespace Sys2Proof.Machine

/-- An entry of the maintenance log, at this cycle (R411). -/
def Device.logEntry (d : Device) (kind die : Nat) (unit detail : DWord) : Device :=
  { d with ham := { d.ham with
      log := d.ham.log ++ [{ cycles := d.now, kind := kind, die := die, unit := unit, detail := detail }] } }

/-- The die and the unit number of a piece in the maintenance log (R411). -/
def piecePlace : Piece → Nat × Nat
  | .core d k => (d, k)
  | .l2way d s w => (d, s * 16 + w)
  | .dramFrame d f => (d, f * 2 ^ 21)
  | .lane p l => (0, p * 8 + l)
  | .coreRow d k _ => (d, k)

/-- A log entry about a piece. -/
def Device.logPiece (d : Device) (kind : Nat) (u : Piece) : Device :=
  d.logEntry kind (piecePlace u).1 (BitVec.ofNat 64 (piecePlace u).2) 0

/-- An uncorrected error in data delivered to an agent: it is logged, and its unit goes under test (R368, R442). -/
def Device.errorMet (d : Device) (u : Piece) : Device :=
  let d1 := d.logPiece 2 u
  if d1.ham.testing.any (fun t => t.1 == u) then d1 else { d1 with ham := { d1.ham with testing := d1.ham.testing ++ [(u, false)] } }

/-- Runs of bytes of one line of a device: the device, its offset, the position in the access and the count. -/
def remoteRuns : List Loc → Nat → List (BitVec 12 × Nat × Nat × Nat)
  | [], _ => []
  | .remote n off :: rest, i =>
    match remoteRuns rest (i + 1) with
    | (m, off', p, c) :: more => if m == n && off' == off + 1 && off' % 128 != 0 && p == i + 1 then (n, off, i, c + 1) :: more else (n, off, i, 1) :: (m, off', p, c) :: more
    | [] => [(n, off, i, 1)]
  | _ :: rest, i => remoteRuns rest (i + 1)

/-- Reaches another device. -/
def isRemote : Loc → Bool
  | .remote _ _ => true
  | _ => false

/-- Send a message, counted as a request of its launch when `counted` (R421, R322). The ports of a device that no configuration lists stay
down, and nothing leaves it (R419). -/
def Device.send (d : Device) (c : Nat) (counted : Bool) (m : OutMsg) : Device :=
  let d := if counted then d.modCtx c (fun x => { x with sent := x.sent + 1 }) else d
  if d.ham.listed then { d with fab := { d.fab with outbox := d.fab.outbox ++ [{ m with counted := counted }] } } else d

/-- A message of a class, with nothing in it. -/
def OutMsg.empty (dst : BitVec 12) (cls : BitVec 4) : OutMsg :=
  { dst := dst, cls := cls, tag := 0, addr := 0, size := 0, op := 0, data := 0, aux := 0, bytes := [], cells := [], counted := false }

/-- A request with the fields that a plain access has. -/
def plainOp (a : Option Agent) (c : Nat) (dev : BitVec 12) (kind : BitVec 4) (addr cnt : Nat) : RemoteOp :=
  { agent := a, ctx := c, dev := dev, kind := kind, tag := 0, addr := addr, cnt := cnt, use := .done, parts := [], reg := 0,
    size := 0, acq := false, acc := 0, left := [], failed := false }

/-- The message of a request. -/
def RemoteOp.msg (op : RemoteOp) (dst : BitVec 12) : OutMsg :=
  { OutMsg.empty dst op.kind with addr := op.addr, size := op.cnt }

/-- A request that an agent of the launch sends, or a unit on its behalf: `drain` counts those, and neither wakes nor what the distributor and the
Hamada cores send (R322). -/
def RemoteOp.counts (op : RemoteOp) : Bool :=
  match op.use with
  | .dep | .wake | .firm => false
  | .fetch _ => op.agent.isSome
  | _ => true

/-- Send a request whose answer is awaited, under a tag of its own. A reduction load asks every replica (R424). -/
def Device.request (d : Device) (op : RemoteOp) (m : OutMsg) : Device :=
  let n := d.fab.tags + 1
  let t := BitVec.ofNat 20 n
  let d1 := (if op.left.isEmpty then [op.dev] else op.left).foldl (fun d k => d.send op.ctx op.counts { m with dst := k, tag := t }) d
  { d1 with fab := { d1.fab with tags := n, remotes := d1.fab.remotes ++ [{ op with tag := t }] } }

/-- Ask for the bytes of a load. -/
def Device.ask (d : Device) (op : RemoteOp) : Device := d.request op (op.msg op.dev)

/-- The devices of a launch's replication set other than this one (R425). -/
def Device.replicas (d : Device) (c : Nat) : List (BitVec 12) :=
  let m := (d.ctx c).packet.replicate
  let base := d.ham.devNum.toNat / 64 * 64
  ((List.range 64).filter (fun i => bitOf m i && base + i != d.ham.devNum.toNat)).map (fun i => BitVec.ofNat 12 (base + i))

/-- The bytes of a run beside their places after its first, and its request: a store is one message a run (R422). -/
def Device.storeRun (d : Device) (use : RemoteUse) (a : Option Agent) (c : Nat) (lane : Option Nat) (dev : BitVec 12) (off : Nat)
    (bs : List Byte) : Device :=
  let op := { plainOp a c dev 2 off bs.length with
    use := use, parts := [{ lane := lane, pos := 0, off := 0, cnt := bs.length }] }
  d.request op { op.msg dev with cells := bs.mapIdx (fun i x => (i, x)) }

/-- Store the bytes that lie on other devices (R422). -/
def Device.storeRemote (d : Device) (use : RemoteUse) (a : Option Agent) (c : Nat) (lane : Option Nat) (ls : List Loc)
    (bs : List Byte) : Device :=
  (remoteRuns ls 0).foldl (fun d r => d.storeRun use a c lane r.1 r.2.1 ((bs.drop r.2.2.1).take r.2.2.2)) d

/-- The launch's next `drain` meets an access that failed (R423). -/
def Device.noteFailed (d : Device) (c : Nat) : Device := d.modCtx c (fun x => { x with failedMsg := true })

/-- The lane whose link an access to the CXL tier, or to another device, goes through; R368 and R442 name no unit for an error that no
memory has made (DESIGN CHOICE, assumption 81). -/
def cxlLane : Piece := .lane 24 0
def Device.heotteLane (d : Device) (dev : BitVec 12) : Piece :=
  .lane ((((d.ham.ports.find? (fun p => p.2.1 == dev)).or d.ham.ports.head?).map (fun p => p.1)).getD 0) 0

/-- An access for a context meets bytes that no memory answers for: it completes with an uncorrected error (R416, R423). -/
def Device.meetLost (d : Device) (c : Nat) (ls : List Loc) : Device :=
  if ls.any d.noMemory then (d.noteFailed c).errorMet cxlLane else d

/-- A store of the distributor or a Hamada core is performed: a back-invalidate snoop of a line that the host caches, with its response, is
part of the same step (R414; DESIGN CHOICE, assumption 76). -/
def Device.firmNow (d : Device) (ws : List (Loc × Byte)) : Device :=
  let ls := ws.map Prod.fst
  let d1 := (d.hostGives ls).storeAll ws
  if ls.any d1.noMemory then d1.errorMet cxlLane else d1
/-- Those of a list whose lines no engine owns, from its first on; the rest wait (R231, R289). -/
def Device.firmFlush : Device → List (List (Loc × Byte)) → Device
  | d, [] => { d with ham := { d.ham with stores := [] } }
  | d, ws :: rest =>
    if d.ownedLocs (ws.map Prod.fst) then { d with ham := { d.ham with stores := ws :: rest } } else (d.firmNow ws).firmFlush rest
/-- Stores of the distributor and the Hamada cores, in order behind those that wait (DESIGN CHOICE, assumption 82). -/
def Device.firmStore (d : Device) (ws : List (Loc × Byte)) : Device := d.firmFlush (d.ham.stores ++ [ws])

/-- Store bytes at locations of this device and of others, for a context (R422). -/
def Device.putBytesFor (d : Device) (use : RemoteUse) (a : Option Agent) (c : Nat) (ls : List Loc) (bs : List Byte) : Device :=
  let d1 := (d.storeAll (ls.zip bs)).meetLost c ls
  if ls.any isRemote then d1.storeRemote use a c none ls bs else d1
/-- The same, for nothing but the stores. -/
def Device.putBytes (d : Device) (a : Option Agent) (c : Nat) (ls : List Loc) (bs : List Byte) : Device := d.putBytesFor .done a c ls bs

end Sys2Proof.Machine
end

