-- ==== Sys2Proof/Machine/Legal.lean ====
section
/-! DEFINITION. Which field values an instruction's own words may hold. `Instr.rowOk` is the table's fixed bits of the
row; `Instr.legal` is what the entry of the instruction allows beside them. A word that fails either raises ILLEGAL
(R59, R75). -/

namespace Sys2Proof

/-- The integer types bfx, bfi, cmp and the lane moves allow: i32, n32, i64, n64 (R141). -/
def scalarT (t : BitVec 3) : Bool := t == 0 || t == 1 || t == 6 || t == 7
/-- The signed integer types (R61). -/
def signedT (t : BitVec 3) : Bool := bitOf t 0 == false
/-- A 64-bit integer type (R61). -/
def wideT (t : BitVec 3) : Bool := t == 6 || t == 7
/-- f32, f16x2 or bf16x2 rounded as `fmt` selects (R61). -/
def baseFloatT (t : BitVec 3) : Bool := t == 0 || t == 1 || t == 2
/-- Any float type (R61). -/
def floatT (t : BitVec 3) : Bool := t.toNat ≤ 5

/-- The payload bits that must be zero for an integer-typed immediate (R62). -/
def intImmOk (t : BitVec 3) (x : Payload) : Bool :=
  if t == 2 || t == 3 then bitsOf x 16 8 == 0 else if t == 4 || t == 5 then bitsOf x 8 16 == 0 else true
/-- The payload bits that must be zero for a float-typed immediate (R62). -/
def floatImmOk (t : BitVec 3) (x : Payload) : Bool := if t == 1 || t == 2 then bitsOf x 16 8 == 0 else true

/-- With an `ext` the b field and Eb must be 0 (R58), and the payload must suit the type (R62). -/
def AWord.immOk (w : AWord) (ok : Payload → Bool) : Bool :=
  match w.ext with | none => true | some x => w.b == 0 && !w.eb && ok x

/-- No immediate (opcodes marked "never", R71). -/
def AWord.noExt (w : AWord) : Bool := w.ext.isNone
/-- A unary word: b and Eb zero and no immediate (R141). -/
def AWord.unary (w : AWord) : Bool := w.b == 0 && !w.eb && w.ext.isNone

/-- The width code of a segment word, b [11:9] (R270). -/
abbrev AWord.width (w : AWord) : BitVec 3 := bitsOf w.b 3 3
/-- b [8:6] of a lane word: its operation. -/
abbrev AWord.laneOp (w : AWord) : BitVec 3 := bitsOf w.b 0 3
/-- The destination predicate of the cmp layout (R60). -/
abbrev AWord.pDst (w : AWord) : BitVec 3 := bitsOf w.d 3 3
/-- The condition of the cmp layout (R60). -/
abbrev AWord.cnd (w : AWord) : BitVec 3 := bitsOf w.d 0 3
/-- `cvt`: the destination class (R156). -/
abbrev AWord.cvtDst (w : AWord) : BitVec 3 := bitsOf w.b 3 3
/-- `cvt`: the source class (R156). -/
abbrev AWord.cvtSrc (w : AWord) : BitVec 3 := bitsOf w.b 0 3
/-- `cvt`: the rounding mode field (R156). -/
abbrev AWord.cvtMode (w : AWord) : BitVec 2 := bitsOf w.t 1 2
/-- `cvt`: the unsigned bit (R156). -/
abbrev AWord.cvtUns (w : AWord) : Bool := bitOf w.t 0

/-- Where the s register of `bri` and `brs` is named (R63). -/
abbrev BWord.sReg (w : BWord) : RegNo := bitsOf w.off 12 6
/-- The code of `bkpt` and `trapi` (R332). -/
abbrev BWord.code (w : BWord) : BitVec 16 := bitsOf w.off 0 16
/-- p and negate are zero when the word is unconditional (R63). -/
def BWord.condOk (w : BWord) : Bool := w.cond || (w.p == 0 && !w.neg)
/-- A word that uses no field (R332). -/
def BWord.bare (w : BWord) : Bool := !w.cond && w.p == 0 && !w.neg

/-- Scope `rmt` (R64). -/
abbrev scopeRmt : BitVec 3 := 7
/-- A scope grp to sys (R64). -/
def MWord.plainScope (w : MWord) : Bool := w.scope.toNat ≤ 5
/-- The hint field holds a value (R64). -/
def MWord.hintOk (w : MWord) : Bool := w.hint != 3
/-- A payload whose fields beside size, scope and order are zero. -/
def MWord.zeroTail (w : MWord) : Bool := w.hint == 0 && !w.ea && !w.u && w.off == 0

/-- The fields of a Q payload (R67, R112). -/
abbrev QWord.aSlot (w : QWord) : BitVec 4 := bitsOf w.pay 20 4
abbrev QWord.aBase (w : QWord) : RegNo := bitsOf w.pay 14 6
abbrev QWord.bSlot (w : QWord) : BitVec 4 := bitsOf w.pay 10 4
abbrev QWord.bBase (w : QWord) : RegNo := bitsOf w.pay 4 6
abbrev QWord.bar (w : QWord) : BitVec 4 := bitsOf w.pay 0 4
/-- The s register in payload [23:18]. -/
abbrev QWord.sA (w : QWord) : RegNo := bitsOf w.pay 18 6
/-- The s register in payload [17:12]. -/
abbrev QWord.sB (w : QWord) : RegNo := bitsOf w.pay 12 6
/-- The column origin / 16 of a register drain, payload [13:8] (R112). -/
abbrev QWord.col (w : QWord) : BitVec 6 := bitsOf w.pay 8 6
/-- M of the shape (R94). -/
def QWord.rows (w : QWord) : Nat := 16 * 2 ^ w.m2.toNat
/-- N of the shape (R94). -/
def QWord.cols (w : QWord) : Nat := 16 * (w.n6.toNat + 1)

/-- The table's fixed bits of each row, as conditions on the fields (spec/opcode_table.json). Opcode, sub-op and func
bits that select the row are the decoder's. -/
def rowOk : Instr → Bool
  | .nop _ => true
  | .guard _ => true
  | .ext _ _ => true
  | .br _ => true
  | .brs w => w.cond && bitOf w.off 18 == false && bitsOf w.off 0 12 == 0
  | .bri w => bitOf w.off 18 == false && bitsOf w.off 0 12 == 0
  | .call _ => true
  | .ret w => w.off == 0
  | .join w => w.bare && w.off == 0
  | .regang w => w.bare && bitsOf w.off 1 18 == 0
  | .exit w => w.off == 0
  | .yield w => w.bare && w.off == 0
  | .region w => w.bare && w.off == 0
  | .bkpt w => w.bare && bitsOf w.off 16 3 == 0
  | .trapi w => bitsOf w.off 16 3 == 0
  | .add _ | .sub _ | .mul _ | .mulhi _ | .mad _ | .min _ | .max _ => true
  | .abs w | .neg w | .not w | .popc w | .clz w | .ctz w => w.unary
  | .and _ | .or _ | .xor _ | .shl _ | .shr _ | .sra _ | .rot _ | .bfx _ | .bfi _ | .cmp _ | .sel _ => true
  | .fadd _ | .fsub _ | .fmul _ | .fma _ | .fmin _ | .fmax _ | .fscale _ | .fdot2 _ | .fpack _ => true
  | .fneg w | .fabs w | .fclass w | .frnd w | .funpk w => w.unary
  | .fcmp w => w.t == 0
  | .frcp w | .frsq w | .fsqrt w | .fexp2 w | .flog2 w => w.unary && w.t == 0 && !w.u
  | .cvt w => !w.eb && w.noExt
  | .cvtbfp w => bitsOf w.b 1 5 == 0 && !w.eb && !w.u && w.noExt
  | .fmtset w => w.d == 0 && w.b == 0 && w.t == 0 && !w.ea && !w.eb
  | .fmtget w => w.a == 0 && w.b == 0 && w.t == 0 && !w.ea && !w.eb && w.noExt
  | .mov w => bitsOf w.b 1 5 == 0 && !w.eb && w.noExt
  | .movi w => w.ext.isSome && bitsOf w.a 1 5 == 0 && w.b == 0 && !w.ea && !w.eb
  | .lmov w | .bcast w => !w.u
  | .vred w => w.t == 0 && !w.eb && !w.u && w.noExt
  | .vscan w => !w.eb && !w.u && w.noExt
  | .vote w => w.t == 0 && !w.ea && !w.eb && !w.u && w.noExt
  | .sample w => !w.u && w.noExt
  | .getsv w => w.b == 0 && w.t == 0 && !w.ea && !w.eb && w.noExt
  | .ld w | .st w | .ldc w | .ldl w | .stl w | .stmap w => w.func == 0
  | .cp w => bitsOf w.func 1 5 == 0
  | .cpclose w | .stunmap w | .stfl w => w.base == 0 && w.index == 0 && w.func == 0
  | .cpwait w => w.d == 0 && w.base == 0 && w.func == 0
  | .qld w => bitsOf w.d 3 3 == 0 && bitsOf w.func 4 2 == 0
  | .pref w => w.d == 0 && bitsOf w.func 2 4 == 0
  | .kvx w => bitsOf w.func 3 3 == 0
  | .atom w => bitOf w.func 5 == false
  | .atomOrdAdd w => w.func == 0x20
  | .red w => bitOf w.func 5 == false
  | .redOrd w => bitOf w.func 5 && bitOf w.func 4 == false && bitsOf w.func 0 3 == 0
  | .append w => w.func == 0
  | .appendDecl w => w.d == 0 && w.func == 1
  | .eflush w => w.d == 0 && w.base == 0 && w.index == 0 && bitsOf w.func 1 5 == 0
  | .fence w => w.d == 0 && w.base == 0 && w.index == 0 && w.func == 0
  | .barSync w => w.base == 0 && w.func == 0
  | .barArrive w => w.base == 0 && w.func == 1
  | .barWait w => w.base == 0 && w.index == 0 && w.func == 2
  | .pbarArrive w => w.index == 0 && w.func == 0
  | .pbarWait w => w.index == 0 && bitsOf w.func 1 5 == 1
  | .monwait w => bitsOf w.func 1 5 == 0
  | .monwake w => w.d == 0 && w.func == 0
  | .drain w => w.base == 0 && w.index == 0 && w.func == 0
  | .bcmp w | .bfind w | .hcrc w => !w.u
  | .bperm w | .acstep w => w.t == 0 && !w.u
  | .hmix w => w.b == 0 && w.t == 0 && !w.eb && w.noExt
  | .ckpack w | .ckunpk w => w.b == 0 && w.func == 0
  | .ckadd w | .cksub w | .ckbox w | .cknext w | .ckprev w | .cklvl w => w.func == 0
  | .ckcmp w => bitsOf w.d 3 3 == 0 && w.func == 0
  | .cksplit w => w.a == 0 && w.func == 0
  | .wkset w | .wkstat w => w.d == 0 && bitsOf w.func 2 4 == 0
  | .wksetImg w | .wkstatImg w => bitsOf w.func 2 4 == 1
  | .wkadd w => bitsOf w.func 2 4 == 0
  | .wknext w => w.base == 0 && bitOf w.func 2 == false
  | .wkdone w => w.base == 0 && w.index == 0 && bitsOf w.func 2 4 == 0
  | .wkres w => w.func == 0
  | .wkmap w => w.base == 0 && bitsOf w.func 2 4 == 0
  | .minit w => w.n6 == 0 && w.m2 == 0 && w.fmt == 0
  | .mtile w => w.fmt == 0 && w.low == 0
  | .mma w => w.low == 0
  | .crmm w => bitsOf w.low 1 4 == 0
  | .mwait w => w.n6 == 0 && w.m2 == 0 && w.fmt == 0 && w.low == 0
  | .mdrain w => w.fmt == 0 && bitsOf w.low 2 3 == 0
  | .mload w => w.n6 == 0 && w.m2 == 0 && w.fmt == 0 && bitsOf w.low 2 3 == 0 && bitOf w.low 0 == false
  | .crdrain w => w.n6 == 0 && w.fmt == 0 && bitsOf w.low 1 4 == 0
  | .crload w => w.n6 == 0 && w.fmt == 0 && bitsOf w.low 2 3 == 0 && bitOf w.low 0 == false
  | .crmerge w => w.n6 == 0 && w.fmt == 0 && w.low == 0
  | .crstat w => w.n6 == 0 && w.m2 == 0 && w.fmt == 0 && w.low == 0
  | .csrr _ => true
  | .csrw w => w.d == 0
  | .csrwWaypart w => w.imm == 0
  | .tret w | .halt w => w.d == 0 && w.a == 0 && w.imm == 0
  | .tlbinv w => w.d == 0 && bitsOf w.imm 1 7 == 0
  | .cacheopAlloc w => w.imm == 0
  | .cacheopWb w => w.imm == 1
  | .cacheopInv w => w.imm == 2
  | .cacheopWbinv w => w.imm == 3
  | .cacheopWbWay w => w.imm == 4
  | .cacheopInvWay w => w.imm == 5
  | .cacheopWbinvWay w => w.imm == 6
  | .launch w => w.d == 0 && w.imm == 0
  | .idle w => w.d == 0 && w.a == 0
  | .mfreeze w | .mthaw w => w.d == 0 && w.a == 0 && bitsOf w.imm 0 5 == 0
  | .registerFill .. | .queueEntryFill .. | .faultResolved .. | .faultRefused .. | .swap .. | .swapTransferDone .. => true
  | .admission .. | .dependencyMet .. | .blockPlacement .. | .yelmFormerPlace .. | .formtoFlush .. => true
  | .crestReadsComplete .. | .crestTile .. | .crestComplete .. | .drainTakesEffect .. | .freezeStop .. => true
  | .walkerWaitEnd .. | .prefetchComplete .. | .pointForcedByTime .. | .copyComplete .. | .monitorWake .. => true
  | .monwaitPollTimeout .. | .idleTimeout .. | .flush .. | .turn .. | .launchComplete .. | .sliceExpiry .. => true
  | .pdrainExpiry .. | .coreImageDone .. | .psaveExpiry .. | .maintAdmit .. | .maintReadLog .. | .maintFenceMap .. => true
  | .mgmtSetCap .. | .mgmtReadPower .. | .mgmtPreempt .. | .mgmtRestore .. | .debugAttach .. | .debugDetach .. => true
  | .debugStopRequest .. | .debugStep .. | .debugResume .. | .debugRead .. | .debugWrite .. | .debugCoreStop .. => true
  | .frontRequest .. | .attestationRequest .. | .powerGood .. | .errorDetected .. | .selfTestDone .. | .powerOverCap => true
  | .junction100c .. | .junction110c .. | .dram85c .. | .dramBelow80c .. | .remoteLoadRequest .. | .loadReply .. => true
  | .remoteStore .. | .storeAcknowledgement .. | .remoteAtomic .. | .atomicReply .. | .copyData .. | .startBarrier .. => true
  | .reductionLoadRequest .. | .reductionReply .. | .drainSweep .. | .launchPacketReplication .. | .linkControl .. => true
  | .reservedFlit .. | .messageFailure .. | .replicationTimeout .. | .hostDeviceAccess .. | .backInvalidateResponse .. => true
  | .hostSnoop .. | .pageMigration .. | .memoryFormComplete .. | .neighbourLinkTraining .. => true
  | .serviceBlockAddressWrite .. | .powerOff => true

/-- An integer word with types `ts` and an optional immediate (R141, R62). -/
def intOk (ts : BitVec 3 → Bool) (w : AWord) : Bool := ts w.t && w.immOk (intImmOk w.t)
/-- A float word with types `ts` and an optional immediate (R147, R62). -/
def fltOk (ts : BitVec 3 → Bool) (w : AWord) : Bool := ts w.t && w.immOk (floatImmOk w.t)
/-- A word whose immediate has no type (R62). -/
def plainOk (w : AWord) : Bool := w.immOk (fun _ => true)

/-- Payload values `ld`, `st` and `ldc` accept (R165). -/
def ldOk (w : MWord) : Bool :=
  w.size.toNat ≤ 5 && w.hintOk && w.order.toNat ≤ 1 && (w.plainScope || (w.scope == scopeRmt && w.order == 1))
def stOk (w : MWord) : Bool := w.size.toNat ≤ 3 && w.plainScope && w.hintOk && (w.order == 0 || w.order == 2)
def ldcOk (w : MWord) : Bool := w.size.toNat ≤ 5 && w.scope == 0 && w.order == 0 && w.hint == 0

/-- b32 or b64 (R302). -/
def atomSize (w : MWord) : Bool := w.size == 2 || w.size == 3
/-- The op, signed bit and size of `atom` and `red` agree (R304). -/
def atomOpOk (isAtom : Bool) (w : MWord) : Bool :=
  let op := (bitsOf w.func 0 4).toNat
  decide (op ≤ 10) && (isAtom || (op != 6 && op != 7)) && (bitOf w.func 4 == false || op == 4 || op == 5) &&
    (op < 8 || w.size == 2)

/-- Scope, order and hint grp, rlx and none (R233, R205). -/
def MWord.grpRlx (w : MWord) : Bool := w.scope == 0 && w.order == 0 && w.hint == 0
/-- Scope dev and order rlx, hint none (R302). -/
def MWord.devRlx (w : MWord) : Bool := w.scope == 4 && w.order == 0 && w.hint == 0

/-- The M payload of a word that names no memory operand beside its s registers. -/
def wkAddr (w : MWord) : Bool := w.size == 3 && w.u && w.grpRlx
/-- A walker word whose payload is zero (R205). -/
def zeroPay (w : MWord) : Bool := w.size == 0 && w.scope == 0 && w.order == 0 && w.zeroTail

/-- Sub-op fields of a named barrier (R135): scope blk for ids 0 to 23, clu for 24 to 31. -/
def barOk (w : MWord) (order : BitVec 2) : Bool :=
  w.d.toNat < 32 && w.size == 0 && w.scope == (if w.d.toNat < 24 then 1 else 2) &&
    (w.order == order || w.order == 0) && w.hint == 0 && !w.ea && w.off == 0 && (w.u || w.index == 0)

/-- A `pbar` word (R133). -/
def pbarOk (w : MWord) (order : BitVec 2) : Bool :=
  w.d.toNat < 16 && w.size == 0 && (w.scope == 1 || w.scope == 2) && (w.order == order || w.order == 0) && w.zeroTail &&
    (w.scope == 2 || w.base == 0)

/-- A memory form's payload: an s register, then zero down to the barrier (R112). -/
def memPay (w : QWord) : Bool := bitsOf w.pay 4 14 == 0
/-- A payload that names one s register and nothing else. -/
def loadPay (w : QWord) : Bool := bitsOf w.pay 0 18 == 0
/-- A v register base (R67). -/
def baseOk (r : RegNo) : Bool := r.toNat < 56
/-- An element format code (R69). -/
def fmtOk (w : QWord) : Bool := w.fmt.toNat ≤ 10

/-- What an instruction's entry allows in its fields beside the row's fixed bits. -/
def legal : Instr → Bool
  | .guard _ => true
  | .br w | .bri w | .call w | .ret w | .exit w | .trapi w => w.condOk
  | .add w | .sub w | .mul w | .mulhi w | .mad w | .min w | .max w => intOk (fun _ => true) w
  | .and w | .or w | .xor w | .shl w | .shr w | .sra w | .rot w => intOk (fun _ => true) w
  | .abs w => signedT w.t
  | .neg _ | .not _ | .popc _ | .clz _ | .ctz _ => true
  | .bfx w | .bfi w => intOk scalarT w
  | .cmp w => intOk scalarT w && w.cnd.toNat ≤ 5
  | .sel w => plainOk w
  | .fadd w | .fsub w | .fmul w | .fma w => fltOk floatT w
  | .fmin w | .fmax w => fltOk baseFloatT w
  | .fneg w | .fabs w | .fclass w => baseFloatT w.t
  | .fcmp w => plainOk w && w.cnd != 7
  | .fscale w => floatT w.t && w.immOk (fun x => if w.t == 1 || w.t == 2 then bitsOf x 16 8 == 0 else true)
  | .frnd w => floatT w.t
  | .fdot2 w => (w.t == 1 || w.t == 2) && w.immOk (floatImmOk w.t)
  | .fpack w => (w.t == 1 || w.t == 2) && plainOk w
  | .funpk w => w.t == 1 || w.t == 2
  | .cvt w => w.cvtDst != 7 && w.cvtSrc != 7 && w.cvtDst != w.cvtSrc &&
      (!w.cvtUns || 5 ≤ w.cvtDst.toNat || 5 ≤ w.cvtSrc.toNat)
  | .cvtbfp w => w.t != 7
  | .fmtset w => (w.u && w.noExt) || (!w.u && w.ext.isSome && w.a == 0)
  | .mov w => w.b == 0 || !w.u
  | .movi w => (w.a == 0 && w.immOk (intImmOk w.t)) || (w.a == 1 && baseFloatT w.t && w.immOk (floatImmOk w.t))
  | .lmov w => scalarT w.t && plainOk w
  | .bcast w => scalarT w.t && plainOk w
  | .vred w => w.width != 7 && w.laneOp.toNat ≤ 4 && baseOk w.a
  | .vscan w => w.width != 7 && bitsOf w.b 0 2 != 3 && (w.t == 0 || w.t == 1)
  | .vote w => w.a.toNat < 8 && w.width != 7 && w.laneOp.toNat ≤ 3
  | .getsv w => w.a.toNat ≤ 12
  | .bcmp w => w.t.toNat ≤ 3 && plainOk w
  | .bfind w => w.t.toNat ≤ 2 && plainOk w
  | .bperm w => plainOk w
  | .hcrc w => w.t.toNat ≤ 3 && plainOk w
  | .acstep w => plainOk w
  | .ld w => ldOk w
  | .st w => stOk w
  | .ldc w => ldcOk w
  | .ldl w => w.size == 6 && !w.u && w.hintOk && w.order.toNat ≤ 1 &&
      (w.plainScope || (w.scope == scopeRmt && w.order == 1))
  | .stl w => w.size == 6 && !w.u && w.hintOk && w.plainScope && (w.order == 0 || w.order == 2)
  | .cp w => w.size == 0 && w.scope == 0 && w.order == 0 && w.hintOk && w.u && w.d.toNat ≤ 61
  | .cpclose w => w.size == 3 && w.grpRlx && w.u && !w.ea && w.off == 0
  | .cpwait w => w.size == 3 && w.scope == 1 && w.order == 1 && w.hint == 0 && w.u && w.off == 0
  | .qld w => (w.size.toNat ≤ 2 || w.size == 4 || w.size == 5) && w.plainScope && w.order.toNat ≤ 1 && w.hintOk && w.u
  | .stmap w => w.size == 6 && w.grpRlx && w.u
  | .stunmap w | .stfl w => w.size == 3 && w.plainScope && (w.order == 0 || w.order == 2) && w.hint == 0 && w.u && w.off == 0
  | .pref w => w.size == 6 && w.scope == 0 && w.order == 0 && w.hintOk
  | .kvx w => w.size == 3 && w.grpRlx && bitsOf w.func 0 3 != 7
  | .atom w => atomSize w && w.hint == 0 && atomOpOk true w &&
      (w.plainScope || (w.scope == scopeRmt && (w.order == 1 || w.order == 3))) &&
      (!w.u || bitsOf w.func 0 4 != 7 || w.d != 63)
  | .atomOrdAdd w => atomSize w && w.devRlx && !w.u
  | .red w => atomSize w && w.hint == 0 && atomOpOk false w && w.plainScope
  | .redOrd w => atomSize w && w.devRlx && !w.u && (bitOf w.func 3 == false || w.size == 2)
  | .append w | .appendDecl w => w.size == 2 && w.devRlx && !w.u
  | .eflush w => w.size == 3 && w.scope == 4 && w.order == (if bitOf w.func 0 then 1 else 2) && w.zeroTail
  | .fence w => w.size == 0 && w.plainScope && w.order != 0 && w.zeroTail
  | .barSync w => barOk w 3
  | .barArrive w => barOk w 2
  | .barWait w => barOk w 1 && !w.u
  | .pbarArrive w => pbarOk w 2
  | .pbarWait w => pbarOk w 1
  | .monwait w => atomSize w && w.hint == 0 && w.plainScope && w.order.toNat ≤ 1 && w.u
  | .monwake w => w.size == 6 && w.hint == 0 && w.plainScope && (w.order == 0 || w.order == 2) && w.u
  | .drain w => w.size == 3 && w.scope == 5 && w.order == 3 && w.hint == 0 && w.u && !w.ea && w.off == 0
  | .ckpack w | .ckunpk w | .ckbox w | .cklvl w => w.op == 0
  | .ckadd w | .cksub w => bitsOf w.op 1 15 == 0
  | .ckcmp w => bitsOf w.op 3 13 == 0 && (bitsOf w.op 0 3).toNat ≤ 5
  | .cknext w | .ckprev w => bitsOf w.op 4 12 == 0
  | .cksplit w => 4 ≤ w.op.toNat
  | .wkset w | .wkadd w | .wkstat w | .wksetImg w | .wkstatImg w => wkAddr w
  | .wknext w => zeroPay w && bitsOf w.func 3 3 != 7
  | .wkdone w | .wkmap w => zeroPay w
  | .wkres w => w.size == 6 && w.grpRlx
  | .minit w => (bitOf w.low 4 || (w.low == 0 && w.pay == 0)) && loadPay w
  | .mtile w => w.m2 != 3 && bitsOf w.pay 0 12 == 0
  | .mma w | .crmm w => w.m2 != 3 && fmtOk w && baseOk w.aBase && baseOk w.bBase
  | .mwait w => w.pay == 0
  | .mdrain w =>
      if bitOf w.low 0 then w.n6 == 0 && w.m2 == 0 && memPay w
      else bitOf w.low 1 == false && w.m2 != 3 && baseOk w.aBase && bitsOf w.pay 4 4 == 0
  | .mload w => loadPay w
  | .crdrain w => w.m2 != 3 && (if bitOf w.low 0 then memPay w else baseOk w.aBase && bitsOf w.pay 4 10 == 0)
  | .crload w => loadPay w && (if bitOf w.low 1 then w.m2 == 0 else w.m2 != 3)
  | .crmerge w => w.m2 != 3 && loadPay w
  | .crstat w => memPay w
  | .csrr w => w.imm.toNat ≤ 12 && (w.imm == 0 || w.a == 0)
  | .csrw w => 1 ≤ w.imm.toNat && w.imm.toNat ≤ 12
  | .tlbinv w => bitOf w.imm 0 || w.a == 0
  | _ => true

end Sys2Proof
end

