-- ==== Sys2Proof/Machine/Operands.lean ====
section
/-! DEFINITION. The operands of every instruction: which registers a word names as sources and destinations, with what
empty action, on which pipe, in which roles (R28, R54, R59, R65, R66, R70, R130, R242), and the values of A-format and
M-format operands (R62, R138, R166). -/

namespace Sys2Proof

open Machine

/-- The pipes (R54). -/
inductive Pipe where
  | none | b | v | x | m | s
  deriving DecidableEq, Repr, Inhabited

/-- The registers a word names. v sources are in pop order, 56 to 63 naming queues; the Bool is the empty action, true for
trap (R32). -/
structure Opnds where
  v : List (Nat × Bool)
  s : List (Nat × Bool)
  vd : List Nat
  sd : List Nat
  pd : List Nat
  /-- predicates read -/
  ps : List Nat
  /-- first registers of 64-bit operands, which must be even and no queue -/
  wide : List Nat
  /-- first registers that must be a multiple of 4 -/
  quad : List Nat
  deriving DecidableEq, Repr, Inhabited

def Opnds.nil : Opnds := { v := [], s := [], vd := [], sd := [], pd := [], ps := [], wide := [], quad := [] }

def Opnds.add (x y : Opnds) : Opnds :=
  { v := x.v ++ y.v, s := x.s ++ y.s, vd := x.vd ++ y.vd, sd := x.sd ++ y.sd, pd := x.pd ++ y.pd, ps := x.ps ++ y.ps,
    wide := x.wide ++ y.wide, quad := x.quad ++ y.quad }

def Opnds.sum (l : List Opnds) : Opnds := l.foldr Opnds.add .nil

/-- The registers of an operand of `n` registers whose first must be a multiple of `m`. One that is not raises MISALIGN (R28, R66), and the
registers after its first do not count as named: R75 and R76 do not say that they could make the word ILLEGAL first (DESIGN CHOICE,
assumption 80). -/
def spanned (r : RegNo) (m n : Nat) : List Nat := if r.toNat % m == 0 then (List.range n).map (fun i => r.toNat + i) else [r.toNat]
/-- A v or queue source. -/
def vSrc (r : RegNo) (wide e : Bool) : Opnds :=
  if wide then { Opnds.nil with v := (spanned r 2 2).map (fun n => (n, e)), wide := [r.toNat] }
  else { Opnds.nil with v := [(r.toNat, e)] }
/-- n consecutive v sources that always block. -/
def vRun (r : RegNo) (n : Nat) : Opnds := { Opnds.nil with v := (List.range n).map (fun i => (r.toNat + i, false)) }
def sSrc (r : RegNo) (e : Bool) : Opnds := { Opnds.nil with s := [(r.toNat, e)] }
/-- A v destination. -/
def vDst (r : RegNo) (wide : Bool) : Opnds :=
  if wide then { Opnds.nil with vd := spanned r 2 2, wide := [r.toNat] } else { Opnds.nil with vd := [r.toNat] }
def vDstRun (r : RegNo) (n : Nat) : Opnds := { Opnds.nil with vd := (List.range n).map (fun i => r.toNat + i) }
def sDst (r : RegNo) : Opnds := { Opnds.nil with sd := [r.toNat] }
/-- A predicate destination. A write to p7 is discarded (R60), so two words of one chain that name it do not write one predicate (DESIGN
CHOICE, assumption 80: R55 forbids two writes of one predicate and does not speak of p7). -/
def pDst (p : BitVec 3) : Opnds := { Opnds.nil with pd := if p == 7 then [] else [p.toNat] }
def pSrc (p : BitVec 3) : Opnds := { Opnds.nil with ps := [p.toNat] }
/-- A key quad (R182). -/
def quadSrc (r : RegNo) : Opnds := { Opnds.nil with v := (spanned r 4 4).map (fun n => (n, false)), quad := [r.toNat] }
def quadDst (r : RegNo) : Opnds := { Opnds.nil with vd := spanned r 4 4, quad := [r.toNat] }
/-- A box: the low corner's quad and the high corner's (R193). -/
def boxSrc (r : RegNo) : Opnds := { Opnds.nil with v := (spanned r 4 8).map (fun n => (n, false)), quad := [r.toNat] }

/-- The operands of an A word: a, b unless an immediate gives it, d when it is read, and the destination. -/
def AWord.srcs (w : AWord) (wa wb : Bool) (readB readD : Bool) (wd : Bool) : Opnds :=
  let b := readB && w.ext.isNone
  if w.u then Opnds.sum [sSrc w.a w.ea, if b then sSrc w.b w.eb else .nil, if readD then sSrc w.d false else .nil]
  else Opnds.sum [vSrc w.a wa w.ea, if b then vSrc w.b wb w.eb else .nil, if readD then vSrc w.d wd false else .nil]
def AWord.dst (w : AWord) (wd : Bool) : Opnds := if w.u then sDst w.d else vDst w.d wd
/-- An A word of one width throughout. -/
def AWord.ops (w : AWord) (wide readB readD : Bool) : Opnds :=
  (w.srcs wide wide readB readD wide).add (w.dst wide)

/-- Base and index of an M word (R64, R65). -/
def MWord.addrOps (w : MWord) : Opnds :=
  (if w.u then sSrc w.index w.ea else vSrc w.index false w.ea).add (sSrc w.base w.ea)
/-- d read as data. -/
def MWord.dataOps (w : MWord) (wide : Bool) : Opnds := if w.u then sSrc w.d w.ea else vSrc w.d wide w.ea
def MWord.dstOps (w : MWord) (wide : Bool) : Opnds := if w.u then sDst w.d else vDst w.d wide
/-- The access is of 64 bits. -/
def MWord.is64 (w : MWord) : Bool := w.size == 3
/-- Base and an index that is always an s register. -/
def MWord.sAddrOps (w : MWord) : Opnds := (sSrc w.index w.ea).add (sSrc w.base w.ea)

/-- The operands of `atom` (R306). -/
def MWord.atomOps (w : MWord) : Opnds :=
  let cas := bitsOf w.func 0 4 == 7
  if w.u then
    Opnds.sum [w.addrOps, sSrc w.d w.ea, if cas then sSrc (w.d + 1) w.ea else .nil, sDst w.d]
  else if cas then
    let n := if w.is64 then 4 else 2
    Opnds.sum [w.addrOps,
      { Opnds.nil with
        v := (spanned w.d n n).map (fun r => (r, w.ea)),
        wide := if w.is64 then [] else [w.d.toNat], quad := if w.is64 then [w.d.toNat] else [] },
      vDst w.d w.is64]
  else Opnds.sum [w.addrOps, vSrc w.d w.is64 w.ea, vDst w.d w.is64]

/-- D and B of a curve-key descriptor (R183). -/
def KWord.dim (w : KWord) : Nat := w.dims.toNat + 1
def KWord.nbits (w : KWord) : Nat := w.bits.toNat + 1
/-- The predicate of `ckcmp` (d) and of `cknext` and `ckprev` (per-op [2:0]). -/
def KWord.pCmp (w : KWord) : BitVec 3 := bitsOf w.d 0 3
def KWord.pNext (w : KWord) : BitVec 3 := bitsOf w.op 0 3

/-- The registers a word names. An event names none. -/
def operands : Instr → Opnds
  | .nop _ | .ext _ _ => .nil
  | .guard w => pSrc w.p
  | .br w | .call w | .ret w | .exit w | .trapi w => if w.cond then pSrc w.p else .nil
  | .brs w => (sSrc w.sReg false).add (pSrc w.p)
  | .bri w => (sSrc w.sReg false).add (if w.cond then pSrc w.p else .nil)
  | .join _ | .regang _ | .yield _ | .region _ | .bkpt _ => .nil
  | .add w | .sub w | .mul w | .mulhi w | .min w | .max w | .and w | .or w | .xor w => w.ops (wideT w.t) true false
  | .shl w | .shr w | .sra w | .rot w | .bfx w => w.ops (wideT w.t) true false
  | .mad w | .bfi w => w.ops (wideT w.t) true true
  | .abs w | .neg w | .not w | .popc w | .clz w | .ctz w => w.ops (wideT w.t) false false
  | .cmp w => (w.srcs (wideT w.t) (wideT w.t) true false false).add (pDst w.pDst)
  | .sel w => (w.ops false true false).add (pSrc w.t)
  | .fadd w | .fsub w | .fmul w | .fmin w | .fmax w | .fscale w | .fpack w => w.ops false true false
  | .fma w | .fdot2 w => w.ops false true true
  | .fneg w | .fabs w | .fclass w | .frnd w => w.ops false false false
  | .fcmp w => (w.srcs false false true false false).add (pDst w.pDst)
  | .funpk w => (w.srcs false false false false false).add (w.dst true)
  | .frcp w | .frsq w | .fsqrt w | .fexp2 w | .flog2 w => w.ops false false false
  | .cvt w => (w.srcs (w.cvtSrc == 6) false false false false).add (w.dst (w.cvtDst == 6))
  | .cvtbfp w => w.ops false false false
  | .fmtset w => if w.u then sSrc w.a false else .nil
  | .fmtget w => w.dst false
  | .mov w =>
    if w.b == 1 then (sSrc w.a w.ea).add (vDst w.d (wideT w.t)) else w.ops (wideT w.t) false false
  | .movi w => w.dst (w.a == 0 && wideT w.t)
  | .lmov w => (w.srcs (wideT w.t) false true false false).add (w.dst (wideT w.t))
  | .bcast w =>
    Opnds.sum [vSrc w.a (wideT w.t) w.ea, if w.ext.isNone then sSrc w.b w.eb else .nil, sDst w.d]
  | .vred w | .vscan w => w.ops false false false
  | .vote w => (vDst w.d false).add (pSrc (bitsOf w.a 0 3))
  | .sample w => Opnds.sum [vSrc w.a false w.ea, sSrc w.b w.eb, vDst w.d false, pDst w.t]
  | .getsv w => w.dst false
  | .ld w | .ldc w => w.addrOps.add (w.dstOps w.is64)
  | .st w => w.addrOps.add (w.dataOps w.is64)
  | .ldl w => w.addrOps.add (w.dstOps false)
  | .stl w => w.addrOps.add (w.dataOps false)
  | .cp w => Opnds.sum [w.sAddrOps, sSrc w.d w.ea, sSrc (w.d + 1) w.ea, sSrc (w.d + 2) w.ea]
  | .cpclose w => sDst w.d
  | .cpwait w => sSrc w.index w.ea
  | .qld w => w.sAddrOps
  | .stmap w => w.sAddrOps.add (sSrc w.d w.ea)
  | .stunmap w | .stfl w => sSrc w.d w.ea
  | .pref w => w.addrOps
  | .kvx w => Opnds.sum [w.addrOps, w.dstOps true, pDst (bitsOf w.func 0 3)]
  | .atom w => w.atomOps
  | .atomOrdAdd w => Opnds.sum [w.sAddrOps, vSrc w.d w.is64 w.ea, vDst w.d w.is64]
  | .red w | .redOrd w => w.addrOps.add (w.dataOps w.is64)
  | .append w => Opnds.sum [w.sAddrOps, vSrc w.d false w.ea, vDst w.d false]
  | .appendDecl w => w.sAddrOps
  | .eflush _ | .fence _ => .nil
  | .barSync w | .barArrive w => if w.u then sSrc w.index false else .nil
  | .barWait _ => .nil
  | .pbarArrive w | .pbarWait w => if w.scope == 2 then sSrc w.base false else .nil
  | .monwait w => Opnds.sum [w.sAddrOps, sSrc w.d w.ea, sDst w.d]
  | .monwake w => w.sAddrOps
  | .drain w => sDst w.d
  | .bcmp w | .bfind w | .hcrc w | .acstep w => w.ops false true false
  | .bperm w => w.ops false true true
  | .hmix w => w.ops true false false
  | .ckpack w => (vRun w.a w.dim).add (quadDst w.d)
  | .ckunpk w => (quadSrc w.a).add (vDstRun w.d w.dim)
  | .ckadd w | .cksub w => Opnds.sum [quadSrc w.a, vRun w.b w.dim, quadDst w.d]
  | .ckcmp w => Opnds.sum [quadSrc w.a, quadSrc w.b, pDst w.pCmp]
  | .ckbox w => Opnds.sum [quadSrc w.a, boxSrc w.b, vDst w.d false]
  | .cknext w | .ckprev w => Opnds.sum [quadSrc w.a, boxSrc w.b, quadDst w.d, pDst w.pNext]
  | .cksplit w => (boxSrc w.b).add (vDst w.d false)
  | .cklvl w => Opnds.sum [quadSrc w.a, quadSrc w.b, vDst w.d false]
  | .wkset w | .wksetImg w | .wkstat w | .wkstatImg w => w.sAddrOps
  | .wkadd w => w.sAddrOps.add (sSrc w.d w.ea)
  | .wknext w => Opnds.sum [vDst w.d false, sDst w.index, pDst (bitsOf w.func 3 3)]
  | .wkdone w => vSrc w.d false false
  | .wkres w => w.addrOps.add (w.dstOps false)
  | .wkmap w => (vSrc w.index false false).add (vDst w.d false)
  | .minit w => if bitOf w.low 4 then sSrc w.sA false else .nil
  | .mtile w => (sSrc w.sA false).add (sSrc w.sB false)
  | .mma _ | .crmm _ | .mwait _ => .nil
  | .mdrain w => if bitOf w.low 0 then sSrc w.sA false else .nil
  | .crdrain w => if bitOf w.low 0 then sSrc w.sA false else .nil
  | .mload w | .crload w | .crmerge w | .crstat w => sSrc w.sA false
  | .csrr w => (if w.imm == 0 then sSrc w.a false else .nil).add (sDst w.d)
  | .csrw w => sSrc w.a false
  | .csrwWaypart w => (sSrc w.a false).add (sSrc w.d false)
  | .tret _ | .halt _ | .idle _ | .mfreeze _ | .mthaw _ => .nil
  | .tlbinv w => if bitOf w.imm 0 then sSrc w.a false else .nil
  | .cacheopAlloc w | .cacheopWb w | .cacheopInv w | .cacheopWbinv w => (sSrc w.a false).add (sSrc w.d false)
  | .cacheopWbWay w | .cacheopInvWay w | .cacheopWbinvWay w => (sSrc w.a false).add (sDst w.d)
  | .launch w => sSrc w.a false
  | _ => .nil

/-- The pipe of a word (R71). -/
def pipeOf : Instr → Pipe
  | .br _ | .brs _ | .bri _ | .call _ | .ret _ | .join _ | .regang _ | .exit _ | .yield _ | .region _ | .bkpt _ | .trapi _ => .b
  | .add _ | .sub _ | .mul _ | .mulhi _ | .mad _ | .min _ | .max _ | .abs _ | .neg _ | .and _ | .or _ | .xor _ | .not _ => .v
  | .shl _ | .shr _ | .sra _ | .rot _ | .bfx _ | .bfi _ | .popc _ | .clz _ | .ctz _ | .cmp _ | .sel _ => .v
  | .fadd _ | .fsub _ | .fmul _ | .fma _ | .fmin _ | .fmax _ | .fneg _ | .fabs _ | .fcmp _ | .fclass _ | .fscale _ => .v
  | .frnd _ | .fdot2 _ | .fpack _ | .funpk _ | .cvt _ | .fmtset _ | .fmtget _ | .mov _ | .movi _ | .getsv _ => .v
  | .frcp _ | .frsq _ | .fsqrt _ | .fexp2 _ | .flog2 _ | .cvtbfp _ => .x
  | .lmov _ | .bcast _ | .vred _ | .vscan _ | .vote _ | .sample _ => .x
  | .bcmp _ | .bfind _ | .bperm _ | .hcrc _ | .hmix _ | .acstep _ => .x
  | .ckpack _ | .ckunpk _ | .ckadd _ | .cksub _ | .ckcmp _ | .ckbox _ | .cknext _ | .ckprev _ | .cklvl _ => .x
  | .ld _ | .st _ | .ldc _ | .ldl _ | .stl _ | .cp _ | .cpclose _ | .cpwait _ | .qld _ | .stmap _ | .stunmap _ | .stfl _ => .m
  | .pref _ | .kvx _ | .atom _ | .atomOrdAdd _ | .red _ | .redOrd _ | .append _ | .appendDecl _ | .eflush _ | .fence _ => .m
  | .barSync _ | .barArrive _ | .barWait _ | .pbarArrive _ | .pbarWait _ | .monwait _ | .monwake _ | .drain _ => .m
  | .cksplit _ | .wkset _ | .wksetImg _ | .wkadd _ | .wknext _ | .wkdone _ | .wkres _ | .wkmap _ | .wkstat _ => .m
  | .wkstatImg _ => .m
  | .minit _ | .mtile _ | .mma _ | .crmm _ | .mwait _ | .mdrain _ | .mload _ | .crdrain _ | .crload _ | .crmerge _ => .m
  | .crstat _ => .m
  | .csrr _ | .csrw _ | .csrwWaypart _ | .tret _ | .tlbinv _ | .cacheopAlloc _ | .cacheopWb _ | .cacheopInv _ => .s
  | .cacheopWbinv _ | .cacheopWbWay _ | .cacheopInvWay _ | .cacheopWbinvWay _ | .launch _ | .idle _ | .halt _ => .s
  | .mfreeze _ | .mthaw _ => .s
  | _ => .none

/-- The words whose destinations are marked empty at issue (R31). `bcast` marks an s register, `monwait` and `wknext` an s
register when they act. -/
def early : Instr → Bool
  | .frcp _ | .frsq _ | .fsqrt _ | .fexp2 _ | .flog2 _ | .cvtbfp _ => true
  | .lmov _ | .bcast _ | .vred _ | .vscan _ | .vote _ | .sample _ => true
  | .bcmp _ | .bfind _ | .bperm _ | .hcrc _ | .hmix _ | .acstep _ => true
  | .ckpack _ | .ckunpk _ | .ckadd _ | .cksub _ | .ckcmp _ | .ckbox _ | .cknext _ | .ckprev _ | .cklvl _ | .cksplit _ => true
  | .ld _ | .ldc _ | .ldl _ | .kvx _ | .atom _ | .atomOrdAdd _ | .append _ | .monwait _ => true
  | .wknext _ | .wkres _ | .wkmap _ => true
  | .mov w => !w.u && w.b == 0 && 56 ≤ w.a.toNat
  | _ => false

/-- The per-group words (R205, R233, R234, R302). `monwait` acts per thread in a ridge thread. -/
def perGroup : Instr → Bool
  | .cp _ | .cpclose _ | .stmap _ | .stunmap _ | .stfl _ => true
  | .atomOrdAdd _ | .append _ | .appendDecl _ | .eflush _ | .monwait _ | .drain _ => true
  | .wkset _ | .wksetImg _ | .wkadd _ | .wknext _ | .wkstat _ | .wkstatImg _ => true
  | _ => false

/-- The group-wide lane words (R269). -/
def groupWide : Instr → Bool
  | .lmov _ | .bcast _ | .vred _ | .vscan _ | .vote _ | .sample _ => true
  | _ => false

/-- Group-wide lane words that can set flags (R164). -/
def laneFlags : Instr → Bool
  | .vred _ | .vscan _ | .sample _ => true
  | _ => false

/-- Words that a guard may not govern (R73, R133, R135, R234, R302, R395). -/
def unguardable (i : Instr) : Bool :=
  perGroup i || pipeOf i == .b || pipeOf i == .s ||
    match i with
    | .guard _ | .cpwait _ | .fence _ | .barSync _ | .barArrive _ | .barWait _ | .pbarArrive _ | .pbarWait _ => true
    | _ => false

/-- The words of the access-slice subset (R242). -/
def accessOk : Instr → Bool
  | .nop _ | .guard _ | .ext _ _ | .br _ | .bri _ | .call _ | .ret _ | .exit _ | .bkpt _ | .trapi _ => true
  | .add w | .sub w | .mul w | .mulhi w | .mad w | .min w | .max w | .abs w | .neg w | .and w | .or w | .xor w | .not w => w.u
  | .shl w | .shr w | .sra w | .rot w | .bfx w | .bfi w | .popc w | .clz w | .ctz w | .cmp w | .sel w => w.u
  | .mov w | .movi w => w.u
  | .getsv w => w.u && (w.a == 3 || (5 ≤ w.a.toNat && w.a.toNat ≤ 8))
  | .ld w | .st w | .pref w => w.u
  | .qld _ | .fence _ | .pbarArrive _ | .pbarWait _ => true
  | _ => false

/-- The words of the ridge-thread subset (R130). -/
def ridgeOk : Instr → Bool
  | .nop _ | .guard _ | .ext _ _ | .br _ | .bri _ | .call _ | .ret _ | .exit _ | .bkpt _ | .trapi _ => true
  | .add w | .sub w | .mul w | .mulhi w | .mad w | .min w | .max w | .abs w | .neg w | .and w | .or w | .xor w | .not w => w.u
  | .shl w | .shr w | .sra w | .rot w | .bfx w | .bfi w | .popc w | .clz w | .ctz w | .cmp w | .sel w => w.u
  | .fadd w | .fsub w | .fmul w | .fma w | .fmin w | .fmax w | .fneg w | .fabs w | .fcmp w | .fclass w | .fscale w => w.u
  | .frnd w | .fdot2 w | .fpack w | .funpk w | .cvt w => w.u
  | .mov w | .movi w => w.u
  | .getsv w => w.u && (w.a == 3 || (5 ≤ w.a.toNat && w.a.toNat ≤ 8))
  | .ld w | .st w | .ldc w | .atom w | .red w => w.u
  | .fence _ | .pbarArrive _ | .pbarWait _ | .monwait _ | .monwake _ => true
  | .minit _ | .mtile _ | .mma _ | .crmm _ | .mwait _ | .mdrain _ | .mload _ | .crdrain _ | .crload _ | .crmerge _ => true
  | .crstat _ => true
  | _ => false

/-- An instruction lies in the subset of its agent's role (R67, R75, R130, R242, R408). -/
def roleOk (a : Agent) (i : Instr) : Bool :=
  match a with
  | .access _ => accessOk i
  | .ridge _ => ridgeOk i
  | .handler _ => ridgeOk i || pipeOf i == .s || (match i with | .wksetImg _ | .wkstatImg _ => true | _ => false)
  | .group _ _ =>
    match i with
    | .qld _ | .mfreeze _ | .mthaw _ => false
    | .minit _ | .mtile _ | .mma _ | .crmm _ | .mwait _ | .mdrain _ | .mload _ | .crdrain _ | .crload _ | .crmerge _ => false
    | .crstat _ => false
    | _ => true

/-- Words that are privileged (R68, R205). -/
def privileged : Instr → Bool
  | .launch _ | .idle _ => false
  | .wksetImg _ | .wkstatImg _ => true
  | i => pipeOf i == .s

/-- The order-sensitive unordered forms (R316). -/
def orderSensitive : Instr → Bool
  | .atom _ => true
  | .red w => bitsOf w.func 0 4 == 8
  | _ => false

/-- The registers of a word break R28, R59, R65 or R66: a queue as a destination or a 64-bit operand, a v register past
the launch's registers per lane, or any v register of an agent that has none. -/
def Opnds.illegal (o : Opnds) (lanes : Bool) (nregs : Nat) (queues : Bool) : Bool :=
  o.vd.any (fun r => nregs ≤ r) || o.wide.any (fun r => 56 ≤ r) || o.quad.any (fun r => 56 ≤ r) ||
    o.v.any (fun p => if 56 ≤ p.1 then !queues else nregs ≤ p.1) ||
    (!lanes && !(o.v.isEmpty && o.vd.isEmpty))

/-- An odd 64-bit operand, or a quad that is not a multiple of 4 (R28, R66, R306). -/
def Opnds.misaligned (o : Opnds) : Bool := o.wide.any (fun r => r % 2 == 1) || o.quad.any (fun r => r % 4 != 0)

/-- K words name no queue (R70). -/
def kFormat : Instr → Bool
  | .ckpack _ | .ckunpk _ | .ckadd _ | .cksub _ | .ckcmp _ | .ckbox _ | .cknext _ | .ckprev _ | .cksplit _ | .cklvl _ => true
  | .wkdone _ | .wkmap _ => false
  | _ => false

/-! Values. -/

/-- Sign extension of a narrow value to 64 bits. -/
def sext {n : Nat} (x : BitVec n) : DWord := x.signExtend 64
/-- Zero extension to 64 bits. -/
def zext {n : Nat} (x : BitVec n) : DWord := x.setWidth 64

/-- Two halves, or four bytes, alike (R62). -/
def twice (x : BitVec 16) : Word := x ++ x
def fourTimes (x : BitVec 8) : Word := x ++ x ++ x ++ x

/-- The immediate of an integer type (R62). -/
def intImm (t : BitVec 3) (x : Payload) : DWord :=
  match t.toNat with
  | 0 => zext ((x.signExtend 32))
  | 1 => zext x
  | 2 | 3 => zext (twice (bitsOf x 0 16))
  | 4 | 5 => zext (fourTimes (bitsOf x 0 8))
  | 6 => sext x
  | _ => zext x

/-- The immediate of a float type (R62). -/
def floatImm (t : BitVec 3) (x : Payload) : DWord :=
  if t == 1 || t == 2 then zext (twice (bitsOf x 0 16)) else zext (x ++ (0 : BitVec 8))

/-- A v operand of a lane: one register or a pair, or the head of a queue (R36, R138). `k` counts the pops of the same
queue that this word makes before it. -/
def vOperand (gr gq : Group) (r : RegNo) (wide : Bool) (k lane : Nat) : DWord :=
  let n := r.toNat
  if 56 ≤ n then zext (gq.qWord (n - 56) lane k)
  else if wide then gr.vAt (n + 1) lane ++ gr.vAt n lane
  else zext (gr.vAt n lane)

/-- How often a queue was named before. -/
def samePop (r a : RegNo) : Nat := if r == a then 1 else 0

/-- Operand a of an A word in a lane, or of the gang in the uniform form. -/
def AWord.aVal (w : AWord) (gr gq : Group) (wide : Bool) (lane : Nat) : DWord :=
  if w.u then gr.sAt w.a.toNat else vOperand gr gq w.a wide 0 lane
/-- Operand b: the immediate, or a register (R58, R62). -/
def AWord.bVal (w : AWord) (imm : Payload → DWord) (gr gq : Group) (wide : Bool) (lane : Nat) : DWord :=
  match w.ext with
  | some x => imm x
  | none => if w.u then gr.sAt w.b.toNat else vOperand gr gq w.b wide (samePop w.b w.a) lane
/-- d read as a source. -/
def AWord.dVal (w : AWord) (gr : Group) (wide : Bool) (lane : Nat) : DWord :=
  if w.u then gr.sAt w.d.toNat else vOperand gr gr w.d wide 0 lane

/-- The queues a word pops, in order. -/
def Opnds.pops (o : Opnds) : List Nat := (o.v.filter (fun p => 56 ≤ p.1)).map (fun p => p.1 - 56)

/-- Bytes of an access of a size code (R64). -/
def sizeBytes (sz : BitVec 3) : Nat :=
  match sz.toNat with
  | 0 | 4 => 1
  | 1 | 5 => 2
  | 2 => 4
  | 3 => 8
  | _ => 128

/-- base + zext(index[31:0]) + offset * size, mod 2^64 (R166). -/
def MWord.addr (w : MWord) (base : DWord) (index : DWord) : DWord :=
  base + zext (bitsOf index 0 32) + sext w.off * BitVec.ofNat 64 (sizeBytes w.size)
/-- base + index + offset * size, with the whole index register: the words whose index is always an s register
(R206, R237, R243, R244, R313, R320). -/
def MWord.addrFull (w : MWord) (base : DWord) (index : DWord) : DWord :=
  base + index + sext w.off * BitVec.ofNat 64 (sizeBytes w.size)

/-- The index of an M word in a lane, or of the gang. -/
def MWord.indexVal (w : MWord) (gr gq : Group) (lane : Nat) : DWord :=
  if w.u then gr.sAt w.index.toNat else vOperand gr gq w.index false 0 lane
/-- The effective address of a lane. -/
def MWord.laneEA (w : MWord) (gr gq : Group) (lane : Nat) : DWord :=
  w.addr (gr.sAt w.base.toNat) (w.indexVal gr gq lane)
/-- d read as data, after the index has popped. -/
def MWord.dataVal (w : MWord) (gr gq : Group) (lane : Nat) : DWord :=
  if w.u then gr.sAt w.d.toNat else vOperand gr gq w.d w.is64 (samePop w.d w.index) lane

end Sys2Proof
end

