-- ==== Sys2Proof/Machine/Ops.lean ====
section
/-! DEFINITION. The shared operations: ending a context, taking a trap, stalling on a translation fault, the checks that
every word meets before it is performed, performing a word, and writing results now or later. -/

namespace Sys2Proof.Machine

/-- The cause codes (R368). -/
def Cause.code : Cause → BitVec 8
  | .none => 0x00 | .illegal => 0x01 | .pipeConflict => 0x02 | .emptyRead => 0x03 | .stackFull => 0x04 | .xlate => 0x05
  | .perm => 0x06 | .misalign => 0x07 | .spWindow => 0x08 | .peerStash => 0x09 | .determ => 0x0A | .bkpt => 0x0B
  | .soft => 0x0C | .matrixOp => 0x0D | .queue => 0x0E | .priv => 0x0F | .ecc => 0x10 | .deadline => 0x11
  | .ckDesc => 0x12 | .capacity => 0x13

/-! Ending a context. -/

/-- The failure form of the status word (R406). -/
def failStatus (cause : BitVec 8) : DWord := zext cause ||| 0x8000000000000000

/-- Write the status word of a launch packet; where its page denies writing, only the log records a failure (R383, R406), as
an entry of kind 2 (DESIGN CHOICE, assumption 58). -/
def Device.writeStatus (d : Device) (c : Nat) (x : DWord) : Device :=
  match (d.ctx c).statusLoc with
  | some l =>
    let ls := (List.range 8).map l.add
    if ls.any isRemote then d.putBytesFor .firm none c ls (bytesOf 8 x) else d.firmStore (ls.zip (bytesOf 8 x))
  | none => if bitOf x 63 then d.logEntry 2 (d.ctx c).die 0 0 else d

/-! Answers of the Hamada services (R410, R412). -/

/-- The request sequence of a named service block. -/
def Device.blockSeq (d : Device) (i : Nat) : DWord :=
  d.valueAt ((List.range 8).map (fun n => .mem (((d.ham.services[i]?).getD 0).toNat + n)))

/-- Answer a request: bytes 72 to 255 of its block, then its served sequence; or a datagram to the sender (R409, R410). A
request that is not being served has been answered. -/
def Device.answer (d : Device) (r : Req) (result : BitVec 8) (data : List Byte) : Device :=
  match d.ham.serving.find? (fun q => q.2.1 == r) with
  | none => d
  | some (_, _, seq) =>
    let d1 := { d with ham := { d.ham with serving := d.ham.serving.filter (fun q => q.2.1 != r) } }
    let body := (data ++ List.replicate 176 (0 : Byte)).take 176
    match r with
    | .block i =>
      let base := ((d.ham.services[i]?).getD 0).toNat
      let bs := bytesOf 8 (zext result) ++ body
      let d2 := d1.firmStore (bs.mapIdx (fun n x => (Loc.mem (base + 72 + n), x)))
      let d3 := d2.firmStore (((List.range 8).map (fun n => Loc.mem (base + 64 + n))).zip (bytesOf 8 seq))
      { d3 with ham := { d3.ham with servedSeq := listSet d3.ham.servedSeq i seq } }
    | .datagram src _ =>
      let y : Reply := { dst := src, seq := seq, result := (0 : BitVec 8) ++ result, data := body }
      { d1 with ham := { d1.ham with replies := d1.ham.replies ++ [y] } }

/-- Answer the request behind an operation, if one is. -/
def Device.answerTo (d : Device) (r : Option Req) (result : BitVec 8) (data : List Byte) : Device :=
  match r with | some q => d.answer q result data | none => d

/-- Write the status word of a launch, and answer the request that admits it (R406, R411). -/
def Device.report (d : Device) (c : Nat) (x : DWord) : Device :=
  let d1 := d.writeStatus c x
  (d1.answerTo (d.ctx c).requester 0 (bytesOf 8 x)).modCtx c (fun k => { k with requester := none })

/-- The agent belongs to the context. -/
def Device.ofCtx (d : Device) (c : Nat) (a : Agent) : Bool := d.ctxOf a == c

/-- Every agent of the context stops at once, and its blocks, groups, stash, queues and Crest contexts are discarded
(R383). Memory effects already performed stand, and debug steps under way are over. -/
def Device.stopCtx (d : Device) (c : Nat) : Device :=
  let mine := fun (b : Nat) => (d.block b).ctx == c
  let steps := (d.blocks.filter (fun b => b.ctx == c)).flatMap (fun b => b.groups.filterMap (fun g => g.stepping.map Prod.snd))
  steps.foldl (fun d r => d.answer r 0 []) { d with
    fills := d.fills.filter (fun f => !d.ofCtx c f.agent)
    qfills := d.qfills.filter (fun f => !mine f.blk)
    copies := d.copies.filter (fun f => !mine f.blk)
    monitors := d.monitors.filter (fun m => !d.ofCtx c m.agent)
    prefetches := d.prefetches.filter (fun q => !mine q.blk)
    faults := d.faults.filter (fun f => !d.ofCtx c f.agent)
    fab := { d.fab with
      remotes := d.fab.remotes.filter (fun r => r.ctx != c)
      fetched := d.fab.fetched.filter (fun f => match f.agent with | some a => !d.ofCtx c a | none => true) }
    handlers := d.handlers.filter (fun h => h.2.1 != c)
    blocks := d.blocks.map (fun b =>
      if b.ctx == c then { b with ended := true, groups := [], access := none, ridge := none, stash := [], maps := [],
                                  formers := [], built := [] }
      else b)
    cores := d.cores.map (fun k =>
      { k with
        crest := k.crest.map (fun x => match x.blk with | some b => if mine b then Crest.reset else x | none => x)
        walker := k.walker.map (fun w => match w.holder with | some b => if mine b then { WSlot.reset with serial := w.serial } else w | none => w)
        transfer := match k.transfer with | some (b, _) => if mine b then none else k.transfer | none => none })
    ctxs := listModify (fun x => { x with staged := [], streams := [], drains := [] }) d.ctxs c }

/-- The report of a pre-emption (R382), as its 24 first bytes; the rest are zero. -/
def Device.reportBytes (d : Device) (c : Nat) (status : Nat) (p : Preempt) : List Byte :=
  let flags := (if p.pdrainMissed then 1 else 0) + (if p.psaveMissed then 2 else 0) + (if p.doubleTrap then 4 else 0) +
    (if p.unresolved then 8 else 0)
  bytesOf 4 (BitVec.ofNat 64 status) ++ bytesOf 4 (BitVec.ofNat 64 flags) ++
    bytesOf 8 (BitVec.ofNat 64 (d.now - p.start)) ++ bytesOf 8 (d.ctx c).va ++ List.replicate 40 0

/-- Write the report into the save area, when the context has one (R382, R383). -/
def Device.writeReport (d : Device) (c : Nat) (status : Nat) (p : Preempt) : Device :=
  match p.save with
  | none => d
  | some area =>
    let bs := d.reportBytes c status p
    d.firmStore ((List.range 64).map (fun i => (Loc.mem (area + i), (bs[i]?).getD 0)))

/-- A pre-emption that begins now at a level (R378). -/
def Device.newPreempt (d : Device) (c level : Nat) : Preempt :=
  { level := level, start := d.now, levelStart := d.now, drainLimit := (d.ctx c).pdrain.toNat
    saveLimit := (d.ctx c).psave.toNat, save := none, pdrainMissed := false, psaveMissed := false, doubleTrap := false
    unresolved := false, cores := [], requester := none }

/-- The report is written, and the requester told (R382, R411). -/
def Device.endPreempt (d : Device) (c : Nat) (status : Nat) (p : Preempt) : Device :=
  (d.writeReport c status p).answerTo p.requester 0 ((d.reportBytes c status p).take 8)

/-- A device whose launch fails during a drain phase ends the phase on every other device of its set: a sweep flit says so (R427;
DESIGN CHOICE, assumption 61). -/
def Device.failOthers (d : Device) (c : Nat) : Device :=
  let x := d.ctx c
  if x.packet.replicate == 0 || !(x.state == .running || x.state == .placing) then d
  else (d.replicas c).foldl (fun d n => d.send c false { OutMsg.empty n 10 with addr := x.phase, op := 2 }) d

/-- A launch that fails: every agent stops as at level 3, the status word takes the failure form, and the completion
counter is not incremented (R402, R406). A pre-emption under way is reported as a reset. -/
def Device.failCtx (d : Device) (c : Nat) (cause : BitVec 8) : Device :=
  let d1 := ((d.failOthers c).stopCtx c).modCtx c (fun x => { x with state := .failed, preempt := none })
  let d2 := match (d.ctx c).preempt with | some p => d1.endPreempt c 3 p | none => d1
  d2.report c (failStatus cause)

/-- Level 3: the context is reset, the report says so, and the status word takes the failure form (R383). -/
def Device.resetCtx (d : Device) (c : Nat) (cause : BitVec 8) (p : Preempt) : Device :=
  (((((d.failOthers c).stopCtx c).modCtx c (fun x => { x with state := .failed, preempt := some { p with level := 3 } })).endPreempt c 3 p).report c
    (failStatus cause))

/-! Taking a trap. -/

/-- CAUSE as R365 lays it out. -/
def causeWord (cause : BitVec 8) (word : Nat) (lane : Option Nat) (code : BitVec 16) (rolled escalated : Bool) : DWord :=
  let ln : BitVec 9 := match lane with | none => 0 | some l => 1#1 ++ BitVec.ofNat 8 l
  (0 : BitVec 23) ++ ln ++ code ++ (0 : BitVec 4) ++ ofBit escalated ++ ofBit rolled ++ BitVec.ofNat 2 word ++ cause

/-- The set of slices as a mask. -/
def sliceMask (slices : List Nat) : BitVec 64 := slices.foldl (fun m i => m ||| BitVec.ofNat 64 (2 ^ i)) 0

/-- A trap of an agent whose gang is `slices`, at packet `pc` (R364 to R367): the shared operation behind every trap. The
cluster trap handler never takes one: its save ends at level 3. A trap in a handler is a double trap. Until a program
writes TRAPVEC the firmware's handler ends the launch. A BKPT goes to the debug service while it is attached (R364, R385); an
access slice or a ridge thread that it stops goes on when the service detaches (DESIGN CHOICE, assumption 54). -/
def Device.trapEntry (d : Device) (a : Agent) (slices : List Nat) (pc : Word) (word : Nat) (cause : BitVec 8)
    (lane : Option Nat) (code : BitVec 16) (rolled escalated : Bool) : Device :=
  let c := d.ctxOf a
  let ctx := d.ctx c
  let g := d.view a
  let cw := causeWord cause word lane code rolled escalated
  let old := ctx.preempt.getD (d.newPreempt (d.ctxOf a) 3)
  match a with
  | .handler _ => d.resetCtx c cause old
  | _ =>
    if g.inHandler then d.resetCtx c cause { old with doubleTrap := true }
    else if cause == Cause.bkpt.code && d.ham.attached.contains c then
      d.putView a { g with cause := cw, epc := zext pc, stopped := true, stepping := none, handler := sliceMask slices }
    else if ctx.trapDefault then d.failCtx c cause
    else
      d.putView a
        ({ g with
            cause := cw, epc := zext pc, inHandler := true, vec := ctx.trapvec, priv := true, handler := sliceMask slices, stopped := false,
            stepping := none, rolledPc := if rolled then g.slices.map Slice.pc else [] }.modSlices
          slices (fun s => { s with pc := 0, hold := .free }))

/-! Translation faults. -/

/-- The named barriers of a block: its own 0 to 23, its cluster set's 24 to 31 (R136). -/
def Device.bar (d : Device) (b id : Nat) : Bar :=
  let blk := d.block b
  if id < 24 then (blk.bars[id]?).getD default
  else ((((d.sets[blk.cset]?).getD default).bars)[id - 24]?).getD default
def Device.modBar (d : Device) (b id : Nat) (f : Bar → Bar) : Device :=
  if id < 24 then d.modBlock b (fun x => { x with bars := listModify f x.bars id })
  else { d with sets := listModify (fun s => { s with bars := listModify f s.bars (id - 24) }) d.sets (d.block b).cset }

/-- A slice's arrival on a barrier of a group that has not arrived in the phase still current: it does not stand after a
rollback. -/
def Device.barOpen (d : Device) (b k slice : Nat) (e : Nat × Nat × Nat) : Bool :=
  let x := d.bar b e.1
  x.phases == e.2.2 && !x.arrived.contains (b * 16 + k) && bitOf (Fmap.get 0 x.issued (b * 16 + k)) slice

/-- Return a group to its region entry (R342, R372): live slices take back what the entry recorded; arrivals of slices on
barriers that their group had not completed are withdrawn, the others will be replayed (R373); instances formed since
are discarded, those that have acted as well: they form again (R269). Of a group-wide lane word that some slice issued before the entry, and
so will not issue again, the part formed by then stands (DEDUCED, assumption 85). REC, registers, predicates and memory stay. -/
def Device.rollBack (d : Device) (b k : Nat) : Device :=
  let g := (d.block b).group k
  match g.region with
  | none => d
  | some saved =>
    let old := fun (i : Nat) => (saved[i]?).getD default
    let live := g.liveSlices
    let opens := live.flatMap (fun i => ((g.slice i).barLog.filter (d.barOpen b k i)).map (fun e => (i, e.1)))
    let d1 := opens.foldl (fun d p => d.modBar b p.2 (fun x =>
      let m := Fmap.get 0 x.issued (b * 16 + k) &&& ~~~(BitVec.ofNat 64 (2 ^ p.1))
      { x with issued := Fmap.set 0 x.issued (b * 16 + k) m })) d
    d1.modGroup b k (fun g =>
      { g with
        slices := g.slices.mapIdx (fun i s =>
          if s.live == 0 then s
          else { old i with live := s.live, hold := .free, ahead := [], barLog := s.barLog.filter (fun e => !d.barOpen b k i e) })
        laneInsts := g.regionLanes, grpInsts := [], regInsts := [] })

/-- A translation fault of an agent (R371, R372, R376): the record goes to the Hamada cores, the core's groups and access
slices stop issuing while it stands, and a group with an open region rolls back, unless it runs a handler. -/
def Device.faultEntry (d : Device) (a : Agent) (slices : List Nat) (pc : Word) (word : Nat) (cause : Cause)
    (lane : Option Nat) (addr : DWord) : Device :=
  let g := d.view a
  let rolls := a.isGroup && g.region.isSome && !g.inHandler
  let core := match a.blk? with | some b => (d.block b).core | none => match a with | .handler c => c * 4 | _ => 0
  let d1 := match a with | .group b k => if rolls then d.rollBack b k else d | _ => d
  match a with
  | .handler _ => d.resetCtx (d.ctxOf a) cause.code (((d.ctx (d.ctxOf a)).preempt).getD (d.newPreempt (d.ctxOf a) 3))
  | _ =>
    let f : FaultRec :=
      { core := core, agent := a, slices := slices, cause := cause, pc := pc, word := word, lane := lane, addr := addr,
        recCnt := g.recCnt, rolled := rolls }
    { d1 with faults := d1.faults ++ [f] }

/-- A group-scheduled agent of a core is stalled by a fault on it (R371); a ridge thread's fault holds only that thread
(R376). -/
def Device.stalled (d : Device) (a : Agent) : Bool :=
  d.faults.any (fun f => f.agent == a ||
    match f.agent, a with
    | .ridge _, _ => false
    | _, .ridge _ => false
    | _, .handler _ => false
    | _, _ => match a.blk? with | some b => (d.block b).core == f.core | none => false)

/-! Checks. -/

/-- Whether a word can be performed. -/
inductive Verdict where
  | go
  /-- it cannot issue yet -/
  | wait
  | trap (c : Cause) (lane : Option Nat)
  deriving DecidableEq, Repr, Inhabited

/-- What performing a word comes to. -/
inductive Eff where
  | ok (d : Device)
  /-- it cannot issue yet: nothing is performed -/
  | wait
  /-- it cannot issue yet, and leaves this change to the device: requests for bytes of other devices (R422) -/
  | waitOn (fix : Device → Device)
  /-- a trap that cancels the packet (R56) -/
  | trap (c : Cause) (lane : Option Nat) (code : BitVec 16)
  /-- a trap that leaves this change to the device: an instance discarded (R234, R269) -/
  | trapOn (fix : Device → Device) (c : Cause)
  /-- a double trap that no cause names: a per-group or group-wide word in a handler (R366) -/
  | double
  /-- a translation fault (R371) -/
  | fault (c : Cause) (lane : Option Nat) (addr : DWord)

/-- A failed address as an outcome (R216, R371). -/
def Bad.eff (b : Bad) (lane : Option Nat) (addr : DWord) : Eff :=
  match b with
  | .trap c => .trap c lane 0
  | .fault c => .fault c lane addr

/-- Registers per lane of an agent's launch (R28). -/
def Device.nregs (d : Device) (a : Agent) : Nat := (d.ctx (d.ctxOf a)).packet.regs8 * 8

/-- Words that a spawned group or a weakly parallel launch may not issue (R303), the forms that a spawned group may not
use (R137), `eflush.wait` outside a concurrent launch,
and the core field of the walker's image forms (R205, R214). -/
def Device.classIllegal (d : Device) (a : Agent) (i : Instr) : Bool :=
  let weak := (d.ctx (d.ctxOf a)).packet.cls == 2
  let spawned := (d.view a).spawned
  match i with
  | .atomOrdAdd _ | .redOrd _ | .append _ | .appendDecl _ => weak || spawned
  | .eflush w => weak || spawned || (bitOf w.func 0 && (d.ctx (d.ctxOf a)).packet.cls != 0)
  | .barSync w | .barArrive w => spawned && !w.u
  | .wksetImg w | .wkstatImg w => match a with | .handler _ => bitsOf w.d 2 4 != 0 | _ => w.d != 0
  | _ => false

/-- The checks made on a word's encoding and registers, in the order of R76. -/
def Issue.staticCause (x : Issue) (d : Device) (i : Instr) : Option Cause :=
  let o := operands i
  if !rowOk i || !legal i || !roleOk x.agent i || o.illegal x.agent.isGroup (d.nregs x.agent) (!kFormat i) ||
      (x.guard.isSome && unguardable i) || d.classIllegal x.agent i then some .illegal
  else if o.misaligned then some .misalign
  else if privileged i && !(d.view x.agent).priv then some .priv
  else none

/-- A producer that the agent has issued has still to write this v register of a slice (R33). -/
def Device.pendingV (d : Device) (a : Agent) (r slice : Nat) : Bool :=
  d.fills.any (fun f => f.agent == a && f.vFull.contains (r * 64 + slice)) ||
    (d.view a).laneInsts.any (fun x => bitOf x.issued slice && (operands x.word).vd.contains r) ||
    (d.view a).grpInsts.any (fun x => bitOf x.issued slice && (operands x.word).vd.contains r)
/-- A matrix drain has still to fill a register of a group (R31, R116). -/
def Device.drainsTo (d : Device) (a : Agent) (r : Nat) : Bool :=
  match a with
  | .group b k =>
    ((d.core (d.block b).core).crest).any (fun x => x.blk == some b && x.ops.any (fun o =>
      match o.dst with | some (slot, rs) => slot == k && rs.contains r | none => false))
  | _ => false
/-- Something has still to write the register. -/
def Device.producesV (d : Device) (a : Agent) (r slice : Nat) : Bool := d.pendingV a r slice || d.drainsTo a r
/-- The same for an s register; an instance that this gang has not joined is no earlier producer of its own word. -/
def Device.producesS (d : Device) (a : Agent) (r : Nat) (slices : List Nat) : Bool :=
  d.fills.any (fun f => f.agent == a && f.sFull.contains r) ||
    (d.view a).laneInsts.any (fun x => slices.any (fun i => bitOf x.issued i) && (operands x.word).sd.contains r)

/-- A predicate that a word the slice has issued has still to write: its readers are interlocked by issue (R30). -/
def Device.predPending (d : Device) (a : Agent) (p : Nat) (slices : List Nat) : Bool :=
  (d.view a).laneInsts.any (fun x => (operands x.word).pd.contains p && slices.any (fun i => bitOf x.issued i)) ||
    (d.view a).grpInsts.any (fun x => (operands x.word).pd.contains p && slices.any (fun i => bitOf x.issued i))

/-- The access slice that feeds a group has exited (R36). A pop in a block that has no access slice traps as well: no entry can
ever come (DESIGN CHOICE, assumption 59). -/
def Device.feederGone (d : Device) (a : Agent) : Bool :=
  match a.blk? with
  | none => true
  | some b => match (d.block b).access with | none => true | some t => t.exited

/-- Every producer the agent has issued has written its destination, and every access has been performed (R57). A message
that failed is awaited no more (R423). -/
def Device.quiet (d : Device) (a : Agent) : Bool :=
  !d.fills.any (fun f => f.agent == a) && (d.view a).laneInsts.isEmpty && (d.view a).grpInsts.isEmpty &&
    !d.fab.remotes.any (fun r => r.agent == some a && !r.failed && (match r.use with | .copy _ _ | .fetch _ | .image _ _ _ | .wake => false | _ => true))

/-- The first trap of a list, else a wait if there is one. -/
def Verdict.first : List Verdict → Verdict
  | [] => .go
  | .trap c l :: _ => .trap c l
  | .wait :: vs => match Verdict.first vs with | .trap c l => .trap c l | _ => .wait
  | .go :: vs => Verdict.first vs

/-- How often the queue of a source was named before it in the list. -/
def popIndex (vs : List (Nat × Bool)) (n : Nat) : Nat :=
  match vs[n]? with
  | none => 0
  | some p => ((vs.take n).filter (fun q => q.1 == p.1)).length

/-- A check that fails: the cause, and the lane whose operand raised it. -/
abbrev Failed := Cause × Option Nat
/-- Of two failed checks of one word, the one of the lower lane (R365); without lanes, or with one lane, the first. -/
def Failed.lower (a b : Failed) : Failed :=
  match a.2, b.2 with
  | some l, some m => if m < l then b else a
  | none, some _ => b
  | _, none => a

/-- What a source that is empty, or not, comes to: a failed check, a wait, or nothing. -/
inductive Source where
  | full
  | waits
  | fails (f : Failed)

/-- The sources of a word that are empty (R32, R33, R36), against the registers the chain reads and the queues as they stand:
each v or queue source in each slice, then the s registers. -/
def Issue.sources (x : Issue) (d : Device) (i : Instr) : List Source :=
  let o := operands i
  let gr := x.view
  let gq := d.view x.agent
  let acts := x.actSlices
  let low := fun (s : Nat) => (x.act.find? (fun l => l / 4 == s)).or (x.gangLanes.find? (fun l => l / 4 == s))
  let empty := fun (e : Bool) (l : Option Nat) => if e then Source.fails (.emptyRead, l) else .waits
  let srcV := (List.range o.v.length).flatMap (fun n =>
    match o.v[n]? with
    | none => []
    | some (r, e) =>
      if 56 ≤ r then
        x.slices.map (fun s =>
          if gq.qIsEmpty (r - 56) s (popIndex o.v n) then
            (if d.feederGone x.agent then .fails (.queue, low s) else empty e (low s))
          else .full)
      else acts.map (fun s => if gr.vIsEmpty r s then empty e (low s) else .full))
  let used := !acts.isEmpty || unguardable i
  srcV ++ (if used then o.s.map (fun p => if gr.sIsEmpty p.1 then empty p.2 none else .full) else [])

/-- A destination that an earlier producer has still to write, or a predicate still to come (R30, R33). -/
def Issue.behind (x : Issue) (d : Device) (i : Instr) : Bool :=
  let o := operands i
  let gr := x.view
  let used := !x.actSlices.isEmpty || unguardable i
  o.vd.any (fun r => x.actSlices.any (fun s => gr.vIsEmpty r s && d.producesV x.agent r s)) ||
    (used && o.sd.any (fun r => gr.sIsEmpty r && d.producesS x.agent r x.slices)) ||
    (o.ps ++ o.pd).any (fun p => d.predPending x.agent p x.slices)

/-- A serialising word behind packets that have not completed (R57): those before its own. -/
def Issue.serialWaits (x : Issue) (i : Instr) : Bool := pipeOf i == .s && !x.base.quiet x.agent

/-- The word waits for a register, a queue or a predicate (R32, R33, R36). -/
def Issue.regWaits (x : Issue) (d : Device) (i : Instr) : Bool :=
  (x.sources d i).any (fun s => match s with | .waits => true | _ => false) || x.behind d i

/-- The empty and queue checks of a word: the failed check of the lowest lane, else a wait. -/
def Issue.dynVerdict (x : Issue) (d : Device) (i : Instr) : Verdict :=
  match (x.sources d i).filterMap (fun s => match s with | .fails f => some f | _ => none) with
  | f :: fs => let g := fs.foldl Failed.lower f; .trap g.1 g.2
  | [] => if x.regWaits d i || x.serialWaits i then .wait else .go

/-- A queue source of a word holds a value marked in error in this lane (R423). -/
def Group.queueErr (g : Group) (vs : List (Nat × Bool)) (lane : Nat) : Bool :=
  (List.range vs.length).any (fun n =>
    match vs[n]? with
    | none => false
    | some (r, _) =>
      if r < 56 then false
      else
        match g.qEntry (r - 56) ((g.slice (lane / 4)).qAt (r - 56) + popIndex vs n) with
        | some e => e.err.contains lane
        | none => false)

/-- Traps that performing the word meets before its effect: a value marked in error (R423), and an order-sensitive form in
a promised launch (R317). -/
def Issue.preVerdict (x : Issue) (d : Device) (i : Instr) : Verdict :=
  let o := operands i
  let gr := x.view
  let gq := d.view x.agent
  if orderSensitive i && (d.ctx (d.ctxOf x.agent)).promise then .trap .determ none
  else if gr.vBad.isEmpty && gr.sBad.isEmpty && o.pops.isEmpty then .go
  else
    match x.act.find? (fun l =>
        o.v.any (fun p => p.1 < 56 && Fmap.get false gr.vBad (p.1 * 256 + l)) || gq.queueErr o.v l) with
    | some l => .trap .ecc (some l)
    | none => if o.s.any (fun p => Fmap.get false gr.sBad p.1) then .trap .ecc none else .go

/-- All the checks of one word, in order. -/
def Issue.verdict (x : Issue) (d : Device) (i : Instr) : Verdict :=
  match x.staticCause d i with
  | some c => .trap c none
  | none => Verdict.first [x.dynVerdict d i, x.preVerdict d i]

/-! Performing a word. -/

/-- A trap cancels the packet: it is taken from the device as it stood when the packet began (R56). -/
def State.trapNow (s : State) (x : Issue) (fix : Device → Device) (c : Cause) (lane : Option Nat) (code : BitVec 16) : State :=
  { s with dev := (fix x.base).trapEntry x.agent x.slices x.pc x.word c.code lane code false false,
           iss := some { x with status := .trapped } }
/-- The packet cannot issue yet. -/
def State.waitNow (s : State) (x : Issue) : State :=
  { s with dev := x.base, iss := some { x with status := .waits } }
/-- A translation fault: no word of the packet is performed (R371). -/
def State.faultNow (s : State) (x : Issue) (c : Cause) (lane : Option Nat) (addr : DWord) : State :=
  { s with dev := x.base.faultEntry x.agent x.slices x.pc x.word c lane addr,
           iss := some { x with status := .faulted } }

/-- Each queue the word names is popped in every member slice (R36, R73). -/
def Device.popWord (d : Device) (x : Issue) (i : Instr) : Device :=
  match (operands i).pops with
  | [] => d
  | qs => d.modView x.agent (fun g => g.pop qs x.slices)

/-- The state after a word's effect. -/
def State.settle (s : State) (x : Issue) (i : Instr) (moved : Bool) (e : Eff) : State :=
  match e with
  | .ok d => { s with dev := d.popWord x i, iss := some { x with moved := x.moved || moved } }
  | .wait => s.waitNow x
  | .waitOn fix => { s with dev := fix x.base, iss := some { x with status := .asked } }
  | .trap c l code => s.trapNow x id c l code
  | .trapOn fix c => s.trapNow x fix c none 0
  | .double =>
    let c := x.base.ctxOf x.agent
    let p := ((x.base.ctx c).preempt).getD (x.base.newPreempt c 3)
    { s with dev := x.base.resetCtx c Config.doubleTrapCause { p with doubleTrap := true },
             iss := some { x with status := .trapped } }
  | .fault c l addr => s.faultNow x c l addr

/-- Perform one word of the packet in issue: its checks, then its effect. A lane word whose act is empty in every member
slice performs nothing (R73, R140); a word `always` performed acts whatever the masks hold. `moved` says that the word
sets the packet counters. -/
def State.runWord (s : State) (i : Instr) (always moved : Bool) (eff : Issue → Device → Eff) :
    Host.Outcome State Fault Refusal :=
  match s.iss with
  | none => .refused .noIssue
  | some x =>
    .next (match x.verdict s.dev i with
      | .trap c l => s.trapNow x id c l 0
      | .wait => s.waitNow x
      | .go => if always || !x.act.isEmpty then s.settle x i moved (eff x s.dev) else s.settle x i false (.ok s.dev))

/-- A word performed for the lanes of act, or once for the gang in the uniform form. -/
def State.runLanes (s : State) (i : Instr) (eff : Issue → Device → Eff) : Host.Outcome State Fault Refusal :=
  s.runWord i false false eff
/-- A word performed once for the gang whatever its masks hold. -/
def State.runGang (s : State) (i : Instr) (eff : Issue → Device → Eff) : Host.Outcome State Fault Refusal :=
  s.runWord i true false eff
/-- A word that sets the packet counters of the gang. -/
def State.runMove (s : State) (i : Instr) (eff : Issue → Device → Eff) : Host.Outcome State Fault Refusal :=
  s.runWord i true true eff

/-- An event of the machine: it always has a next state. -/
def State.event (s : State) (f : Device → Device) : Host.Outcome State Fault Refusal := .next { s with dev := f s.dev }

/-! Results. -/

/-- The register words that hold one value a lane. -/
def laneWords (r : Nat) (wide : Bool) (vs : List (Nat × DWord)) : List (Nat × Word) :=
  if wide then
    vs.map (fun p => (r * 256 + p.1, bitsOf p.2 0 32)) ++ vs.map (fun p => ((r + 1) * 256 + p.1, bitsOf p.2 32 32))
  else vs.map (fun p => (r * 256 + p.1, bitsOf p.2 0 32))

/-- Write a value in each lane of a list, full, with the flags of the word (R139, R155). -/
def Device.putLanes (d : Device) (x : Issue) (r : Nat) (wide : Bool) (vs : List (Nat × DWord)) (fl : BitVec 5) : Device :=
  d.modView x.agent (fun g =>
    let g := (g.setV (laneWords r wide vs)).markV false (if wide then [r, r + 1] else [r]) x.actSlices
    { g with flags := g.flags ||| fl })
/-- Write an s register, full. -/
def Device.putS (d : Device) (x : Issue) (r : Nat) (v : DWord) (fl : BitVec 5) : Device :=
  d.modView x.agent (fun g =>
    let g := (g.setS r v).markS false [r]
    { g with flags := g.flags ||| fl })
/-- Write a predicate in each lane of a list. -/
def Device.putP (d : Device) (x : Issue) (p : Nat) (vs : List (Nat × Bool)) (fl : BitVec 5) : Device :=
  d.modView x.agent (fun g =>
    let g := g.setP (vs.map (fun q => (p * 256 + q.1, q.2)))
    { g with flags := g.flags ||| fl })

/-- A fill with no s register and no reply awaited. -/
def Fill.lanes (a : Agent) (slices : List Nat) (words : List (Nat × Word)) (full : List Nat) (fl : BitVec 5) (k : Sets) : Fill :=
  { agent := a, issued := slices, v := words, vFull := full, s := [], sFull := [], flags := fl, sets := k, await := 0, tag := 0, vErr := [], sErr := false }
/-- A fill of one s register. -/
def Fill.scalar (a : Agent) (slices : List Nat) (r : Nat) (v : DWord) (fl : BitVec 5) (k : Sets) : Fill :=
  { agent := a, issued := slices, v := [], vFull := [], s := [(r, v)], sFull := [r], flags := fl, sets := k, await := 0, tag := 0, vErr := [], sErr := false }

/-- Mark the destination empty at issue and fill it later (R31). -/
def Device.laterLanes (d : Device) (x : Issue) (r : Nat) (wide : Bool) (vs : List (Nat × DWord)) (fl : BitVec 5) (k : Sets) : Device :=
  let rs := if wide then [r, r + 1] else [r]
  let d := d.modView x.agent (fun g => g.markV true rs x.actSlices)
  { d with fills := d.fills ++
      [Fill.lanes x.agent x.slices (laneWords r wide vs) (rs.flatMap (fun n => x.actSlices.map (fun s => n * 64 + s))) fl k] }
/-- The same for an s register. -/
def Device.laterS (d : Device) (x : Issue) (r : Nat) (v : DWord) (fl : BitVec 5) (k : Sets) : Device :=
  let d := d.modView x.agent (fun g => g.markS true [r])
  { d with fills := d.fills ++ [Fill.scalar x.agent x.slices r v fl k] }

/-- A producer writes its destination (R31): values, full bits, flags, and the mark of a value in error (R423). -/
def Group.applyFill (g : Group) (f : Fill) : Group :=
  let g := g.setV f.v
  let g := f.s.foldl (fun g p => g.setS p.1 p.2) g
  { g with
    vEmpty := Fmap.setAll false g.vEmpty (f.vFull.map (fun k => (k, false)))
    sEmpty := Fmap.setAll false g.sEmpty (f.sFull.map (fun k => (k, false)))
    vBad := Fmap.setAll false g.vBad (f.vErr.map (fun k => (k, true)))
    sBad := if f.sErr then Fmap.setAll false g.sBad (f.s.map (fun p => (p.1, true))) else g.sBad
    flags := g.flags ||| f.flags }

end Sys2Proof.Machine
end

