-- ==== Sys2Proof/Machine/Alu.lean ====
section
/-! DEFINITION. The shared shape of A-format words: a value computed in each lane of act, or once for the gang from its
s registers (R138 to R140), written now or by a later fill (R31). -/

namespace Sys2Proof.Machine

/-- The result of one lane: a value and the flags it sets. -/
abbrev LaneVal := DWord × BitVec 5

/-- The s register image of a 32-bit or 64-bit result: the sign extension for i32, zero for every other 32-bit type
(R138). -/
def uniValue (wide signed : Bool) (v : DWord) : DWord :=
  if wide then v else if signed then sext (bitsOf v 0 32) else zext (bitsOf v 0 32)

/-- Flags of a list of lane results (R146). -/
def orFlags (vs : List (Nat × LaneVal)) : BitVec 5 := vs.foldl (fun m p => m ||| p.2.2) 0

/-- The lane results of a word. -/
def Issue.lanesWith (x : Issue) (f : Nat → LaneVal) : List (Nat × LaneVal) := x.act.map (fun l => (l, f l))

/-- An A word that writes d full: `f` gives a lane's result, and in the uniform form that of the lane `lead`. -/
def putA (w : AWord) (x : Issue) (d : Device) (wide signed : Bool) (f : Nat → LaneVal) : Eff :=
  if w.u then
    let r := f x.lead
    .ok (d.putS x w.d.toNat (uniValue wide signed r.1) r.2)
  else
    let vs := x.lanesWith f
    .ok (d.putLanes x w.d.toNat wide (vs.map (fun p => (p.1, p.2.1))) (orFlags vs))

/-- The same, marking d empty at issue and filling it later. -/
def laterA (w : AWord) (x : Issue) (d : Device) (wide : Bool) (k : Sets) (f : Nat → LaneVal) : Eff :=
  if w.u then
    let r := f x.lead
    .ok (d.laterS x w.d.toNat r.1 r.2 k)
  else
    let vs := x.lanesWith f
    .ok (d.laterLanes x w.d.toNat wide (vs.map (fun p => (p.1, p.2.1))) (orFlags vs) k)

/-- A word that writes a predicate: in the uniform form every lane of act takes the same value (R140). -/
def predA (w : AWord) (x : Issue) (d : Device) (p : BitVec 3) (f : Nat → Bool × BitVec 5) : Eff :=
  let vs := if w.u then let r := f x.lead; x.act.map (fun l => (l, r)) else x.act.map (fun l => (l, f l))
  .ok (d.putP x p.toNat (vs.map (fun q => (q.1, q.2.1))) (vs.foldl (fun m q => m ||| q.2.2) 0))

/-- The `fmt` of a lane's slice, or of the leading lane's in the uniform form; 0 in a scalar thread (R130, R140). -/
def Issue.fmtAt (x : Issue) (lane : Nat) : Word := (x.view.slice (lane / 4)).fmt

end Sys2Proof.Machine
end

