-- ==== Sys2Proof/Machine/Move.lean ====
section
/-! DEFINITION. `fmt` (R159, R160, R260), moves (R161, R162) and system values (R163, R164). -/

namespace Sys2Proof.Machine

/-- `fmtset`: the `fmt` of every member slice with a lane that passes the guard; reserved bits are stored as 0 (R159). -/
def fmtsetEff (w : AWord) (x : Issue) (d : Device) : Eff :=
  let v : Word := match w.ext with
    | some p => p.setWidth 32
    | none => bitsOf (x.view.sAt w.a.toNat) 0 32
  .ok (d.modView x.agent (fun g => g.modSlices x.actSlices (fun s => { s with fmt := v &&& 3 })))
def execFmtset (w : AWord) (s : State) := s.runLanes (.fmtset w) (fmtsetEff w)

/-- `fmtget` (R160). -/
def fmtgetEff (w : AWord) (x : Issue) (d : Device) : Eff := putA w x d false false (fun l => (zext (x.fmtAt l), 0))
def execFmtget (w : AWord) (s : State) := s.runLanes (.fmtget w) (fmtgetEff w)

/-- `mov` (R161): a register of the same kind, an s register into every lane, or a queue, which fills d later (R31). -/
def movEff (w : AWord) (x : Issue) (d : Device) : Eff :=
  let gr := x.view
  let gq := d.view x.agent
  let wide := wideT w.t
  if w.b == 1 then
    putA w x d wide false (fun _ => (let v := gr.sAt w.a.toNat; if wide then v else zext (bitsOf v 0 32), 0))
  else if early (.mov w) then laterA w x d wide .nothing (fun l => (w.aVal gr gq wide l, 0))
  else putA w x d wide (w.t == 0) (fun l => (w.aVal gr gq wide l, 0))
def execMov (w : AWord) (s : State) := s.runLanes (.mov w) (movEff w)

/-- `movi` (R162). -/
def moviEff (w : AWord) (x : Issue) (d : Device) : Eff :=
  let v := if w.a == 0 then intImm w.t (w.ext.getD 0) else floatImm w.t (w.ext.getD 0)
  putA w x d (w.a == 0 && wideT w.t) (w.a == 0 && w.t == 0) (fun _ => (v, 0))
def execMovi (w : AWord) (s : State) := s.runLanes (.movi w) (moviEff w)

/-- `%tid` of a lane (R23): its own number when spawn moved it, else from block, group and lane. -/
def Device.tidOf (d : Device) (a : Agent) (lane : Nat) : Nat :=
  match a with
  | .group b k =>
    let x := d.block b
    let g := x.group k
    if g.spawned then Fmap.get 0 g.tids lane
    else x.idx * (d.ctx x.ctx).packet.groups * 256 + k * 256 + lane
  | _ => 0

/-- The place of an agent: block index, cluster in its die, core in its cluster (R23). A cluster handler has no block;
its `%blk` and `%core` are open (DESIGN CHOICE, assumption 2). -/
def Device.placeOf (d : Device) (a : Agent) (code : Nat) : DWord :=
  match a.blk? with
  | some b =>
    let x := d.block b
    BitVec.ofNat 64 (match code with | 3 => x.idx | 5 => x.core % 32 / 4 | _ => x.core % 4)
  | none =>
    match a with
    | .handler c => if code = 5 then BitVec.ofNat 64 (c % 8) else Config.handlerPlace c code
    | _ => 0

/-- The value a `getsv` code names, for a lane (R163). -/
def Issue.sysValue (x : Issue) (code lane : Nat) : DWord :=
  let d := x.rd
  let g := x.view
  match code with
  | 0 => BitVec.ofNat 64 lane
  | 1 => BitVec.ofNat 64 (lane / 4)
  | 2 => BitVec.ofNat 64 (match x.agent with | .group _ k => k | _ => 0)
  | 4 => BitVec.ofNat 64 (d.tidOf x.agent lane)
  | 7 => BitVec.ofNat 64 (d.dieOf x.agent)
  | 8 => zext d.ham.devNum
  | 9 | 12 => zext (g.ckfAt lane)
  | 10 | 11 => zext g.flags
  | c => d.placeOf x.agent c

/-- An instruction that a member slice issued, and that can set this, has still to write its results (R164). -/
def Device.setsPending (d : Device) (a : Agent) (k : Sets) (slices : List Nat) : Bool :=
  d.fills.any (fun f => f.agent == a && f.sets == k && f.issued.any slices.contains)
/-- An instruction that can set a flag, lane instances among them, has still to write its results (R164). -/
def Device.flagsPending (d : Device) (a : Agent) (slices : List Nat) : Bool :=
  d.setsPending a .flags slices ||
    (d.view a).laneInsts.any (fun x => laneFlags x.word && slices.any (fun s => bitOf x.issued s))

/-- What `getsv` clears beside its read (R163). -/
def Group.svClear (g : Group) (code : Nat) (read : BitVec 5) (acts : List Nat) : Group :=
  match code with
  | 11 => { g with flags := g.flags &&& ~~~read }
  | 12 => { g with ckf := Fmap.setAll 0 g.ckf (acts.map (fun l => (l, 0))) }
  | _ => g

/-- What a `getsv` of this code waits for, had issued when its chain began (R164). -/
def Issue.svWaits (x : Issue) (code : Nat) : Bool :=
  ((code == 10 || code == 11) && x.rd.flagsPending x.agent x.slices) ||
    ((code == 9 || code == 12) && x.rd.setsPending x.agent .ckf x.actSlices)

/-- `getsv` (R163, R164). -/
def getsvEff (w : AWord) (x : Issue) (d : Device) : Eff :=
  let code := w.a.toNat
  if x.svWaits code then .wait
  else
    putA w x (d.modView x.agent (fun g => g.svClear code x.view.flags x.act)) w.u false (fun l => (x.sysValue code l, 0))
def execGetsv (w : AWord) (s : State) := s.runLanes (.getsv w) (getsvEff w)

end Sys2Proof.Machine
end

