-- ==== Sys2Proof/Machine/Access.lean ====
section
/-! DEFINITION. Memory accesses of lanes, shared by every word that loads or stores: decoding the addresses, waiting for
lines that an engine or the host holds, loads with their fill (R31, R167), stores at commit (R56, R168), and the messages
that accesses to other devices send (R421, R422). -/

namespace Sys2Proof.Machine

/-- One access: its lane, none for a uniform word, its address, and where its bytes lie. -/
structure LaneAcc where
  lane : Option Nat
  ea : DWord
  locs : List Loc
  deriving DecidableEq, Repr, Inhabited

/-- Decode accesses of n bytes in order; the first that fails decides. -/
def Device.reachAll (d : Device) (a : Agent) (priv : Bool) (k : Acc) (n : Nat) :
    List (Option Nat × DWord) → Except Eff (List LaneAcc)
  | [] => .ok []
  | (l, ea) :: rest =>
    match d.reach a priv k ea n with
    | .error b => .error (b.eff l ea)
    | .ok ls =>
      match d.reachAll a priv k n rest with
      | .error e => .error e
      | .ok more => .ok ({ lane := l, ea := ea, locs := ls } :: more)

/-- The accesses of an issue. -/
def Issue.reach (x : Issue) (d : Device) (k : Acc) (n : Nat) (eas : List (Option Nat × DWord)) : Except Eff (List LaneAcc) :=
  d.reachAll x.agent x.view.priv k n eas

/-- The effective addresses of an M word: one a lane of act, or one of the gang (R166, R172). -/
def Issue.laneEAs (x : Issue) (d : Device) (w : MWord) : List (Option Nat × DWord) :=
  let gr := x.view
  let gq := d.view x.agent
  if w.u then [(none, w.laneEA gr gq x.lead)] else x.act.map (fun l => (some l, w.laneEA gr gq l))

/-- All locations of accesses. -/
def locsOf (as : List LaneAcc) : List Loc := as.flatMap LaneAcc.locs

/-- A line an engine owns, or one the host caches, holds an access back (R231, R414). -/
def Device.heldLines (d : Device) (ls : List Loc) : Bool :=
  let lines := d.linesOf ls
  lines.any d.owned || lines.any (fun n => d.fab.hostLines.contains n)
/-- So does a self-test of what an access reaches (R442). -/
def Device.held (d : Device) (ls : List Loc) : Bool := d.heldLines ls || d.underTest ls

/-- Locations of an address that must lie in ordinary memory of this device, outside the scratchpad window (R308, R313,
R422). -/
def Device.ordinary (d : Device) (a : Agent) (k : Acc) (ea : DWord) (n : Nat) (lane : Option Nat) : Except Eff (List Loc) :=
  if (bitsOf ea 56 8).toNat != 0 || (d.ctx (d.ctxOf a)).inScratch (bitsOf ea 0 56).toNat then .error (.trap .perm lane 0)
  else
    match d.reach a (d.view a).priv k ea n with
    | .error b => .error (b.eff lane ea)
    | .ok ls => if ls.any isRemote then .error (.trap .perm lane 0) else .ok ls

/-- The address of a word whose index is a whole s register. -/
def fullEA (w : MWord) (g : Group) : DWord := w.addrFull (g.sAt w.base.toNat) (g.sAt w.index.toNat)

/-! Bytes of other devices that a word needs before it acts (R422). -/

/-- What a word finds of the bytes it needs. -/
inductive Got where
  | bytes (bs : List Byte)
  /-- some have still to be asked for -/
  | ask (fix : Device → Device)
  /-- every one has been asked for, and some have not come -/
  | wait
  /-- a message failed (R423) -/
  | lost

/-- The answer that a run of bytes has had. -/
def Device.fetchedRun (d : Device) (a : Option Agent) (gang : Option Nat) (r : BitVec 12 × Nat × Nat × Nat) : Option (Option (List Byte)) :=
  (d.fab.fetched.find? (fun f => f.agent == a && f.gang == gang && f.dev == r.1 && f.addr == r.2.1 &&
    (match f.bytes with | some bs => r.2.2.2 ≤ bs.length | none => true))).map Fetched.bytes

/-- The bytes at locations: here as they stand, of other devices as they have come, for an agent of a context. -/
def Device.fetch (d : Device) (a : Option Agent) (c : Nat) (gang : Option Nat) (ls : List Loc) : Got :=
  let rs := remoteRuns ls 0
  let got := rs.map (fun r => (r, d.fetchedRun a gang r))
  if got.any (fun p => p.2 == some none) then .lost
  else if got.all (fun p => p.2.isSome) then
    .bytes (ls.mapIdx (fun i l =>
      match got.find? (fun p => decide (p.1.2.2.1 ≤ i) && decide (i < p.1.2.2.1 + p.1.2.2.2)) with
      | some (r, some (some bs)) => (bs[i - r.2.2.1]?).getD 0
      | _ => d.byteAt l))
  else
    let out := (got.filter (fun p => p.2.isNone)).map Prod.fst
    let new := out.filter (fun r => !d.fab.remotes.any (fun o =>
      o.agent == a && o.use == .fetch gang && o.dev == r.1 && o.addr == r.2.1 && o.cnt == r.2.2.2))
    if new.isEmpty then .wait
    else .ask (fun b => new.foldl (fun b r => b.ask { plainOp a c r.1 0 r.2.1 r.2.2.2 with use := .fetch gang }) b)

/-- The bytes, or what the word comes to without them. -/
def Device.fetchOr (d : Device) (a : Agent) (gang : Option Nat) (ls : List Loc) : Except Eff (List Byte) :=
  match d.fetch (some a) (d.ctxOf a) gang ls with
  | .bytes bs => .ok bs
  | .ask fix => .error (.waitOn fix)
  | .wait => .error .wait
  | .lost => .error (.trap .ecc none 0)

/-- What an agent's gang has asked for serves no more: its packet has been performed, or has been cancelled. -/
def Device.dropFetched (d : Device) (a : Option Agent) (slices : List Nat) : Device :=
  let hit := fun (g : Option Nat) => match g with | none => true | some n => slices.contains n
  if d.fab.fetched.isEmpty && !d.fab.remotes.any (fun r => r.agent == a) then d
  else
    { d with fab := { d.fab with
        fetched := d.fab.fetched.filter (fun f => !(f.agent == a && hit f.gang))
        remotes := d.fab.remotes.map (fun r =>
          match r.use with
          | .fetch g => if r.agent == a && hit g then { r with use := .done } else r
          | _ => r) } }

/-! Order behind accesses to other devices (R282 to R301). Accesses of this device are performed as they issue, in one order;
one to another device is performed when its message comes there, so a later word waits for it where a matrix holds K. -/

/-- The request belongs to these slices of an agent, or to the agent as a whole. -/
def RemoteOp.ofGang (r : RemoteOp) (a : Agent) (slices : List Nat) : Bool :=
  r.agent == some a &&
    (r.parts.isEmpty || r.parts.any (fun p => match p.lane with | none => true | some l => slices.contains (l / 4)))

/-- The same, of one whose answer is still to come. -/
def RemoteOp.of (r : RemoteOp) (a : Agent) (slices : List Nat) : Bool := r.ofGang a slices && !r.failed

/-- A load or an atomic of a thread whose value has not come, or is not known to have been performed. -/
def RemoteOp.reads (r : RemoteOp) : Bool :=
  match r.use with
  | .fill _ => true
  | .done => r.kind == 4
  | .poll => true
  | _ => false
/-- A store or an atomic that has not been acknowledged. -/
def RemoteOp.writes (r : RemoteOp) : Bool :=
  match r.use with
  | .fill _ | .done | .unit | .image _ _ _ => r.kind == 2 || r.kind == 4
  | _ => false

/-- What a word has sent, and its agent awaits before it issues a later packet: the stores of a walker word (R177, R211, R214), and a handler's
images (R117). -/
def RemoteOp.holds (r : RemoteOp) (a : Agent) : Bool :=
  !r.failed &&
    match r.use, a with
    | .mapBit _ _ word, _ => word == some a
    | .image _ _ _, .handler _ => r.agent == some a
    | .unit, _ => r.agent == some a
    | _, _ => false

/-- The words that access memory or order accesses, and so follow an earlier acquire. -/
def ordersAny (i : Instr) : Bool :=
  match i with
  | .ld _ | .st _ | .ldl _ | .stl _ | .cp _ | .cpwait _ | .qld _ | .stmap _ | .stunmap _ | .stfl _ | .kvx _ => true
  | .atom _ | .atomOrdAdd _ | .red _ | .redOrd _ | .append _ | .appendDecl _ | .eflush _ | .fence _ => true
  | .barSync _ | .barArrive _ | .barWait _ | .pbarArrive _ | .pbarWait _ | .monwait _ | .monwake _ | .drain _ => true
  | .cksplit _ | .wkset _ | .wksetImg _ | .wkadd _ | .wknext _ | .wkstat _ | .wkstatImg _ => true
  | .minit _ | .mtile _ | .mma _ | .crmm _ | .mdrain _ | .mload _ | .crdrain _ | .crload _ | .crmerge _ | .crstat _ => true
  | _ => false
/-- The words that write memory or issue an engine's operation, which follow every earlier load (R285). -/
def ordersWrites (i : Instr) : Bool :=
  match i with
  | .st _ | .stl _ | .cp _ | .qld _ | .stmap _ | .stunmap _ | .stfl _ => true
  | .atom _ | .atomOrdAdd _ | .red _ | .redOrd _ | .append _ | .cksplit _ => true
  | .wkset _ | .wksetImg _ | .wkadd _ | .wknext _ | .wkstat _ | .wkstatImg _ | .pbarArrive _ => true
  | .mma _ | .crmm _ | .mdrain _ | .mload _ | .crdrain _ | .crload _ | .crstat _ => true
  | _ => false
/-- The words that release, at any scope, every earlier access of their thread (R282). -/
def ordersAll (i : Instr) : Bool :=
  match i with
  | .st w | .stl w | .atom w | .red w | .fence w | .stunmap w | .stfl w | .monwake w | .pbarArrive w => bitOf w.order 1
  | .barSync _ | .barArrive _ | .drain _ => true
  | .eflush w => !bitOf w.func 0
  | .cp _ => true
  | .minit _ | .mtile _ | .mma _ | .crmm _ | .mdrain _ | .mload _ | .crdrain _ | .crload _ | .crmerge _ | .crstat _ => true
  | _ => false

/-- The words that can be a strong access or fence beside an earlier one: they take effect in one order with it (R284, R286). -/
def ordersStrong (i : Instr) : Bool :=
  match i with
  | .ld w | .ldl w => bitOf w.order 0
  | .atom _ | .red _ | .fence _ => true
  | _ => false

/-- An earlier access to another device that a word must follow is still to be performed: an acquire, or a load before a
write, or anything before a release or between strong accesses (R284 to R286, R294 to R301). An access slice's acquiring queue loads count as well (R243). -/
def Device.orderWaits (d : Device) (a : Agent) (slices : List Nat) (i : Instr) : Bool :=
  let mine := d.fab.remotes.filter (fun r => r.of a slices)
  (ordersAny i && (mine.any (fun r => r.acq) ||
      d.qfills.any (fun f => f.acq && (match a with | .access b => f.blk == b | _ => false)))) ||
    (ordersWrites i && mine.any RemoteOp.reads) ||
    ((ordersAll i || ordersStrong i) && mine.any (fun r => r.reads || r.writes))

/-- The words whose order and scope make them a release at `sys`. -/
def sysRel (w : MWord) : Bool := w.scope == 5 && bitOf w.order 1

/-- A message of a gang failed that its release at `sys` waited for (R423). -/
def Device.ackFailed (d : Device) (a : Agent) (slices : List Nat) : Bool := d.fab.remotes.any (fun r => r.ofGang a slices && r.failed)
/-- The failed messages of a gang have been met. -/
def Device.clearFailed (d : Device) (a : Agent) (slices : List Nat) : Device :=
  { d with fab := { d.fab with remotes := d.fab.remotes.filter (fun r => !(r.ofGang a slices && r.failed)) } }

/-- An effect of a word of a gang that may be a release at `sys`: after a failed store or atomic it traps with ECC (R423). -/
def Device.relAct (d : Device) (a : Agent) (slices : List Nat) (sys : Bool) (e : Eff) : Eff :=
  if sys && d.ackFailed a slices then .trapOn (fun b => b.clearFailed a slices) .ecc else e

/-- Perform an effect once the release of the word may complete. -/
def Issue.released (x : Issue) (d : Device) (sys : Bool) (e : Eff) : Eff := d.relAct x.agent x.slices sys e

/-- A remote-scope acquire of this device's memory combines update-only copies (R288). -/
def Device.promote (d : Device) (w : MWord) (as : Except Eff (List LaneAcc)) : Device :=
  match as with
  | .ok as => if w.scope == 7 && bitOf w.order 0 && as.any (fun a => !a.locs.any isRemote) then { d with ulines := [] } else d
  | .error _ => d

/-! Loads. -/

/-- A loaded value as its size extends it (R167). -/
def extendVal (sz : BitVec 3) (v : DWord) : DWord :=
  match sz.toNat with
  | 0 => zext (bitsOf v 0 8)
  | 1 => zext (bitsOf v 0 16)
  | 4 => sext (bitsOf v 0 8)
  | 5 => sext (bitsOf v 0 16)
  | 3 => v
  | _ => zext (bitsOf v 0 32)

/-- The requests of one access of a load: to another device, or to every replica of a reduction (R421, R424). -/
def Device.loadOps (d : Device) (a : Agent) (tag : Nat) (r : RegNo) (sz : BitVec 3) (acq : Bool) (x : LaneAcc) : List RemoteOp :=
  let c := d.ctxOf a
  let op := fun (dev : BitVec 12) (kind : BitVec 4) (off pos cnt : Nat) =>
    { plainOp (some a) c dev kind off cnt with
      use := .fill tag, reg := r, size := sz, acq := acq, parts := [{ lane := x.lane, pos := pos, off := 0, cnt := cnt }] }
  match x.locs with
  | .reduction off :: _ =>
    match d.replicas c with
    | [] => []
    | n :: more => [{ op n 8 off 0 (sizeBytes sz) with left := n :: more, acc := d.valueAt x.locs }]
  | ls => (remoteRuns ls 0).map (fun q => op q.1 0 q.2.1 q.2.2.1 q.2.2.2)

/-- The one line of another device in which every access lies, for a coalesced line access (R236). -/
def remoteLine (as : List LaneAcc) : Option (BitVec 12 × Nat) :=
  match locsOf as with
  | .remote n off :: _ =>
    if (locsOf as).all (fun l => match l with | .remote m o => m == n && o / 128 == off / 128 | _ => false) then some (n, off / 128 * 128)
    else none
  | _ => none

/-- The place of an access in its line. -/
def LaneAcc.inLine (x : LaneAcc) : Nat := match x.locs with | .remote _ off :: _ => off % 128 | _ => 0

/-- The requests of a load: a coalesced line access is one message, so that it is one event at the line (R236). -/
def Device.loadReqs (d : Device) (a : Agent) (tag : Nat) (r : RegNo) (sz : BitVec 3) (acq line : Bool) (as : List LaneAcc) : List RemoteOp :=
  match if line then remoteLine as else none with
  | some (n, off) =>
    [{ plainOp (some a) (d.ctxOf a) n 0 off 128 with
        use := .fill tag, reg := r, size := sz, acq := acq
        parts := as.map (fun x => { lane := x.lane, pos := 0, off := x.inLine, cnt := sizeBytes sz }) }]
  | none => as.flatMap (d.loadOps a tag r sz acq)

/-- Write values into register r later: mark it empty in the slices of act, or the s register, and fill it once every reply
has come (R31). `tag` names the fill, which awaits `n` replies. -/
def Device.fillTo (d : Device) (x : Issue) (u wide : Bool) (r : RegNo) (vals : List (LaneAcc × DWord)) (tag n : Nat) : Device :=
  let lost := fun (a : LaneAcc) => a.locs.any d.lostByte
  let d := d.meetLost (d.ctxOf x.agent) (vals.flatMap (fun p => p.1.locs))
  if u then
    let v := match vals with | p :: _ => p.2 | [] => 0
    let d3 := d.modView x.agent (fun g => g.markS true [r.toNat])
    { d3 with fills := d3.fills ++
        [{ Fill.scalar x.agent x.slices r.toNat v 0 .nothing with tag := tag, await := n, sErr := vals.any (fun p => lost p.1) }] }
  else
    let rs := if wide then [r.toNat, r.toNat + 1] else [r.toNat]
    let lanes := vals.map (fun p => (p.1.lane.getD 0, p.2))
    let d3 := d.modView x.agent (fun g => g.markV true rs x.actSlices)
    let err := (vals.filter (fun p => lost p.1)).flatMap (fun p => rs.map (fun k => k * 256 + p.1.lane.getD 0))
    { d3 with fills := d3.fills ++
        [{ Fill.lanes x.agent x.slices (laneWords r.toNat wide lanes) (rs.flatMap (fun k => x.actSlices.map (fun s => k * 64 + s))) 0 .nothing with
            tag := tag, await := n, vErr := err }] }

/-- How a load is performed: its size code, whether it is an acquire, and whether it is a line access. -/
structure LoadKind where
  size : BitVec 3
  acq : Bool
  line : Bool
  deriving DecidableEq, Repr

/-- Load into register r what `read` gives of each access (R31, R167). -/
def Device.loadWith (read : LaneAcc → DWord) (d : Device) (x : Issue) (u : Bool) (r : RegNo) (k : LoadKind) (as : List LaneAcc) : Device :=
  let tag := d.fab.tags + 1
  let vals := as.map (fun a => (a, extendVal k.size (read a)))
  let ops := d.loadReqs x.agent tag r k.size k.acq k.line as
  let d1 := d.touchLoads (locsOf as)
  let d2 := ops.foldl Device.ask { d1 with fab := { d1.fab with tags := tag } }
  d2.fillTo x u (k.size == 3) r vals tag ops.length

/-- Load into register r what memory holds. -/
def Device.loadTo (d : Device) (x : Issue) (u : Bool) (r : RegNo) (k : LoadKind) (as : List LaneAcc) : Device :=
  d.loadWith (fun a => d.valueAt a.locs) x u r k as

/-- A byte of the constant window as `ldc` reads it (R171). -/
def Device.constByte (d : Device) (c : Ctx) (r lane : Nat) (l : Loc) : Byte :=
  match l with
  | .mem pa => if Config.constFresh d.now r lane pa then d.byteAt l else Fmap.get 0 c.constMem pa
  | _ => d.byteAt l
/-- The value of an access to the constant window. -/
def Device.constAt (d : Device) (c : Ctx) (r : Nat) (a : LaneAcc) : DWord :=
  BitVec.ofNat 64 (bytesNat (a.locs.map (d.constByte c r (a.lane.getD 0))))

/-! Stores. -/

/-- Store bytes at an access: here, and by message where they lie elsewhere. A byte that no memory answers for is lost, and is met as a
failed message is (R416, R423). -/
def Device.storeBytes (d : Device) (a : Agent) (lane : Option Nat) (locs : List Loc) (bs : List Byte) : Device :=
  let c := d.ctxOf a
  let d1 := d.storeAll (locs.zip bs)
  let d2 := if locs.any isRemote then d1.storeRemote .done (some a) c lane locs bs else d1
  if locs.any d2.noMemory then
    let d3 := d2.meetLost c locs
    let op := { plainOp (some a) c d.ham.devNum 2 0 locs.length with failed := true, parts := [{ lane := lane, pos := 0, off := 0, cnt := locs.length }] }
    { d3 with fab := { d3.fab with remotes := d3.fab.remotes ++ [op] } }
  else d2
/-- Store a value at an access. -/
def Device.storeAt (d : Device) (a : Agent) (lane : Option Nat) (locs : List Loc) (v : DWord) : Device :=
  d.storeBytes a lane locs (bytesOf locs.length v)

/-- Stores of several lanes, ascending, so that the highest lane's byte stands (R168). -/
def Device.storeLanes (d : Device) (a : Agent) : List (LaneAcc × DWord) → Device
  | [] => d
  | (x, v) :: rest => (d.storeAt a x.lane x.locs v).storeLanes a rest

/-- A line store: one message where its lanes coalesce on a line of another device (R236). -/
def Device.storeLine (d : Device) (a : Agent) (ws : List (LaneAcc × DWord)) : Device :=
  match remoteLine (ws.map Prod.fst) with
  | none => d.storeLanes a ws
  | some (n, off) =>
    let op := { plainOp (some a) (d.ctxOf a) n 2 off 128 with
      parts := ws.map (fun p => { lane := p.1.lane, pos := 0, off := p.1.inLine, cnt := p.1.locs.length }) }
    d.request op { op.msg n with cells := ws.flatMap (fun p => (bytesOf p.1.locs.length p.2).mapIdx (fun i x => (p.1.inLine + i, x))) }

end Sys2Proof.Machine
end

