-- ==== Sys2Proof/WellFormed.lean ====
section
/-! DEFINITION. When an instruction's fields are ones its row and its entry allow (R59, R75). -/

namespace Sys2Proof

/-- The fields of the instruction are those its table row fixes and its entry lists. -/
def Instr.wellFormed (i : Instr) : Bool := rowOk i && legal i

/-- The proposition of `Instr.wellFormed`. -/
abbrev Instr.WellFormed (i : Instr) : Prop := i.wellFormed = true

end Sys2Proof
end

