-- ==== Sys2Proof/Decode.lean ====
section
/-! DEFINITION. The decoder, total on any words, and the encoder, both from the formats of R58 to R68 and the opcode map
R71. A word that no row of the table takes is rejected by name. -/

namespace Sys2Proof

/-- Why words are no instruction: each is ILLEGAL to the machine (R75). -/
inductive DecodeErr where
  /-- fewer bytes than a word -/
  | short
  /-- no row of the opcode table takes the word -/
  | noRow
  /-- an `ext` that the opcode requires does not follow (R74) -/
  | missingExt
  /-- an `ext` follows an opcode marked "never" (R71) -/
  | strayExt
  deriving DecidableEq, Repr

/-- Use of an `ext` in the opcode map (R71). -/
inductive ExtUse where
  | never | opt | req
  deriving DecidableEq, Repr

/-- The opcode of a word (R52). -/
abbrev opcodeOf (w : Word) : BitVec 7 := bitsOf w 24 7
/-- The chain bit of a word (R52). -/
abbrev chainOf (w : Word) : Bool := bitOf w 31
/-- The opcode of `ext` (R74). -/
abbrev extOpcode : BitVec 7 := 3

/-- The `ext` that serves a word: the next word, when it is one and the word is chained to it (R74). -/
def extAfter (w : Word) (nxt : Option Word) : Option (Payload × Bool) :=
  match nxt with
  | none => none
  | some n => if chainOf w && opcodeOf n == extOpcode then some (bitsOf n 0 24, chainOf n) else none

/-- The A format (R58). -/
def decodeA (use : ExtUse) (mk : AWord → Instr) (w : Word) (x : Option (Payload × Bool)) : Except DecodeErr Instr :=
  match use, x with
  | .never, some _ => .error .strayExt
  | .req, none => .error .missingExt
  | _, _ => .ok (mk {
      c := (match x with | some p => p.2 | none => chainOf w), d := bitsOf w 18 6, a := bitsOf w 12 6,
      b := bitsOf w 6 6, t := bitsOf w 3 3, ea := bitOf w 2, eb := bitOf w 1, u := bitOf w 0,
      ext := x.map Prod.fst })

/-- The B format (R63). -/
def decodeB (mk : BWord → Instr) (w : Word) (x : Option (Payload × Bool)) : Except DecodeErr Instr :=
  match x with
  | some _ => .error .strayExt
  | none => .ok (mk {
      c := chainOf w, p := bitsOf w 21 3, neg := bitOf w 20, cond := bitOf w 19, off := bitsOf w 0 19 })

/-- The M format and its payload (R64). -/
def decodeM (mk : MWord → Instr) (w : Word) (x : Option (Payload × Bool)) : Except DecodeErr Instr :=
  match x with
  | none => .error .missingExt
  | some (p, c) => .ok (mk {
      c := c, d := bitsOf w 18 6, base := bitsOf w 12 6, index := bitsOf w 6 6, func := bitsOf w 0 6,
      size := bitsOf p 21 3, scope := bitsOf p 18 3, order := bitsOf p 16 2, hint := bitsOf p 14 2, ea := bitOf p 13,
      u := bitOf p 12, off := bitsOf p 0 12 })

/-- The K format and its payload (R66). -/
def decodeK (mk : KWord → Instr) (w : Word) (x : Option (Payload × Bool)) : Except DecodeErr Instr :=
  match x with
  | none => .error .missingExt
  | some (p, c) => .ok (mk {
      c := c, d := bitsOf w 18 6, a := bitsOf w 12 6, b := bitsOf w 6 6, func := bitsOf w 0 6,
      dims := bitsOf p 21 3, bits := bitsOf p 16 5, op := bitsOf p 0 16 })

/-- The Q format and its payload (R67). -/
def decodeQ (mk : QWord → Instr) (w : Word) (x : Option (Payload × Bool)) : Except DecodeErr Instr :=
  match x with
  | none => .error .missingExt
  | some (p, c) => .ok (mk {
      c := c, n6 := bitsOf w 14 6, m2 := bitsOf w 12 2, fmt := bitsOf w 8 4, core := bitsOf w 6 2,
      ctx := bitOf w 5, low := bitsOf w 0 5, pay := p })

/-- The Y format (R68). -/
def decodeY (mk : YWord → Instr) (w : Word) (x : Option (Payload × Bool)) : Except DecodeErr Instr :=
  match x with
  | some _ => .error .strayExt
  | none => .ok (mk {
      c := chainOf w, d := bitsOf w 14 6, a := bitsOf w 8 6, imm := bitsOf w 0 8 })

/-- `nop` (R72). -/
def decodeNop (w : Word) (x : Option (Payload × Bool)) : Except DecodeErr Instr :=
  match x with
  | some _ => .error .strayExt
  | none => if bitsOf w 0 24 == 0 then .ok (.nop (chainOf w)) else .error .noRow

/-- `guard` (R73). -/
def decodeGuard (w : Word) (x : Option (Payload × Bool)) : Except DecodeErr Instr :=
  match x with
  | some _ => .error .strayExt
  | none => if chainOf w && bitsOf w 0 18 == 0 then
      .ok (.guard { p := bitsOf w 21 3, neg := bitOf w 20, count := bitsOf w 18 2 }) else .error .noRow

/-- The row of a Crest word, by its sub-opcode. -/
def rowQ (sub : Nat) (w : Word) (x : Option (Payload × Bool)) : Except DecodeErr Instr :=
  match sub with
  | 0 => decodeQ .minit w x
  | 1 => decodeQ .mtile w x
  | 2 => decodeQ .mma w x
  | 3 => decodeQ .crmm w x
  | 4 => decodeQ .mwait w x
  | 5 => decodeQ .mdrain w x
  | 6 => decodeQ .mload w x
  | 7 => decodeQ .crdrain w x
  | 8 => decodeQ .crload w x
  | 9 => decodeQ .crmerge w x
  | 10 => decodeQ .crstat w x
  | _ => .error .noRow

/-- The row of a `cacheop`, by its form. -/
def rowCache (form : Nat) (w : Word) (x : Option (Payload × Bool)) : Except DecodeErr Instr :=
  match form with
  | 0 => decodeY .cacheopAlloc w x
  | 1 => decodeY .cacheopWb w x
  | 2 => decodeY .cacheopInv w x
  | 3 => decodeY .cacheopWbinv w x
  | 4 => decodeY .cacheopWbWay w x
  | 5 => decodeY .cacheopInvWay w x
  | 6 => decodeY .cacheopWbinvWay w x
  | _ => .error .noRow

/-- The row of a system word, by its sub-opcode. -/
def rowY (sub : Nat) (w : Word) (x : Option (Payload × Bool)) : Except DecodeErr Instr :=
  match sub with
  | 0 => decodeY .csrr w x
  | 1 => if bitsOf w 0 8 == 0 then decodeY .csrwWaypart w x else decodeY .csrw w x
  | 2 => decodeY .tret w x
  | 3 => decodeY .tlbinv w x
  | 4 => rowCache (bitsOf w 0 8).toNat w x
  | 5 => decodeY .launch w x
  | 6 => decodeY .idle w x
  | 7 => decodeY .halt w x
  | 8 => decodeY .mfreeze w x
  | 9 => decodeY .mthaw w x
  | _ => .error .noRow

/-- The row an opcode selects. -/
def rowOf (op : Nat) (w : Word) (x : Option (Payload × Bool)) : Except DecodeErr Instr :=
  match op with
  | 1 => decodeNop w x
  | 2 => decodeGuard w x
  | 3 => .ok (.ext (chainOf w) (bitsOf w 0 24))
  | 4 => decodeB .br w x
  | 5 => decodeB .brs w x
  | 6 => decodeB .bri w x
  | 7 => decodeB .call w x
  | 8 => decodeB .ret w x
  | 9 => decodeB .join w x
  | 10 => decodeB .regang w x
  | 11 => decodeB .exit w x
  | 12 => decodeB .yield w x
  | 13 => decodeB .region w x
  | 14 => decodeB .bkpt w x
  | 15 => decodeB .trapi w x
  | 16 => decodeA .opt .add w x
  | 17 => decodeA .opt .sub w x
  | 18 => decodeA .opt .mul w x
  | 19 => decodeA .opt .mulhi w x
  | 20 => decodeA .opt .mad w x
  | 21 => decodeA .opt .min w x
  | 22 => decodeA .opt .max w x
  | 23 => decodeA .never .abs w x
  | 24 => decodeA .never .neg w x
  | 25 => decodeA .opt .and w x
  | 26 => decodeA .opt .or w x
  | 27 => decodeA .opt .xor w x
  | 28 => decodeA .never .not w x
  | 29 => decodeA .opt .shl w x
  | 30 => decodeA .opt .shr w x
  | 31 => decodeA .opt .sra w x
  | 32 => decodeA .opt .rot w x
  | 33 => decodeA .opt .bfx w x
  | 34 => decodeA .opt .bfi w x
  | 35 => decodeA .never .popc w x
  | 36 => decodeA .never .clz w x
  | 37 => decodeA .never .ctz w x
  | 38 => decodeA .opt .cmp w x
  | 39 => decodeA .opt .sel w x
  | 40 => decodeA .opt .fadd w x
  | 41 => decodeA .opt .fsub w x
  | 42 => decodeA .opt .fmul w x
  | 43 => decodeA .opt .fma w x
  | 44 => decodeA .opt .fmin w x
  | 45 => decodeA .opt .fmax w x
  | 46 => decodeA .never .fneg w x
  | 47 => decodeA .never .fabs w x
  | 48 => decodeA .opt .fcmp w x
  | 49 => decodeA .never .fclass w x
  | 50 => decodeA .opt .fscale w x
  | 51 => decodeA .never .frnd w x
  | 52 => decodeA .opt .fdot2 w x
  | 53 => decodeA .opt .fpack w x
  | 54 => decodeA .never .funpk w x
  | 55 => decodeA .never .frcp w x
  | 56 => decodeA .never .frsq w x
  | 57 => decodeA .never .fsqrt w x
  | 58 => decodeA .never .fexp2 w x
  | 59 => decodeA .never .flog2 w x
  | 60 => decodeA .never .cvt w x
  | 61 => decodeA .never .cvtbfp w x
  | 62 => decodeA .opt .fmtset w x
  | 63 => decodeA .never .fmtget w x
  | 64 => decodeA .never .mov w x
  | 65 => decodeA .req .movi w x
  | 66 => decodeA .opt .lmov w x
  | 67 => decodeA .opt .bcast w x
  | 68 => decodeA .never .vred w x
  | 69 => decodeA .never .vscan w x
  | 70 => decodeA .never .vote w x
  | 71 => decodeA .never .sample w x
  | 72 => decodeM .ld w x
  | 73 => decodeM .st w x
  | 74 => decodeM .ldc w x
  | 75 => decodeM .ldl w x
  | 76 => decodeM .stl w x
  | 77 => decodeM .cp w x
  | 78 => decodeM .cpclose w x
  | 79 => decodeM .cpwait w x
  | 80 => decodeM .qld w x
  | 81 => decodeM .stmap w x
  | 82 => decodeM .stunmap w x
  | 83 => decodeM .stfl w x
  | 84 => decodeM .pref w x
  | 85 => decodeM .kvx w x
  | 86 => if bitOf w 5 then decodeM .atomOrdAdd w x else decodeM .atom w x
  | 87 => if bitOf w 5 then decodeM .redOrd w x else decodeM .red w x
  | 88 => if bitOf w 0 then decodeM .appendDecl w x else decodeM .append w x
  | 89 => decodeM .eflush w x
  | 90 => decodeM .fence w x
  | 91 => if bitOf w 1 then decodeM .barWait w x else if bitOf w 0 then decodeM .barArrive w x else decodeM .barSync w x
  | 92 => if bitOf w 1 then decodeM .pbarWait w x else decodeM .pbarArrive w x
  | 93 => decodeM .monwait w x
  | 94 => decodeM .monwake w x
  | 95 => decodeM .drain w x
  | 96 => decodeA .opt .bcmp w x
  | 97 => decodeA .opt .bfind w x
  | 98 => decodeA .opt .bperm w x
  | 99 => decodeA .opt .hcrc w x
  | 100 => decodeA .never .hmix w x
  | 101 => decodeA .opt .acstep w x
  | 102 => decodeA .never .getsv w x
  | 103 => decodeK .ckpack w x
  | 104 => decodeK .ckunpk w x
  | 105 => decodeK .ckadd w x
  | 106 => decodeK .cksub w x
  | 107 => decodeK .ckcmp w x
  | 108 => decodeK .ckbox w x
  | 109 => decodeK .cknext w x
  | 110 => decodeK .ckprev w x
  | 111 => decodeK .cksplit w x
  | 112 => decodeK .cklvl w x
  | 113 => if bitOf w 2 then decodeM .wksetImg w x else decodeM .wkset w x
  | 114 => decodeM .wkadd w x
  | 115 => decodeM .wknext w x
  | 116 => decodeM .wkdone w x
  | 117 => decodeM .wkres w x
  | 118 => decodeM .wkmap w x
  | 119 => if bitOf w 2 then decodeM .wkstatImg w x else decodeM .wkstat w x
  | 120 => rowQ (bitsOf w 20 4).toNat w x
  | 127 => rowY (bitsOf w 20 4).toNat w x
  | _ => .error .noRow

/-- The row a word's opcode, sub-op and func bits select (R71), with the word's fields. -/
def selectRow (w : Word) (x : Option (Payload × Bool)) : Except DecodeErr Instr := rowOf (opcodeOf w).toNat w x

/-- The instruction of a word, given the word that follows it in its packet. -/
def decode (w : Word) (nxt : Option Word) : Except DecodeErr Instr :=
  match selectRow w (extAfter w nxt) with
  | .ok i => if rowOk i then .ok i else .error .noRow
  | .error e => .error e

/-- A little-endian word of four bytes (R52). -/
def wordOfBytes (b0 b1 b2 b3 : Byte) : Word := b3 ++ b2 ++ b1 ++ b0

/-- Decode the instruction at the head of any bytes, and give the bytes that follow it. -/
def decodeBytes (bs : List Byte) : Except DecodeErr (Instr × List Byte) :=
  match bs with
  | b0 :: b1 :: b2 :: b3 :: rest =>
    let w := wordOfBytes b0 b1 b2 b3
    match rest with
    | c0 :: c1 :: c2 :: c3 :: rest' =>
      let n := wordOfBytes c0 c1 c2 c3
      match decode w (some n) with
      | .ok i => .ok (i, if (extAfter w (some n)).isSome then rest' else rest)
      | .error e => .error e
    | _ =>
      match decode w none with
      | .ok i => .ok (i, rest)
      | .error e => .error e
  | _ => .error .short

/-- The bytes of a word, lowest address first (R52). -/
def bytesOfWord (w : Word) : List Byte := [bitsOf w 0 8, bitsOf w 8 8, bitsOf w 16 8, bitsOf w 24 8]

/-- The word that opens with an opcode and a chain bit. -/
def headWord (c : Bool) (op : BitVec 7) (rest : BitVec 24) : Word := ofBit c ++ op ++ rest
/-- An `ext` word (R74). -/
def extWord (c : Bool) (x : Payload) : Word := headWord c extOpcode x

def encodeA (op : BitVec 7) (w : AWord) : List Word :=
  let f : BitVec 24 := w.d ++ w.a ++ w.b ++ w.t ++ ofBit w.ea ++ ofBit w.eb ++ ofBit w.u
  match w.ext with
  | none => [headWord w.c op f]
  | some x => [headWord true op f, extWord w.c x]
def encodeB (op : BitVec 7) (w : BWord) : List Word :=
  [headWord w.c op (w.p ++ ofBit w.neg ++ ofBit w.cond ++ w.off)]
def encodeM (op : BitVec 7) (w : MWord) : List Word :=
  [headWord true op (w.d ++ w.base ++ w.index ++ w.func),
   extWord w.c (w.size ++ w.scope ++ w.order ++ w.hint ++ ofBit w.ea ++ ofBit w.u ++ w.off)]
def encodeK (op : BitVec 7) (w : KWord) : List Word :=
  [headWord true op (w.d ++ w.a ++ w.b ++ w.func), extWord w.c (w.dims ++ w.bits ++ w.op)]
def encodeQ (sub : BitVec 4) (w : QWord) : List Word :=
  [headWord true 0x78 (sub ++ w.n6 ++ w.m2 ++ w.fmt ++ w.core ++ ofBit w.ctx ++ w.low), extWord w.c w.pay]
def encodeY (sub : BitVec 4) (w : YWord) : List Word := [headWord w.c 0x7F (sub ++ w.d ++ w.a ++ w.imm)]

/-- The words of an instruction: its word and the `ext` that serves it (R58 to R68, R71). An event of the machine has no
words. -/
def encode : Instr → List Word
  | .nop c => [headWord c 1 0]
  | .guard w => [headWord true 2 (w.p ++ ofBit w.neg ++ w.count ++ (0 : BitVec 18))]
  | .ext c x => [extWord c x]
  | .br w => encodeB 0x04 w
  | .brs w => encodeB 0x05 w
  | .bri w => encodeB 0x06 w
  | .call w => encodeB 0x07 w
  | .ret w => encodeB 0x08 w
  | .join w => encodeB 0x09 w
  | .regang w => encodeB 0x0A w
  | .exit w => encodeB 0x0B w
  | .yield w => encodeB 0x0C w
  | .region w => encodeB 0x0D w
  | .bkpt w => encodeB 0x0E w
  | .trapi w => encodeB 0x0F w
  | .add w => encodeA 0x10 w
  | .sub w => encodeA 0x11 w
  | .mul w => encodeA 0x12 w
  | .mulhi w => encodeA 0x13 w
  | .mad w => encodeA 0x14 w
  | .min w => encodeA 0x15 w
  | .max w => encodeA 0x16 w
  | .abs w => encodeA 0x17 w
  | .neg w => encodeA 0x18 w
  | .and w => encodeA 0x19 w
  | .or w => encodeA 0x1A w
  | .xor w => encodeA 0x1B w
  | .not w => encodeA 0x1C w
  | .shl w => encodeA 0x1D w
  | .shr w => encodeA 0x1E w
  | .sra w => encodeA 0x1F w
  | .rot w => encodeA 0x20 w
  | .bfx w => encodeA 0x21 w
  | .bfi w => encodeA 0x22 w
  | .popc w => encodeA 0x23 w
  | .clz w => encodeA 0x24 w
  | .ctz w => encodeA 0x25 w
  | .cmp w => encodeA 0x26 w
  | .sel w => encodeA 0x27 w
  | .fadd w => encodeA 0x28 w
  | .fsub w => encodeA 0x29 w
  | .fmul w => encodeA 0x2A w
  | .fma w => encodeA 0x2B w
  | .fmin w => encodeA 0x2C w
  | .fmax w => encodeA 0x2D w
  | .fneg w => encodeA 0x2E w
  | .fabs w => encodeA 0x2F w
  | .fcmp w => encodeA 0x30 w
  | .fclass w => encodeA 0x31 w
  | .fscale w => encodeA 0x32 w
  | .frnd w => encodeA 0x33 w
  | .fdot2 w => encodeA 0x34 w
  | .fpack w => encodeA 0x35 w
  | .funpk w => encodeA 0x36 w
  | .frcp w => encodeA 0x37 w
  | .frsq w => encodeA 0x38 w
  | .fsqrt w => encodeA 0x39 w
  | .fexp2 w => encodeA 0x3A w
  | .flog2 w => encodeA 0x3B w
  | .cvt w => encodeA 0x3C w
  | .cvtbfp w => encodeA 0x3D w
  | .fmtset w => encodeA 0x3E w
  | .fmtget w => encodeA 0x3F w
  | .mov w => encodeA 0x40 w
  | .movi w => encodeA 0x41 w
  | .lmov w => encodeA 0x42 w
  | .bcast w => encodeA 0x43 w
  | .vred w => encodeA 0x44 w
  | .vscan w => encodeA 0x45 w
  | .vote w => encodeA 0x46 w
  | .sample w => encodeA 0x47 w
  | .getsv w => encodeA 0x66 w
  | .ld w => encodeM 0x48 w
  | .st w => encodeM 0x49 w
  | .ldc w => encodeM 0x4A w
  | .ldl w => encodeM 0x4B w
  | .stl w => encodeM 0x4C w
  | .cp w => encodeM 0x4D w
  | .cpclose w => encodeM 0x4E w
  | .cpwait w => encodeM 0x4F w
  | .qld w => encodeM 0x50 w
  | .stmap w => encodeM 0x51 w
  | .stunmap w => encodeM 0x52 w
  | .stfl w => encodeM 0x53 w
  | .pref w => encodeM 0x54 w
  | .kvx w => encodeM 0x55 w
  | .atom w => encodeM 0x56 w
  | .atomOrdAdd w => encodeM 0x56 w
  | .red w => encodeM 0x57 w
  | .redOrd w => encodeM 0x57 w
  | .append w => encodeM 0x58 w
  | .appendDecl w => encodeM 0x58 w
  | .eflush w => encodeM 0x59 w
  | .fence w => encodeM 0x5A w
  | .barSync w => encodeM 0x5B w
  | .barArrive w => encodeM 0x5B w
  | .barWait w => encodeM 0x5B w
  | .pbarArrive w => encodeM 0x5C w
  | .pbarWait w => encodeM 0x5C w
  | .monwait w => encodeM 0x5D w
  | .monwake w => encodeM 0x5E w
  | .drain w => encodeM 0x5F w
  | .bcmp w => encodeA 0x60 w
  | .bfind w => encodeA 0x61 w
  | .bperm w => encodeA 0x62 w
  | .hcrc w => encodeA 0x63 w
  | .hmix w => encodeA 0x64 w
  | .acstep w => encodeA 0x65 w
  | .ckpack w => encodeK 0x67 w
  | .ckunpk w => encodeK 0x68 w
  | .ckadd w => encodeK 0x69 w
  | .cksub w => encodeK 0x6A w
  | .ckcmp w => encodeK 0x6B w
  | .ckbox w => encodeK 0x6C w
  | .cknext w => encodeK 0x6D w
  | .ckprev w => encodeK 0x6E w
  | .cksplit w => encodeK 0x6F w
  | .cklvl w => encodeK 0x70 w
  | .wkset w => encodeM 0x71 w
  | .wksetImg w => encodeM 0x71 w
  | .wkadd w => encodeM 0x72 w
  | .wknext w => encodeM 0x73 w
  | .wkdone w => encodeM 0x74 w
  | .wkres w => encodeM 0x75 w
  | .wkmap w => encodeM 0x76 w
  | .wkstat w => encodeM 0x77 w
  | .wkstatImg w => encodeM 0x77 w
  | .minit w => encodeQ 0 w
  | .mtile w => encodeQ 1 w
  | .mma w => encodeQ 2 w
  | .crmm w => encodeQ 3 w
  | .mwait w => encodeQ 4 w
  | .mdrain w => encodeQ 5 w
  | .mload w => encodeQ 6 w
  | .crdrain w => encodeQ 7 w
  | .crload w => encodeQ 8 w
  | .crmerge w => encodeQ 9 w
  | .crstat w => encodeQ 10 w
  | .csrr w => encodeY 0 w
  | .csrw w => encodeY 1 w
  | .csrwWaypart w => encodeY 1 w
  | .tret w => encodeY 2 w
  | .tlbinv w => encodeY 3 w
  | .cacheopAlloc w => encodeY 4 w
  | .cacheopWb w => encodeY 4 w
  | .cacheopInv w => encodeY 4 w
  | .cacheopWbinv w => encodeY 4 w
  | .cacheopWbWay w => encodeY 4 w
  | .cacheopInvWay w => encodeY 4 w
  | .cacheopWbinvWay w => encodeY 4 w
  | .launch w => encodeY 5 w
  | .idle w => encodeY 6 w
  | .halt w => encodeY 7 w
  | .mfreeze w => encodeY 8 w
  | .mthaw w => encodeY 9 w
  | .registerFill .. | .queueEntryFill .. | .faultResolved .. | .faultRefused .. | .swap .. | .swapTransferDone .. => []
  | .admission .. | .dependencyMet .. | .blockPlacement .. | .yelmFormerPlace .. | .formtoFlush .. | .crestReadsComplete .. => []
  | .crestTile .. | .crestComplete .. | .drainTakesEffect .. | .freezeStop .. | .walkerWaitEnd .. | .prefetchComplete .. => []
  | .pointForcedByTime .. | .copyComplete .. | .monitorWake .. | .monwaitPollTimeout .. | .idleTimeout .. | .flush .. => []
  | .turn .. | .launchComplete .. | .sliceExpiry .. | .pdrainExpiry .. | .coreImageDone .. | .psaveExpiry .. => []
  | .maintAdmit .. | .maintReadLog .. | .maintFenceMap .. | .mgmtSetCap .. | .mgmtReadPower .. | .mgmtPreempt .. => []
  | .mgmtRestore .. | .debugAttach .. | .debugDetach .. | .debugStopRequest .. | .debugStep .. | .debugResume .. => []
  | .debugRead .. | .debugWrite .. | .debugCoreStop .. | .frontRequest .. | .attestationRequest .. | .powerGood .. => []
  | .errorDetected .. | .selfTestDone .. | .powerOverCap | .junction100c .. | .junction110c .. | .dram85c .. => []
  | .dramBelow80c .. | .remoteLoadRequest .. | .loadReply .. | .remoteStore .. | .storeAcknowledgement .. | .remoteAtomic .. => []
  | .atomicReply .. | .copyData .. | .startBarrier .. | .reductionLoadRequest .. | .reductionReply .. | .drainSweep .. => []
  | .launchPacketReplication .. | .linkControl .. | .reservedFlit .. | .messageFailure .. | .replicationTimeout .. | .hostDeviceAccess .. => []
  | .backInvalidateResponse .. | .hostSnoop .. | .pageMigration .. | .memoryFormComplete .. | .neighbourLinkTraining .. | .serviceBlockAddressWrite .. => []
  | .powerOff => []

/-- Whether the row of an opcode is one whose words always carry an `ext` (R71). -/
def needsExt (op : Nat) : Bool := op == 0x41 || (0x48 ≤ op && op ≤ 0x5F) || (0x67 ≤ op && op ≤ 0x78)

/-- The instruction the decoder reads from a table word: bits 31 to 0 are the instruction's word, bits 63 to 32 the word
after it. Where the table numbers no bit of the `ext` that the opcode requires, the operand word is an `ext` of payload 0
(DESIGN CHOICE, assumption 10). -/
def decodeTableWord (nbits w : Nat) : Option Instr :=
  let w0 := BitVec.ofNat 32 w
  let w1 := BitVec.ofNat 32 (w >>> 32)
  let w1 := if nbits ≤ 32 && needsExt (opcodeOf w0).toNat then extWord false 0 else w1
  match decode w0 (some w1) with
  | .ok i => some i
  | .error _ => none

end Sys2Proof
end

