-- ==== Sys2Proof/Machine/Instances.lean ====
section
/-! DEFINITION. Words that act once for a whole group: the per-group series (R234), the group-wide lane words (R269) and
`region` (R327). Each slice's k-th word of a series belongs to instance k, which acts when every live slice has issued. -/

namespace Sys2Proof.Machine

/-- Word 0 and the `ext` payload, which every slice of an instance must share (R234, R269). -/
def instWords (i : Instr) : List Word :=
  match encode i with
  | w :: x :: _ => [w, x &&& 0xFFFFFF]
  | ws => ws

def sameWords (i j : Instr) : Bool := instWords i == instWords j

/-- Set bit i of a mask of slices. -/
def setBit {n : Nat} (m : BitVec n) (i : Nat) : BitVec n := m ||| BitVec.ofNat n (2 ^ i)
/-- The lanes of a list as a mask. -/
def laneMask (ls : List Nat) : BitVec 256 := ls.foldl setBit 0
/-- The lanes of a mask, ascending. -/
def maskList (m : BitVec 256) : List Nat := (List.range 256).filter (fun i => bitOf m i)
/-- The slices of a mask. -/
def sliceList (m : BitVec 64) : List Nat := (List.range 64).filter (fun i => bitOf m i)

/-- Every live slice of the group has issued. -/
def Group.allIssued (g : Group) (issued : BitVec 64) : Bool := g.liveSlices.all (fun i => bitOf issued i)

/-! The per-group series. -/

/-- A gang's slices issue a per-group word: each joins the instance of its own count and is held there. The number of the
instance whose word differs, when one does. -/
def Group.joinGrp (g : Group) (pc : Word) (idx : Nat) (i : Instr) (vals : List (Nat × DWord)) : List Nat → Except Nat Group
  | [] => .ok g
  | sl :: rest =>
    let k := (g.slice sl).grpCnt
    let mine := vals.filter (fun p => p.1 / 4 == sl)
    let lanes := laneMask (maskLanes sl (g.slice sl).mask)
    let up := fun (g : Group) => g.modSlice sl (fun s => { s with grpCnt := k + 1, hold := .inst k })
    match g.grpInsts.find? (fun x => x.k == k) with
    | none =>
      let inst : GrpInst :=
        { k := k, word := i, pc := pc, idx := idx, issued := setBit 0 sl, lanes := lanes, vals := Fmap.setAll 0 [] mine }
      (up { g with grpInsts := g.grpInsts ++ [inst] }).joinGrp pc idx i vals rest
    | some x =>
      if !sameWords x.word i then .error k
      else
        (up { g with grpInsts := g.grpInsts.map (fun y =>
          if y.k == k then
            { y with issued := setBit y.issued sl, lanes := y.lanes ||| lanes, vals := Fmap.setAll 0 y.vals mine }
          else y) }).joinGrp pc idx i vals rest

/-- Discard the instance that a differing word would join (R234). -/
def Device.dropGrp (d : Device) (a : Agent) (k : Nat) : Device :=
  d.modView a (fun g => { g with grpInsts := g.grpInsts.filter (fun x => x.k != k) })
/-- The same for a group-wide lane word (R269). -/
def Device.dropLane (d : Device) (a : Agent) (k : Nat) : Device :=
  d.modView a (fun g => { g with laneInsts := g.laneInsts.filter (fun x => x.k != k) })

/-- Take an instance that is complete out of the group, and let its slices go on. -/
def Group.takeGrp (g : Group) (k : Nat) : Group :=
  { g with grpInsts := g.grpInsts.filter (fun x => x.k != k)
           slices := g.slices.map (fun s => if s.hold == .inst k then { s with hold := .free } else s) }

/-- Act the complete instances, lowest first; `fuel` bounds their number. -/
def actGrpWith (a : Agent) (act : Group → GrpInst → Device → Eff) (gr : Option Group) : Nat → Device → Eff
  | 0, d => .ok d
  | fuel + 1, d =>
    let g := d.view a
    match g.grpInsts.find? (fun x => g.allIssued x.issued) with
    | none => .ok d
    | some x =>
      match act (gr.getD g) x (d.modView a (fun g => g.takeGrp x.k)) with
      | .ok d => actGrpWith a act gr fuel d
      | e => e

/-- The slices that stand for the gang of an instance: those of the lowest octet that issued it. -/
def GrpInst.gang (x : GrpInst) (g : Group) : List Nat :=
  let ss := g.liveSlices.filter (fun i => bitOf x.issued i)
  match ss with
  | [] => []
  | i :: _ => ss.filter (fun j => j / 8 == i / 8)

/-- A gang of an instance that trapped has not issued its word: it stands at the word's packet again. -/
def Group.unissue (g : Group) (x : GrpInst) : Group :=
  let ss := x.gang g
  let m := ss.foldl (fun m i => m &&& ~~~(BitVec.ofNat 64 (2 ^ i))) x.issued
  { g.modSlices ss (fun s => { s with pc := x.pc, ahead := [], hold := .free, grpCnt := x.k }) with
    grpInsts := (g.grpInsts.map (fun y => if y.k == x.k then { y with issued := m } else y)).filter (fun y => y.issued != 0) }

/-- An instance that was acting has not acted after all: its slices are held in it again, and a gang of it stands at the word's
packet. -/
def Group.standAgain (g : Group) (x : GrpInst) : Group :=
  let back := g.modSlices (g.liveSlices.filter (fun i => bitOf x.issued i)) (fun s => { s with hold := .inst x.k })
  ({ back with grpInsts := back.grpInsts ++ [x] } : Group).unissue x

/-- A per-group word of the gang in issue (R234): join, and act when the last live slice has joined. Outside a group the
word acts at once. `vals` are lane operands read at issue. -/
def Issue.grpWord (x : Issue) (d : Device) (i : Instr) (vals : List (Nat × DWord))
    (act : Agent → Group → GrpInst → Device → Eff) : Eff :=
  let g := d.view x.agent
  if !x.agent.isGroup then
    act x.agent x.view { k := 0, word := i, pc := x.pc, idx := x.word, issued := 1, lanes := 1, vals := [] } d
  else if g.inHandler then .double
  else
    match g.joinGrp x.pc x.word i vals x.slices with
    | .error k => .trapOn (fun b => b.dropGrp x.agent k) .illegal
    | .ok g' =>
      let d1 := d.putView x.agent g'
      let d2 := match (operands i).vd with
        | [] => d1
        | rs => d1.modView x.agent (fun g => g.markV true rs x.slices)
      actGrpWith x.agent (act x.agent) (some x.view) 64 d2

/-! Group-wide lane words. -/

/-- The operands a lane word reads at issue: a and b in each lane of act, a predicate in every lane, and the uniform
operand of the gang. -/
structure LaneReads where
  a : List (Nat × DWord)
  b : List (Nat × DWord)
  preds : List Nat
  uni : DWord
  deriving Repr, Inhabited

def Group.joinLane (g : Group) (i : Instr) (r : LaneReads) (acts : List Nat) : List Nat → Except Nat Group
  | [] => .ok g
  | sl :: rest =>
    let k := (g.slice sl).laneCnt
    let pick := fun (l : List (Nat × DWord)) => l.filter (fun p => p.1 / 4 == sl)
    let mine := acts.filter (fun l => l / 4 == sl)
    let u := (sl, !mine.isEmpty, r.uni)
    let up := fun (g : Group) => g.modSlice sl (fun s => { s with laneCnt := k + 1 })
    match g.laneInsts.find? (fun x => x.k == k) with
    | none =>
      let inst : LaneInst :=
        { k := k, word := i, issued := setBit 0 sl, acts := laneMask mine, a := Fmap.setAll 0 [] (pick r.a),
          b := Fmap.setAll 0 [] (pick r.b), preds := laneMask (r.preds.filter (fun l => l / 4 == sl)), uni := [u] }
      (up { g with laneInsts := g.laneInsts ++ [inst] }).joinLane i r acts rest
    | some x =>
      if !sameWords x.word i then .error k
      else
        (up { g with laneInsts := g.laneInsts.map (fun y =>
          if y.k == k then
            { y with
              issued := setBit y.issued sl, acts := y.acts ||| laneMask mine, a := Fmap.setAll 0 y.a (pick r.a),
              b := Fmap.setAll 0 y.b (pick r.b), preds := y.preds ||| laneMask (r.preds.filter (fun l => l / 4 == sl)),
              uni := y.uni ++ [u] }
          else y) }).joinLane i r acts rest

/-- The uniform operand of an instance: that of the lowest slice whose act was not empty, else of the lowest slice that
issued (R269). -/
def LaneInst.uniVal (x : LaneInst) : DWord :=
  let low := fun (l : List (Nat × Bool × DWord)) =>
    l.foldl (fun (b : Option (Nat × Bool × DWord)) q =>
      match b with | none => some q | some p => if q.1 < p.1 then some q else some p) none
  match low (x.uni.filter (fun q => q.2.1)) with
  | some q => q.2.2
  | none => match low x.uni with | some q => q.2.2 | none => 0

/-- What an instance of a lane word writes: a value in each lane it names, a predicate, an s register, and flags. -/
structure LaneOut where
  lanes : List (Nat × DWord)
  preds : List (Nat × Bool)
  scalar : Option DWord
  flags : BitVec 5
  deriving Repr, Inhabited

/-- The v destination registers that an instance leaves full when it acts: every slice that issued with a lane in act. -/
def LaneInst.actSlices (x : LaneInst) : List Nat :=
  let ls := maskList x.acts
  (List.range 64).filter (fun s => bitOf x.issued s && ls.any (fun l => l / 4 == s))

/-- An instance writes: predicates at once, registers by a fill (R31, R269). -/
def Device.laneResult (d : Device) (a : Agent) (x : LaneInst) (o : LaneOut) : Device :=
  let ops := operands x.word
  let d := match ops.pd with
    | p :: _ => d.modView a (fun g => g.setP (o.preds.map (fun q => (p * 256 + q.1, q.2))))
    | [] => d
  match ops.vd with
  | r :: more =>
    let f := Fill.lanes a (sliceList x.issued) (laneWords r (!more.isEmpty) o.lanes) ((r :: more).flatMap (fun n => x.actSlices.map (fun s => n * 64 + s))) o.flags (if laneFlags x.word then .flags else .nothing)
    { d with fills := d.fills ++ [f] }
  | [] =>
    match ops.sd, o.scalar with
    | r :: _, some v => { d with fills := d.fills ++ [Fill.scalar a (sliceList x.issued) r v o.flags (if laneFlags x.word then .flags else .nothing)] }
    | _, _ => d

def actLaneWith (a : Agent) (out : Group → LaneInst → LaneOut) : Nat → Device → Device
  | 0, d => d
  | fuel + 1, d =>
    let g := d.view a
    match g.laneInsts.find? (fun x => g.allIssued x.issued) with
    | none => d
    | some x =>
      let d1 := d.modView a (fun g => { g with laneInsts := g.laneInsts.filter (fun y => y.k != x.k) })
      actLaneWith a out fuel (d1.laneResult a x (out g x))

/-- A group-wide lane word of the gang in issue (R269). -/
def Issue.laneWord (x : Issue) (d : Device) (i : Instr) (r : LaneReads) (out : Group → LaneInst → LaneOut) : Eff :=
  let g := d.view x.agent
  if g.inHandler then .double
  else
    match g.joinLane i r x.act x.slices with
    | .error k => .trapOn (fun b => b.dropLane x.agent k) .illegal
    | .ok g' =>
      let ops := operands i
      let d1 := d.putView x.agent ((g'.markV true ops.vd x.actSlices).markS true ops.sd)
      .ok (actLaneWith x.agent out 64 d1)

end Sys2Proof.Machine
end

