-- ==== Sys2Proof/Machine/Barrier.lean ====
section
/-! DEFINITION. Named barriers (R135 to R137) and phase-bit barriers (R132 to R134), with the replay of arrivals after a
rollback (R373). -/

namespace Sys2Proof.Machine

/-! Named barriers. -/

/-- The blocks that a barrier of a block serves: the block, or its cluster set (R136). -/
def Device.barBlocks (d : Device) (b id : Nat) : List Nat :=
  if id < 24 then [b] else ((d.sets[(d.block b).cset]?).getD default).blocks

/-- Launch groups that have not exited, of the blocks a barrier serves (R137). -/
def Device.launchGroups (d : Device) (b id : Nat) : Nat :=
  ((d.barBlocks b id).map (fun n => ((d.block n).groups.filter (fun g => !g.spawned && !g.exited)).length)).foldl (· + ·) 0

/-- The count that completes the current phase; none before the first arrival (R137). -/
def Device.barExpected (d : Device) (b id : Nat) : Option Nat :=
  match (d.bar b id).form with
  | none => none
  | some (some n) => some n
  | some none => some (d.launchGroups b id)

/-- Release the slices that wait for a phase that has completed (R136). -/
def Device.barRelease (d : Device) (b id : Nat) : Device :=
  let ph := (d.bar b id).phases
  (d.barBlocks b id).foldl (fun d n => d.modBlock n (fun k => { k with groups := k.groups.map (fun g =>
    { g with slices := g.slices.map (fun s =>
        match s.hold with
        | .bar i p => if i == id && p < ph then { s with hold := .free } else s
        | _ => s) }) })) d

/-- Complete the current phase when its arrivals reach the count (R137). -/
def Device.barComplete (d : Device) (b id : Nat) : Device :=
  match d.barExpected b id with
  | none => d
  | some n =>
    if n ≤ (d.bar b id).arrived.length + (d.bar b id).gone then
      (d.modBar b id (fun x => { x with phases := x.phases + 1, arrived := [], gone := 0, issued := [], form := none, wanted := [] })).barRelease b id
    else d

/-- A group's arrival is due: every live slice of it has arrived in the phase, and the group has not (R136). -/
def Device.barDue (d : Device) (b k id : Nat) : Bool :=
  let key := b * 16 + k
  let x := d.bar b id
  let m := Fmap.get 0 x.issued key
  m != 0 && !x.arrived.contains key && ((d.block b).group k).liveSlices.all (fun i => bitOf m i)

/-- The arrival has the form that its group's slices issued last (DESIGN CHOICE, assumption 62), which is not the phase's
(R137). -/
def Device.barMismatch (d : Device) (b k id : Nat) : Bool :=
  match (d.bar b id).form with
  | some f => f != (Fmap.get default (d.bar b id).wanted (b * 16 + k)).form
  | none => false

/-- A group arrives; its first arrival fixes the phase's form (R136, R137). -/
def Device.barGroup (d : Device) (b k id : Nat) : Device :=
  let key := b * 16 + k
  if d.barDue b k id then
    (d.modBar b id (fun x =>
      { x with arrived := x.arrived ++ [key]
               form := some (x.form.getD (Fmap.get default x.wanted key).form) })).barComplete b id
  else d

/-- Slices of a group have not arrived in the current phase after all. -/
def Device.barUndo (d : Device) (b k id : Nat) (slices : List Nat) : Device :=
  let x := d.bar b id
  let d1 := d.modBar b id (fun x =>
    { x with issued := Fmap.set 0 x.issued (b * 16 + k) (Fmap.get 0 x.issued (b * 16 + k) &&& ~~~(sliceMask slices)) })
  d1.modGroup b k (fun g => g.modSlices slices (fun s =>
    { s with barPhase := Fmap.set 0 s.barPhase id 0, barCnt := Fmap.set 0 s.barCnt id (Fmap.get 0 s.barCnt id - 1)
             barLog := s.barLog.filter (fun e => !(e.1 == id && e.2.2 == x.phases)) }))

/-- A death may complete a group's arrival: with another form than the phase's it is ILLEGAL in the group, taken by a gang that
arrived, at its `bar` packet (R137; DESIGN CHOICE, assumption 62). -/
def Device.barDeath (d : Device) (b k id : Nat) : Device :=
  if d.barDue b k id && d.barMismatch b k id then
    let w := Fmap.get default (d.bar b id).wanted (b * 16 + k)
    let live := ((d.block b).group k).liveSlices
    let gang := live.filter (fun i => i / 8 == (live.head?.getD 0) / 8)
    (d.barUndo b k id gang).trapEntry (.group b k) gang w.pc w.idx Cause.illegal.code none 0 false false
  else d.barGroup b k id

/-- The form of a `bar` word: its count, none without sN; an error for a count out of range (R137). -/
def barForm (w : MWord) (g : Group) : Except Eff (Option Nat) :=
  if !w.u then .ok none
  else
    let n := (g.sAt w.index.toNat).toNat
    if n < 1 || (if w.d.toNat < 24 then 16 else 64) < n then .error (.trap .illegal none 0) else .ok (some n)

/-- A slice's arrival is a replay of one made since the region entry: the phase it joined (R373). -/
def Slice.replay (s : Slice) (id : Nat) : Option Nat :=
  (s.barLog.find? (fun e => e.1 == id && e.2.1 == Fmap.get 0 s.barCnt id)).map (fun e => e.2.2)

/-- One slice arrives (R136): a replay joins its old phase; otherwise it is counted in the current one, or waits for the next if it has
arrived in the current one. With `hold` it waits for the phase it joined. -/
def Device.barSlice (d : Device) (b k id : Nat) (want : BarWant) (hold : Bool) (i : Nat) : Eff :=
  let s := ((d.block b).group k).slice i
  let x := d.bar b id
  let join := fun (d : Device) (ph : Nat) (log : List (Nat × Nat × Nat)) =>
    d.modGroup b k (fun g => g.modSlice i (fun s =>
      { s with
        barPhase := Fmap.set 0 s.barPhase id (ph + 1), barCnt := Fmap.set 0 s.barCnt id (Fmap.get 0 s.barCnt id + 1),
        barLog := s.barLog ++ log,
        hold := if hold && x.phases ≤ ph then .bar id ph else s.hold }))
  match s.replay id with
  | some ph => .ok (join d ph [])
  | none =>
    if Fmap.get 0 s.barPhase id == x.phases + 1 then .ok (d.modGroup b k (fun g => g.modSlice i (fun s => { s with hold := .late id want hold })))
    else
      let key := b * 16 + k
      let m := setBit (Fmap.get 0 x.issued key) i
      let last := ((d.block b).group k).liveSlices.all (fun n => bitOf m n)
      if last && (match x.form with | some f => f != want.form | none => false) then .trap .illegal none 0
      else
        let log := if ((d.block b).group k).region.isSome then [(id, Fmap.get 0 s.barCnt id, x.phases)] else []
        let d1 := d.modBar b id (fun x =>
          { x with issued := Fmap.set 0 x.issued key m, wanted := Fmap.set default x.wanted key want })
        .ok ((join d1 x.phases log).barGroup b k id)

/-- Every slice of the gang arrives. -/
def Device.barSlices (b k id : Nat) (want : BarWant) (hold : Bool) : Device → List Nat → Eff
  | d, [] => .ok d
  | d, i :: rest =>
    match d.barSlice b k id want hold i with
    | .ok d1 => Device.barSlices b k id want hold d1 rest
    | e => e

/-- The slices that wait to arrive in the next phase of a barrier. -/
def Device.lates (d : Device) (b id : Nat) : List (Nat × Nat × Nat) :=
  (d.barBlocks b id).flatMap (fun n =>
    (List.range (d.block n).groups.length).flatMap (fun k =>
      let g := (d.block n).group k
      ((List.range g.slices.length).filter (fun i => match (g.slice i).hold with | .late j _ _ => j == id | _ => false)).map (fun i => (n, k, i))))
/-- The phase in which a slice has arrived is complete. -/
def Device.lateArrives (d : Device) (b id : Nat) (q : Nat × Nat × Nat) : Bool :=
  Fmap.get 0 (((d.block q.1).group q.2.1).slice q.2.2).barPhase id != (d.bar b id).phases + 1
/-- Slices whose phase has completed arrive in the current one (R136), each as its word would; `fuel` bounds their number. One whose arrival is
ILLEGAL takes the trap alone, at its `bar` packet (DESIGN CHOICE, assumption 62). -/
def Device.barLatesWith (b id : Nat) : Nat → Device → Device
  | 0, d => d
  | fuel + 1, d =>
    match (d.lates b id).find? (d.lateArrives b id) with
    | none => d
    | some (n, k, i) =>
      match (((d.block n).group k).slice i).hold with
      | .late _ want sync =>
        let d1 := d.modGroup n k (fun g => g.modSlice i (fun s => { s with hold := .free }))
        match d1.barSlice n k id want sync i with
        | .ok d2 => Device.barLatesWith b id fuel d2
        | _ => Device.barLatesWith b id fuel (d1.trapEntry (.group n k) [i] want.pc want.idx Cause.illegal.code none 0 false false)
      | _ => d
def Device.barLates (d : Device) (b id : Nat) : Device := Device.barLatesWith b id (d.lates b id).length d

/-- `bar.sync` and `bar.arrive` (R136). -/
def barArriveEff (hold : Bool) (w : MWord) (x : Issue) (d : Device) : Eff :=
  match x.agent, barForm w x.view with
  | _, .error e => e
  | .group b k, .ok form =>
    match Device.barSlices b k w.d.toNat { form := form, pc := x.pc, idx := x.word } hold d x.slices with
    | .ok d1 => .ok (d1.barLates b w.d.toNat)
    | e => e
  | _, _ => .trap .illegal none 0
def execBarSync (w : MWord) (s : State) := s.runGang (.barSync w) (barArriveEff true w)
def execBarArrive (w : MWord) (s : State) := s.runGang (.barArrive w) (barArriveEff false w)

/-- `bar.wait`: each slice waits for the phase of its last arrival, or for the current one (R136). -/
def barWaitEff (w : MWord) (x : Issue) (d : Device) : Eff :=
  let id := w.d.toNat
  match x.agent with
  | .group b k =>
    let ph := (d.bar b id).phases
    .ok (d.modGroup b k (fun g => g.modSlices x.slices (fun s =>
      let p := match Fmap.get 0 s.barPhase id with | 0 => ph | n + 1 => n
      if ph ≤ p then { s with hold := .bar id p } else s)))
  | _ => .trap .illegal none 0
def execBarWait (w : MWord) (s : State) := s.runGang (.barWait w) (barWaitEff w)

/-! Phase-bit barriers. -/

/-- The eight bytes of a slot (R132). -/
def slotLocs (b n : Nat) : List Loc := (List.range 8).map (fun i => Loc.stash b (8 * n + i))
/-- The phase bit of a slot. -/
def Device.slotPhase (d : Device) (b n : Nat) : Bool := bitOf (d.byteAt (.stash b (8 * n + 4))) 0

/-- One arrival on a slot (R132). -/
def Device.slotArrive (d : Device) (b n : Nat) : Device :=
  let v := d.valueAt (slotLocs b n)
  let c := (bitsOf v 0 16).toNat + 1
  let full := decide ((bitsOf v 16 16).toNat + 1 ≤ c)
  let head : BitVec 16 := if full then 0 else BitVec.ofNat 16 c
  let v1 : DWord := bitsOf v 16 48 ++ head
  d.storeValue (slotLocs b n) (if full then v1 ^^^ 0x100000000 else v1)

/-- The block whose slot a `pbar` word names (R133). A cluster trap handler has no block: its `pbar` traps with PERM (DESIGN
CHOICE, assumption 63). -/
def pbarBlock (w : MWord) (x : Issue) (d : Device) : Except Eff Nat :=
  match x.agent.blk? with
  | none => .error (.trap .perm none 0)
  | some b =>
    let need := fun (n : Nat) => if (d.block n).stashBytes = 0 then Except.error (Eff.trap .perm none 0) else .ok n
    if w.scope == 1 then need b
    else
      let v := x.view.sAt w.base.toNat
      if v >>> 2 != 0 then .error (.trap .illegal none 0)
      else
        match d.peerBlock b v.toNat with
        | none => .error (.trap .peerStash none 0)
        | some p => need p

/-- The group arrivals of a slot that are due: the least count of its live slices; the dead count as having issued every
word (R134). -/
def Group.slotDue (g : Group) (key : Nat) : Nat :=
  let cnt := fun (n : Nat) => Fmap.get 0 (g.slice n).pbarCnt key
  match g.liveSlices with
  | [] => (List.range g.slices.length).foldl (fun m n => max m (cnt n)) 0
  | i :: rest => rest.foldl (fun m n => min m (cnt n)) (cnt i)

/-- A group's arrivals on a slot that every live slice has issued and that have not been made are made (R134, R373). -/
def Device.slotGroup (d : Device) (b k key : Nat) : Device :=
  let g := (d.block b).group k
  let done := Fmap.get 0 g.pbarDone key
  let due := g.slotDue key
  let d1 := d.modGroup b k (fun g => { g with pbarDone := Fmap.set 0 g.pbarDone key (max done due) })
  (List.range (due - done)).foldl (fun d _ => d.slotArrive (key / 16) (key % 16)) d1

/-- `pbar.arrive` (R134). -/
def pbarArriveEff (w : MWord) (x : Issue) (d : Device) : Eff :=
  match pbarBlock w x d with
  | .error e => e
  | .ok b =>
    let key := b * 16 + w.d.toNat
    match x.agent with
    | .group n k =>
      .ok ((d.modGroup n k (fun g => g.modSlices x.slices (fun s =>
        { s with pbarCnt := Fmap.set 0 s.pbarCnt key (Fmap.get 0 s.pbarCnt key + 1) }))).slotGroup n k key)
    | _ => .ok (d.slotArrive b w.d.toNat)
def execPbarArrive (w : MWord) (s : State) := s.runGang (.pbarArrive w) (pbarArriveEff w)

/-- `pbar.wait`: the gang, or the thread, waits until the phase bit differs from the operand (R134). -/
def pbarWaitEff (w : MWord) (x : Issue) (d : Device) : Eff :=
  match pbarBlock w x d with
  | .error e => e
  | .ok b => if d.slotPhase b w.d.toNat != bitOf w.func 0 then .ok d else .wait
def execPbarWait (w : MWord) (s : State) := s.runGang (.pbarWait w) (pbarWaitEff w)

end Sys2Proof.Machine
end

