-- ==== Sys2Proof/Machine/IntArith.lean ====
section
/-! DEFINITION. The integer family (R141 to R144). -/

namespace Sys2Proof.Machine

/-- The element width of an integer type (R61, R138). -/
def elemWidth (t : BitVec 3) : Nat :=
  match t.toNat with
  | 0 | 1 => 32
  | 2 | 3 => 16
  | 4 | 5 => 8
  | _ => 64

/-- Element i of a value, as an unsigned integer. -/
def elemAt (w : Nat) (x : DWord) (i : Nat) : Nat := x.toNat / 2 ^ (w * i) % 2 ^ w
/-- An unsigned element read as a signed integer. -/
def asSigned (w n : Nat) : Int := if 2 ^ (w - 1) ≤ n then (n : Int) - 2 ^ w else n
/-- An integer reduced modulo 2^w. -/
def wrap (w : Nat) (z : Int) : Nat := (z % 2 ^ w).toNat
/-- Put elements together, element 0 lowest. -/
def joinElems (w : Nat) (es : List Nat) : DWord := BitVec.ofNat 64 (es.foldr (fun e acc => e + 2 ^ w * acc) 0)

/-- How many elements a type has. -/
def elemCount (t : BitVec 3) : Nat := if wideT t then 1 else 32 / elemWidth t

/-- Apply an operation to each element of three operands (R138, R141). -/
def perElem (t : BitVec 3) (f : Nat → Nat → Nat → Nat → Nat) (a b d : DWord) : DWord :=
  let w := elemWidth t
  joinElems w ((List.range (elemCount t)).map (fun i => f w (elemAt w a i) (elemAt w b i) (elemAt w d i)))

/-- A signed or unsigned element as an integer (R141). -/
def elemInt (t : BitVec 3) (w n : Nat) : Int := if signedT t then asSigned w n else n

/-- Bits set in the low w bits. -/
def popCount (w n : Nat) : Nat := ((List.range w).filter (fun i => n.testBit i)).length
/-- Leading zeros of a w-bit element; w for zero. -/
def clzOf (w n : Nat) : Nat := if n = 0 then w else w - 1 - n.log2
/-- Trailing zeros of a w-bit element; w for zero. -/
def ctzOf (w n : Nat) : Nat := ((List.range w).find? (fun i => n.testBit i)).getD w

/-- pos and len of `bfx` and `bfi` (R142). -/
def fieldPos (b : Nat) : Nat := b % 256
def fieldLen (w b : Nat) : Nat := min (b / 256 % 256) w

def addElem (w a b _d : Nat) : Nat := wrap w ((a : Int) + b)
def subElem (w a b _d : Nat) : Nat := wrap w ((a : Int) - b)
def mulElem (w a b _d : Nat) : Nat := wrap w ((a : Int) * b)
def mulhiElem (t : BitVec 3) (w a b _d : Nat) : Nat := wrap w (elemInt t w a * elemInt t w b / 2 ^ w)
def madElem (w a b d : Nat) : Nat := wrap w ((a : Int) * b + d)
def minElem (t : BitVec 3) (w a b _d : Nat) : Nat := if elemInt t w b < elemInt t w a then b else a
def maxElem (t : BitVec 3) (w a b _d : Nat) : Nat := if elemInt t w a < elemInt t w b then b else a
def absElem (w a _b _d : Nat) : Nat := wrap w (asSigned w a).natAbs
def negElem (w a _b _d : Nat) : Nat := wrap w (-(a : Int))
def andElem (_w a b _d : Nat) : Nat := a &&& b
def orElem (_w a b _d : Nat) : Nat := a ||| b
def xorElem (_w a b _d : Nat) : Nat := a ^^^ b
def notElem (w a _b _d : Nat) : Nat := 2 ^ w - 1 - a
def shlElem (w a c _d : Nat) : Nat := if w ≤ c then 0 else a * 2 ^ c % 2 ^ w
def shrElem (w a c _d : Nat) : Nat := if w ≤ c then 0 else a / 2 ^ c
def sraElem (w a c _d : Nat) : Nat :=
  if w ≤ c then (if asSigned w a < 0 then 2 ^ w - 1 else 0) else wrap w (asSigned w a / 2 ^ c)
def rotElem (w a c _d : Nat) : Nat := let k := c % w; (a * 2 ^ k + a / 2 ^ (w - k)) % 2 ^ w
def bfxElem (t : BitVec 3) (w a b _d : Nat) : Nat :=
  let len := fieldLen w b
  let field := a / 2 ^ fieldPos b % 2 ^ len
  if len = 0 then 0 else if signedT t then wrap w (asSigned len field) else field
def bfiElem (w a b d : Nat) : Nat :=
  let len := fieldLen w b
  let mask := (2 ^ len - 1) * 2 ^ fieldPos b % 2 ^ w
  (d &&& (2 ^ w - 1 - mask)) ||| (a * 2 ^ fieldPos b % 2 ^ w &&& mask)
def popcElem (w a _b _d : Nat) : Nat := popCount w a
def clzElem (w a _b _d : Nat) : Nat := clzOf w a
def ctzElem (w a _b _d : Nat) : Nat := ctzOf w a

/-- An integer word: an operation on each element, in each lane or once on s registers. No flag (R141). -/
def intEff (w : AWord) (f : Nat → Nat → Nat → Nat → Nat) (x : Issue) (d : Device) : Eff :=
  let gr := x.view
  let gq := d.view x.agent
  let wide := wideT w.t
  putA w x d wide (w.t == 0) (fun l =>
    (perElem w.t f (w.aVal gr gq wide l) (w.bVal (intImm w.t) gr gq wide l) (w.dVal gr wide l), 0))

def execAdd (w : AWord) (s : State) := s.runLanes (.add w) (intEff w addElem)
def execSub (w : AWord) (s : State) := s.runLanes (.sub w) (intEff w subElem)
def execMul (w : AWord) (s : State) := s.runLanes (.mul w) (intEff w mulElem)
def execMulhi (w : AWord) (s : State) := s.runLanes (.mulhi w) (intEff w (mulhiElem w.t))
def execMad (w : AWord) (s : State) := s.runLanes (.mad w) (intEff w madElem)
def execMin (w : AWord) (s : State) := s.runLanes (.min w) (intEff w (minElem w.t))
def execMax (w : AWord) (s : State) := s.runLanes (.max w) (intEff w (maxElem w.t))
def execAbs (w : AWord) (s : State) := s.runLanes (.abs w) (intEff w absElem)
def execNeg (w : AWord) (s : State) := s.runLanes (.neg w) (intEff w negElem)
def execAnd (w : AWord) (s : State) := s.runLanes (.and w) (intEff w andElem)
def execOr (w : AWord) (s : State) := s.runLanes (.or w) (intEff w orElem)
def execXor (w : AWord) (s : State) := s.runLanes (.xor w) (intEff w xorElem)
def execNot (w : AWord) (s : State) := s.runLanes (.not w) (intEff w notElem)
def execShl (w : AWord) (s : State) := s.runLanes (.shl w) (intEff w shlElem)
def execShr (w : AWord) (s : State) := s.runLanes (.shr w) (intEff w shrElem)
def execSra (w : AWord) (s : State) := s.runLanes (.sra w) (intEff w sraElem)
def execRot (w : AWord) (s : State) := s.runLanes (.rot w) (intEff w rotElem)
def execBfx (w : AWord) (s : State) := s.runLanes (.bfx w) (intEff w (bfxElem w.t))
def execBfi (w : AWord) (s : State) := s.runLanes (.bfi w) (intEff w bfiElem)
def execPopc (w : AWord) (s : State) := s.runLanes (.popc w) (intEff w popcElem)
def execClz (w : AWord) (s : State) := s.runLanes (.clz w) (intEff w clzElem)
def execCtz (w : AWord) (s : State) := s.runLanes (.ctz w) (intEff w ctzElem)

/-- The condition of `cmp` and `ckcmp` on integers (R60, R143). -/
def condHolds (c : BitVec 3) (a b : Int) : Bool :=
  match c.toNat with
  | 0 => a == b
  | 1 => a != b
  | 2 => decide (a < b)
  | 3 => decide (a ≤ b)
  | 4 => decide (b < a)
  | 5 => decide (b ≤ a)
  | _ => false

/-- `cmp` (R143). -/
def cmpEff (w : AWord) (x : Issue) (d : Device) : Eff :=
  let gr := x.view
  let gq := d.view x.agent
  let wide := wideT w.t
  let n := elemWidth w.t
  predA w x d w.pDst (fun l =>
    (condHolds w.cnd (elemInt w.t n (elemAt n (w.aVal gr gq wide l) 0))
      (elemInt w.t n (elemAt n (w.bVal (intImm w.t) gr gq wide l) 0)), 0))
def execCmp (w : AWord) (s : State) := s.runLanes (.cmp w) (cmpEff w)

/-- `sel`: 32-bit, or all 64 bits in the uniform form (R144). -/
def selEff (w : AWord) (x : Issue) (d : Device) : Eff :=
  let gr := x.view
  let gq := d.view x.agent
  putA w x d w.u false (fun l =>
    (if gr.pAt w.t.toNat l then w.aVal gr gq false l else w.bVal zext gr gq false l, 0))
def execSel (w : AWord) (s : State) := s.runLanes (.sel w) (selEff w)

end Sys2Proof.Machine
end

