-- ==== Sys2Proof/Machine/Flags.lean ====
section
/-! DEFINITION. Floating-point values, the rounding helper with its flags (R146, R255, R256, R262, R263), and the exact
operations behind the floating-point family. -/

namespace Sys2Proof.Machine

/-! Sticky flags (R163). -/

abbrev Flags := BitVec 5
def fInexact : Flags := 1
def fUnderflow : Flags := 2
def fOverflow : Flags := 4
def fDivide : Flags := 8
def fInvalid : Flags := 16

/-- A format: exponent bits, fraction bits, bias, and whether it is E4M3, without infinities (R255). -/
structure FFmt where
  ebits : Nat
  fbits : Nat
  bias : Nat
  noInf : Bool
  deriving DecidableEq, Repr

def FFmt.f32 : FFmt := ⟨8, 23, 127, false⟩
def FFmt.f16 : FFmt := ⟨5, 10, 15, false⟩
def FFmt.bf16 : FFmt := ⟨8, 7, 127, false⟩
def FFmt.e5m2 : FFmt := ⟨5, 2, 15, false⟩
def FFmt.e4m3 : FFmt := ⟨4, 3, 7, true⟩

/-- Bits of a format. -/
def FFmt.width (f : FFmt) : Nat := 1 + f.ebits + f.fbits
/-- The exponent of the lowest bit of a subnormal: 1 - b - t (R256). -/
def FFmt.emin (f : FFmt) : Int := 1 - (f.bias : Int) - f.fbits
/-- The canonical NaN (R255). -/
def FFmt.nan (f : FFmt) : Nat :=
  if f.noInf then 0x7F else (2 ^ f.ebits - 1) * 2 ^ f.fbits + 2 ^ (f.fbits - 1)
/-- Infinity of a sign. -/
def FFmt.inf (f : FFmt) (neg : Bool) : Nat :=
  (if neg then 2 ^ (f.ebits + f.fbits) else 0) + (2 ^ f.ebits - 1) * 2 ^ f.fbits
/-- The largest finite value of a sign. -/
def FFmt.maxFin (f : FFmt) (neg : Bool) : Nat :=
  (if neg then 2 ^ (f.ebits + f.fbits) else 0) +
    (if f.noInf then 0x7E else (2 ^ f.ebits - 1) * 2 ^ f.fbits - 1)

/-- A value: a NaN, quiet or signalling; an infinity; or (-1)^neg * m * 2^e, a zero keeping its sign. -/
inductive FVal where
  | nan (signalling : Bool)
  | inf (neg : Bool)
  | fin (neg : Bool) (m : Nat) (e : Int)
  deriving DecidableEq, Repr, Inhabited

/-- The value of an encoding (R255, R256). -/
def FFmt.decode (f : FFmt) (bits : Nat) : FVal :=
  let neg := bits.testBit (f.ebits + f.fbits)
  let e := bits / 2 ^ f.fbits % 2 ^ f.ebits
  let fr := bits % 2 ^ f.fbits
  if e = 0 then .fin neg fr f.emin
  else if e = 2 ^ f.ebits - 1 && f.noInf && fr = 7 then .nan false
  else if e = 2 ^ f.ebits - 1 && !f.noInf then
    if fr = 0 then .inf neg else .nan (!fr.testBit (f.fbits - 1))
  else .fin neg (2 ^ f.fbits + fr) ((e : Int) - f.bias - f.fbits)

/-- Bit length. -/
def bitLen (n : Nat) : Nat := if n = 0 then 0 else n.log2 + 1

/-- The rounding modes, as `fmt` codes them (R260). -/
inductive RMode where
  | rne | rz | ru | rd
  deriving DecidableEq, Repr

def RMode.ofCode (c : Nat) : RMode :=
  match c % 4 with
  | 0 => .rne
  | 1 => .rz
  | 2 => .ru
  | _ => .rd

/-- How an exact value lies past the integer below it: exactly on it, or below, at or above the half. -/
inductive Rest where
  | zero | low | half | high
  deriving DecidableEq, Repr

/-- The magnitude (m, plus a fraction of the last bit when `sticky`) in units of 2^shift: the integer below and the rest. -/
def splitAt (m shift : Nat) (sticky : Bool) : Nat × Rest :=
  if bitLen m + 1 < shift then (0, if m = 0 && !sticky then .zero else .low)
  else
    let n := m / 2 ^ shift
    let r := m % 2 ^ shift
    if shift = 0 then (n, if sticky then .low else .zero)
    else
      let h := 2 ^ (shift - 1)
      (n, if r = 0 && !sticky then .zero else if r < h then .low else if r = h && !sticky then .half else .high)

/-- Whether the magnitude rounds up (R262). -/
def roundsUp (mode : RMode) (neg odd : Bool) (r : Rest) : Bool :=
  match mode with
  | .rne => r == .high || (r == .half && odd)
  | .rz => false
  | .ru => r != .zero && !neg
  | .rd => r != .zero && neg

/-- The result of an overflow (R146, R262). -/
def FFmt.overflow (f : FFmt) (mode : RMode) (neg : Bool) : Nat :=
  if f.noInf then f.maxFin neg
  else
    match mode with
    | .rne => f.inf neg
    | .rz => f.maxFin neg
    | .ru => if neg then f.maxFin neg else f.inf neg
    | .rd => if neg then f.inf neg else f.maxFin neg

/-- rnd of a finite magnitude m * 2^e, with a fraction of its last bit when `sticky` (R262): encoding and flags. -/
def FFmt.round (f : FFmt) (mode : RMode) (neg : Bool) (m : Nat) (e : Int) (sticky : Bool) : Nat × Flags :=
  let sgn := if neg then 2 ^ (f.ebits + f.fbits) else 0
  if m = 0 && !sticky then (sgn, 0)
  else
    let p : Int := f.fbits + 1
    let q := max ((bitLen m : Int) + e - p) f.emin
    let down := q - e
    let nr := if down < 0 then (m * 2 ^ (-down).toNat, if sticky then Rest.low else .zero) else splitAt m down.toNat sticky
    let n := if roundsUp mode neg (nr.1 % 2 == 1) nr.2 then nr.1 + 1 else nr.1
    let inexact := nr.2 != .zero
    let top := (bitLen n : Int) + q
    let tooBig := decide ((f.bias : Int) + 1 < (if f.noInf then top - 1 else top)) ||
      (f.noInf && top == (f.bias : Int) + 2 && n == 15)
    if n != 0 && tooBig then (f.overflow mode neg, fOverflow ||| fInexact)
    else
      let small := n < 2 ^ f.fbits
      let fl : Flags := if inexact then (if small then fInexact ||| fUnderflow else fInexact) else 0
      if small then (sgn + n, fl)
      else
        let n' := if n = 2 ^ (f.fbits + 1) then n / 2 else n
        let q' := if n = 2 ^ (f.fbits + 1) then q + 1 else q
        (sgn + (q' + f.bias + f.fbits).toNat * 2 ^ f.fbits + (n' - 2 ^ f.fbits), fl)

/-- rnd of a value (R262). -/
def FFmt.rnd (f : FFmt) (mode : RMode) (x : FVal) : Nat × Flags :=
  match x with
  | .nan _ => (f.nan, 0)
  | .inf neg => if f.noInf then (f.maxFin neg, fOverflow ||| fInexact) else (f.inf neg, 0)
  | .fin neg m e => f.round mode neg m e false

/-- A signalling NaN among operands sets invalid (R146). -/
def sigFlag (xs : List FVal) : Flags := if xs.any (fun x => x == .nan true) then fInvalid else 0
def FVal.isNan : FVal → Bool
  | .nan _ => true
  | _ => false

/-- The exact product; none for 0 times infinity (R146). NaN operands give a quiet NaN. -/
def FVal.mul (x y : FVal) : Option FVal :=
  match x, y with
  | .nan _, _ => some (.nan false)
  | _, .nan _ => some (.nan false)
  | .inf s, .inf t => some (.inf (s != t))
  | .inf s, .fin t m _ => if m = 0 then none else some (.inf (s != t))
  | .fin s m _, .inf t => if m = 0 then none else some (.inf (s != t))
  | .fin s m e, .fin t n g => some (.fin (s != t) (m * n) (e + g))

/-- The exact sum; none when infinities of opposite sign meet. An exact zero sum of operands of opposite sign is +0, or -0
toward minus infinity (R146). -/
def sumVals (mode : RMode) (xs : List FVal) : Option FVal :=
  if xs.any FVal.isNan then some (.nan false)
  else if xs.contains (.inf false) && xs.contains (.inf true) then none
  else if xs.contains (.inf false) then some (.inf false)
  else if xs.contains (.inf true) then some (.inf true)
  else
    let es := xs.map (fun x => match x with | .fin _ m e => if m = 0 then none else some e | _ => none)
    let lo := es.foldl (fun (a : Option Int) e => match a, e with | some u, some v => some (min u v) | none, v => v | u, none => u) none
    match lo with
    | none =>
      let negs := xs.map (fun x => match x with | .fin s _ _ => s | _ => false)
      let neg := if negs.all id then true else if negs.all (fun b => !b) then false else mode == .rd
      some (.fin neg 0 0)
    | some l =>
      let total : Int := (xs.map (fun x => match x with
        | .fin s m e => if m = 0 then 0 else (if s then -(m : Int) else m) * 2 ^ (e - l).toNat
        | _ => 0)).foldl (· + ·) 0
      if total = 0 then some (.fin (mode == .rd) 0 0) else some (.fin (decide (total < 0)) total.natAbs l)

/-- Round an exact result; an invalid operation gives the canonical NaN and sets invalid (R146). -/
def FFmt.finish (f : FFmt) (mode : RMode) (ops : List FVal) (r : Option FVal) : Nat × Flags :=
  match r with
  | none => (f.nan, fInvalid)
  | some v => let y := f.rnd mode v; (y.1, y.2 ||| sigFlag ops)

def FFmt.add (f : FFmt) (mode : RMode) (a b : Nat) : Nat × Flags :=
  let xs := [f.decode a, f.decode b]
  f.finish mode xs (sumVals mode xs)

/-- A value with its sign inverted. -/
def FVal.neg : FVal → FVal
  | .nan s => .nan s
  | .inf s => .inf (!s)
  | .fin s m e => .fin (!s) m e

def FFmt.sub (f : FFmt) (mode : RMode) (a b : Nat) : Nat × Flags :=
  let xs := [f.decode a, (f.decode b).neg]
  f.finish mode xs (sumVals mode xs)

def FFmt.mul (f : FFmt) (mode : RMode) (a b : Nat) : Nat × Flags :=
  f.finish mode [f.decode a, f.decode b] ((f.decode a).mul (f.decode b))

/-- rnd of a sum of products and an addend; a product 0 times infinity is invalid whatever the addend (R146). -/
def FFmt.dot (f : FFmt) (mode : RMode) (ps : List (FVal × FVal)) (d : FVal) : Nat × Flags :=
  let ops := ps.flatMap (fun p => [p.1, p.2]) ++ [d]
  let prods := ps.map (fun p => p.1.mul p.2)
  if prods.any Option.isNone then (f.nan, fInvalid)
  else f.finish mode ops (sumVals mode (prods.map (fun p => p.getD (.nan false)) ++ [d]))

def FFmt.fma (f : FFmt) (mode : RMode) (a b d : Nat) : Nat × Flags :=
  f.dot mode [(f.decode a, f.decode b)] (f.decode d)

/-- a below b, with -0 equal to +0; false with a NaN (R149). -/
def FVal.lt (x y : FVal) : Bool :=
  match x, y with
  | .nan _, _ | _, .nan _ => false
  | .inf s, .inf t => s && !t
  | .inf s, .fin _ _ _ => s
  | .fin _ _ _, .inf t => !t
  | .fin s m e, .fin t n g =>
    let lo := min e g
    let u : Int := (if s then -(m : Int) else m) * 2 ^ (e - lo).toNat
    let v : Int := (if t then -(n : Int) else n) * 2 ^ (g - lo).toNat
    decide (u < v)
def FVal.isNeg : FVal → Bool
  | .nan _ => false
  | .inf s => s
  | .fin s _ _ => s
/-- a ranks below b, with -0 below +0 (R148). -/
def FVal.below (x y : FVal) : Bool := x.lt y || (!y.lt x && x.isNeg && !y.isNeg)

/-- `fmin` and `fmax` (R148). -/
def FFmt.pick (f : FFmt) (larger : Bool) (a b : Nat) : Nat × Flags :=
  let x := f.decode a
  let y := f.decode b
  let fl := sigFlag [x, y]
  if x.isNan && y.isNan then (f.nan, fl)
  else if x.isNan then (b, fl)
  else if y.isNan then (a, fl)
  else if larger then (if x.below y then b else a, fl)
  else (if y.below x then b else a, fl)

/-- `fcmp` (R149). -/
def FFmt.cmp (f : FFmt) (c : BitVec 3) (a b : Nat) : Bool × Flags :=
  let x := f.decode a
  let y := f.decode b
  let un := x.isNan || y.isNan
  let quietInvalid := un && (2 ≤ c.toNat && c.toNat ≤ 5)
  let fl := if quietInvalid then fInvalid else sigFlag [x, y]
  let r := match c.toNat with
    | 0 => !un && !x.lt y && !y.lt x
    | 1 => un || x.lt y || y.lt x
    | 2 => x.lt y
    | 3 => !un && !y.lt x
    | 4 => y.lt x
    | 5 => !un && !x.lt y
    | _ => un
  (r, fl)

/-- The class mask (R150). -/
def FFmt.classOf (f : FFmt) (a : Nat) : Nat :=
  match f.decode a with
  | .nan true => 1
  | .nan false => 2
  | .inf true => 4
  | .inf false => 512
  | .fin s m _ =>
    let sub := m < 2 ^ f.fbits
    if m = 0 then (if s then 32 else 64)
    else if sub then (if s then 16 else 128)
    else (if s then 8 else 256)

/-- `fscale`: a * 2^c, one rounding (R151). -/
def FFmt.scale (f : FFmt) (mode : RMode) (a : Nat) (c : Int) : Nat × Flags :=
  match f.decode a with
  | .fin s m e => if m = 0 then (a, 0) else f.round mode s m (e + c) false
  | .inf _ => (a, 0)
  | .nan s => (f.nan, if s then fInvalid else 0)

/-- An exact value rounded to an integer: magnitude, and whether it changed. -/
def roundInt (mode : RMode) (neg : Bool) (m : Nat) (e : Int) : Nat × Bool :=
  if 0 ≤ e then (m * 2 ^ e.toNat, false)
  else
    let nr := splitAt m (-e).toNat false
    (if roundsUp mode neg (nr.1 % 2 == 1) nr.2 then nr.1 + 1 else nr.1, nr.2 != .zero)

/-- `frnd` (R152). -/
def FFmt.integral (f : FFmt) (mode : RMode) (a : Nat) : Nat × Flags :=
  match f.decode a with
  | .fin s m e =>
    if m = 0 then (a, 0) else ((f.round mode s (roundInt mode s m e).1 0 false).1, 0)
  | .inf _ => (a, 0)
  | .nan s => (f.nan, if s then fInvalid else 0)

/-- rndint (R263): an integer of w bits, signed or not, as its w-bit pattern. -/
def rndInt (x : FVal) (w : Nat) (signed : Bool) (mode : RMode) : Nat × Flags :=
  let lo : Int := if signed then -(2 ^ (w - 1)) else 0
  let hi : Int := if signed then 2 ^ (w - 1) - 1 else 2 ^ w - 1
  match x with
  | .nan _ => (0, fInvalid)
  | .inf s => (wrap w (if s then lo else hi), fInvalid)
  | .fin s m e =>
    let r := roundInt mode s m e
    let z : Int := if s then -(r.1 : Int) else r.1
    if z < lo then (wrap w lo, fInvalid)
    else if hi < z then (wrap w hi, fInvalid)
    else (wrap w z, if r.2 then fInexact else 0)

/-! Fixed trees (R265). -/

/-- Combine neighbours: one level up. -/
def treeLevel (f : Nat → Nat → Nat × Flags) : List Nat → List Nat × Flags
  | a :: b :: rest =>
    let r := f a b
    let more := treeLevel f rest
    (r.1 :: more.1, r.2 ||| more.2)
  | xs => (xs, 0)

/-- tree(x, f) of a list whose length is a power of two; `fuel` is at least its depth. -/
def tree (f : Nat → Nat → Nat × Flags) : Nat → List Nat → Nat × Flags
  | 0, xs => (xs.headD 0, 0)
  | fuel + 1, xs =>
    if xs.length ≤ 1 then (xs.headD 0, 0)
    else
      let l := treeLevel f xs
      let r := tree f fuel l.1
      (r.1, r.2 ||| l.2)

/-- The blocks of i + 1 elements: aligned runs, longest first (R265). -/
def prefixBlocks (start : Nat) : Nat → Nat → List (Nat × Nat)
  | 0, _ => []
  | bits + 1, left =>
    if 2 ^ bits ≤ left then (start, bits) :: prefixBlocks (start + 2 ^ bits) bits (left - 2 ^ bits)
    else prefixBlocks start bits left

/-- prefix(x, f, id, i), inclusive (R265). -/
def prefixOf (f : Nat → Nat → Nat × Flags) (xs : List Nat) (i : Nat) : Nat × Flags :=
  let vals := (prefixBlocks 0 9 (i + 1)).map (fun b => tree f 9 ((xs.drop b.1).take (2 ^ b.2)))
  match vals with
  | [] => (0, 0)
  | v :: rest => rest.foldl (fun acc v => let r := f acc.1 v.1; (r.1, acc.2 ||| v.2 ||| r.2)) v

/-- rne32 addition. -/
def add32 (a b : Nat) : Nat × Flags := FFmt.f32.add .rne a b

/-! Integer square root, by Newton's step from above. -/

def isqrtStep (n : Nat) : Nat → Nat → Nat
  | 0, x => x
  | fuel + 1, x => let y := (x + n / x) / 2; if y < x then isqrtStep n fuel y else x

/-- The integer square root. -/
def isqrt (n : Nat) : Nat := if n = 0 then 0 else isqrtStep n 64 (2 ^ ((bitLen n + 1) / 2))

end Sys2Proof.Machine
end

