-- ==== Sys2Proof/Machine/Fp.lean ====
section
/-! DEFINITION. The floating-point family (R145 to R154). -/

namespace Sys2Proof.Machine

/-- The element format of a float type (R61). -/
def floatFmt (t : BitVec 3) : FFmt := if t == 1 then .f16 else if t == 2 then .bf16 else .f32
/-- The rounding mode of a float type: codes 0 to 2 take `fmt`'s, the others name theirs (R61, R145, R261). -/
def floatMode (t : BitVec 3) (fmt : Word) : RMode :=
  match t.toNat with
  | 3 => .rz
  | 4 => .ru
  | 5 => .rd
  | _ => RMode.ofCode fmt.toNat
/-- A float type with two elements. -/
def packedF (t : BitVec 3) : Bool := t == 1 || t == 2

/-- Apply an operation to each element of a float type (R138, R145); the results' flags are joined. -/
def perFloat (t : BitVec 3) (f : FFmt → Nat → Nat → Nat → Nat × Flags) (a b d : DWord) : LaneVal :=
  let g := floatFmt t
  if packedF t then
    let lo := f g (elemAt 16 a 0) (elemAt 16 b 0) (elemAt 16 d 0)
    let hi := f g (elemAt 16 a 1) (elemAt 16 b 1) (elemAt 16 d 1)
    (BitVec.ofNat 64 (lo.1 + 2 ^ 16 * hi.1), lo.2 ||| hi.2)
  else
    let r := f g (elemAt 32 a 0) (elemAt 32 b 0) (elemAt 32 d 0)
    (BitVec.ofNat 64 r.1, r.2)

/-- A float word over its operands, in each lane or once on s registers, in the lane's rounding mode; an immediate is
formed by `imm`. -/
def floatEff (w : AWord) (imm : Payload → DWord) (f : RMode → DWord → DWord → DWord → LaneVal) (x : Issue) (d : Device) :
    Eff :=
  let gr := x.view
  let gq := d.view x.agent
  putA w x d false false (fun l =>
    f (floatMode w.t (x.fmtAt l)) (w.aVal gr gq false l) (w.bVal imm gr gq false l) (w.dVal gr false l))

/-- A word of one operation per element. -/
def fpEff (w : AWord) (f : RMode → FFmt → Nat → Nat → Nat → Nat × Flags) : Issue → Device → Eff :=
  floatEff w (floatImm w.t) (fun m a b d => perFloat w.t (f m) a b d)

def execFadd (w : AWord) (s : State) := s.runLanes (.fadd w) (fpEff w (fun m g a b _ => g.add m a b))
def execFsub (w : AWord) (s : State) := s.runLanes (.fsub w) (fpEff w (fun m g a b _ => g.sub m a b))
def execFmul (w : AWord) (s : State) := s.runLanes (.fmul w) (fpEff w (fun m g a b _ => g.mul m a b))
def execFma (w : AWord) (s : State) := s.runLanes (.fma w) (fpEff w (fun m g a b d => g.fma m a b d))
def execFmin (w : AWord) (s : State) := s.runLanes (.fmin w) (fpEff w (fun _ g a b _ => g.pick false a b))
def execFmax (w : AWord) (s : State) := s.runLanes (.fmax w) (fpEff w (fun _ g a b _ => g.pick true a b))

/-- The sign bit of an element inverted, or cleared; NaNs keep their payload (R147). -/
def negBits (g : FFmt) (a : Nat) : Nat := a ^^^ 2 ^ (g.ebits + g.fbits)
def absBits (g : FFmt) (a : Nat) : Nat := a % 2 ^ (g.ebits + g.fbits)

def execFneg (w : AWord) (s : State) := s.runLanes (.fneg w) (fpEff w (fun _ g a _ _ => (negBits g a, 0)))
def execFabs (w : AWord) (s : State) := s.runLanes (.fabs w) (fpEff w (fun _ g a _ _ => (absBits g a, 0)))

/-- `fcmp` (R149). -/
def fcmpEff (w : AWord) (x : Issue) (d : Device) : Eff :=
  let gr := x.view
  let gq := d.view x.agent
  predA w x d w.pDst (fun l =>
    FFmt.f32.cmp w.cnd (elemAt 32 (w.aVal gr gq false l) 0) (elemAt 32 (w.bVal (floatImm w.t) gr gq false l) 0))
def execFcmp (w : AWord) (s : State) := s.runLanes (.fcmp w) (fcmpEff w)

def execFclass (w : AWord) (s : State) := s.runLanes (.fclass w) (fpEff w (fun _ g a _ _ => (g.classOf a, 0)))

/-- The immediate of `fscale`: an i32, or an i16x2 (R151). -/
def scaleImm (t : BitVec 3) : Payload → DWord := intImm (if packedF t then 2 else 0)
/-- The exponent of `fscale`, from an element of b (R151). -/
def scaleBy (m : RMode) (g : FFmt) (a b _d : Nat) : Nat × Flags :=
  g.scale m a (asSigned (if g.width = 32 then 32 else 16) b)
def execFscale (w : AWord) (s : State) :=
  s.runLanes (.fscale w) (floatEff w (scaleImm w.t) (fun m a b d => perFloat w.t (scaleBy m) a b d))

def execFrnd (w : AWord) (s : State) := s.runLanes (.frnd w) (fpEff w (fun m g a _ _ => g.integral m a))

/-- `fdot2`: both products and the addend, exactly, with one rounding to f32 in the mode of `fmt` (R153). -/
def dot2 (t : BitVec 3) (m : RMode) (a b d : DWord) : LaneVal :=
  let g := floatFmt t
  let at' := fun (x : DWord) (i : Nat) => g.decode (elemAt 16 x i)
  let r := FFmt.f32.dot m [(at' a 0, at' b 0), (at' a 1, at' b 1)] (FFmt.f32.decode (elemAt 32 d 0))
  (BitVec.ofNat 64 r.1, r.2)
def execFdot2 (w : AWord) (s : State) := s.runLanes (.fdot2 w) (floatEff w (floatImm w.t) (dot2 w.t))

/-- One float to another format: the rounding of R262, invalid for a signalling NaN (R264). -/
def convertFloat (src dst : FFmt) (m : RMode) (a : Nat) : Nat × Flags :=
  let x := src.decode a
  let y := dst.rnd m x
  (y.1, y.2 ||| sigFlag [x])

/-- `fpack` (R154). -/
def packHalves (t : BitVec 3) (m : RMode) (a b _d : DWord) : LaneVal :=
  let g := floatFmt t
  let lo := convertFloat .f32 g m (elemAt 32 a 0)
  let hi := convertFloat .f32 g m (elemAt 32 b 0)
  (BitVec.ofNat 64 (lo.1 + 2 ^ 16 * hi.1), lo.2 ||| hi.2)
def execFpack (w : AWord) (s : State) := s.runLanes (.fpack w) (floatEff w (floatImm 0) (packHalves w.t))

/-- `funpk`: both halves as f32, the low one in d, the high one in d+1 or in bits [63:32] (R154). -/
def funpkEff (w : AWord) (x : Issue) (d : Device) : Eff :=
  let gr := x.view
  let gq := d.view x.agent
  putA w x d true false (fun l =>
    let a := w.aVal gr gq false l
    let lo := convertFloat (floatFmt w.t) .f32 .rne (elemAt 16 a 0)
    let hi := convertFloat (floatFmt w.t) .f32 .rne (elemAt 16 a 1)
    (BitVec.ofNat 64 (lo.1 + 2 ^ 32 * hi.1), lo.2 ||| hi.2))
def execFunpk (w : AWord) (s : State) := s.runLanes (.funpk w) (funpkEff w)

end Sys2Proof.Machine
end

