-- ==== Sys2Proof/Machine/Convert.lean ====
section
/-! DEFINITION. Conversions: `cvt` (R156, R157, R264) and the block floating point of `cvtbfp` and `.bfpm` (R158, R257,
R258). -/

namespace Sys2Proof.Machine

/-- The float format of a class code of `cvt`; none for the integer classes (R156). -/
def classFmt (c : BitVec 3) : Option FFmt :=
  match c.toNat with
  | 0 => some .f32
  | 1 => some .f16
  | 2 => some .bf16
  | 3 => some .e4m3
  | 4 => some .e5m2
  | _ => none
/-- Bits of an integer class. -/
def classBits (c : BitVec 3) : Nat := if c == 6 then 64 else 32

/-- An integer narrowed to w bits: saturated, with invalid, when it lies outside (R157). -/
def narrowInt (z : Int) (w : Nat) (signed : Bool) : Nat × Flags :=
  rndInt (.fin (decide (z < 0)) z.natAbs 0) w signed .rne

/-- `cvt` of one value (R157). -/
def cvtVal (dst src : BitVec 3) (unsigned : Bool) (m : RMode) (a : DWord) : LaneVal :=
  match classFmt src, classFmt dst with
  | some f, some g => let r := convertFloat f g m (a.toNat % 2 ^ f.width); (BitVec.ofNat 64 r.1, r.2)
  | some f, none => let r := rndInt (f.decode (a.toNat % 2 ^ f.width)) (classBits dst) (!unsigned) m; (BitVec.ofNat 64 r.1, r.2)
  | none, some g =>
    let n := classBits src
    let z : Int := if unsigned then (elemAt n a 0 : Int) else asSigned n (elemAt n a 0)
    let r := g.rnd m (.fin (decide (z < 0)) z.natAbs 0)
    (BitVec.ofNat 64 r.1, r.2)
  | none, none =>
    let n := classBits src
    let z : Int := if unsigned then (elemAt n a 0 : Int) else asSigned n (elemAt n a 0)
    let r := narrowInt z (classBits dst) (!unsigned)
    (BitVec.ofNat 64 r.1, r.2)

/-- The rounding mode of a `cvt` (R156). -/
def cvtRound (w : AWord) (fmt : Word) : RMode :=
  if w.cvtMode == 0 then RMode.ofCode fmt.toNat else RMode.ofCode w.cvtMode.toNat

def cvtEff (w : AWord) (x : Issue) (d : Device) : Eff :=
  let gr := x.view
  let gq := d.view x.agent
  putA w x d (w.cvtDst == 6) (w.cvtDst == 5 && !w.cvtUns) (fun l =>
    cvtVal w.cvtDst w.cvtSrc w.cvtUns (cvtRound w (x.fmtAt l)) (w.aVal gr gq (w.cvtSrc == 6) l))
def execCvt (w : AWord) (s : State) := s.runLanes (.cvt w) (cvtEff w)

/-! Block floating point. -/

/-- floor(log2) of a magnitude; none for zero. An infinity counts as 2^128 (R258). -/
def log2Of (x : FVal) : Option Int :=
  match x with
  | .nan _ => none
  | .inf _ => some 128
  | .fin _ m e => if m = 0 then none else some ((m.log2 : Int) + e)

/-- A block in BFP: the scale, the mantissas and the flags (R258). -/
structure BfpBlock where
  scale : Nat
  mants : List Int
  flags : Flags
  deriving Repr

/-- One mantissa at unit 2^q: the value, and its flags. -/
def bfpMant (m : Nat) (q : Int) (x : FVal) : Int × Flags :=
  let lo : Int := -(2 ^ (m - 1))
  let hi : Int := 2 ^ (m - 1) - 1
  match x with
  | .nan _ => (0, 0)
  | .inf s => (if s then lo else hi, fOverflow ||| fInexact)
  | .fin s n e =>
    let r := roundInt .rne s n (e - q)
    let z : Int := if s then -(r.1 : Int) else r.1
    let y := min (max z lo) hi
    let fl : Flags := if r.2 || y != z then fInexact else 0
    (y, if y == 0 && n != 0 then fl ||| fUnderflow else fl)

/-- The BFP conversion of a block at width m (R258). -/
def bfpConvert (m : Nat) (xs : List FVal) : BfpBlock :=
  if xs.any FVal.isNan then { scale := 0xFF, mants := xs.map (fun _ => 0), flags := sigFlag xs }
  else
    match (xs.filterMap log2Of).foldl (fun (a : Option Int) e => match a with | none => some e | some b => some (max b e)) none with
    | none => { scale := 0, mants := xs.map (fun _ => 0), flags := 0 }
    | some e =>
      let sc := (min (max (e + 128) 0) 0xFE).toNat
      let ms := xs.map (bfpMant m ((sc : Int) - 127 - (m - 1 : Nat)))
      { scale := sc, mants := ms.map Prod.fst, flags := ms.foldl (fun a p => a ||| p.2) 0 }

/-- The value of a BFP element (R257). -/
def bfpValue (m scale : Nat) (mant : Int) : FVal :=
  if scale = 0xFF then .nan false
  else if mant = 0 then .fin false 0 0
  else .fin (decide (mant < 0)) mant.natAbs ((scale : Int) - 127 - (m - 1 : Nat))

/-- A sign-extended mantissa in a byte. -/
def mantByte (z : Int) : Nat := wrap 8 z

/-- `cvtbfp` (R158): encode over blocks of sixteen lanes, or decode lane by lane. -/
def cvtbfpEff (w : AWord) (x : Issue) (d : Device) : Eff :=
  let gr := x.view
  let gq := d.view x.agent
  let m := w.t.toNat + 2
  let act := x.act
  let enc := fun (l : Nat) =>
    let lanes := (List.range 16).map (fun i => l / 16 * 16 + i)
    let b := bfpConvert m (lanes.map (fun n =>
      if act.contains n then FFmt.f32.decode (elemAt 32 (w.aVal gr gq false n) 0) else .fin false 0 0))
    (BitVec.ofNat 64 (b.scale * 256 + mantByte ((b.mants[l % 16]?).getD 0)), b.flags)
  let dec := fun (l : Nat) =>
    let a := (w.aVal gr gq false l).toNat
    (BitVec.ofNat 64 (FFmt.f32.rnd .rne (bfpValue m (a / 256 % 256) (asSigned m (a % 2 ^ m)))).1, 0)
  laterA w x d false .flags (if w.b == 0 then enc else dec)
def execCvtbfp (w : AWord) (s : State) := s.runLanes (.cvtbfp w) (cvtbfpEff w)

end Sys2Proof.Machine
end

