-- ==== Sys2Proof/Machine/MemAcc.lean ====
section
/-! DEFINITION. Plain, line and constant accesses, prefetch and token positions (R165 to R172, R232, R235, R236, R247,
R248). -/

namespace Sys2Proof.Machine

/-- A load from decoded accesses (R167). -/
def loadEff (x : Issue) (d : Device) (u : Bool) (r : RegNo) (k : LoadKind) (as : Except Eff (List LaneAcc)) : Eff :=
  match as with
  | .error e => e
  | .ok as => if d.held (locsOf as) then .wait else .ok (d.loadTo x u r k as)

/-- How a word loads: with order acq it is an acquire (R170, R282). -/
def loadKindOf (w : MWord) (size : BitVec 3) (line : Bool) : LoadKind := { size := size, acq := bitOf w.order 0, line := line }

/-- `ld` (R170); with scope `rmt` it promotes first (R288). An acquire of this device's memory is performed as it issues, before any later access (DESIGN CHOICE,
assumption 3); one of another device's holds later accesses back until its value comes. -/
def ldEff (w : MWord) (x : Issue) (d : Device) : Eff :=
  let k : Acc := if w.size == 2 || w.size == 3 then .sum else .load
  let as := x.reach d k (sizeBytes w.size) (x.laneEAs d w)
  loadEff x (d.promote w as) w.u w.d (loadKindOf w w.size false) as
def execLd (w : MWord) (s : State) := s.runLanes (.ld w) (ldEff w)

/-- The data of a store, beside its access. -/
def Issue.withData (x : Issue) (d : Device) (w : MWord) (as : List LaneAcc) : List (LaneAcc × DWord) :=
  let gr := x.view
  let gq := d.view x.agent
  as.map (fun a => (a, w.dataVal gr gq (a.lane.getD x.lead)))

/-- A store to decoded accesses, at commit (R56, R168), as `store` performs it. -/
def storeEff (x : Issue) (d : Device) (w : MWord) (as : Except Eff (List LaneAcc))
    (store : Device → List (LaneAcc × DWord) → Device) : Eff :=
  match as with
  | .error e => e
  | .ok as =>
    if d.held (locsOf as) then .wait
    else x.released d (sysRel w) (.ok (store d (x.withData d w as)))
def stEff (w : MWord) (x : Issue) (d : Device) : Eff :=
  storeEff x d w (x.reach d .store (sizeBytes w.size) (x.laneEAs d w)) (fun d ws => d.storeLanes x.agent ws)
def execSt (w : MWord) (s : State) := s.runLanes (.st w) (stEff w)

/-- Offsets into the constant window as addresses; PERM past its length (R171). -/
def Packet.constEAs (p : Packet) (n : Nat) : List (Option Nat × DWord) → Except Eff (List (Option Nat × DWord))
  | [] => .ok []
  | (l, o) :: rest =>
    if p.cwinLen < o.toNat + n then .error (.trap .perm l 0)
    else
      match p.constEAs n rest with
      | .error e => .error e
      | .ok more => .ok ((l, p.cwinBase + o) :: more)

/-- `ldc` (R171): each byte as stored last or as at admission, a free choice (DESIGN CHOICE, assumption 21). -/
def ldcEff (w : MWord) (x : Issue) (d : Device) : Eff :=
  let c := d.ctx (d.ctxOf x.agent)
  match c.packet.constEAs (sizeBytes w.size) (x.laneEAs d w) with
  | .error e => e
  | .ok eas =>
    match x.reach d .load (sizeBytes w.size) eas with
    | .error e => e
    | .ok as => if d.held (locsOf as) then .wait else .ok (d.loadWith (d.constAt c w.d.toNat) x w.u w.d { size := w.size, acq := false, line := false } as)
def execLdc (w : MWord) (s : State) := s.runLanes (.ldc w) (ldcEff w)

/-- The first lane whose address is not a multiple of 4 (R235). -/
def misalignedLane (n : Nat) (eas : List (Option Nat × DWord)) : Option (Option Nat) :=
  (eas.find? (fun p => p.2.toNat % n != 0)).map Prod.fst

/-- `ldl`: one word a lane (R235). -/
def ldlEff (w : MWord) (x : Issue) (d : Device) : Eff :=
  match misalignedLane 4 (x.laneEAs d w) with
  | some l => .trap .misalign l 0
  | none =>
    let as := x.reach d .load 4 (x.laneEAs d w)
    loadEff x (d.promote w as) false w.d (loadKindOf w 2 true) as
def execLdl (w : MWord) (s : State) := s.runLanes (.ldl w) (ldlEff w)

/-- The end of an agent's open region (R342). -/
def Device.endRegionOf (d : Device) (a : Agent) : Device := d.modView a Group.endRegion

/-- `stl`: one word a lane, at commit; it ends the region (R235, R342). -/
def stlEff (w : MWord) (x : Issue) (d : Device) : Eff :=
  match misalignedLane 4 (x.laneEAs d w) with
  | some l => .trap .misalign l 0
  | none => storeEff x d w (x.reach d .store 4 (x.laneEAs d w)) (fun d ws => (d.storeLine x.agent ws).endRegionOf x.agent)
def execStl (w : MWord) (s : State) := s.runLanes (.stl w) (stlEff w)

/-- The line of an address that a prefetch may bring in: ordinary memory of this device, outside the scratchpad window
(R247). -/
def Device.prefLine (d : Device) (a : Agent) (ea : DWord) : Option Nat :=
  let c := d.ctx (d.ctxOf a)
  if (bitsOf ea 56 8).toNat != 0 then none
  else
    match d.reach a (d.view a).priv .load ea 1 with
    | .ok [.mem pa] => if c.inScratch (bitsOf ea 0 56).toNat || d.unmapped pa then none else some (pa / 128)
    | _ => none

/-- `pref`: the lines become present at their homes; `.own` also takes them owned, which leaves mapped entries of them
unfilled (R220, R247). A line that an engine owns or the host caches is not prefetched (R247: it may be dropped; DESIGN
CHOICE, assumption 48). -/
def prefEff (w : MWord) (x : Issue) (d : Device) : Eff :=
  let lines := dedup (((x.laneEAs d w).filterMap (fun p => d.prefLine x.agent p.2)).filter (fun n => !d.held [.mem (n * 128)]))
  let d1 := lines.foldl (fun d n => d.touch false n) d
  .ok (if bitOf w.func 1 then d1.takeOwned [] lines else lines.foldl (fun d n => d.cleanEntries [] n) d1)
def execPref (w : MWord) (s : State) := s.runLanes (.pref w) (prefEff w)

/-! Extent lists. -/

/-- An extent: first token, length, stride, base (R232). -/
structure Extent where
  first : Nat
  len : Nat
  stride : Nat
  base : DWord
  deriving DecidableEq, Repr

/-- The list at a stash offset of a block: as many extents as its count, none when it is above 16 (R232). Bytes that the table calls zero are not
looked at (DESIGN CHOICE, assumption 84). -/
def Device.extents (d : Device) (b off : Nat) : List Extent :=
  let v := fun (o n : Nat) => d.valueAt ((List.range n).map (fun i => Loc.stash b (off + o + i)))
  let count := (v 0 1).toNat % 32
  if 16 < count then []
  else (List.range count).map (fun e =>
    { first := (v (16 + 32 * e) 4).toNat, len := (v (20 + 32 * e) 4).toNat, stride := (v (24 + 32 * e) 4).toNat,
      base := v (32 + 32 * e) 8 })

/-- The address of a token position (R232). -/
def kvAddress (es : List Extent) (pos : Nat) : Option DWord :=
  (es.find? (fun e => decide (e.first ≤ pos) && decide (pos < e.first + e.len))).map
    (fun e => e.base + BitVec.ofNat 64 ((pos - e.first) * e.stride))

/-- The checks on the address of an extent list: the own-stash window, alignment, and the stash's size (R232, R248). Of a list whose count is above 16
only the first 16 bytes must lie in the stash (DESIGN CHOICE, assumption 84). -/
def Device.kvList (d : Device) (a : Agent) (ea : DWord) : Except Eff Nat :=
  if (bitsOf ea 56 8).toNat != 0xFE then .error (.trap .perm none 0)
  else if (bitsOf ea 20 36).toNat != 0 then .error (.trap .xlate none 0)
  else
    match a.blk? with
    | none => .error (.trap .perm none 0)
    | some b =>
      let off := (bitsOf ea 0 20).toNat
      if off % 16 != 0 then .error (.trap .misalign none 0)
      else if (d.block b).stashBytes < off + 16 then .error (.trap .perm none 0)
      else if (d.block b).stashBytes < off + 16 + 32 * (d.extents b off).length then .error (.trap .perm none 0)
      else .ok off

/-- `kvx` (R248). -/
def kvxEff (w : MWord) (x : Issue) (d : Device) : Eff :=
  let gr := x.view
  let gq := d.view x.agent
  let p := (bitsOf w.func 0 3).toNat
  match d.kvList x.agent (gr.sAt w.base.toNat + sext w.off * 8) with
  | .error e => e
  | .ok off =>
    let b := (x.agent.blk?).getD 0
    let locs := (List.range (16 + 32 * (d.extents b off).length)).map (fun i => Loc.stash b (off + i))
    if d.held locs then .wait
    else
      let es := d.extents b off
      let at' := fun (l : Nat) => kvAddress es (bitsOf (w.indexVal gr gq l) 0 32).toNat
      let d1 := d.touchLoads locs
      if w.u then
        let r := at' x.lead
        .ok ((d1.putP x p (x.act.map (fun l => (l, r.isSome))) 0).laterS x w.d.toNat (r.getD 0) 0 .nothing)
      else
        let rs := x.act.map (fun l => (l, at' l))
        .ok ((d1.putP x p (rs.map (fun q => (q.1, q.2.isSome))) 0).laterLanes x w.d.toNat true
          (rs.map (fun q => (q.1, q.2.getD 0))) 0 .nothing)
def execKvx (w : MWord) (s : State) := s.runLanes (.kvx w) (kvxEff w)

end Sys2Proof.Machine
end

