-- ==== Sys2Proof/Machine/Copy.lean ====
section
/-! DEFINITION. Copies and their batches (R227, R228, R237 to R240), queue loads (R230, R243), and stash mappings (R220,
R244 to R246). -/

namespace Sys2Proof.Machine

/-! Copies. -/

/-- The pieces of a run of bytes, one a page: where it lies, its position in the run, its length. -/
def Device.runPieces (d : Device) (a : Agent) (k : Acc) : Nat → DWord → Nat → Nat → Except Eff (List (Loc × Nat × Nat))
  | 0, _, _, _ => .ok []
  | fuel + 1, va, pos, len =>
    if len = 0 then .ok []
    else
      let n := min len (4096 - va.toNat % 4096)
      match d.reach a (d.view a).priv k va 1 with
      | .error b => .error (b.eff none va)
      | .ok ls =>
        match d.runPieces a k fuel (va + BitVec.ofNat 64 n) (pos + n) (len - n) with
        | .error e => .error e
        | .ok more => .ok ((ls.map (fun l => (l, pos, n))) ++ more)

/-- The operands of `cp` (R237). -/
structure CopyArgs where
  glob : DWord
  off : Nat
  len : Nat
  rows : Nat
  gStep : DWord
  tStep : Nat
  deriving DecidableEq, Repr

def copyArgs (w : MWord) (g : Group) : CopyArgs :=
  let s := fun (i : Nat) => g.sAt (w.d.toNat + i)
  { glob := w.addrFull (g.sAt w.base.toNat) (g.sAt w.index.toNat), off := (bitsOf (s 0) 0 32).toNat,
    len := (bitsOf (s 1) 0 32).toNat, rows := (bitsOf (s 1) 32 32).toNat, gStep := sext (bitsOf (s 2) 0 32),
    tStep := (bitsOf (s 2) 32 32).toNat }

/-- The pieces of every row, in row order, with their stash offsets. -/
def Device.copyPieces (d : Device) (a : Agent) (k : Acc) (c : CopyArgs) : List Nat → Except Eff (List (Loc × Nat × Nat))
  | [] => .ok []
  | r :: rest =>
    let va := c.glob + BitVec.ofNat 64 r * c.gStep
    if (bitsOf va 56 8).toNat == 0xFE || (bitsOf va 56 8).toNat == 0xFD then .error (.trap .perm none 0)
    else
      match d.runPieces a k 18 va (c.off + r * c.tStep) c.len with
      | .error e => .error e
      | .ok ps =>
        match d.copyPieces a k c rest with
        | .error e => .error e
        | .ok more => .ok (ps ++ more)

/-- The locations of a piece, on both sides. -/
def pieceLocs (b : Nat) (p : Loc × Nat × Nat) : List (Loc × Loc) :=
  (List.range p.2.2).map (fun i => (p.1.add i, Loc.stash b (p.2.1 + i)))

/-- The lines of memory that a copy writes (R231). -/
def Device.copyLines (d : Device) (b : Nat) (out : Bool) (ps : List (Loc × Nat × Nat)) : List Nat :=
  d.linesOf (ps.flatMap (fun p => (pieceLocs b p).map (fun q => if out then q.1 else q.2)))

/-- Bytes of data that one flit carries (R420). -/
def flitBytes : Nat := 240

/-- The pieces of a copy, each with its place among the copy's bytes. -/
def placedFrom : Nat → List (Loc × Nat × Nat) → List (Nat × Loc × Nat × Nat)
  | _, [] => []
  | n, p :: rest => (n, p) :: placedFrom (n + p.2.2) rest
/-- The flits of a run of bytes on another device: place, device, offset and count. -/
def flitsOf (q : Nat × Loc × Nat × Nat) : List (Nat × BitVec 12 × Nat × Nat) :=
  match q.2.1 with
  | .remote n off =>
    (List.range ((q.2.2.2 + flitBytes - 1) / flitBytes)).map (fun i =>
      (q.1 + i * flitBytes, n, off + i * flitBytes, min flitBytes (q.2.2.2 - i * flitBytes)))
  | _ => []
/-- The flits of a copy to or from other devices. -/
def copyFlits (ps : List (Loc × Nat × Nat)) : List (Nat × BitVec 12 × Nat × Nat) := (placedFrom 0 ps).flatMap flitsOf

/-- One flit of a copy (R421): a request for bytes, or bytes with their places in it, whose answer the copy awaits. -/
def Device.copyFlit (d : Device) (c : Nat) (a : Option Agent) (id : Nat) (q : Nat × BitVec 12 × Nat × Nat) (cells : List (Nat × Byte)) :
    Device :=
  let op := { plainOp a c q.2.1 6 q.2.2.1 q.2.2.2 with use := .copy id q.1 }
  d.request op { op.msg q.2.1 with cells := cells }

/-- What a copy writes on other devices: each byte once, that of the highest row (R237). -/
def copyFar (ws : List (Loc × Byte)) : List (BitVec 12 × Nat × Byte) :=
  (ws.foldl (fun (m : Fmap (Option (BitVec 12 × Nat × Byte))) p =>
    match p.1 with | .remote n off => Fmap.set none m (locKey p.1) (some (n, off, p.2)) | _ => m) []).filterMap Prod.snd
/-- The flits of a copy to other devices: device, offset, and the bytes of one run of 240 from a multiple of 240 on, so that no flit holds a part
of what the copy writes of an aligned 8-byte word (R237, R420). -/
def outFlits : List (BitVec 12 × Nat × Byte) → List (BitVec 12 × Nat × List (Nat × Byte))
  | [] => []
  | (n, off, x) :: rest =>
    match outFlits rest with
    | (m, o, cs) :: more =>
      if m == n && o / flitBytes == off / flitBytes then (n, off, (0, x) :: cs.map (fun p => (p.1 + (o - off), p.2))) :: more
      else (n, off, [(0, x)]) :: (m, o, cs) :: more
    | [] => [(n, off, [(0, x)])]

/-- `cp`: check both sides, then hand the copy to the engine, which takes the lines it writes owned (R220, R231, R237, R238). -/
def cpAct (w : MWord) (a : Agent) (g : Group) (_x : GrpInst) (d : Device) : Eff :=
  let c := copyArgs w g
  let out := bitOf w.func 0
  match a with
  | .group b k =>
    if bitsOf (g.sAt w.d.toNat) 32 32 != 0 || c.len = 0 || c.rows = 0 || 65536 < c.len * c.rows then .trap .illegal none 0
    else
      match d.copyPieces a (if out then .store else .load) c (List.range c.rows) with
      | .error e => e
      | .ok ps =>
        if (List.range c.rows).any (fun r => c.off + r * c.tStep < 128 || (d.block b).stashBytes < c.off + r * c.tStep + c.len) then
          .trap .perm none 0
        else
          let core := (d.block b).core
          let lines := d.copyLines b out ps
          if 256 ≤ (d.copies.filter (fun q => (d.block q.blk).core == core)).length then .wait
          else if lines.any d.owned then .wait
          else
            let id := d.copyId + 1
            let op : CopyOp :=
              { blk := b, slot := k, id := id, out := out, pieces := ps, lines := lines, bytes := [], sent := false, bad := false }
            let d1 := if out then d else (copyFlits ps).foldl (fun d q => d.copyFlit (d.ctxOf a) (some a) id q []) d
            let d2 := d1.takeOwned (if out then [] else ps.flatMap (fun p => (pieceLocs b p).map Prod.snd)) lines
            .ok ({ d2 with
                copyId := id
                copies := d2.copies ++ [op] }.modView a
              (fun g => { g with openCopies := g.openCopies ++ [id] }))
  | _ => .trap .illegal none 0
def execCp (w : MWord) (s : State) := s.runGang (.cp w) (fun x d => x.grpWord d (.cp w) [] (cpAct w))

/-- `cpclose`: the pending copies become a batch; its number goes to sD (R228, R239, R240). -/
def cpcloseAct (w : MWord) (a : Agent) (_g : Group) (_x : GrpInst) (d : Device) : Eff :=
  .ok (d.modView a (fun g =>
    let n := g.copySeq + 1
    let ids := g.openCopies.filter (fun i => d.copies.any (fun c => c.id == i))
    let g1 : Group :=
      { g with copySeq := n, openCopies := [], openBad := false,
               badBatches := if g.openBad then g.badBatches ++ [n] else g.badBatches,
               batches := if ids.isEmpty then g.batches else g.batches ++ [(n, ids)] }
    ((g1.setS w.d.toNat (BitVec.ofNat 64 n)).markS false [w.d.toNat]).endRegion))
def execCpclose (w : MWord) (s : State) := s.runGang (.cpclose w) (fun x d => x.grpWord d (.cpclose w) [] (cpcloseAct w))

/-- `cpwait`: until every batch numbered s(N) or below is complete (R228, R239). ECC when an error has met one of them; the code
field of CAUSE names the batch (DEDUCED, assumption 64). -/
def cpwaitEff (w : MWord) (x : Issue) (d : Device) : Eff :=
  let n := (x.view.sAt w.index.toNat).toNat
  let g := d.view x.agent
  if g.batches.any (fun b => decide (b.1 ≤ n)) then .wait
  else
    match g.badBatches.find? (fun b => decide (b ≤ n)) with
    | some b => .trap .ecc none (BitVec.ofNat 16 b)
    | none => .ok d
def execCpwait (w : MWord) (s : State) := s.runGang (.cpwait w) (cpwaitEff w)

/-! The engine. -/

/-- The global side of a copy, byte by byte. -/
def CopyOp.globals (c : CopyOp) : List Loc := c.pieces.flatMap (fun p => (pieceLocs c.blk p).map Prod.fst)
/-- Its stash side. -/
def CopyOp.locals (c : CopyOp) : List Loc := c.pieces.flatMap (fun p => (pieceLocs c.blk p).map Prod.snd)
/-- The bytes that the copy reads. -/
def CopyOp.source (c : CopyOp) : List Loc := if c.out then c.locals else c.globals
/-- The bytes that it writes. -/
def CopyOp.target (c : CopyOp) : List Loc := if c.out then c.globals else c.locals

/-- An engine that took the line before a copy issued owns it still: the copy's read waits for it (R231; DEDUCED, assumption 65). -/
def Device.ownedBefore (d : Device) (id line : Nat) : Bool :=
  d.copies.any (fun c => decide (c.id < id) && c.lines.contains line) ||
    d.cores.any (fun k => k.crest.any (fun x => x.ops.any (fun o => o.lines.contains line)))

/-- A flit of the copy is still on its way. -/
def Device.copyAway (d : Device) (id : Nat) : Bool :=
  d.fab.remotes.any (fun r => match r.use with | .copy n _ => n == id | _ => false)

/-- The copy has nothing to wait for: what it asked for has come or has been acknowledged, no earlier engine owns a line it
reads, and the host caches none of its lines (R231, R414). -/
def Device.copyReady (d : Device) (c : CopyOp) : Bool :=
  let src := d.linesOf c.source
  !d.copyAway c.id &&
    (c.sent || (!src.any (d.ownedBefore c.id) && !(src ++ c.lines).any d.fab.hostLines.contains))

/-- The bytes that the copy moves, in their order: those of another device as they have come (R421). -/
def Device.copyBytes (d : Device) (c : CopyOp) : List Byte :=
  c.source.mapIdx (fun i l => if isRemote l then Fmap.get 0 c.bytes i else d.byteAt l)

/-- An uncorrected error meets a byte of the copy (R239, R416). -/
def Device.copyLost (d : Device) (c : CopyOp) : Bool := c.source.any d.lostByte || c.target.any d.noMemory

/-- The copy is complete, and leaves its batch; an error that has met it is logged, with the number of its batch above its core's (R228, R239;
DEDUCED, assumption 64). -/
def Device.closeCopy (d : Device) (k : Nat) (c : CopyOp) : Device :=
  let g0 := (d.block c.blk).group c.slot
  let batch := match g0.batches.find? (fun b => b.2.contains c.id) with | some b => b.1 | none => g0.copySeq + 1
  let d1 := ({ d with copies := listDrop d.copies k } : Device).modGroup c.blk c.slot (fun g =>
    { g with
      openBad := g.openBad || (c.bad && g.openCopies.contains c.id)
      badBatches := if c.bad && g.batches.any (fun b => b.2.contains c.id) then g.badBatches ++ [batch] else g.badBatches
      batches := (g.batches.map (fun b => (b.1, b.2.filter (fun i => i != c.id)))).filter (fun b => !b.2.isEmpty) })
  if c.bad then
    let core := (d.block c.blk).core
    d1.logEntry 2 (core / 32) (BitVec.ofNat 64 (batch * 256 + core % 32)) 0
  else d1

/-- The engine performs a copy: every byte in row order, so that the higher row's stands (R237), with a message for each flit to
another device. It completes once those are acknowledged (R290); `ecc` says that an uncorrected error met it. -/
def Device.finishCopy (d : Device) (k : Nat) (ecc : Bool) : Device :=
  match d.copies[k]? with
  | none => d
  | some c =>
    if c.sent then d.closeCopy k c
    else
      let bs := d.copyBytes c
      let c1 := { c with bad := c.bad || ecc || d.copyLost c, lines := [] }
      let d1 := (d.touchLoads (c.source.filter (fun l => !isRemote l))).storeAll ((c.target.zip bs).filter (fun p => !isRemote p.1))
      let d2 := d1.meetLost (d.block c.blk).ctx (c.source ++ c.target)
      let flits := outFlits (copyFar (c.target.zip bs))
      if flits.isEmpty then d2.closeCopy k c1
      else
        let d3 := { d2 with copies := listModify (fun _ => { c1 with sent := true }) d2.copies k }
        flits.foldl (fun d q =>
          let n := ((q.2.2.getLast?).map (fun p => p.1 + 1)).getD 0
          d.copyFlit (d.block c.blk).ctx none c.id (0, q.1, q.2.1, n) q.2.2) d3

/-! Queues. -/

/-- The lane addresses of a `qld` (R243). -/
def qldEAs (w : MWord) (g : Group) : List (Option Nat × DWord) :=
  (List.range 256).map (fun l =>
    (none, g.sAt w.base.toNat + BitVec.ofNat 64 l * g.sAt w.index.toNat + sext w.off * BitVec.ofNat 64 (sizeBytes w.size)))

/-- `qld`: allocate an entry at the tail of a queue; its loads are performed later, and an acquire holds back the access slice's
later accesses until the entry is filled (R230, R243). A spawned group has no queues: in its slot nothing is pushed. -/
def qldEff (w : MWord) (x : Issue) (d : Device) : Eff :=
  let slot := (bitsOf w.func 0 4).toNat
  let q := (bitsOf w.d 0 3).toNat
  match x.agent with
  | .access b =>
    if (d.ctx (d.block b).ctx).packet.groups ≤ slot then .trap .illegal none 0
    else
      match x.reach d .load (sizeBytes w.size) (qldEAs w x.view) with
      | .error e => e
      | .ok as =>
        let g := (d.block b).group slot
        if g.exited || g.spawned then .ok d
        else
          let u := (g.queues[q]?).getD default
          if 2 ≤ u.entries.length then .wait
          else
            let tag := d.fab.tags + 1
            let ops := (List.range 256).flatMap (fun l =>
              match as[l]? with
              | some y => d.loadOps x.agent tag 0 w.size false { y with lane := some l }
              | none => [])
            let d1 := ops.foldl Device.ask { d with fab := { d.fab with tags := tag } }
            let f : QFill :=
              { blk := b, slot := slot, q := q, entry := u.base + u.entries.length, locs := as.map LaneAcc.locs, size := w.size,
                await := ops.length, tag := tag, words := [], err := [], acq := bitOf w.order 0 }
            .ok ({ d1 with qfills := d1.qfills ++ [f] }.modGroup b slot (fun g =>
              { g with
                queues := g.queues.mapIdx (fun n (u : Queue) =>
                  if n == q then { u with entries := u.entries ++ [({ words := [], filled := false, err := [] } : QEntry)] } else u) }))
  | _ => .trap .illegal none 0
def execQld (w : MWord) (s : State) := s.runLanes (.qld w) (qldEff w)

/-- The loads of an entry are performed and its words written (R243): bytes of this device as they stand, those of others as they have come. -/
def Device.fillQueue (d : Device) (k : Nat) : Device :=
  match d.qfills[k]? with
  | none => d
  | some f =>
    let words := (List.range 256).map (fun l =>
      match f.locs[l]? with
      | some ls => (l, Fmap.get 0 f.words l ||| bitsOf (extendVal f.size (d.valueAt ls)) 0 32)
      | none => (l, 0))
    let lost := (List.range 256).filter (fun l => ((f.locs[l]?).getD []).any d.lostByte)
    let d0 := { d.touchLoads f.locs.flatten with qfills := listDrop d.qfills k }
    let d1 := d0.meetLost (d.block f.blk).ctx f.locs.flatten
    d1.modGroup f.blk f.slot (fun g =>
      let e : QEntry := { words := Fmap.setAll 0 [] words, filled := true, err := f.err ++ lost }
      { g with
        queues := g.queues.mapIdx (fun n (u : Queue) =>
          if n == f.q then { u with entries := listSet u.entries (f.entry - u.base) e } else u) })

/-! Stash mappings. -/

/-- The lines of a mapping to be made: each translated, in ordinary memory of this device (R244). -/
def Device.mapLines (d : Device) (a : Agent) (ea : DWord) : List Nat → Except Eff (List Nat)
  | [] => .ok []
  | i :: rest =>
    let va := ea + BitVec.ofNat 64 (i * 128)
    match d.ordinary a .atomic va 1 none with
    | .error e => .error e
    | .ok ls =>
      match d.mapLines a ea rest with
      | .error e => .error e
      | .ok more => .ok ((match ls with | .mem pa :: _ => pa / 128 | _ => 0) :: more)

/-- `stmap` (R244). -/
def stmapAct (w : MWord) (a : Agent) (g : Group) (_x : GrpInst) (d : Device) : Eff :=
  let ea := fullEA w g
  let v := g.sAt w.d.toNat
  let off := (bitsOf v 0 32).toNat
  let len := (bitsOf v 32 32).toNat
  match a with
  | .group b _ =>
    let blk := d.block b
    if ea.toNat % 128 != 0 then .trap .misalign none 0
    else if off % 128 != 0 || len % 128 != 0 || len = 0 then .trap .illegal none 0
    else
      match d.mapLines a ea (List.range (min len (2 ^ 20) / 128)) with
      | .error e => e
      | .ok lines =>
        if blk.stashBytes < off + len || off < 128 || blk.maps.any (fun m => decide (m.off < off + len) && decide (off < m.off + m.len)) then
          .trap .perm none 0
        else if 8 ≤ blk.maps.length then .trap .capacity none 0
        else if lines.any (fun n => d.held [.mem (n * 128)]) then .wait
        else
          .ok ((d.modBlock b (fun k =>
            { k with stash := Fmap.clear k.stash off len,
                     maps := k.maps ++ [{ off := off, len := len, lines := lines, filled := [], dirty := [] }] })).endRegionOf a)
  | _ => .trap .illegal none 0
def execStmap (w : MWord) (s : State) := s.runGang (.stmap w) (fun x d => x.grpWord d (.stmap w) [] (stmapAct w))

/-- `stunmap` (R245): filled entries keep their bytes as scratch, unfilled ones read as zero. A nonzero s(d)[63:32], which must be 0, raises ILLEGAL
(DESIGN CHOICE, assumption 84). -/
def stunmapAct (w : MWord) (a : Agent) (g : Group) (_x : GrpInst) (d : Device) : Eff :=
  let v := g.sAt w.d.toNat
  let off := (bitsOf v 0 32).toNat
  match a with
  | .group b _ =>
    if bitsOf v 32 32 != 0 then .trap .illegal none 0
    else
      match (d.block b).maps.find? (fun m => m.off == off) with
      | none => .trap .perm none 0
      | some m =>
        let keep := (List.range (m.len / 128)).flatMap (fun i =>
          if Fmap.get false m.filled i then
            (List.range 128).map (fun n => (off + 128 * i + n, Fmap.get 0 d.mem ((m.lines[i]?).getD 0 * 128 + n)))
          else [])
        d.relAct a (List.range 64) (sysRel w) (.ok ((d.modBlock b (fun k =>
          { k with maps := k.maps.filter (fun y => y.off != off), stash := Fmap.setAll 0 k.stash keep })).endRegionOf a))
  | _ => .trap .illegal none 0
def execStunmap (w : MWord) (s : State) := s.runGang (.stunmap w) (fun x d => x.grpWord d (.stunmap w) [] (stunmapAct w))

/-- Entries of a mapping that lie in a range become clean (R245); the range need not be aligned, and an entry that it holds only in part stays as it
is (DESIGN CHOICE, assumption 84). -/
def StashMap.clean (m : StashMap) (off len : Nat) : StashMap :=
  { m with dirty := m.dirty.filter (fun p => !(decide (off ≤ m.off + 128 * p.1) && decide (m.off + 128 * p.1 + 128 ≤ off + len))) }

/-- `stfl` (R245): the written-back lines hold their bytes at their homes. -/
def stflAct (w : MWord) (a : Agent) (g : Group) (_x : GrpInst) (d : Device) : Eff :=
  let v := g.sAt w.d.toNat
  let off := (bitsOf v 0 32).toNat
  let len := (bitsOf v 32 32).toNat
  match a with
  | .group b _ =>
    if (d.block b).stashBytes < off + len then .trap .perm none 0
    else d.relAct a (List.range 64) (sysRel w) (.ok (d.modBlock b (fun k => { k with maps := k.maps.map (fun m => m.clean off len) })))
  | _ => .trap .illegal none 0
def execStfl (w : MWord) (s : State) := s.runGang (.stfl w) (fun x d => x.grpWord d (.stfl w) [] (stflAct w))

end Sys2Proof.Machine
end

