-- ==== Sys2Proof/Machine/Xfun.lean ====
section
/-! DEFINITION. The correctly rounded functions of the X pipe (R252, R279). `frcp`, `frsq` and `fsqrt` are computed exactly
with a sticky remainder. `flog2` and `fexp2` are irrational unless exact; they are computed to far more bits than any f32
argument needs before the one rounding (UNVERIFIED, assumption 20). -/

namespace Sys2Proof.Machine

/-- An f32 result rounded to nearest even. -/
def rne (neg : Bool) (m : Nat) (e : Int) (sticky : Bool) : Nat × Flags := FFmt.f32.round .rne neg m e sticky
/-- The canonical NaN, with invalid or not. -/
def nanWith (invalid : Bool) : Nat × Flags := (FFmt.f32.nan, if invalid then fInvalid else 0)

/-- 1 / x (R252). -/
def rcp32 (a : Nat) : Nat × Flags :=
  match FFmt.f32.decode a with
  | .nan s => nanWith s
  | .inf s => rne s 0 0 false
  | .fin s m e =>
    if m = 0 then (FFmt.f32.inf s, fDivide)
    else let k := 64 + bitLen m; rne s (2 ^ k / m) (-(k : Int) - e) (2 ^ k % m != 0)

/-- A magnitude with an even exponent. -/
def evenExp (m : Nat) (e : Int) : Nat × Int := if e % 2 = 0 then (m, e) else (2 * m, e - 1)

/-- The square root (R279). -/
def sqrt32 (a : Nat) : Nat × Flags :=
  match FFmt.f32.decode a with
  | .nan s => nanWith s
  | .inf s => if s then nanWith true else (a, 0)
  | .fin s m e =>
    if m = 0 then (a, 0)
    else if s then nanWith true
    else
      let p := evenExp m e
      let big := p.1 * 2 ^ 64
      let r := isqrt big
      rne false r (p.2 / 2 - 32) (r * r != big)

/-- The reciprocal square root (R279). -/
def rsq32 (a : Nat) : Nat × Flags :=
  match FFmt.f32.decode a with
  | .nan s => nanWith s
  | .inf s => if s then nanWith true else (0, 0)
  | .fin s m e =>
    if m = 0 then (FFmt.f32.inf s, fDivide)
    else if s then nanWith true
    else
      let p := evenExp m e
      let r := isqrt (2 ^ 160 / p.1)
      rne false r (-(p.2 / 2) - 80) (r * r * p.1 != 2 ^ 160)

/-- The first n binary digits of log2 y, for y from 1 to 2 held with 208 fraction bits. -/
def logDigits : Nat → Nat → Nat → Nat
  | 0, _, acc => acc
  | n + 1, y, acc =>
    let z := y * y / 2 ^ 208
    if 2 ^ 209 ≤ z then logDigits n (z / 2) (2 * acc + 1) else logDigits n z (2 * acc)

/-- The base-2 logarithm (R252). -/
def log2f32 (a : Nat) : Nat × Flags :=
  match FFmt.f32.decode a with
  | .nan s => nanWith s
  | .inf s => if s then nanWith true else (a, 0)
  | .fin s m e =>
    if m = 0 then (FFmt.f32.inf true, fDivide)
    else if s then nanWith true
    else
      let k : Int := (m.log2 : Int) + e
      let y := m * 2 ^ 208 / 2 ^ m.log2
      if m = 2 ^ m.log2 then rne (decide (k < 0)) k.natAbs 0 false
      else
        let z : Int := k * 2 ^ 96 + logDigits 96 y 0
        if z < 0 then rne true (z.natAbs - 1) (-96) true else rne false z.toNat (-96) true

/-- 2^(2^-i) for i from 1 on, multiplied together where bit 56 - i of r is set; numbers have 160 fraction bits. -/
def expProduct : Nat → Nat → Nat → Nat → Nat
  | 0, _, _, acc => acc
  | n + 1, root, r, acc =>
    let root := isqrt (root * 2 ^ 160)
    expProduct n root r (if r.testBit n then acc * root / 2 ^ 160 else acc)

/-- 2^x (R252). -/
def exp2f32 (a : Nat) : Nat × Flags :=
  match FFmt.f32.decode a with
  | .nan s => nanWith s
  | .inf s => if s then (0, 0) else (a, 0)
  | .fin s m e =>
    if m = 0 then rne false 1 0 false
    else
      let top := bitLen m + e
      if top ≤ -30 then (if s then rne false (2 ^ 60 - 1) (-60) true else rne false (2 ^ 60) (-60) true)
      else if 9 ≤ top then (if s then rne false 1 (-400) false else rne false 1 400 false)
      else
        let z : Int := if s then -((m * 2 ^ (56 + e).toNat : Nat) : Int) else (m * 2 ^ (56 + e).toNat : Nat)
        let n := z / 2 ^ 56
        let r := (z % 2 ^ 56).toNat
        if r = 0 then rne false 1 n false
        else rne false (expProduct 56 (2 * 2 ^ 160) r (2 ^ 160)) (n - 160) true

/-- A correctly rounded word: f32 to f32 in each lane of act, filled later (R279). -/
def xfunEff (f : Nat → Nat × Flags) (w : AWord) (x : Issue) (d : Device) : Eff :=
  let gr := x.view
  let gq := d.view x.agent
  laterA w x d false .flags (fun l => let r := f (elemAt 32 (w.aVal gr gq false l) 0); (BitVec.ofNat 64 r.1, r.2))

def execFrcp (w : AWord) (s : State) := s.runLanes (.frcp w) (xfunEff rcp32 w)
def execFrsq (w : AWord) (s : State) := s.runLanes (.frsq w) (xfunEff rsq32 w)
def execFsqrt (w : AWord) (s : State) := s.runLanes (.fsqrt w) (xfunEff sqrt32 w)
def execFexp2 (w : AWord) (s : State) := s.runLanes (.fexp2 w) (xfunEff exp2f32 w)
def execFlog2 (w : AWord) (s : State) := s.runLanes (.flog2 w) (xfunEff log2f32 w)

end Sys2Proof.Machine
end

