-- ==== Sys2Proof/Machine/Crest.lean ====
section
/-! DEFINITION. The Crest engine (R90 to R129): contexts, fragments, sums, bounds, winner lists, the Q words and the
engine's own events. -/

namespace Sys2Proof.Machine

/-! Contexts. -/

def Device.crest (d : Device) (core n : Nat) : Crest := ((d.core core).crest[n]?).getD default
def Device.modCrest (d : Device) (core n : Nat) (f : Crest → Crest) : Device :=
  d.modCore core (fun k => { k with crest := listModify f k.crest n })

/-- The context a Q word addresses: core and number; none when its fields break R90. -/
def Issue.crestRef (x : Issue) (d : Device) (w : QWord) : Option (Nat × Nat) :=
  match x.agent with
  | .ridge b => if w.core != 0 || w.ctx then none else some ((d.block b).core, (d.block b).ridgeCtx)
  | .handler c => some (4 * c + w.core.toNat, if w.ctx then 1 else 0)
  | _ => none

/-- A word issued by the cluster trap handler. -/
def Issue.byHandler (x : Issue) : Bool := match x.agent with | .handler _ => true | _ => false

/-- Whether a word other than `mma` and `crmm` may act (R107, R109, R114, R128). -/
inductive Gate where
  | go | wait | bad
  deriving DecidableEq, Repr

def Crest.gate (k : Crest) (handler frozenOk : Bool) : Gate :=
  if k.frozen then
    if handler then (if frozenOk then .go else .bad)
    else if !frozenOk || !k.ops.isEmpty then .wait
    else .go
  else if k.ops.isEmpty then .go
  else .wait

/-- Bytes that a context has written to another device are still to be acknowledged. -/
def Device.imageAway (d : Device) (core n : Nat) : Bool :=
  d.fab.remotes.any (fun r => match r.use with | .image k m _ => k == core && m == n && !r.failed | _ => false)

/-- A word other than `mma` and `crmm`: it waits for the words before it, then meets its mode check (R92, R114). -/
def Issue.crestWord (x : Issue) (d : Device) (w : QWord) (modes : List (BitVec 2)) (frozenOk : Bool)
    (f : Nat → Nat → Crest → Eff) : Eff :=
  match x.crestRef d w with
  | none => .trap .matrixOp none 0
  | some (core, n) =>
    let k := d.crest core n
    match k.gate x.byHandler frozenOk with
    | .wait => .wait
    | .bad => .trap .matrixOp none 0
    | .go =>
      if d.imageAway core n then .wait
      else if modes.contains k.mode then f core n k else .trap .matrixOp none 0

/-! Configuring (R118, R119). -/

def minitEff (w : QWord) (x : Issue) (d : Device) : Eff :=
  x.crestWord d w [0, 1, 2] false (fun core n _ =>
    let s := x.view.sAt w.sA.toNat
    if bitOf w.low 4 then
      if s.toNat = 0 || 2 ^ 20 < s.toNat then .trap .matrixOp none 0
      else
        .ok (d.modCrest core n (fun k =>
          { Crest.reset with mode := 2, k1 := bitsOf w.low 0 4, steps := bitsOf s 0 32, blk := k.blk }))
    else .ok (d.modCrest core n (fun k => { Crest.reset with mode := 1, blk := k.blk })))
def execMinit (w : QWord) (s : State) := s.runLanes (.minit w) (minitEff w)

def mtileEff (w : QWord) (x : Issue) (d : Device) : Eff :=
  x.crestWord d w [1, 2] false (fun core n k =>
    if k.mode == 2 && k.step != 0 then .trap .matrixOp none 0
    else
      let v := x.view.sAt w.sB.toNat
      .ok (d.modCrest core n (fun k =>
        { k with
          colBase := bitsOf (x.view.sAt w.sA.toNat) 0 32
          vRows := BitVec.ofNat 16 (min (bitsOf v 16 16).toNat w.rows)
          vCols := BitVec.ofNat 16 (min (bitsOf v 0 16).toNat w.cols) })))
def execMtile (w : QWord) (s : State) := s.runLanes (.mtile w) (mtileEff w)

/-- `mwait` (R109, R122). -/
def mwaitEff (w : QWord) (x : Issue) (d : Device) : Eff :=
  match x.crestRef d w with
  | none => .trap .matrixOp none 0
  | some (core, n) =>
    let k := d.crest core n
    if k.ops.isEmpty then (if d.imageAway core n then .wait else .ok d)
    else if k.frozen && x.byHandler then .trap .matrixOp none 0
    else .wait
def execMwait (w : QWord) (s : State) := s.runLanes (.mwait w) (mwaitEff w)

/-! Fragments (R94, R95). -/

/-- w, the bits of an element; a BFP element counts its mantissa. -/
def elemBits (fmt : BitVec 4) : Nat := match fmt.toNat with | 0 | 1 => 16 | 2 | 3 => 8 | n => n - 2
/-- K. -/
def fragK (fmt : BitVec 4) : Nat := 16 * (32 / elemBits fmt)
/-- Steps of one instruction. -/
def opSteps (q : QWord) : Nat := fragK q.fmt / 16
/-- W, the words of the elements. -/
def fragWords (rows : Nat) (fmt : BitVec 4) : Nat := (rows * fragK fmt * elemBits fmt + 31) / 32
/-- The words of the scale bytes. -/
def scaleWords (rows : Nat) (fmt : BitVec 4) : Nat := if fmt.toNat < 4 then 0 else (rows * fragK fmt + 63) / 64
/-- F, the registers of a fragment. -/
def fragRegs (rows : Nat) (fmt : BitVec 4) : Nat := (fragWords rows fmt + scaleWords rows fmt + 255) / 256
/-- The places of the words that an instruction reads of a fragment: elements, scales and, in crest mode, norms. -/
def fragKeys (norms : Bool) (rows : Nat) (fmt : BitVec 4) : List Nat :=
  List.range (fragWords rows fmt + scaleWords rows fmt) ++
    (if norms then (List.range rows).map (fun i => fragRegs rows fmt * 256 + i) else [])

/-- w bits of the bit stream of a fragment. -/
def streamBits (buf : Fmap Word) (pos w : Nat) : Nat :=
  ((Fmap.get 0 buf (pos / 32)).toNat + 2 ^ 32 * (Fmap.get 0 buf (pos / 32 + 1)).toNat) / 2 ^ (pos % 32) % 2 ^ w

/-- Element k of a row (R69, R95, R267). -/
def fragElem (fmt : BitVec 4) (rows : Nat) (buf : Fmap Word) (row k : Nat) : FVal :=
  let w := elemBits fmt
  let raw := streamBits buf ((row * fragK fmt + k) * w) w
  match fmt.toNat with
  | 0 => FFmt.f16.decode raw
  | 1 => FFmt.bf16.decode raw
  | 2 => FFmt.e4m3.decode raw
  | 3 => FFmt.e5m2.decode raw
  | _ =>
    let byte := 4 * fragWords rows fmt + row * (fragK fmt / 16) + k / 16
    bfpValue w (streamBits buf (8 * byte) 8) (asSigned w raw)
/-- The norm of a row. -/
def fragNorm (fmt : BitVec 4) (rows : Nat) (buf : Fmap Word) (row : Nat) : Nat :=
  (Fmap.get 0 buf (fragRegs rows fmt * 256 + row)).toNat
/-- n elements of a row from element k on. -/
def fragRow (fmt : BitVec 4) (rows : Nat) (buf : Fmap Word) (row k n : Nat) : List FVal :=
  (List.range n).map (fun i => fragElem fmt rows buf row (k + i))

/-! Sums (R96). -/

/-- The sum of one step: products exact, one rounding to nearest even. -/
def stepSum (xs : List (FVal × FVal)) : Nat :=
  let ps := xs.map (fun p => p.1.mul p.2)
  if ps.any Option.isNone then FFmt.f32.nan
  else
    match sumVals .rne (ps.map (fun p => p.getD (.nan false))) with
    | none => FFmt.f32.nan
    | some v => (FFmt.f32.rnd .rne v).1

/-! The bound (R97, R98). -/

/-- up (R263). -/
def upVal (x : FVal) : FVal := FFmt.f32.decode (FFmt.f32.rnd .ru x).1
def exactMul (x y : FVal) : FVal := (x.mul y).getD (.nan false)
def exactAdd (x y : FVal) : FVal := (sumVals .ru [x, y]).getD (.nan false)
/-- up of the square root of a value that is not negative. -/
def upSqrt (x : FVal) : FVal :=
  match x with
  | .nan s => .nan s
  | .inf s => .inf s
  | .fin _ m e =>
    if m = 0 then .fin false 0 0
    else
      let p := evenExp m e
      let big := p.1 * 2 ^ 64
      let r := isqrt big
      FFmt.f32.decode (FFmt.f32.round .ru false r (p.2 / 2 - 32) (r * r != big)).1

/-- A tail norm: the elements that remain in the instruction, and the beyond word (R97). -/
def tailNorm (els : List FVal) (beyond : Nat) : FVal :=
  let b := FFmt.f32.decode beyond
  let bad : Bool := match b with | .nan _ | .inf _ => true | .fin s m _ => s && m != 0
  if bad then .nan false
  else
    let within := upSqrt (els.foldl (fun s x => upVal (exactAdd s (upVal (exactMul x x)))) (.fin false 0 0))
    upSqrt (exactAdd (upVal (exactMul within within)) (upVal (exactMul b b)))

def FVal.isFin : FVal → Bool
  | .fin _ _ _ => true
  | _ => false
def FVal.isZero : FVal → Bool
  | .fin _ m _ => m == 0
  | _ => false
def FVal.abs : FVal → FVal
  | .nan s => .nan s
  | .inf _ => .inf false
  | .fin _ m e => .fin false m e

/-- U, with r steps left; none when the cell is kept whatever the list holds (R98). -/
def boundOf (p tA tB : FVal) (r : Nat) : Option FVal :=
  if !p.isFin || !tA.isFin || !tB.isFin then none
  else
    let t := upVal (exactMul tA tB)
    let q := upVal (exactAdd p.abs t)
    let small : FVal := .fin false 1 (-126)
    let g := upVal (exactMul (upVal (exactMul q (.fin false (r + 1) 0))) (.fin false 1 (-22)))
    let sigma := if q.isZero then .fin false 0 0 else if g.lt small then small else g
    some (upVal (exactAdd (upVal (exactAdd p t)) sigma))

/-! Winner lists (R15, R102 to R104). -/

def wVal (v : Winner) : FVal := FFmt.f32.decode v.1.toNat
/-- Rank: value descending, then index ascending. -/
def Winner.above (a b : Winner) : Bool :=
  (wVal b).below (wVal a) || (!(wVal a).below (wVal b) && decide (a.2.toNat < b.2.toNat))
def insertWinner (x : Winner) : List Winner → List Winner
  | [] => [x]
  | y :: rest => if x.above y then x :: y :: rest else y :: insertWinner x rest
/-- k. -/
def Crest.kLen (k : Crest) : Nat := k.k1.toNat + 1
def Crest.list (k : Crest) (m : Nat) : List Winner := Fmap.get [] k.lists m
/-- Offer a candidate to a row (R103). -/
def Crest.offer (k : Crest) (m : Nat) (v : Winner) : Crest :=
  if (wVal v).isNan then
    { k with nans := Fmap.set 0 k.nans m (BitVec.ofNat 16 (min ((Fmap.get 0 k.nans m).toNat + 1) 0xFFFF)) }
  else { k with lists := Fmap.set [] k.lists m ((insertWinner v (k.list m)).take k.kLen) }
/-- The empty form of an entry (R15). -/
def emptyEntry : Winner := (0xFF800000, 0xFFFFFFFF)
/-- The list image of M rows, as words (R125). -/
def Crest.listImage (k : Crest) (rows : Nat) : List Word :=
  (List.range rows).flatMap (fun m => (List.range k.kLen).flatMap (fun i =>
    let e := ((k.list m)[i]?).getD emptyEntry
    [e.1, e.2]))

/-! Tiles (R100, R101). -/

def Crest.cell (k : Crest) (m n : Nat) : Word := Fmap.get 0 k.bank (1024 * m + n)
def Crest.isAbandoned (k : Crest) (m n : Nat) : Bool := Fmap.get false k.abandon (1024 * m + n)
/-- Tiles in a row of tiles. -/
def colTiles (q : QWord) : Nat := (q.cols + 63) / 64
def opTiles (q : QWord) : Nat := q.rows / 16 * colTiles q
/-- The valid cells of a shape in rows and columns. -/
def Crest.validCells (k : Crest) (q : QWord) (ms ns : List Nat) : List (Nat × Nat) :=
  (ms.filter (fun m => decide (m < min k.vRows.toNat q.rows))).flatMap (fun m =>
    (ns.filter (fun n => decide (n < min k.vCols.toNat q.cols))).map (fun n => (m, n)))
/-- The valid cells of a tile. The tiles of a step are taken row of tiles by row of tiles, columns ascending, and so the next-tile
field of the control image counts (DESIGN CHOICE, assumption 53: R100 and R127 name a next tile and no order). -/
def Crest.tileCells (k : Crest) (q : QWord) (t : Nat) : List (Nat × Nat) :=
  k.validCells q ((List.range 16).map (fun i => 16 * (t / colTiles q) + i)) ((List.range 64).map (fun i => 64 * (t % colTiles q) + i))

def isCrmm : Instr → Bool
  | .crmm _ => true
  | _ => false
/-- An `mma` or `crmm`. -/
def isMul : Instr → Bool
  | .mma _ | .crmm _ => true
  | _ => false

/-- Compute a tile of the step that an instruction has reached (R96); a tile with no live cell is skipped (R101). -/
def Crest.computeTile (k : Crest) (o : CrestOp) : Crest :=
  let cells := k.tileCells o.q o.tile
  if isCrmm o.word && cells.all (fun c => k.isAbandoned c.1 c.2) then k
  else
    let rowA := fun (m : Nat) => fragRow o.q.fmt o.q.rows o.bufA m (16 * o.step) 16
    let rowB := fun (n : Nat) => fragRow o.q.fmt o.q.cols o.bufB n (16 * o.step) 16
    { k with bank := Fmap.setAll 0 k.bank (cells.map (fun c =>
        (1024 * c.1 + c.2,
          BitVec.ofNat 32 (add32 (k.cell c.1 c.2).toNat (stepSum ((rowA c.1).zip (rowB c.2)))).1))) }

/-- The bound after a step that leaves r steps (R98). -/
def Crest.applyBound (k : Crest) (o : CrestOp) (r : Nat) : Crest :=
  let done := 16 * (o.step + 1)
  let left := fragK o.q.fmt - done
  let ms := (List.range o.q.rows).map (fun m =>
    (m, tailNorm (fragRow o.q.fmt o.q.rows o.bufA m done left) (fragNorm o.q.fmt o.q.rows o.bufA m)))
  let ns := (List.range o.q.cols).map (fun n =>
    (n, tailNorm (fragRow o.q.fmt o.q.cols o.bufB n done left) (fragNorm o.q.fmt o.q.cols o.bufB n)))
  let norm := fun (l : List (Nat × FVal)) (i : Nat) => match l[i]? with | some p => p.2 | none => .nan false
  let cells := (k.validCells o.q (List.range o.q.rows) (List.range o.q.cols)).filter (fun c => !k.isAbandoned c.1 c.2)
  let drop := cells.filter (fun c =>
    match (k.list c.1)[k.k1.toNat]?, boundOf (FFmt.f32.decode (k.cell c.1 c.2).toNat) (norm ms c.1) (norm ns c.2) r with
    | some v, some u => u.lt (wVal v)
    | _, _ => false)
  { k with abandon := Fmap.setAll false k.abandon (drop.map (fun c => (1024 * c.1 + c.2, true))) }

/-- The end of a step: the step counts, and the bound (R120). -/
def Crest.endStep (k : Crest) (o : CrestOp) : Crest :=
  if !isCrmm o.word then k
  else
    let k1 := { k with step := k.step + 1, shapeM := o.q.rows, shapeN := o.q.cols }
    let r := k1.steps.toNat - k1.step.toNat
    if r = 0 then k1 else k1.applyBound o r

/-- The instruction in progress has a tile to compute. -/
def Crest.tileReady (k : Crest) : Bool :=
  match k.ops with
  | o :: _ => isMul o.word && o.readsDone && decide (o.step < opSteps o.q) && !k.frozen
  | [] => false

/-- One tile of the instruction in progress. -/
def Crest.tileStep (k : Crest) : Crest :=
  match k.ops with
  | [] => k
  | o :: rest =>
    if !k.tileReady then k
    else
      let k1 := k.computeTile o
      if o.tile + 1 < opTiles o.q then { k1 with ops := { o with tile := o.tile + 1 } :: rest }
      else { k1.endStep o with ops := { o with tile := 0, step := o.step + 1 } :: rest }

/-- The instruction in progress has done all its steps. -/
def Crest.mulDone (k : Crest) : Bool :=
  match k.ops with
  | o :: _ => isMul o.word && o.readsDone && decide (opSteps o.q ≤ o.step) && !k.frozen
  | [] => false

/-- Completion, with which the last tile ends: at the last step of a reduction the finals are offered, and step, bank and abandon bits clear (R103, R105,
R120). -/
def Crest.complete (k : Crest) : Crest :=
  match k.ops with
  | [] => k
  | o :: rest =>
    if !k.mulDone then k
    else if isCrmm o.word && bitOf o.q.low 0 then
      let cells := (k.validCells o.q (List.range o.q.rows) (List.range o.q.cols)).filter (fun c => !k.isAbandoned c.1 c.2)
      let k1 := cells.foldl (fun k' c => k'.offer c.1 (k.cell c.1 c.2, k.colBase + BitVec.ofNat 32 c.2)) k
      { k1 with step := 0, bank := [], abandon := [], shapeM := 0, shapeN := 0, ops := rest }
    else { k with ops := rest }

/-! `mma` and `crmm` at issue. -/

/-- The step count, and the shape that a reduction under way holds, once the words a context holds have completed (R107,
R120). -/
def Crest.afterOps (k : Crest) : Nat × Option (Nat × Nat) :=
  k.ops.foldl (fun p o =>
    if !isCrmm o.word then p
    else if bitOf o.q.low 0 then (0, none)
    else (p.1 + (opSteps o.q - o.step), some (o.q.rows, o.q.cols)))
    (k.step.toNat, if k.step == 0 then none else some (k.shapeM, k.shapeN))

/-- A slot names a resident group of the block bound to a context (R93, R116). -/
def Device.boundGroup (d : Device) (k : Crest) (slot : Nat) : Bool :=
  match k.blk with
  | none => false
  | some b => decide (slot < (d.block b).groups.length) && !((d.block b).group slot).exited

/-- A barrier field that the block's stash cannot serve (R117). -/
def Device.barrierBad (d : Device) (k : Crest) (bar : BitVec 4) : Bool :=
  bar != 15 && (match k.blk with | none => true | some b => (d.block b).stashBytes == 0)
/-- Arrive on the barrier of a Q word (R117). -/
def Device.crestArrive (d : Device) (k : Crest) (bar : BitVec 4) : Device :=
  match k.blk with
  | none => d
  | some b => if bar == 15 then d else d.slotArrive b bar.toNat

/-- Registers per lane of the launch that a context's block belongs to. -/
def Device.boundRegs (d : Device) (k : Crest) : Nat :=
  match k.blk with | none => 0 | some b => (d.ctx (d.block b).ctx).packet.regs8 * 8

/-- MATRIXOP checks of `mma` and `crmm` (R92, R93, R95, R117, R120). -/
def Device.mulBad (d : Device) (k : Crest) (crmm : Bool) (w : QWord) : Bool :=
  let p := k.afterOps
  let fits := fun (base rows : Nat) =>
    decide (base + fragRegs rows w.fmt + (if crmm then (rows + 255) / 256 else 0) ≤ d.boundRegs k)
  let last := bitOf w.low 0
  k.mode != (if crmm then 2 else 1) || !d.boundGroup k w.aSlot.toNat || !d.boundGroup k w.bSlot.toNat ||
    !fits w.aBase.toNat w.rows || !fits w.bBase.toNat w.cols || d.barrierBad k w.bar ||
    (crmm &&
      ((if last then p.1 + opSteps w != k.steps.toNat else decide (k.steps.toNat ≤ p.1 + opSteps w)) ||
        decide (0xFFFFFFFE < k.colBase.toNat + w.cols - 1) ||
        (match p.2 with | some s => s != (w.rows, w.cols) | none => false)))

/-- A word that waits in a context. -/
def CrestOp.fresh (i : Instr) (q : QWord) : CrestOp :=
  { word := i, q := q, pieces := [], dst := none, lines := [], readsDone := false, sent := false, bufA := [], bufB := [], step := 0, tile := 0 }

/-- `mma` and `crmm`: at most two at once in a context (R107). -/
def mulEff (crmm : Bool) (i : Instr) (w : QWord) (x : Issue) (d : Device) : Eff :=
  match x.crestRef d w with
  | none => .trap .matrixOp none 0
  | some (core, n) =>
    let k := d.crest core n
    if k.frozen then (if x.byHandler then .trap .matrixOp none 0 else .wait)
    else if 2 ≤ (k.ops.filter (fun o => isMul o.word)).length then .wait
    else if d.mulBad k crmm w then .trap .matrixOp none 0
    else .ok (d.modCrest core n (fun k => { k with ops := k.ops ++ [CrestOp.fresh i w] }))
def execMma (w : QWord) (s : State) := s.runLanes (.mma w) (mulEff false (.mma w) w)
def execCrmm (w : QWord) (s : State) := s.runLanes (.crmm w) (mulEff true (.crmm w) w)

/-- Words that an instruction reads. -/
def CrestOp.reads (o : CrestOp) : Nat :=
  (fragKeys (isCrmm o.word) o.q.rows o.q.fmt).length + (fragKeys (isCrmm o.word) o.q.cols o.q.fmt).length
/-- Words of the operand buffer beside the 64 bytes of its image's head (R91, R123). -/
def bufferWords : Nat := 23024
/-- The words that the operand buffer holds. -/
def Crest.buffered (k : Crest) : Nat := ((k.ops.filter (fun o => o.readsDone)).map CrestOp.reads).foldl (· + ·) 0

/-- A fragment's words are full in their feed group (R14, R95). -/
def Device.fragFull (d : Device) (k : Crest) (slot base : Nat) (keys : List Nat) : Bool :=
  let g := (d.block (k.blk.getD 0)).group slot
  keys.all (fun i => !g.vIsEmpty (base + i / 256) (i % 256 / 4))
/-- The copy of a fragment. -/
def Device.fragCopy (d : Device) (k : Crest) (slot base : Nat) (keys : List Nat) : Fmap Word :=
  let g := (d.block (k.blk.getD 0)).group slot
  Fmap.setAll 0 [] (keys.map (fun i => (i, g.vAt (base + i / 256) (i % 256))))

/-- The held instruction whose reads can complete: the first that has them open, while its registers are full and the
operand buffer has room. -/
def Device.readable (d : Device) (k : Crest) : Option Nat :=
  match listFind (fun (o : CrestOp) => isMul o.word && !o.readsDone) k.ops 0 with
  | none => none
  | some i =>
    match k.ops[i]? with
    | none => none
    | some o =>
      let norms := isCrmm o.word
      if !k.frozen && (i == 0 || decide (k.buffered + o.reads ≤ bufferWords)) &&
          d.fragFull k o.q.aSlot.toNat o.q.aBase.toNat (fragKeys norms o.q.rows o.q.fmt) &&
          d.fragFull k o.q.bSlot.toNat o.q.bBase.toNat (fragKeys norms o.q.cols o.q.fmt) then some i
      else none

/-- The reads of an instruction complete, and it arrives (R14, R117). -/
def Device.crestRead (d : Device) (core n : Nat) : Device :=
  let k := d.crest core n
  match d.readable k with
  | none => d
  | some i =>
    match k.ops[i]? with
    | none => d
    | some o =>
      let norms := isCrmm o.word
      let o1 := { o with
        readsDone := true
        bufA := d.fragCopy k o.q.aSlot.toNat o.q.aBase.toNat (fragKeys norms o.q.rows o.q.fmt)
        bufB := d.fragCopy k o.q.bSlot.toNat o.q.bBase.toNat (fragKeys norms o.q.cols o.q.fmt) }
      (d.modCrest core n (fun k => { k with ops := listSet k.ops i o1 })).crestArrive k o.q.bar

/-- A context still reads registers of a group (R116). -/
def Device.feeding (d : Device) (b slot : Nat) : Bool :=
  ((d.core (d.block b).core).crest).any (fun k => k.blk == some b && k.ops.any (fun o =>
    isMul o.word && !o.readsDone && (o.q.aSlot.toNat == slot || o.q.bSlot.toNat == slot)))

/-! Images (R123, R125, R127). -/

def word32 (w : Word) : List Byte := bytesOf 4 (zext w)
/-- The words of an instruction that waits, as the control image holds them. -/
def opImage (o : Option CrestOp) : List Byte :=
  match o with
  | none => List.replicate 8 0
  | some o =>
    match encode o.word with
    | a :: b :: _ => word32 a ++ word32 b
    | _ => List.replicate 8 0

/-- The instructions in progress and queued. -/
def Crest.muls (k : Crest) : List CrestOp := k.ops.filter (fun o => isMul o.word)

/-- Bytes 0 to 63 of the control image (R127). -/
def Crest.head (k : Crest) : List Byte :=
  let o0 := k.muls[0]?
  let o1 := k.muls[1]?
  let flag := fun (o : Option CrestOp) => match o with | none => 0 | some o => if o.readsDone then 3 else 1
  let next := match o0 with
    | none => 0
    | some o => o.step * 65536 + o.tile / colTiles o.q * 256 + o.tile % colTiles o.q
  let shape := if k.step == 0 then 0 else k.shapeM * 65536 + k.shapeN
  [BitVec.ofNat 8 (k.mode.toNat + (if k.frozen then 4 else 0)), BitVec.ofNat 8 k.k1.toNat, 0, 0] ++ word32 k.steps ++
    word32 k.step ++ word32 k.colBase ++ word32 (k.vRows ++ k.vCols) ++ word32 (BitVec.ofNat 32 next) ++ opImage o0 ++
    opImage o1 ++ [BitVec.ofNat 8 (flag o0 + 4 * flag o1), 0, 0, 0] ++ word32 (BitVec.ofNat 32 shape) ++ List.replicate 16 0
/-- The control image (R127). -/
def Crest.control (k : Crest) : List Byte :=
  k.head ++ (List.range 64).flatMap (fun m => bytesOf 2 (zext (Fmap.get 0 k.nans m))) ++ List.replicate 64 0

/-- Eight bits as a byte, lowest first. -/
def packBits (f : Nat → Bool) : Byte := (List.range 8).foldl (fun (b : Byte) i => if f i then b ||| BitVec.ofNat 8 (2 ^ i) else b) 0
/-- The bank image (R123). -/
def Crest.bankImage (k : Crest) : List Byte :=
  (List.range 65536).flatMap (fun i => word32 (Fmap.get 0 k.bank i)) ++
    (List.range 8192).map (fun i => packBits (fun j => Fmap.get false k.abandon (8 * i + j)))

/-- The words of an instruction in the operand image, in the order of its reads. -/
def CrestOp.bufImage (o : CrestOp) : List Word :=
  if !o.readsDone then []
  else
    (fragKeys (isCrmm o.word) o.q.rows o.q.fmt).map (Fmap.get 0 o.bufA) ++
      (fragKeys (isCrmm o.word) o.q.cols o.q.fmt).map (Fmap.get 0 o.bufB)
/-- The operand image (R123); its layout past byte 63 is the model's own, since the spec architects none. -/
def Crest.operandImage (k : Crest) : List Byte :=
  let ws := k.muls.flatMap CrestOp.bufImage
  k.head ++ (List.range bufferWords).flatMap (fun i => word32 ((ws[i]?).getD 0))

/-- The words of the register form of `mdrain`: invalid cells as +0 (R123). -/
def Crest.drainWords (k : Crest) (q : QWord) : List Word :=
  (List.range (q.rows * q.cols)).map (fun i =>
    let m := i / q.cols
    let n := 16 * q.col.toNat + i % q.cols
    if m < k.vRows.toNat && n < k.vCols.toNat then k.cell m n else 0)

/-- The words a register form writes. -/
def Crest.formWords (k : Crest) (o : CrestOp) : List Word :=
  match o.word with
  | .mdrain q => k.drainWords q
  | .crdrain q => k.listImage q.rows
  | _ => []
/-- The bytes a memory form writes. -/
def Crest.formBytes (k : Crest) (o : CrestOp) : List Byte :=
  match o.word with
  | .mdrain q => if bitOf q.low 1 then k.operandImage else k.bankImage
  | .crdrain q => (k.listImage q.rows).flatMap word32
  | .crstat _ => k.control
  | _ => []

/-! Memory forms (R115). -/

/-- The pieces of an image, one a page, decoded for the block bound to the context. -/
def Device.imageRun (d : Device) (c : Ctx) (blk : Option Nat) (die : Nat) (priv : Bool) (k : Acc) :
    Nat → DWord → Nat → Nat → Except Eff (List (Loc × Nat × Nat))
  | 0, _, _, _ => .ok []
  | fuel + 1, va, pos, len =>
    if len = 0 then .ok []
    else
      let n := min len (4096 - va.toNat % 4096)
      match d.decodeAddr c blk die priv k va with
      | .error b => .error (b.eff none va)
      | .ok l =>
        match d.imageRun c blk die priv k fuel (va + BitVec.ofNat 64 n) (pos + n) (len - n) with
        | .error e => .error e
        | .ok more => .ok ((l, pos, n) :: more)

/-- An image of n bytes at an address that is a multiple of `al`. -/
def Issue.image (x : Issue) (d : Device) (core : Nat) (k : Crest) (acc : Acc) (va : DWord) (n al : Nat) :
    Except Eff (List (Loc × Nat × Nat)) :=
  if va.toNat % al != 0 then .error (.trap .misalign none 0)
  else d.imageRun (d.ctx (d.ctxOf x.agent)) k.blk (core / 32) x.view.priv acc (n / 4096 + 2) va 0 n

/-- The bytes of pieces. -/
def imageLocs (ps : List (Loc × Nat × Nat)) : List Loc := ps.flatMap (fun p => (List.range p.2.2).map p.1.add)
/-- A byte of each line that pieces lie in. -/
def imageSpots (ps : List (Loc × Nat × Nat)) : List Loc :=
  ps.flatMap (fun p => (List.range ((p.2.2 + 127) / 128)).map (fun i => p.1.add (128 * i)) ++ [p.1.add (p.2.2 - 1)])
/-- The lines of memory that pieces lie in. -/
def Device.imageLines (d : Device) (ps : List (Loc × Nat × Nat)) : List Nat := d.linesOf (imageSpots ps)
/-- Lines that another engine or the host holds. -/
def Device.linesHeld (d : Device) (ls : List Nat) : Bool := ls.any (fun n => d.owned n || d.fab.hostLines.contains n)

/-- What a drain or a status form writes of a context's state: registers of a group, or the bytes of an image. `bar` is the barrier on which
the form arrives once messages with its bytes are acknowledged; 15 for one that the context still holds. -/
def Device.writeForm (d : Device) (a : Agent) (core n : Nat) (k : Crest) (o : CrestOp) (bar : BitVec 4) : Device :=
  match o.dst with
  | some (slot, regs) =>
    let ws := k.formWords o
    d.modGroup (k.blk.getD 0) slot (fun g =>
      (g.setV (regs.mapIdx (fun i r => (List.range 256).map (fun l => (r * 256 + l, (ws[256 * i + l]?).getD 0)))).flatten).markV false
        regs (List.range g.slices.length))
  | none =>
    if o.pieces.isEmpty then d else d.putBytesFor (.image core n bar) (some a) (d.ctxOf a) (imageLocs o.pieces) (k.formBytes o)

/-- A drain or a status form of a frozen context acts at once, and so do the handler's memory forms; any other waits in the
context (R109, R115). -/
def Issue.formNow (x : Issue) (k : Crest) (o : CrestOp) : Bool := k.frozen || (x.byHandler && o.dst.isNone)
/-- Some bytes of an image go to another device. -/
def CrestOp.far (o : CrestOp) : Bool := o.pieces.any (fun p => isRemote p.1)
/-- A drain or a status form that has issued. One that acts at once arrives once every byte is written (R117). -/
def Issue.pushForm (x : Issue) (d : Device) (core n : Nat) (o : CrestOp) : Device :=
  let k := d.crest core n
  if x.formNow k o then
    let d1 := d.writeForm x.agent core n k o o.q.bar
    if o.far then d1 else d1.crestArrive k o.q.bar
  else d.modCrest core n (fun k => { k with ops := k.ops ++ [o] })

/-- A producer of these registers has still to write them (R116). -/
def Device.drainBehind (d : Device) (k : Crest) (slot : Nat) (regs : List Nat) : Bool :=
  regs.any (fun r => (List.range 64).any (fun s => d.pendingV (.group (k.blk.getD 0) slot) r s))

/-- The register form: mark the destination empty in every slice, and wait (R116). -/
def Issue.regForm (x : Issue) (d : Device) (core n : Nat) (k : Crest) (i : Instr) (w : QWord) (words : Nat) : Eff :=
  let slot := w.aSlot.toNat
  let regs := (List.range ((words + 255) / 256)).map (fun j => w.aBase.toNat + j)
  if !d.boundGroup k slot || decide (d.boundRegs k < w.aBase.toNat + regs.length) || d.barrierBad k w.bar then .trap .matrixOp none 0
  else
    let o := { CrestOp.fresh i w with dst := some (slot, regs) }
    if x.formNow k o && d.drainBehind k slot regs then .wait
    else
      let d1 := d.modGroup (k.blk.getD 0) slot (fun g => g.markV true regs (List.range g.slices.length))
      .ok (x.pushForm d1 core n o)

/-- The memory form: its whole range is decoded at issue, and the engine takes its lines owned until it has written them (R115,
R220, R231). -/
def Issue.memForm (x : Issue) (d : Device) (core n : Nat) (k : Crest) (i : Instr) (w : QWord) (bytes al : Nat) : Eff :=
  if d.barrierBad k w.bar then .trap .matrixOp none 0
  else
    match x.image d core k .store (x.view.sAt w.sA.toNat) bytes al with
    | .error e => e
    | .ok ps =>
      let lines := d.imageLines ps
      if d.linesHeld lines then .wait
      else .ok (x.pushForm (d.takeOwned (imageSpots ps) lines) core n { CrestOp.fresh i w with pieces := ps, lines := lines })

/-- `mdrain` (R123). -/
def mdrainEff (w : QWord) (x : Issue) (d : Device) : Eff :=
  x.crestWord d w [1, 2] true (fun core n k =>
    if !bitOf w.low 0 then
      if 1024 < 16 * w.col.toNat + w.cols then .trap .matrixOp none 0
      else x.regForm d core n k (.mdrain w) w (w.rows * w.cols)
    else if bitOf w.low 1 then
      if !k.frozen then .trap .matrixOp none 0 else x.memForm d core n k (.mdrain w) w 92160 128
    else x.memForm d core n k (.mdrain w) w 270336 128)
def execMdrain (w : QWord) (s : State) := s.runLanes (.mdrain w) (mdrainEff w)

/-- `crdrain` (R125). -/
def crdrainEff (w : QWord) (x : Issue) (d : Device) : Eff :=
  x.crestWord d w [2] true (fun core n k =>
    if bitOf w.low 0 then x.memForm d core n k (.crdrain w) w (w.rows * k.kLen * 8) 8
    else x.regForm d core n k (.crdrain w) w (w.rows * k.kLen * 2))
def execCrdrain (w : QWord) (s : State) := s.runLanes (.crdrain w) (crdrainEff w)

/-- `crstat` (R127). -/
def crstatEff (w : QWord) (x : Issue) (d : Device) : Eff :=
  x.crestWord d w [0, 1, 2] true (fun core n k => x.memForm d core n k (.crstat w) w 256 128)
def execCrstat (w : QWord) (s : State) := s.runLanes (.crstat w) (crstatEff w)

/-- Read an image, wherever it lies, and act on its bytes: the loads and the merge. -/
def Issue.loadForm (x : Issue) (d : Device) (core : Nat) (k : Crest) (w : QWord) (bytes al : Nat) (f : List Byte → Eff) : Eff :=
  match x.image d core k .load (x.view.sAt w.sA.toNat) bytes al with
  | .error e => e
  | .ok ps =>
    let ls := imageLocs ps
    if d.linesHeld (d.imageLines ps) then .wait
    else if ls.any d.lostByte then .trap .ecc none 0
    else
      match d.fetchOr x.agent none ls with
      | .error e => e
      | .ok bs => f bs

/-- A little-endian number in an image. -/
def imageNum (bs : List Byte) (off n : Nat) : Nat := bytesNat ((bs.drop off).take n)
def imageWord (bs : List Byte) (off : Nat) : Word := BitVec.ofNat 32 (imageNum bs off 4)
/-- The entries of a row of a list image. -/
def imageRow (bs : List Byte) (k m : Nat) : List Winner :=
  (List.range k).map (fun i => (imageWord bs (8 * (m * k + i)), imageWord bs (8 * (m * k + i) + 4)))

/-- `crmerge` (R104, R125). -/
def crmergeEff (w : QWord) (x : Issue) (d : Device) : Eff :=
  x.crestWord d w [2] false (fun core n k =>
    x.loadForm d core k w (w.rows * k.kLen * 8) 8 (fun bs =>
      .ok (d.modCrest core n (fun k =>
        ((List.range w.rows).flatMap (fun m => ((imageRow bs k.kLen m).filter (fun e => e != emptyEntry)).map (fun e => (m, e)))).foldl
          (fun k p => k.offer p.1 p.2) k))))
def execCrmerge (w : QWord) (s : State) := s.runLanes (.crmerge w) (crmergeEff w)

/-- A row of a list image may be loaded (R126): in order, no entry after an empty one, no NaN. -/
def rowOkFor : List Winner → Bool
  | [] => true
  | [e] => e == emptyEntry || !(wVal e).isNan
  | e :: f :: rest =>
    (if e == emptyEntry then f == emptyEntry else !(wVal e).isNan && (f == emptyEntry || !f.above e)) && rowOkFor (f :: rest)

/-- A control image, or the head of an operand image, holds these instructions; none when one is not a word of the mode. -/
def imageOps (bs : List Byte) (mode : BitVec 2) : Option (List CrestOp) :=
  let flags := imageNum bs 40 1
  let next := imageWord bs 20
  let read := fun (off : Nat) (done : Bool) (progress : Bool) =>
    match decode (imageWord bs off) (some (imageWord bs (off + 4))) with
    | .ok i =>
      if !rowOk i || !legal i || opcodeOf (imageWord bs (off + 4)) != 3 then none
      else
        match i, mode.toNat with
        | .mma q, 1 | .crmm q, 2 =>
          let o := CrestOp.fresh i q
          some (if progress then
              { o with readsDone := done, step := (bitsOf next 16 8).toNat,
                       tile := (bitsOf next 8 8).toNat * colTiles q + (bitsOf next 0 8).toNat }
            else { o with readsDone := done })
        | _, _ => none
    | .error _ => none
  match (if flags.testBit 0 then (read 24 (flags.testBit 1) true).map (fun o => [o]) else some []),
      (if flags.testBit 2 then (read 32 (flags.testBit 3) false).map (fun o => [o]) else some []) with
  | some a, some b => some (a ++ b)
  | _, _ => none

/-- The bytes that a control image marks zero for want of an instruction, or of a reduction, are zero (R127). -/
def absentZero (bs : List Byte) : Bool :=
  let zero := fun (off n : Nat) => ((bs.drop off).take n).all (fun b => b == 0)
  let flag := fun (i : Nat) => (imageNum bs 40 1).testBit i
  (flag 0 || (!flag 1 && zero 20 12)) && (flag 2 || (!flag 3 && zero 32 8)) && (imageNum bs 8 4 != 0 || zero 44 4)

/-- `crload` (R126, R127). -/
def crloadEff (w : QWord) (x : Issue) (d : Device) : Eff :=
  x.crestWord d w [2] true (fun core n k =>
    if !bitOf w.low 1 then
      x.loadForm d core k w (w.rows * k.kLen * 8) 8 (fun bs =>
        let rows := (List.range w.rows).map (fun m => (m, imageRow bs k.kLen m))
        if !rows.all (fun p => rowOkFor p.2) then .trap .matrixOp none 0
        else
          .ok (d.modCrest core n (fun k =>
            { k with lists := Fmap.setAll [] k.lists (rows.map (fun p => (p.1, p.2.filter (fun e => e != emptyEntry)))) })))
    else
      x.loadForm d core k w 256 128 (fun bs =>
        let zero := fun (off n : Nat) => ((bs.drop off).take n).all (fun b => b == 0)
        let s := imageNum bs 4 4
        match imageOps bs 2 with
        | none => .trap .matrixOp none 0
        | some ops =>
          if imageNum bs 0 1 / 8 != 0 || imageNum bs 0 1 % 4 != 2 || imageNum bs 1 1 / 16 != 0 || imageNum bs 40 1 / 16 != 0 ||
              !zero 2 2 || !zero 23 1 || !zero 41 3 || !zero 48 16 || !zero 192 64 || !absentZero bs ||
              s = 0 || 2 ^ 20 < s || s ≤ imageNum bs 8 4 then .trap .matrixOp none 0
          else
            .ok (d.modCrest core n (fun k =>
              { k with
                k1 := BitVec.ofNat 4 (imageNum bs 1 1)
                steps := imageWord bs 4
                step := imageWord bs 8
                colBase := imageWord bs 12
                vRows := BitVec.ofNat 16 (imageNum bs 18 2)
                vCols := BitVec.ofNat 16 (imageNum bs 16 2)
                shapeM := imageNum bs 46 2
                shapeN := imageNum bs 44 2
                ops := ops
                nans := Fmap.setAll 0 [] ((List.range 64).map (fun m => (m, BitVec.ofNat 16 (imageNum bs (64 + 2 * m) 2)))) }))))
def execCrload (w : QWord) (s : State) := s.runLanes (.crload w) (crloadEff w)

/-- Buffers of instructions whose reads are complete, from the words of an operand image. -/
def restoreBufs : List CrestOp → List Word → List CrestOp
  | [], _ => []
  | o :: rest, ws =>
    if !o.readsDone then o :: restoreBufs rest ws
    else
      let ka := fragKeys (isCrmm o.word) o.q.rows o.q.fmt
      let kb := fragKeys (isCrmm o.word) o.q.cols o.q.fmt
      { o with bufA := Fmap.setAll 0 [] (ka.zip ws), bufB := Fmap.setAll 0 [] (kb.zip (ws.drop ka.length)) } ::
        restoreBufs rest (ws.drop (ka.length + kb.length))

/-- `mload` (R124). -/
def mloadEff (w : QWord) (x : Issue) (d : Device) : Eff :=
  x.crestWord d w [1, 2] true (fun core n k =>
    if !bitOf w.low 1 then
      x.loadForm d core k w 270336 128 (fun bs =>
        let keep := fun (α : Type) (f : Nat → Option α) => (List.range 65536).filterMap (fun i => (f i).map (fun v => (i, v)))
        .ok (d.modCrest core n (fun k =>
          { k with
            bank := keep Word (fun i => if imageWord bs (4 * i) == 0 then none else some (imageWord bs (4 * i)))
            abandon := keep Bool (fun i => if (imageNum bs (262144 + i / 8) 1).testBit (i % 8) then some true else none) })))
    else if !k.frozen then .trap .matrixOp none 0
    else
      x.loadForm d core k w 92160 128 (fun bs =>
        let ws := (List.range bufferWords).map (fun i => imageWord bs (64 + 4 * i))
        if k.mode == 2 then
          if bs.take 64 != k.head then .trap .matrixOp none 0
          else .ok (d.modCrest core n (fun k => { k with ops := restoreBufs k.ops ws }))
        else
          match imageOps bs 1 with
          | none => .trap .matrixOp none 0
          | some ops => .ok (d.modCrest core n (fun k => { k with ops := restoreBufs ops ws }))))
def execMload (w : QWord) (s : State) := s.runLanes (.mload w) (mloadEff w)

/-! The engine's events. -/

def execCrestReadsComplete (core x : Nat) (s : State) := s.event (fun d => d.crestRead core x)
/-- A tile may be granted to a context: when both have one ready they alternate (R100). -/
def Device.mayTile (d : Device) (core x : Nat) : Bool :=
  (d.crest core x).tileReady && (!(d.crest core (1 - x)).tileReady || (d.core core).lastCrest != x)
/-- A tile of a context is computed. -/
def Device.grantTile (d : Device) (core x : Nat) : Device :=
  if d.mayTile core x then (d.modCrest core x Crest.tileStep).modCore core (fun k => { k with lastCrest := x }) else d
def execCrestTile (core x : Nat) (s : State) := s.event (fun d => d.grantTile core x)
def execCrestComplete (core x : Nat) (s : State) := s.event (fun d => d.modCrest core x Crest.complete)

/-- A register form of a drain. -/
def isRegForm : Instr → Bool
  | .mdrain q | .crdrain q => !bitOf q.low 0
  | _ => false

/-- The drain at the head of a context may fill its registers: every earlier producer of them has (R116). Pending work of a frozen
context waits for `mthaw` (R128, R131). -/
def Device.drainReady (d : Device) (k : Crest) : Bool :=
  !k.frozen &&
    match k.ops with
    | o :: _ => isRegForm o.word && (match o.dst with | some (slot, regs) => !d.drainBehind k slot regs | none => true)
    | [] => false

/-- The state that a word at the head of a context sees: that which the words before it left (R107). -/
def Crest.atHead (k : Crest) : Crest := { k with ops := [] }

/-- The word at the head of a context leaves, and arrives (R117). -/
def Device.popForm (d : Device) (core n : Nat) (o : CrestOp) : Device :=
  let k := d.crest core n
  (d.modCrest core n (fun k => { k with ops := k.ops.drop 1 })).crestArrive k o.q.bar

/-- The head of a context that drains or stores has its effect and leaves; bytes that go to another device hold it until they are
acknowledged. -/
def Device.headForm (d : Device) (core n : Nat) : Device :=
  let k := d.crest core n
  match k.ops with
  | o :: rest =>
    if o.sent then d.popForm core n o
    else
      let d1 := d.writeForm (.ridge (k.blk.getD 0)) core n k.atHead o 15
      if o.far then
        d1.modCrest core n (fun k => { k with ops := { o with sent := true, lines := [] } :: rest })
      else d1.popForm core n o
  | [] => d

/-- A message with bytes of an image is acknowledged, or has failed: with the last of them a form that has left its context arrives (R117). -/
def Device.imageCame (d : Device) (core n : Nat) (bar : BitVec 4) : Device :=
  if d.imageAway core n then d else d.crestArrive (d.crest core n) bar

def execDrainTakesEffect (core x : Nat) (s : State) :=
  s.event (fun d => if d.drainReady (d.crest core x) then d.headForm core x else d)

/-- The memory form at the head of a context may write its bytes, or has nothing left to wait for. -/
def Device.memReady (d : Device) (core n : Nat) : Bool :=
  let k := d.crest core n
  !k.frozen &&
    match k.ops with
    | o :: _ => !isMul o.word && !isRegForm o.word && !(o.sent && d.imageAway core n)
    | [] => false
def execMemoryFormComplete (core x : Nat) (s : State) :=
  s.event (fun d => if d.memReady core x then d.headForm core x else d)

end Sys2Proof.Machine
end

