-- ==== Sys2Proof/Machine/Lane.lean ====
section
/-! DEFINITION. The group-wide lane words (R250, R251, R269 to R278): each instance acts once, from the values its slices
read at issue. -/

namespace Sys2Proof.Machine

/-- Lanes in act of an instance. -/
def LaneInst.inAct (x : LaneInst) (l : Nat) : Bool := bitOf x.acts l
/-- The slice of a lane issued with a lane in act, and lives. -/
def LaneInst.sliceRead (x : LaneInst) (g : Group) (l : Nat) : Bool :=
  x.actSlices.contains (l / 4) && (g.slice (l / 4)).live != 0
/-- The value a lane's slice read for operand a, and for b. -/
def LaneInst.aAt (x : LaneInst) (l : Nat) : DWord := Fmap.get 0 x.a l
def LaneInst.bAt (x : LaneInst) (l : Nat) : DWord := Fmap.get 0 x.b l

/-- The segments of n lanes that hold a lane in act, by number (R270). -/
def LaneInst.segments (x : LaneInst) (n : Nat) : List Nat :=
  (List.range (256 / n)).filter (fun j => (List.range n).any (fun i => x.inAct (n * j + i)))
/-- Lanes of a width code (R270). -/
def segLanes (c : BitVec 3) : Nat := 2 ^ (c.toNat + 2)

/-- Results of each segment: `f` gives the value of a position and the segment's flags. -/
def LaneInst.bySegment (x : LaneInst) (n : Nat) (f : Nat → (Nat → DWord) × Flags) : LaneOut :=
  let rs := (x.segments n).map (fun j => (j, f j))
  { lanes := rs.flatMap (fun r => (List.range n).filterMap (fun i =>
      if x.inAct (n * r.1 + i) then some (n * r.1 + i, r.2.1 i) else none))
    preds := [], scalar := none, flags := rs.foldl (fun m r => m ||| r.2.2) 0 }

/-- The group as it stood when the gang's slices read their operands: every lane of a slice is read at issue, whether or
not it is in act (R271). -/
def Issue.readsAll (x : Issue) (f : Nat → DWord) : List (Nat × DWord) :=
  (x.actSlices.flatMap (fun s => (List.range 4).map (fun i => 4 * s + i))).map (fun l => (l, f l))

/-! `lmov` and `bcast`. -/

/-- The source lane of a selector; none past the group's end (R271). -/
def lmovSrc (l : Nat) (sel : DWord) : Option Nat :=
  let k := (bitsOf sel 0 8).toNat
  match (bitsOf sel 8 2).toNat with
  | 0 => some k
  | 1 => some (l ^^^ k)
  | 2 => if k ≤ l then some (l - k) else none
  | _ => if l + k ≤ 255 then some (l + k) else none

def lmovOut (g : Group) (x : LaneInst) : LaneOut :=
  { lanes := (maskList x.acts).map (fun l =>
      (l, match lmovSrc l (x.bAt l) with
          | none => x.aAt l
          | some src => if x.sliceRead g src then x.aAt src else 0))
    preds := [], scalar := none, flags := 0 }
def lmovEff (w : AWord) (x : Issue) (d : Device) : Eff :=
  let gr := x.view
  let gq := d.view x.agent
  let wide := wideT w.t
  x.laneWord d (.lmov w)
    { a := x.readsAll (fun l => w.aVal gr gq wide l), b := x.readsAll (fun l => w.bVal zext gr gq false l),
      preds := [], uni := 0 } lmovOut
def execLmov (w : AWord) (s : State) := s.runGang (.lmov w) (lmovEff w)

/-- sD takes the value of lane k; nothing when no lane passed (R272). -/
def bcastOut (t : BitVec 3) (g : Group) (x : LaneInst) : LaneOut :=
  let k := (bitsOf x.uniVal 0 8).toNat
  let v := if x.sliceRead g k then x.aAt k else 0
  { lanes := [], preds := [], flags := 0
    scalar := if x.acts == 0 then none else some (uniValue (wideT t) (t == 0) v) }
def bcastEff (w : AWord) (x : Issue) (d : Device) : Eff :=
  let gr := x.view
  let gq := d.view x.agent
  x.laneWord d (.bcast w)
    { a := x.readsAll (fun l => w.aVal gr gq (wideT w.t) l), b := [], preds := [],
      uni := match w.ext with | some p => zext p | none => gr.sAt w.b.toNat } (bcastOut w.t)
def execBcast (w : AWord) (s : State) := s.runGang (.bcast w) (bcastEff w)

/-! Reductions. -/

/-- The larger or smaller operand, with -0 below +0 (R251). -/
def larger32 (a b : Nat) : Nat × Flags := (if (FFmt.f32.decode a).below (FFmt.f32.decode b) then b else a, 0)
def smaller32 (a b : Nat) : Nat × Flags := (if (FFmt.f32.decode b).below (FFmt.f32.decode a) then b else a, 0)
def isNan32 (a : Nat) : Bool := (FFmt.f32.decode a).isNan
def posInf32 : Nat := 0x7F800000
def negInf32 : Nat := 0xFF800000

/-- The inputs of a segment: the lane's value when it is in act, else the identity. -/
def LaneInst.inputs (x : LaneInst) (n j ident : Nat) : List Nat :=
  (List.range n).map (fun i => if x.inAct (n * j + i) then elemAt 32 (x.aAt (n * j + i)) 0 else ident)
/-- NaNs replaced by the identity. -/
def noNans (ident : Nat) (xs : List Nat) : List Nat := xs.map (fun a => if isNan32 a then ident else a)
/-- Invalid for a signalling NaN among inputs (R251). -/
def sigOf (xs : List Nat) : Flags := sigFlag (xs.map FFmt.f32.decode)

/-- The lowest position whose lane is in act, is no NaN, and ranks above, or below, every other. -/
def bestPos (up : Bool) (x : LaneInst) (n j : Nat) : Nat :=
  let cand := (List.range n).filterMap (fun i =>
    if x.inAct (n * j + i) then
      let v := FFmt.f32.decode (elemAt 32 (x.aAt (n * j + i)) 0)
      if v.isNan then none else some (i, v)
    else none)
  let best := cand.foldl (fun (b : Option (Nat × FVal)) c =>
    match b with
    | none => some c
    | some p => if (if up then p.2.below c.2 else c.2.below p.2) then some c else some p) none
  match best with | none => 0xFFFFFFFF | some p => p.1

/-- `vred` of a segment (R251, R273). -/
def vredSeg (op : Nat) (x : LaneInst) (n j : Nat) : Nat × Flags :=
  match op with
  | 0 => tree add32 9 (x.inputs n j 0)
  | 1 => let xs := x.inputs n j negInf32; ((tree larger32 9 (noNans negInf32 xs)).1, sigOf xs)
  | 2 => let xs := x.inputs n j posInf32; ((tree smaller32 9 (noNans posInf32 xs)).1, sigOf xs)
  | 3 => (bestPos true x n j, sigOf (x.inputs n j 0))
  | _ => (bestPos false x n j, sigOf (x.inputs n j 0))

def vredOut (w : AWord) (_g : Group) (x : LaneInst) : LaneOut :=
  let n := segLanes w.width
  x.bySegment n (fun j => let r := vredSeg w.laneOp.toNat x n j; (fun _ => BitVec.ofNat 64 r.1, r.2))
def vredEff (w : AWord) (x : Issue) (d : Device) : Eff :=
  let gr := x.view
  let gq := d.view x.agent
  x.laneWord d (.vred w) { a := x.readsAll (fun l => w.aVal gr gq false l), b := [], preds := [], uni := 0 } (vredOut w)
def execVred (w : AWord) (s : State) := s.runGang (.vred w) (vredEff w)

/-- The operation and identity of a scan (R275). -/
def scanOp (f32 : Bool) (op : Nat) : (Nat → Nat → Nat × Flags) × Nat :=
  if f32 then
    match op with
    | 0 => (add32, 0)
    | 1 => (larger32, negInf32)
    | _ => (smaller32, posInf32)
  else
    match op with
    | 0 => (fun a b => ((a + b) % 2 ^ 32, 0), 0)
    | 1 => (fun a b => (if a < b then b else a, 0), 0)
    | _ => (fun a b => (if b < a then b else a, 0), 0xFFFFFFFF)

/-- `vscan` of a segment (R275). -/
def vscanSeg (w : AWord) (x : LaneInst) (n j : Nat) : (Nat → DWord) × Flags :=
  let f32 := w.t == 0
  let op := (bitsOf w.b 0 2).toNat
  let excl := bitOf w.b 2
  let o := scanOp f32 op
  let raw := x.inputs n j o.2
  let xs := if f32 && op != 0 then noNans o.2 raw else raw
  let at' := fun (i : Nat) => if excl then (if i = 0 then (o.2, 0) else prefixOf o.1 xs (i - 1)) else prefixOf o.1 xs i
  let used := (List.range n).filter (fun i => x.inAct (n * j + i))
  let fl := used.foldl (fun m i => m ||| (at' i).2) 0
  (fun i => BitVec.ofNat 64 (at' i).1, if f32 && op != 0 then fl ||| sigOf raw else fl)
def vscanOut (w : AWord) (_g : Group) (x : LaneInst) : LaneOut :=
  let n := segLanes w.width
  x.bySegment n (vscanSeg w x n)
def vscanEff (w : AWord) (x : Issue) (d : Device) : Eff :=
  let gr := x.view
  let gq := d.view x.agent
  x.laneWord d (.vscan w) { a := x.readsAll (fun l => w.aVal gr gq false l), b := [], preds := [], uni := 0 } (vscanOut w)
def execVscan (w : AWord) (s : State) := s.runGang (.vscan w) (vscanEff w)

/-- `vote` of a segment (R276): Q as a mask by position, and A. -/
def voteSeg (op : Nat) (x : LaneInst) (n j : Nat) : (Nat → DWord) × Flags :=
  let q := (List.range n).filter (fun i => x.inAct (n * j + i) && bitOf x.preds (n * j + i))
  let a := (List.range n).filter (fun i => x.inAct (n * j + i))
  let mask := q.foldl (fun m i => m + 2 ^ i) 0
  let words := (n + 31) / 32
  (fun i => BitVec.ofNat 64 (match op with
    | 0 => if q.isEmpty then 0 else 1
    | 1 => if q.length = a.length then 1 else 0
    | 2 => mask / 2 ^ (32 * (i % words)) % 2 ^ 32
    | _ => q.length), 0)
def voteOut (w : AWord) (_g : Group) (x : LaneInst) : LaneOut :=
  let n := segLanes w.width
  x.bySegment n (voteSeg w.laneOp.toNat x n)
def voteEff (w : AWord) (x : Issue) (d : Device) : Eff :=
  let gr := x.view
  x.laneWord d (.vote w)
    { a := [], b := [], preds := x.act.filter (fun l => gr.pAt w.a.toNat l), uni := 0 } (voteOut w)
def execVote (w : AWord) (s : State) := s.runGang (.vote w) (voteEff w)

/-! `sample`. -/

/-- The uniform as the pseudocode clamps it (R278): 1 - 2^-24 for values from 1 on. -/
def clampU (u : Nat) : Nat :=
  let x := FFmt.f32.decode u
  if x.lt (.fin false 0 0) then 0
  else if !x.lt (.fin false 1 0) then 0x3F7FFFFF
  else if u = 0x80000000 then 0
  else u
/-- A weight as it is used, and whether it was refused. -/
def clampW (a : Nat) : Nat × Bool :=
  let x := FFmt.f32.decode a
  if x.isNan || x.lt (.fin false 0 0) then (0, true)
  else if a = 0x80000000 then (0, false)
  else (a, false)

/-- `sample` of a segment: result, flag, sticky flags (R278). -/
def sampleSeg (uni : DWord) (x : LaneInst) (n j : Nat) : Nat × Bool × Flags :=
  let u := elemAt 32 uni 0
  if isNan32 u then (0xFFFFFFFF, true, sigOf [u])
  else
    let raw := x.inputs n j 0
    let ws := raw.map clampW
    let xs := ws.map Prod.fst
    let flag := ws.any Prod.snd
    let sig := sigOf raw
    match listFind (fun a => a == posInf32) xs 0 with
    | some i => (i, flag, sig)
    | none =>
      let total := tree add32 9 xs
      if total.1 = 0 || total.1 = posInf32 then (0xFFFFFFFF, true, sig ||| total.2)
      else
        let t := FFmt.f32.mul .rne (clampU u) total.1
        let pre := (List.range n).map (fun i => (i, prefixOf add32 xs i))
        let pos := fun (i : Nat) => (xs[i]?).getD 0 != 0
        let hit := pre.find? (fun p => pos p.1 && (FFmt.f32.decode t.1).lt (FFmt.f32.decode p.2.1))
        let last := ((List.range n).filter pos).foldl (fun _ i => i) 0
        let fl := pre.foldl (fun m p => m ||| p.2.2) (sig ||| total.2 ||| t.2)
        (match hit with | some p => p.1 | none => last, flag, fl)

def sampleOut (_g : Group) (x : LaneInst) : LaneOut :=
  let u := x.uniVal
  let c := (bitsOf u 32 3).toNat
  let n := 2 ^ ((if c = 7 then 6 else c) + 2)
  let rs := (x.segments n).map (fun j => (j, sampleSeg u x n j))
  let lanesOf := fun (j : Nat) => (List.range n).filterMap (fun i => if x.inAct (n * j + i) then some (n * j + i) else none)
  { lanes := rs.flatMap (fun r => (lanesOf r.1).map (fun l => (l, BitVec.ofNat 64 r.2.1)))
    preds := rs.flatMap (fun r => (lanesOf r.1).map (fun l => (l, r.2.2.1)))
    scalar := none, flags := rs.foldl (fun m r => m ||| r.2.2.2) 0 }
def sampleEff (w : AWord) (x : Issue) (d : Device) : Eff :=
  let gr := x.view
  let gq := d.view x.agent
  x.laneWord d (.sample w)
    { a := x.readsAll (fun l => w.aVal gr gq false l), b := [], preds := [], uni := gr.sAt w.b.toNat } sampleOut
def execSample (w : AWord) (s : State) := s.runGang (.sample w) (sampleEff w)

end Sys2Proof.Machine
end

