-- ==== Sys2Proof/Machine/Atomic.lean ====
section
/-! DEFINITION. Atomics, ordered reductions, ordered streams, fences, monitors and the drain (R302 to R322). -/

namespace Sys2Proof.Machine

/-- The operation of an atomic: op code, signed, width in bits (R304). -/
def atomNew (op : Nat) (signed : Bool) (w : Nat) (m x new : Nat) : Nat :=
  let lt := fun (a b : Nat) => if signed then decide (asSigned w a < asSigned w b) else decide (a < b)
  match op with
  | 0 => (m + x) % 2 ^ w
  | 1 => m &&& x
  | 2 => m ||| x
  | 3 => m ^^^ x
  | 4 => if lt x m then x else m
  | 5 => if lt m x then x else m
  | 6 => x
  | 7 => if m = x then new else m
  | 8 => (add32 m x).1
  | 9 => (FFmt.f32.pick false m x).1
  | _ => (FFmt.f32.pick true m x).1

/-- The op of an atomic word, and its width. -/
def atomCode (w : MWord) : Nat := (bitsOf w.func 0 4).toNat
def atomBits (w : MWord) : Nat := 8 * sizeBytes w.size

/-- An unordered atomic on a line that holds staged contributions of a promised launch breaks its promise (R311). -/
def Device.breakPromises (d : Device) (ls : List Loc) : Device :=
  if d.ctxs.all (fun c => c.staged.isEmpty) then d
  else
    let lines := d.linesOf ls
    { d with ctxs := d.ctxs.map (fun c =>
        if c.promise && c.staged.any (fun s => lines.contains (s.addr / 128)) then { c with broken := true } else c) }

/-- The core of an agent: that whose monitor table it uses (R320). -/
def Device.coreOf (d : Device) (a : Agent) : Nat :=
  match a with
  | .handler c => c * 4
  | _ => match a.blk? with | some b => (d.block b).core | none => 0

/-- The operands of a lane of `atom` or `red`: x, or x_cmp, and x_new (R306). -/
def atomOperands (w : MWord) (gr gq : Group) (lane : Nat) : DWord × DWord :=
  let r := w.d.toNat
  if atomCode w = 7 then
    if w.u then (gr.sAt r, gr.sAt (r + 1))
    else if w.is64 then (gr.vAt (r + 1) lane ++ gr.vAt r lane, gr.vAt (r + 3) lane ++ gr.vAt (r + 2) lane)
    else (zext (gr.vAt r lane), zext (gr.vAt (r + 1) lane))
  else (w.dataVal gr gq lane, 0)

/-- The message of a remote atomic (R422). -/
def Device.remoteAtomic (d : Device) (a : Agent) (w : MWord) (use : RemoteUse) (x : LaneAcc) (v : DWord × DWord) : Device :=
  match remoteRuns x.locs 0 with
  | q :: _ =>
    let n := sizeBytes w.size
    let op :=
      { plainOp (some a) (d.ctxOf a) q.1 4 q.2.1 n with
        use := use, reg := w.d, size := w.size, acq := bitOf w.order 0, parts := [{ lane := x.lane, pos := 0, off := 0, cnt := n }] }
    d.request op { op.msg q.1 with op := bitsOf w.func 0 5, data := v.1, aux := v.2 }
  | [] => d

/-! The update-only state (R307). -/

/-- An atomic's operation on two words of w bits. -/
def combine (op : BitVec 5) (w m x : Nat) : Nat := atomNew (bitsOf op 0 4).toNat (bitOf op 4) w m x 0

/-- A core's partial of a word takes one more operand. -/
def addPart (op : BitVec 5) (w core pa : Nat) (x : DWord) : List (Nat × Nat × DWord) → List (Nat × Nat × DWord)
  | [] => [(core, pa, x)]
  | p :: rest =>
    if p.1 == core && p.2.1 == pa then (core, pa, BitVec.ofNat 64 (combine op w p.2.2.toNat x.toNat)) :: rest
    else p :: addPart op w core pa x rest

/-- A line of copies takes one more `red`; `m` is the word that memory shows. -/
def ULine.add (u : ULine) (w core pa : Nat) (m x : DWord) : ULine :=
  { u with base := if u.parts.any (fun p => p.2.1 == pa) then u.base else Fmap.set 0 u.base pa m
           parts := addPart u.op w core pa x u.parts }
/-- The word at an address once the home has combined every copy. -/
def ULine.word (u : ULine) (w pa : Nat) : DWord :=
  BitVec.ofNat 64 ((u.parts.filter (fun p => p.2.1 == pa)).foldl (fun m p => combine u.op w m p.2.2.toNat)
    (Fmap.get 0 u.base pa).toNat)

/-- The line's copies of this operation and size; copies of any other are recalled. -/
def Device.uline (d : Device) (op : BitVec 5) (wide : Bool) (line : Nat) : ULine :=
  (d.ulines.find? (fun u => u.line == line && u.op == op && u.wide == wide)).getD
    { line := line, op := op, wide := wide, base := [], parts := [] }

/-- A `red` gathers in its core's copy of the line (R307). Memory shows what any other access would find: the copies combined
in the order in which the cores took the word (DESIGN CHOICE, assumption 49). -/
def Device.redU (d : Device) (a : Agent) (w : MWord) (x : LaneAcc) (pa : Nat) (m v : DWord) : Device :=
  let u := (d.uline (bitsOf w.func 0 5) w.is64 (pa / 128)).add (atomBits w) (d.coreOf a) pa m v
  let d1 := d.storeAt a x.lane x.locs (u.word (atomBits w) pa)
  { d1 with ulines := d1.ulines ++ [u] }

/-- Some launch has contributions staged for a line of these locations (R311). -/
def Device.stagedAt (d : Device) (ls : List Loc) : Bool :=
  let lines := d.linesOf ls
  d.ctxs.any (fun c => c.staged.any (fun s => lines.contains (s.addr / 128)))

/-- A `red` that gathers in the update-only state: order rlx, a scope below `sys`, the ordinary window (R307), and no contributions staged for
the line, on which it is performed at once (R311). -/
def Device.gathers (d : Device) (w : MWord) (x : LaneAcc) : Bool :=
  !d.stagedAt x.locs && w.order == 0 && w.scope != 5 && (match x.locs with | .mem _ :: _ => true | _ => false)

/-- One atomic at its point of performance: the old value, and the device after (R305). `use` says what a reply from another
device serves; a `red` awaits none. -/
def Device.atomAt (d : Device) (a : Agent) (w : MWord) (use : RemoteUse) (x : LaneAcc) (v : DWord × DWord) : DWord × Device :=
  if x.locs.any isRemote then (0, d.remoteAtomic a w use x v)
  else
    let n := atomBits w
    let m := elemAt n (d.valueAt x.locs) 0
    let d1 := d.breakPromises x.locs
    match use, x.locs with
    | .done, .mem pa :: _ =>
      if d.gathers w x then (0, d1.redU a w x pa (BitVec.ofNat 64 m) (BitVec.ofNat 64 (elemAt n v.1 0)))
      else (0, d1.storeAt a x.lane x.locs (BitVec.ofNat 64 (atomNew (atomCode w) (bitOf w.func 4) n m (elemAt n v.1 0) 0)))
    | _, _ =>
      let y := atomNew (atomCode w) (bitOf w.func 4) n m (elemAt n v.1 0) (elemAt n v.2 0)
      (BitVec.ofNat 64 m, d1.storeAt a x.lane x.locs (BitVec.ofNat 64 y))

/-- The lanes of a gang, ascending (R305). -/
def Device.atomAll (a : Agent) (w : MWord) (use : RemoteUse) :
    Device → List (LaneAcc × DWord × DWord) → List (LaneAcc × DWord) × Device
  | d, [] => ([], d)
  | d, (x, v) :: rest =>
    let r := d.atomAt a w use x v
    let more := Device.atomAll a w use r.2 rest
    ((x, r.1) :: more.1, more.2)

/-- Accesses of an atomic: decoded in every lane, then aligned in every lane (R305). -/
def Issue.atomReach (x : Issue) (d : Device) (n : Nat) (eas : List (Option Nat × DWord)) : Except Eff (List LaneAcc) :=
  match x.reach d .atomic n eas with
  | .error e => .error e
  | .ok as =>
    match misalignedLane n eas with
    | some l => .error (.trap .misalign l 0)
    | none => .ok as

/-- `atom` and `red`: every lane's read-modify-write, then the result of `atom`; both end the region (R303, R305). Bytes in error stay so:
what is written is made from them (R368). -/
def atomEff (result : Bool) (w : MWord) (x : Issue) (d : Device) : Eff :=
  match x.atomReach d (sizeBytes w.size) (x.laneEAs d w) with
  | .error e => e
  | .ok as =>
    if d.held (locsOf as) then .wait
    else
      let gr := x.view
      let gq := d.view x.agent
      let tag := if result then d.fab.tags + 1 else 0
      let ops := as.map (fun a => (a, atomOperands w gr gq (a.lane.getD x.lead)))
      let d0 := d.promote w (.ok as)
      let d0 := if result then { d0 with fab := { d0.fab with tags := tag } } else d0
      let r0 := Device.atomAll x.agent w (if result then .fill tag else .done) d0 ops
      let r := (r0.1, ({ r0.2 with poison := d0.poison } : Device))
      let await := (as.filter (fun a => a.locs.any isRemote)).length
      let d1 := if result then r.2.fillTo x w.u w.is64 w.d r.1 tag await else r.2
      x.released d (sysRel w) (.ok (d1.endRegionOf x.agent))
def execAtom (w : MWord) (s : State) := s.runLanes (.atom w) (atomEff true w)
def execRed (w : MWord) (s : State) := s.runLanes (.red w) (atomEff false w)

/-! Ordered reductions. -/

/-- The number that orders launch groups: %blk, then %grp (R313). -/
def Device.groupKey (d : Device) (a : Agent) : Nat :=
  match a with
  | .group b k => (d.block b).idx * 16 + k
  | _ => 0

/-- The contribution of a lane (R308). -/
def Issue.contribution (x : Issue) (d : Device) (w : MWord) (lane : Nat) (ea v : DWord) : Except Eff Contribution :=
  let g := d.view x.agent
  let n := sizeBytes w.size
  if ea.toNat % n != 0 then .error (.trap .misalign (some lane) 0)
  else
    match d.ordinary x.agent .atomic ea n (some lane) with
    | .error e => .error e
    | .ok ls =>
      if 2 ^ 32 ≤ Fmap.get 0 g.ordSeq lane + 1 then .error (.trap .capacity (some lane) 0)
      else
        .ok { addr := match ls with | .mem pa :: _ => pa | _ => 0, ea := ea, blk := d.groupKey x.agent / 16,
              grp := d.groupKey x.agent % 16, lane := lane, seq := Fmap.get 0 g.ordSeq lane, epoch := g.eflushes,
              fadd := bitOf w.func 3, wide := w.is64, x := v, core := d.coreOf x.agent, buffered := true }

def Issue.contributions (x : Issue) (d : Device) (w : MWord) : List (Nat × DWord × DWord) → Except Eff (List Contribution)
  | [] => .ok []
  | (l, ea, v) :: rest =>
    match x.contribution d w l ea v with
    | .error e => .error e
    | .ok c =>
      match x.contributions d w rest with
      | .error e => .error e
      | .ok cs => .ok (c :: cs)

/-! The eave buffer and the spill area (R308). Contributions leave the buffer as time passes; a record of the spill area takes
64 bytes (DESIGN CHOICE, assumption 50). -/

/-- Entries of a core's eave buffer. -/
def eaveEntries : Nat := 4096
/-- Contributions in a core's eave buffer. -/
def Device.eaveUse (d : Device) (core : Nat) : Nat :=
  d.ctxs.foldl (fun n c => n + (c.staged.filter (fun s => s.buffered && s.core == core)).length) 0
/-- The buffers forward their contributions to the home slices. -/
def Device.eaveForward (d : Device) : Device :=
  if d.ctxs.all (fun c => c.staged.all (fun s => !s.buffered)) then d
  else { d with ctxs := d.ctxs.map (fun c => { c with staged := c.staged.map (fun s => { s with buffered := false }) }) }

/-- The home slice of a contribution. -/
def Contribution.slice (c : Contribution) : Nat := homeDieOf (c.addr / 128) * 512 + homeSliceOf (c.addr / 128)
/-- Records in a launch's spill area: contributions beyond what their slices hold, of which there are none while one slice could hold
them all, and turn positions (R308, R313). -/
def Ctx.spillRecords (c : Ctx) (room : Nat) : Nat :=
  let keys := c.staged.map Contribution.slice
  if c.staged.length ≤ room then c.streams.length
  else (dedup keys).foldl (fun n k => n + ((keys.filter (fun j => j == k)).length - room)) c.streams.length
/-- The spill areas need more pages than the firmware can allocate. -/
def Device.spillOver (d : Device) : Bool :=
  decide (d.ham.spillPages < d.ctxs.foldl (fun n c => n + (c.spillRecords d.ham.stageRoom + 32767) / 32768) 0)

/-- `red.ord`: each lane stages a contribution; memory does not change (R308). -/
def redOrdEff (w : MWord) (x : Issue) (d : Device) : Eff :=
  let gr := x.view
  let gq := d.view x.agent
  match x.contributions d w (x.act.map (fun l => (l, w.laneEA gr gq l, w.dataVal gr gq l))) with
  | .error e => e
  | .ok cs =>
    let d1 := d.modView x.agent (fun g =>
      { g with ordSeq := Fmap.setAll 0 g.ordSeq (x.act.map (fun l => (l, Fmap.get 0 g.ordSeq l + 1))) })
    let d2 := d1.modCtx (d.ctxOf x.agent) (fun c => { c with staged := c.staged ++ cs })
    if eaveEntries < d.eaveUse (d.coreOf x.agent) + cs.length then .wait
    else if d2.spillOver then .trap .capacity none 0
    else .ok (d2.endRegionOf x.agent)
def execRedOrd (w : MWord) (s : State) := s.runLanes (.redOrd w) (redOrdEff w)

/-! Epochs. -/

/-- Hold every live slice of a group. -/
def Group.holdAll (g : Group) (h : Hold) : Group := g.modSlices g.liveSlices (fun s => { s with hold := h })

/-- `eflush` closes the group's epoch; `eflush.wait` holds the group until the flush of its new count (R310). The region ends
once the word completes, for `.wait` with the flush (R303, R342). -/
def eflushAct (w : MWord) (a : Agent) (_g : Group) (_x : GrpInst) (d : Device) : Eff :=
  let k := (d.view a).eflushes + 1
  let d1 := d.modView a (fun g => { g with eflushes := k })
  if bitOf w.func 0 && (d.ctx (d.ctxOf a)).flushes < k then .ok (d1.modView a (fun g => g.holdAll (.flush k)))
  else .ok (d1.endRegionOf a)
def execEflush (w : MWord) (s : State) := s.runGang (.eflush w) (fun x d => x.grpWord d (.eflush w) [] (eflushAct w))

/-! Ordered streams. -/

def Stream.fresh (ea : DWord) : Stream := { ea := ea, isAppend := none, past := [], waiting := [] }

/-- Change the stream of an address, made when it is first named. -/
def Ctx.modStream (c : Ctx) (ea : DWord) (f : Stream → Stream) : Ctx :=
  if c.streams.any (fun s => s.ea == ea) then { c with streams := c.streams.map (fun s => if s.ea == ea then f s else s) }
  else { c with streams := c.streams ++ [f (Stream.fresh ea)] }
def Ctx.stream (c : Ctx) (ea : DWord) : Stream := (c.streams.find? (fun s => s.ea == ea)).getD (Stream.fresh ea)

/-- A claim, or a decline when `kind` is none; the stream's turn position needs its record in the spill area (R308, R313). -/
def Device.claim (d : Device) (a : Agent) (ea : DWord) (kind : Option Bool) (req : Option TurnReq) : Eff :=
  let c := d.ctxOf a
  let key := d.groupKey a
  let st := (d.ctx c).stream ea
  if st.past.contains key || (match kind, st.isAppend with | some k, some k' => k != k' | _, _ => false) then
    .trap .illegal none 0
  else
    let d1 := d.modCtx c (fun x => x.modStream ea (fun s =>
      { s with isAppend := s.isAppend.or kind, past := s.past ++ [key], waiting := s.waiting ++ req.toList }))
    if d1.spillOver then .trap .capacity none 0
    else
      match req with
      | none => .ok d1
      | some _ => .ok (d1.modView a (fun g => g.holdAll .unit))

/-- `append` and `atom.ord.add`: claim, and wait for the turn, which ends the region (R303, R313 to R315). -/
def claimAct (isAppend : Bool) (i : Instr) (w : MWord) (a : Agent) (g : Group) (x : GrpInst) (d : Device) : Eff :=
  let ea := fullEA w g
  let n := if isAppend then 16 else sizeBytes w.size
  if ea.toNat % n != 0 then .trap .misalign none 0
  else
    match d.ordinary a .atomic ea n none with
    | .error e => e
    | .ok ls =>
      match a with
      | .group b k =>
        d.claim a ea (some isAppend)
          (some { blk := b, slot := k, word := i, locs := ls, issued := x.issued, lanes := x.lanes, vals := x.vals })
      | _ => .trap .illegal none 0

/-- The operand that each lane of the gang's masks reads at issue. -/
def Issue.gangVals (x : Issue) (w : MWord) : List (Nat × DWord) :=
  let gr := x.view
  x.gangLanes.map (fun l => (l, w.dataVal gr gr l))

def execAppend (w : MWord) (s : State) :=
  s.runGang (.append w) (fun x d => x.grpWord d (.append w) (x.gangVals w) (claimAct true (.append w) w))
def execAtomOrdAdd (w : MWord) (s : State) :=
  s.runGang (.atomOrdAdd w) (fun x d => x.grpWord d (.atomOrdAdd w) (x.gangVals w) (claimAct false (.atomOrdAdd w) w))

/-- `append.decl` (R313, R314). -/
def declineAct (w : MWord) (a : Agent) (g : Group) (_x : GrpInst) (d : Device) : Eff :=
  let ea := fullEA w g
  if ea.toNat % 16 != 0 then .trap .misalign none 0
  else
    match d.ordinary a .atomic ea 16 none with
    | .error e => e
    | .ok _ =>
      match d.claim a ea none none with
      | .ok d1 => .ok (d1.endRegionOf a)
      | e => e
def execAppendDecl (w : MWord) (s : State) :=
  s.runGang (.appendDecl w) (fun x d => x.grpWord d (.appendDecl w) [] (declineAct w))

/-- Every launch group before a key has claimed, declined or exited, and none of them still waits for its turn (R313). -/
def Device.turnReady (d : Device) (c : Nat) (st : Stream) (key : Nat) : Bool :=
  let p := (d.ctx c).packet
  let done := (d.blocks.map (fun b =>
    if b.ctx != c then 0
    else ((List.range p.groups).filter (fun k =>
      let q := b.idx * 16 + k
      decide (q < key) && (st.past.contains q || b.ended || (b.group k).exited || (b.group k).spawned))).length)).foldl (· + ·) 0
  done == key / 16 * p.groups + key % 16 && !st.waiting.any (fun q => decide ((d.block q.blk).idx * 16 + q.slot < key))

/-- The turn of `append` (R314): results by lane, and the next slot. -/
def appendTurn (cap : Nat) (vals : Fmap DWord) : Nat → List Nat → List (Nat × DWord) × Nat
  | nx, [] => ([], nx)
  | nx, l :: rest =>
    let n := (bitsOf (Fmap.get 0 vals l) 0 32).toNat
    if nx + n ≤ cap then
      let r := appendTurn cap vals (nx + n) rest
      ((l, BitVec.ofNat 64 nx) :: r.1, r.2)
    else
      let r := appendTurn cap vals nx rest
      ((l, 0xFFFFFFFF) :: r.1, r.2)

/-- The turn of `atom.ord.add` (R315). -/
def addTurn (bits : Nat) (vals : Fmap DWord) : Nat → List Nat → List (Nat × DWord) × Nat
  | m, [] => ([], m)
  | m, l :: rest =>
    let r := addTurn bits vals ((m + (Fmap.get 0 vals l).toNat) % 2 ^ bits) rest
    ((l, BitVec.ofNat 64 m) :: r.1, r.2)

/-- The turn of a waiting group: one read-modify-write, the lanes' results, and the group goes on. -/
def Device.takeTurn (d : Device) (q : TurnReq) : Device :=
  let a := Agent.group q.blk q.slot
  let lanes := maskList q.lanes
  let go := fun (r wide : _) (vs : List (Nat × DWord)) (d : Device) =>
    let rs := if wide then [r, r + 1] else [r]
    let full := rs.flatMap (fun n => ((List.range 64).filter (fun s => bitOf q.issued s)).map (fun s => n * 64 + s))
    { (d.modView a (fun g => (g.holdAll .free).endRegion)) with fills := d.fills ++ [Fill.lanes a (sliceList q.issued) (laneWords r wide vs) full 0 .nothing] }
  match q.word with
  | .append w =>
    let cap := min (d.valueAt (q.locs.drop 8)).toNat 0xFFFFFFFE
    let r := appendTurn cap q.vals (d.valueAt (q.locs.take 8)).toNat lanes
    go w.d.toNat false r.1 (d.storeAt a none (q.locs.take 8) (BitVec.ofNat 64 r.2))
  | .atomOrdAdd w =>
    let bits := atomBits w
    let r := addTurn bits q.vals (elemAt bits (d.valueAt q.locs) 0) lanes
    go w.d.toNat w.is64 r.1 (d.storeAt a none q.locs (BitVec.ofNat 64 r.2))
  | _ => d

/-! Fences and monitors. -/

/-- `fence`: an operation with no access (R319). -/
def fenceEff (w : MWord) (x : Issue) (d : Device) : Eff := x.released d (sysRel w) (.ok d)
def execFence (w : MWord) (s : State) := s.runGang (.fence w) (fenceEff w)

/-- The condition of `monwait` holds of a value (R320). -/
def Monitor.met (m : Monitor) (v : DWord) : Bool :=
  let cut := fun (x : DWord) => if m.wide then x else zext (bitsOf x 0 32)
  if m.geu then decide (cut m.val ≤ cut v) else cut v != cut m.val

/-- Release a waiting agent: its slices, or its thread. -/
def Device.letGo (d : Device) (a : Agent) : Device :=
  d.modView a (fun g => g.modSlices (List.range g.slices.length) (fun s => if s.hold == .unit then { s with hold := .free } else s))

/-- A waiting `monwait` has not been performed after all: its entry is released, and it stands at its packet to issue again (R320). -/
def Device.unwait (d : Device) (m : Monitor) : Device :=
  let x := m.inst
  let d1 := ({ d with monitors := d.monitors.filter (fun q => q.agent != m.agent) } : Device).modView m.agent (fun g => g.markS false [m.sreg.toNat])
  if m.agent.isGroup then
    d1.modView m.agent (fun g => g.standAgain x)
  else d1.modView m.agent (fun g => g.modSlices [0] (fun s => { s with pc := x.pc, hold := .free }))

/-- `monwait` ends: sD takes the value and the agent goes on (R320). -/
def Device.endMonitor (d : Device) (k : Nat) (m : Monitor) (v : DWord) : Device :=
  let d1 := { d with monitors := listDrop d.monitors k }
  let d2 := d1.modView m.agent (fun g => (g.setS m.sreg.toNat v).markS false [m.sreg.toNat])
  (d2.letGo m.agent).endRegionOf m.agent

/-- Where the word of a waiting `monwait` lies now, in the window that was in force when it issued (R320, R398). -/
def Device.monitorLocs (d : Device) (m : Monitor) : Except Bad (List Loc) :=
  let c := d.ctx (d.ctxOf m.agent)
  d.decodeRange { c with spwin := m.win, splim := m.lim } m.agent.blk? (d.dieOf m.agent) (d.view m.agent).priv .load m.ea
    (if m.wide then 8 else 4)

/-- The message that reads a word of another device for a waiting `monwait`. -/
def Device.askMonitor (d : Device) (m : Monitor) (ls : List Loc) : Device :=
  match remoteRuns ls 0 with
  | q :: _ => d.ask { plainOp (some m.agent) (d.ctxOf m.agent) q.1 0 q.2.1 q.2.2.2 with use := .poll, size := if m.wide then 3 else 2 }
  | [] => d

/-- Entries of a core's table in which the front program watches its blocks: it runs on core 0 of die 0 (R415). -/
def Device.frontEntries (d : Device) (core : Nat) : Nat := if core = 0 then d.ham.front.length else 0

/-- A `monwait` that has issued: it ends at once, or arms an entry, or polls (R320). A word of another device is read by
message, and again every 1024 cycles while the entry stands (DESIGN CHOICE, assumption 51). -/
def Device.startMonitor (d : Device) (a : Agent) (w : MWord) (g : Group) (x : GrpInst) : Eff :=
  let ea := fullEA w g
  let n := sizeBytes w.size
  match d.reach a (d.view a).priv .load ea n with
  | .error b => b.eff none ea
  | .ok ls =>
    if ea.toNat % n != 0 then .trap .misalign none 0
    else if d.held ls then .wait
    else if ls.any d.lostByte then .trapOn (fun b => b.meetLost (b.ctxOf a) ls) .ecc
    else
      let core := d.coreOf a
      let remote := ls.any isRemote
      let free := decide ((d.monitors.filter (fun m => m.core == core && m.line.isSome)).length + d.frontEntries core < 64)
      let m : Monitor :=
        { agent := a, core := core, line := if free then (ls.head?).map (fun l => lineKey (d.settle l)) else none, ea := ea,
          geu := bitOf w.func 0, wide := w.is64, sreg := w.d, val := g.sAt w.d.toNat, woken := false, called := false,
          far := remote, since := d.now, win := (d.ctx (d.ctxOf a)).spwin, lim := (d.ctx (d.ctxOf a)).splim, inst := x }
      let v := d.valueAt ls
      let d1 := d.touchLoads ls
      if !remote && m.met v then
        .ok ((d1.modView a (fun g => (g.setS w.d.toNat v).markS false [w.d.toNat])).endRegionOf a)
      else
        let d2 := if remote then d1.askMonitor m ls else d1
        .ok ({ d2 with monitors := d2.monitors ++ [m] }.modView a (fun g => (g.markS true [w.d.toNat]).holdAll .unit))
def monwaitAct (w : MWord) (a : Agent) (g : Group) (x : GrpInst) (d : Device) : Eff := d.startMonitor a w g x
def execMonwait (w : MWord) (s : State) :=
  s.runGang (.monwait w) (fun x d => x.grpWord d (.monwait w) [] (monwaitAct w))

/-- Two agents share a scope of this device (R280). -/
def Device.shares (d : Device) (scope : BitVec 3) (a b : Agent) : Bool :=
  match scope.toNat with
  | 0 => a == b
  | 1 => a == b || (a.blk?.isSome && a.blk? == b.blk?)
  | 2 => d.coreOf a / 4 == d.coreOf b / 4
  | 3 => d.dieOf a == d.dieOf b
  | _ => true

/-- The cores that a `monwake` of an agent reaches at a scope. -/
def Device.wakesCore (d : Device) (scope : BitVec 3) (a : Agent) (core : Nat) : Bool :=
  match scope.toNat with
  | 0 | 1 => d.coreOf a == core
  | 2 => d.coreOf a / 4 == core / 4
  | 3 => d.dieOf a == core / 32
  | _ => true

/-- A `monwake` (R320, R321): armed entries of the line whose owners share the scope are called, pollers on the cores it
reaches look again, and `idle` there ends (R401). -/
def Device.wake (d : Device) (a : Agent) (scope : BitVec 3) (line : Nat) : Device :=
  ({ d with monitors := d.monitors.map (fun (m : Monitor) =>
    if m.line == some line && d.shares scope a m.agent then { m with called := true }
    else if m.line.isNone && d.wakesCore scope a m.core then { m with woken := true }
    else m) } : Device).endIdle (d.wakesCore scope a)

/-- The other devices that `sys` reaches: those the system configuration lists, while a link is up (R280, R419). -/
def Device.peers (d : Device) : List (BitVec 12) :=
  if d.ham.ports.isEmpty then [] else d.ham.numbers.filter (fun n => n != d.ham.devNum)

/-- The message that carries a wake to another device: a store of no bytes, with the line's home (DESIGN CHOICE,
assumption 51). -/
def Device.sendWake (d : Device) (a : Agent) (home : BitVec 12) (off : Nat) (dev : BitVec 12) : Device :=
  let op := { plainOp (some a) (d.ctxOf a) dev 2 off 0 with use := .wake }
  d.request op { op.msg dev with data := zext home }

/-- The wakes of a `monwake.sys` go to every other device (R321), but for lines that only this device reaches: those of its CXL tier and of its
stash and scratchpad. A line of host memory has no home among the devices, and its address stands for it (DESIGN CHOICE, assumption 51). -/
def Device.wakeFar (d : Device) (a : Agent) (scope : BitVec 3) (ls : List Loc) : Device :=
  if scope != 5 then d
  else
    ls.foldl (fun d l =>
      match d.settle l with
      | .remote n off => d.peers.foldl (Device.sendWake · a n off) d
      | .mem pa => if pa < 2 ^ 38 || 2 ^ 50 ≤ pa then d.peers.foldl (Device.sendWake · a d.ham.devNum pa) d else d
      | _ => d) d

/-- `monwake` (R321). -/
def monwakeEff (w : MWord) (x : Issue) (d : Device) : Eff :=
  let ea := fullEA w x.view
  match d.reach x.agent x.view.priv .load ea 1 with
  | .error b => b.eff none ea
  | .ok ls => x.released d (sysRel w) 
      (.ok ((ls.foldl (fun d l => d.wake x.agent w.scope (lineKey (d.settle l))) d).wakeFar x.agent w.scope ls))
def execMonwake (w : MWord) (s : State) := s.runLanes (.monwake w) (monwakeEff w)

/-! The drain. -/

/-- The open phase of a launch is over on this device. -/
def Ctx.nextPhase (x : Ctx) : Ctx :=
  { x with phase := x.phase + 1, sweepNo := 0, sweepSent := false, childSums := [], lastSum := none, drains := [] }

/-- The open phase of a launch fails: it ends with ECC, for each joined `drain` at its packet (R423, R427). -/
def Device.failDrain (d : Device) (q : DrainReq) : Device :=
  let a := Agent.group q.blk q.slot
  let gang := q.inst.gang (d.view a)
  let d1 := (d.modView a (fun g => (g.markS false [q.sreg.toNat]).standAgain q.inst)).clearFailed a (List.range 64)
  d1.trapEntry a gang q.inst.pc q.inst.idx Cause.ecc.code none 0 false false
/-- The open phase is over here; a device that has not joined it meets the failure at its next `drain`. -/
def Device.failPhase (d : Device) (c : Nat) : Device :=
  let x := d.ctx c
  x.drains.foldl Device.failDrain (d.modCtx c (fun k => { k.nextPhase with failedMsg := k.drains.isEmpty }))

/-- `drain` joins the open phase; a failed message of the launch makes it trap with ECC, which ends the phase on every device of the
set, for each joined `drain` (R322, R423, R427). -/
def drainAct (w : MWord) (a : Agent) (_g : Group) (x : GrpInst) (d : Device) : Eff :=
  let c := d.ctxOf a
  if (d.ctx c).failedMsg || d.ackFailed a (List.range 64) then
    .trapOn (fun b => (((b.failOthers c).failPhase c).modCtx c (fun x => { x with failedMsg := false })).clearFailed a (List.range 64)) .ecc
  else
    match a with
      | .group b k =>
        .ok ((d.modCtx c (fun k' => { k' with drains := k'.drains ++ [{ blk := b, slot := k, sreg := w.d, inst := x }] })).modView a (fun g =>
          (g.markS true [w.d.toNat]).holdAll .unit))
      | _ => .trap .illegal none 0
def execDrain (w : MWord) (s : State) := s.runGang (.drain w) (fun x d => x.grpWord d (.drain w) [] (drainAct w))

end Sys2Proof.Machine
end

