-- ==== Sys2Proof/Machine/Walker.lean ====
section
/-! DEFINITION. The Oasis walker (R176 to R178, R197 to R214): slots, points, examinations and the seven walker words. -/

namespace Sys2Proof.Machine

/-! Slots. -/

def Device.wslot (d : Device) (core n : Nat) : WSlot := ((d.core core).walker[n]?).getD default
def Device.modWslot (d : Device) (core n : Nat) (f : WSlot → WSlot) : Device :=
  d.modCore core (fun k => { k with walker := listModify f k.walker n })

/-- A number in the descriptor (R176). -/
def WSlot.word (s : WSlot) (off n : Nat) : Nat := bytesNat ((s.desc.drop off).take n)
def WSlot.count (s : WSlot) : Nat := s.word 0 4
/-- S and T (R176). -/
def WSlot.maxDefer (s : WSlot) : Nat := s.word 4 1 % 16
def WSlot.timeBound (s : WSlot) : Nat := s.word 8 4
def WSlot.records (s : WSlot) : DWord := BitVec.ofNat 64 (s.word 16 8)
def WSlot.map (s : WSlot) : DWord := BitVec.ofNat 64 (s.word 24 8)

/-- The agent whose translations a slot's block uses. -/
def holderAgent (b : Nat) : Agent := .access b
/-- Bytes of a block's context, one page at most. -/
def Device.reachBlk (d : Device) (b : Nat) (k : Acc) (va : DWord) (n : Nat) : Except Bad (List Loc) :=
  d.reach (holderAgent b) (d.ctx (d.block b).ctx).privLaunch k va n

/-! Points. -/

/-- Bytes of a tile of a class; 0 for no tile (R176). -/
def tileBytes (c : Nat) : Nat := if c = 0 then 0 else 2 ^ (c + 6)

/-- A point whose record, at `va`, has still to be read; with S = 0 it is forced from the start (R198). -/
def newPoint (s : Nat) (va : DWord) : WPoint :=
  { id := none, tiles := [], record := va, unread := true, brought := [], dc := 0, t0 := 0, forced := s == 0, fault := false, handed := false }
/-- The points of n records from an address on. -/
def newPoints (s : Nat) (va : DWord) (n : Nat) : List WPoint := (List.range n).map (fun i => newPoint s (va + BitVec.ofNat 64 (32 * i)))

/-- A point becomes deferred-fault, which forces it (R203). -/
def WPoint.failed (p : WPoint) : WPoint := { p with unread := false, fault := true, forced := true }

/-- A point takes the 32 bytes of its record; it is malformed as R199 says. -/
def WPoint.read (p : WPoint) (bs : List Byte) : WPoint :=
  let v := fun (o n : Nat) => bytesNat ((bs.drop o).take n)
  let c0 := v 4 1 % 16
  let c1 := v 4 1 / 16
  let a0 := v 8 8
  let a1 := v 16 8
  let bad := fun (c a : Nat) => decide (11 ≤ c) || (c != 0 && a % min (tileBytes c) 4096 != 0)
  let wrong := v 5 3 != 0 || v 24 8 != 0 || (c0 == 0 && c1 == 0) || bad c0 a0 || bad c1 a1
  let tile := fun (c a : Nat) => if c = 0 then [] else [(BitVec.ofNat 64 a, tileBytes c)]
  let p1 : WPoint := { p with id := some (BitVec.ofNat 32 (v 0 4)), unread := false }
  if wrong then p1.failed else { p1 with tiles := tile c0 a0 ++ tile c1 a1 }

/-- Change a point of a slot. -/
def Device.modPoint (d : Device) (core n i : Nat) (f : WPoint → WPoint) : Device :=
  d.modWslot core n (fun s => { s with points := listModify f s.points i })

/-- The walker reads a record that it has still to read: at once where it can; it waits for a line that an engine owns (R289),
and asks for a record of another device once (R422). A read that faults, or meets an uncorrected error, marks the point (R203). -/
def Device.readRecord (d : Device) (core n i : Nat) : Device :=
  let s := d.wslot core n
  let b := s.holder.getD 0
  match s.points[i]? with
  | none => d
  | some p =>
    if !p.unread then d
    else
      match d.reachBlk b .load p.record 32 with
      | .error _ => d.modPoint core n i WPoint.failed
      | .ok ls =>
        let use := RemoteUse.record core n s.serial i
        if ls.any isRemote then
          if d.fab.remotes.any (fun r => r.use == use) then d
          else (remoteRuns ls 0).foldl (fun d q => d.ask { plainOp none (d.block b).ctx q.1 0 q.2.1 q.2.2.2 with use := use }) d
        else if d.held ls then d
        else if ls.any d.lostByte then d.modPoint core n i WPoint.failed
        else (d.touchLoads ls).modPoint core n i (fun p => p.read (ls.map d.byteAt))

/-- Every record of a slot that can be read now is read. The model reads each as soon as it can (DESIGN CHOICE, assumption 27). -/
def Device.readRecords (d : Device) (core n : Nat) : Device :=
  (List.range (d.wslot core n).points.length).foldl (fun d i => d.readRecord core n i) d

/-- The bytes of a visited map of `count` points (R176). -/
def Device.mapLocs (d : Device) (b : Nat) (map : DWord) (count : Nat) : List Loc :=
  (List.range ((count + 63) / 64)).flatMap (fun i =>
    match d.reachBlk b .load (map + BitVec.ofNat 64 (8 * i)) 8 with | .ok ls => ls | .error _ => [])

/-- A write of a word of the map on another device, which the slot awaits, and the group whose word makes it. -/
def Device.farMap (d : Device) (core n b : Nat) (word : Option Agent) (kind : BitVec 4) (dev : BitVec 12) (off : Nat) (f : OutMsg → OutMsg) :
    Device :=
  let op := { plainOp none (d.block b).ctx dev kind off 8 with use := .mapBit core n word }
  d.request op (f (op.msg dev))

/-- Write bit i of the visited map, as a coherent agent (R203): on another device as an atomic of the word that holds it. -/
def Device.setMapBit (d : Device) (core n b : Nat) (word : Option Agent) (map : DWord) (i : Nat) (x : Bool) : Device :=
  match d.reachBlk b .store (map + BitVec.ofNat 64 (8 * (i / 64))) 8 with
  | .error _ => d
  | .ok ls =>
    let one : DWord := BitVec.ofNat 64 (2 ^ (i % 64))
    match ls with
    | .remote dev off :: _ => d.farMap core n b word 4 dev off (fun m => { m with op := if x then 2 else 1, data := if x then one else ~~~one })
    | _ =>
      let byte := (ls.drop (i % 64 / 8)).take 1
      let old := d.valueAt byte
      let bit : DWord := BitVec.ofNat 64 (2 ^ (i % 8))
      (d.storeValue byte (if x then old ||| bit else old &&& ~~~bit)).meetLost (d.block b).ctx byte

/-- Clear the visited map of a set (R198). -/
def Device.clearMap (d : Device) (core n b : Nat) (word : Option Agent) (map : DWord) (count : Nat) : Device :=
  (List.range ((count + 63) / 64)).foldl (fun d i =>
    match d.reachBlk b .store (map + BitVec.ofNat 64 (8 * i)) 8 with
    | .ok (.remote dev off :: _) => d.farMap core n b word 2 dev off (fun m => { m with cells := (List.range 8).map (fun k => (k, 0)) })
    | .ok ls => (d.storeValue ls 0).meetLost (d.block b).ctx ls
    | .error _ => d) d

/-- A write of the slot's map is still on its way to another device. -/
def Device.mapAway (d : Device) (core n : Nat) : Bool :=
  d.fab.remotes.any (fun r => match r.use with | .mapBit k m _ => k == core && m == n | _ => false)

/-! Residency. -/

/-- A line is resident (R200). -/
def Device.lineResident (d : Device) (core b : Nat) (va : DWord) : Bool :=
  match d.reachBlk b .load va 1 with
  | .ok (.mem pa :: _) =>
    d.l2.any (fun x => x.line == pa / 128) ||
      d.blocks.any (fun k => k.core == core && !k.ended && k.maps.any (fun m =>
        m.filled.any (fun p => m.lines[p.1]? == some (pa / 128))))
  | .ok (.stash _ _ :: _) => true
  | .ok (.scratch _ :: _) => true
  | _ => false

/-- The line addresses of a tile. -/
def tileLines (t : DWord × Nat) : List DWord := (List.range ((t.2 + 127) / 128)).map (fun i => t.1 + BitVec.ofNat 64 (128 * i))
/-- The number of the line that an address of a block's context reaches. -/
def Device.lineAt (d : Device) (b : Nat) (va : DWord) : Option Nat :=
  match d.reachBlk b .load va 1 with
  | .ok (l :: _) => some (lineKey (d.settle l))
  | _ => none
/-- A line of a point's tiles is resident (R200); one on another device counts so once a prefetch has brought it to its home
(DESIGN CHOICE, assumption 70). -/
def Device.lineReady (d : Device) (core b : Nat) (p : WPoint) (va : DWord) : Bool :=
  d.lineResident core b va || (match d.lineAt b va with | some n => p.brought.contains n | none => false)
/-- A point is ready: it has tiles that could be read, and each is resident (R200). -/
def Device.pointReady (d : Device) (core b : Nat) (p : WPoint) : Bool :=
  !p.fault && !p.unread && p.tiles.all (fun t => (tileLines t).all (d.lineReady core b p))

/-! Examination. -/

/-- The key that orders points: id, or the index of a point without one, then the index (R201, R203). -/
def WPoint.key (p : WPoint) (i : Nat) : Nat := (p.id.map BitVec.toNat).getD i * 2 ^ 20 + i
/-- Insert in ascending key. -/
def insertKey (p : Nat × Nat) : List (Nat × Nat) → List (Nat × Nat)
  | [] => [p]
  | q :: rest => if p.1 ≤ q.1 then p :: q :: rest else q :: insertKey p rest
/-- Indices in ascending (id, index). -/
def sortPoints (ps : List WPoint) (is : List Nat) : List Nat :=
  (is.foldr (fun i acc => insertKey (((ps[i]?).getD default).key i, i) acc) []).map Prod.snd

/-- Points forced by their clocks (R201). -/
def WSlot.clock (s : WSlot) (now : Nat) : WSlot :=
  { s with points := s.points.map (fun p =>
      if !p.handed && s.timeBound != 0 && p.dc != 0 && s.timeBound ≤ now - p.t0 then { p with forced := true } else p) }

/-- The candidates C: forced pending points, then ready ones (R201). -/
def Device.candidatesOf (d : Device) (core n : Nat) : List Nat :=
  let s := d.wslot core n
  let b := s.holder.getD 0
  let idx := List.range s.points.length
  let pt := fun (i : Nat) => ((s.points[i]?).getD default : WPoint)
  sortPoints s.points (idx.filter (fun i => !(pt i).handed && (pt i).forced)) ++
    sortPoints s.points (idx.filter (fun i => !(pt i).handed && !(pt i).forced && d.pointReady core b (pt i)))

/-- A prefetch of the core's walker is in flight for the line that an address of a block's context names (R201, R209). -/
def Device.flying (d : Device) (core b : Nat) (va : DWord) : Bool :=
  d.fab.remotes.any (fun r => match r.use with
    | .bring k _ _ _ => k == core && d.lineAt b va == some (lineKey (.remote r.dev r.addr))
    | _ => false) ||
  d.prefetches.any (fun q => q.core == core &&
    match d.lineAt q.blk q.va, d.lineAt b va with
    | some x, some y => x == y
    | none, none => q.blk == b && q.va.toNat / 128 == va.toNat / 128
    | _, _ => false)
/-- Addresses of different lines: of those that name one line, the first. -/
def Device.oneEach (d : Device) (b : Nat) : List DWord → List DWord
  | [] => []
  | va :: rest => va :: (d.oneEach b rest).filter (fun w =>
      match d.lineAt b va, d.lineAt b w with | some x, some y => x != y | _, _ => w.toNat / 128 != va.toNat / 128)

/-- defer(x) (R201): counts, clock, prefetches, and the S-th deferral. -/
def Device.deferPoint (d : Device) (core n i : Nat) : Device :=
  let s := d.wslot core n
  let b := s.holder.getD 0
  let p := (s.points[i]?).getD default
  let want := if p.fault then [] else
    d.oneEach b ((p.tiles.flatMap tileLines).filter (fun va => !d.lineReady core b p va && !d.flying core b va))
  let d1 := d.modWslot core n (fun s =>
    { s with
      deferrals := s.deferrals + 1
      points := listModify (fun p =>
        { p with dc := p.dc + 1, t0 := if p.dc = 0 then d.now else p.t0, forced := p.forced || p.dc + 1 == s.maxDefer }) s.points i })
  { d1 with prefetches := d1.prefetches ++ want.map (fun va =>
      ({ core := core, slot := n, serial := s.serial, point := i, blk := b, va := va } : Prefetch)) }

/-- Live lanes of a group, ascending (R201). -/
def Group.liveLanes (g : Group) : List Nat :=
  (List.range g.slices.length).flatMap (fun i => maskLanes i (g.slice i).live)

/-- Results of a `wknext` (R201): ids in the lowest live lanes, the predicate, the count; the group goes on. -/
def Device.deliver (d : Device) (q : WkReq) (ids : List Word) : Device :=
  let a := Agent.group q.blk q.slot
  let lv := (d.view a).liveLanes
  let val := fun (i : Nat) => (ids[i]?).getD 0xFFFFFFFF
  let r := q.d.toNat
  let ws := lv.mapIdx (fun i l => (r * 256 + l, val i))
  let ps := lv.mapIdx (fun i l => (q.p.toNat * 256 + l, decide (i < ids.length)))
  d.modView a (fun g =>
    let g1 := ((g.setV ws).markV false [r] (List.range g.slices.length)).setP ps
    let g2 := (g1.setS q.sC.toNat (BitVec.ofNat 64 ids.length)).markS false [q.sC.toNat]
    (g2.modSlices (List.range g2.slices.length) (fun s => if s.hold == .unit then { s with hold := .free } else s)).endRegion)

/-- The first waiting `wknext` of a slot takes its results and waits no more. -/
def Device.deliverHead (d : Device) (core n : Nat) (q : WkReq) (ids : List Word) : Device :=
  (d.modWslot core n (fun s => { s with waiting := s.waiting.drop 1 })).deliver q ids

/-- Hand out points to the first waiting `wknext` (R201, R203): map bits first, then the results, once every map bit is set. -/
def Device.handOut (d : Device) (core n : Nat) (q : WkReq) (hs : List Nat) : Device :=
  let s := d.wslot core n
  let pt := fun (i : Nat) => ((s.points[i]?).getD default : WPoint)
  let d1 := hs.foldl (fun d i => d.setMapBit core n (s.holder.getD 0) none s.map i true) d
  let ids := hs.map (fun i => ((pt i).id).getD (BitVec.ofNat 32 i))
  let d2 := d1.modWslot core n (fun s =>
    { s with
      points := s.points.mapIdx (fun i p => if hs.contains i then { p with handed := true } else p)
      handed := s.handed + hs.length
      forced := s.forced + (hs.filter (fun i => (pt i).forced)).length
      waiting := listModify (fun q => { q with ids := some ids }) s.waiting 0 })
  if d2.mapAway core n then d2 else d2.deliverHead core n q ids

/-- The points that a hand-out of candidates gives: as many as the group has live lanes (R201). -/
def Device.takes (d : Device) (q : WkReq) (cs : List Nat) : List Nat := cs.take ((d.view (.group q.blk q.slot)).liveLanes).length

/-- A save of the slot's context has begun: a waiting `wknext` is not performed (R213, R380). -/
def Device.slotSaving (d : Device) (core n : Nat) : Bool :=
  match (d.wslot core n).holder with
  | some b => (d.ctx (d.block b).ctx).preempt.any (fun p => decide (2 ≤ p.level))
  | none => false

/-- The walker cannot examine the slot now: a save has begun, a record has still to be read, or a write of the map is on its
way. -/
def Device.slotShut (d : Device) (core n : Nat) : Bool :=
  d.slotSaving core n || d.mapAway core n || (d.wslot core n).points.any (fun p => p.unread && !p.handed)

/-- A hand-out would write a line of the map that an engine owns or the host caches (R289, R414). -/
def Device.mapHeld (d : Device) (core n : Nat) (hs : List Nat) : Bool :=
  let s := d.wslot core n
  let b := s.holder.getD 0
  hs.any (fun i => match d.reachBlk b .store (s.map + BitVec.ofNat 64 (i / 8)) 1 with | .ok ls => d.held ls | .error _ => false)

/-- Serve the waiting `wknext` words of a slot, in order, as far as they go (R201, R202); `fuel` bounds their number. A `wknext`
that waits after its examination defers no point more, those appended since included (DEDUCED, assumption 67). -/
def Device.serve (core n : Nat) : Nat → Device → Device
  | 0, d => d
  | fuel + 1, d0 =>
    let d := d0.modWslot core n (fun s => s.clock d0.now)
    let s := d.wslot core n
    let give := fun (d' : Device) (q : WkReq) (cs : List Nat) (stop : Device) =>
      let hs := d'.takes q cs
      if d'.mapHeld core n hs then stop
      else
        let d2 := d'.handOut core n q hs
        if d2.mapAway core n then d2 else Device.serve core n fuel d2
    match s.waiting with
    | [] => d
    | q :: _ =>
      match q.ids with
      | some ids => if d.mapAway core n then d else Device.serve core n fuel (d.deliverHead core n q ids)
      | none =>
        if d.slotShut core n then d
        else if s.points.all (fun p => p.handed) then Device.serve core n fuel (d.deliverHead core n q [])
        else
          let cs := d.candidatesOf core n
          if q.examined then
            if cs.isEmpty then d else give d q cs d
          else if d.mapHeld core n (d.takes q cs) then d
          else
            let idx := (List.range s.points.length).filter (fun i => !((s.points[i]?).getD default).handed && !cs.contains i)
            let d1 := idx.foldl (fun d i => d.deferPoint core n i) d
            if !cs.isEmpty then give d1 q cs d
            else
              let d2 := d1.modWslot core n (fun s =>
                { s with waiting := listModify (fun q => { q with examined := true }) s.waiting 0 })
              let cs2 := d2.candidatesOf core n
              if cs2.isEmpty then d2 else give d2 q cs2 d2

/-- Serve a slot. -/
def Device.serveSlot (d : Device) (core n : Nat) : Device := Device.serve core n ((d.wslot core n).waiting.length) (d.readRecords core n)

/-- Every `wknext` that waits on a set being replaced completes with count 0 (R202); one that points have been handed to completes
with them. -/
def Device.dismiss (d : Device) (core n : Nat) : Device :=
  let qs := (d.wslot core n).waiting
  qs.foldl (fun d q => d.deliver q (q.ids.getD [])) (d.modWslot core n (fun s => { s with waiting := [] }))

/-! The words. -/

/-- What stops a range of bytes from being translated for an access, page by page (R198). -/
def Device.rangeStop (d : Device) (a : Agent) (priv : Bool) (k : Acc) : Nat → DWord → Nat → Option Eff
  | 0, _, _ => none
  | fuel + 1, va, len =>
    if len = 0 then none
    else
      let n := min len (4096 - va.toNat % 4096)
      match d.reach a priv k va 1 with
      | .error b => some (b.eff none va)
      | .ok _ => d.rangeStop a priv k fuel (va + BitVec.ofNat 64 n) (len - n)
def Device.rangeOk (d : Device) (a : Agent) (priv : Bool) (k : Acc) (va : DWord) (len : Nat) : Option Eff :=
  d.rangeStop a priv k (len / 4096 + 2) va len

/-- The checks on a descriptor (R198): its content, its alignment, its ranges. The map's range must permit what the walker does to it, a read and
a write, as an atomic must (DESIGN CHOICE, assumption 83). -/
def Device.checkSet (d : Device) (a : Agent) (priv : Bool) (bs : List Byte) : Option Eff :=
  let v := fun (o n : Nat) => bytesNat ((bs.drop o).take n)
  let count := v 0 4
  if count = 0 || 65536 < count || v 4 1 / 16 != 0 || v 5 3 != 0 || v 12 4 != 0 then some (.trap .illegal none 0)
  else if v 16 8 % 32 != 0 || v 24 8 % 8 != 0 then some (.trap .misalign none 0)
  else
    match d.rangeOk a priv .load (BitVec.ofNat 64 (v 16 8)) (32 * count) with
    | some e => some e
    | none => d.rangeOk a priv .atomic (BitVec.ofNat 64 (v 24 8)) (8 * ((count + 63) / 64))

/-- Another resident block holds the slot (R197). -/
def Device.heldByOther (d : Device) (core n b : Nat) : Bool :=
  match (d.wslot core n).holder with
  | some h => h != b && !(d.block h).ended
  | none => false
/-- The block holds the slot. -/
def Device.holds (d : Device) (core n b : Nat) : Bool := (d.wslot core n).holder == some b

/-- n bytes at an address, a multiple of `al`, wherever they lie (R422), or what stops their read. -/
def Device.readBytes (d : Device) (a : Agent) (priv : Bool) (ea : DWord) (n al : Nat) : Except Eff (List Byte) :=
  if ea.toNat % al != 0 then .error (.trap .misalign none 0)
  else
    match d.reach a priv .load ea n with
    | .error b => .error (b.eff none ea)
    | .ok ls => if d.held ls then .error .wait else if ls.any d.lostByte then .error (.trap .ecc none 0) else d.fetchOr a none ls

/-- Declare a set in a slot, for a word of an agent (R198). -/
def Device.startSet (d : Device) (a : Agent) (core n b : Nat) (bs : List Byte) : Device :=
  let d1 := d.dismiss core n
  let s0 : WSlot := { WSlot.reset with holder := some b, serial := (d1.wslot core n).serial + 1, desc := bs }
  let d2 := d1.clearMap core n b (some a) s0.map s0.count
  (d2.modWslot core n (fun _ => { s0 with points := newPoints s0.maxDefer s0.records s0.count })).readRecords core n

/-- Slot number of a walker word. -/
def wkSlot (w : MWord) : Nat := (bitsOf w.func 0 2).toNat

/-- `wkset` (R198, R206). It waits for a hand-out of the old set whose map bits are on their way (R203). -/
def wksetAct (w : MWord) (a : Agent) (g : Group) (_x : GrpInst) (d : Device) : Eff :=
  match a with
  | .group b _ =>
    let core := (d.block b).core
    let n := wkSlot w
    if d.heldByOther core n b then .trap .capacity none 0
    else
      match d.readBytes a g.priv (fullEA w g) 64 64 with
      | .error e => e
      | .ok bs =>
        if (bs.drop 32).any (fun x => x != 0) then .trap .illegal none 0
        else
          match d.checkSet a g.priv bs with
          | some e => e
          | none =>
            let s0 : WSlot := { WSlot.reset with desc := bs }
            if d.mapAway core n || d.held (d.mapLocs b s0.map s0.count) then .wait else .ok ((d.startSet a core n b bs).endRegionOf a)
  | _ => .trap .illegal none 0
def execWkset (w : MWord) (s : State) := s.runGang (.wkset w) (fun x d => x.grpWord d (.wkset w) [] (wksetAct w))

/-- `wkadd` (R206). The spec does not rank its traps: the hold comes first, then sD = 0, the alignment, the total, and the
translation (DESIGN CHOICE, assumption 66). -/
def wkaddAct (w : MWord) (a : Agent) (g : Group) (_x : GrpInst) (d : Device) : Eff :=
  match a with
  | .group b _ =>
    let core := (d.block b).core
    let n := wkSlot w
    let s := d.wslot core n
    let ea := fullEA w g
    let more := (g.sAt w.d.toNat).toNat
    let total := s.points.length + more
    if !d.holds core n b then .trap .perm none 0
    else if more = 0 then .trap .illegal none 0
    else if ea.toNat % 32 != 0 then .trap .misalign none 0
    else if 65536 < total then .trap .capacity none 0
    else
      match d.rangeOk a g.priv .load ea (32 * more) with
      | some e => e
      | none =>
        let idx := (List.range more).map (fun i => s.points.length + i)
        if d.mapHeld core n idx then .wait
        else
          let d1 := idx.foldl (fun d i => d.setMapBit core n b (some a) s.map i false) d
          let d2 := d1.modWslot core n (fun s =>
            { s with
              desc := bytesOf 4 (BitVec.ofNat 64 total) ++ s.desc.drop 4
              points := s.points ++ newPoints s.maxDefer ea more })
          .ok ((d2.serveSlot core n).endRegionOf a)
  | _ => .trap .illegal none 0
def execWkadd (w : MWord) (s : State) := s.runGang (.wkadd w) (fun x d => x.grpWord d (.wkadd w) [] (wkaddAct w))

/-- `wknext` joins the slot's waiting words; the walker serves them in order (R201, R207). -/
def wknextAct (w : MWord) (a : Agent) (_g : Group) (_x : GrpInst) (d : Device) : Eff :=
  match a with
  | .group b k =>
    let core := (d.block b).core
    let n := wkSlot w
    if !d.holds core n b then .trap .perm none 0
    else
      let q : WkReq := { blk := b, slot := k, d := w.d, p := bitsOf w.func 3 3, sC := w.index, examined := false, ids := none }
      let d1 := d.modView a (fun g => (g.markS true [w.index.toNat]).modSlices g.liveSlices (fun s => { s with hold := .unit }))
      .ok ((d1.modWslot core n (fun s => { s with waiting := s.waiting ++ [q] })).serveSlot core n)
  | _ => .trap .illegal none 0
def execWknext (w : MWord) (s : State) := s.runGang (.wknext w) (fun x d => x.grpWord d (.wknext w) [] (wknextAct w))

/-- A lane word of a slot that the block must hold (R197). -/
def Issue.withSlot (x : Issue) (d : Device) (w : MWord) (f : Nat → Nat → Eff) : Eff :=
  match x.agent with
  | .group b _ =>
    let core := (d.block b).core
    if d.holds core (wkSlot w) b then f core (wkSlot w) else .trap .perm none 0
  | _ => .trap .illegal none 0

/-- `wkdone` (R208). -/
def wkdoneEff (w : MWord) (x : Issue) (d : Device) : Eff :=
  x.withSlot d w (fun core n =>
    .ok ((d.modWslot core n (fun s => { s with completions := min (s.completions + x.act.length) 0xFFFFFFFF })).endRegionOf x.agent))
def execWkdone (w : MWord) (s : State) := s.runLanes (.wkdone w) (wkdoneEff w)

/-- The residency of the line of an address (R209). Bit 3 is set for every address that a load could not use, one whose page
denies loads included (DESIGN CHOICE, assumption 68). Bit 0 of a line of another device reads 0, also where the walker counts it as brought to
its home (DESIGN CHOICE, assumption 70). -/
def Device.residency (d : Device) (a : Agent) (b : Nat) (ea : DWord) : Nat :=
  let core := (d.block b).core
  match d.reach a (d.view a).priv .load ea 1 with
  | .error _ => 8
  | .ok ls =>
    let line := match ls.map d.settle with | .mem pa :: _ => some (pa / 128) | _ => none
    let l2 : Bool := match ls with
      | .mem pa :: _ => d.l2.any (fun x => x.line == pa / 128)
      | .stash _ _ :: _ | .scratch _ :: _ => true
      | _ => false
    let filled := d.blocks.any (fun k => k.core == core && !k.ended && k.maps.any (fun m =>
      m.filled.any (fun p => (m.lines[p.1]?).isSome && m.lines[p.1]? == line)))
    (if l2 then 1 else 0) + (if filled then 2 else 0) + (if d.flying core b ea then 4 else 0)

/-- `wkres` (R209). -/
def wkresEff (w : MWord) (x : Issue) (d : Device) : Eff :=
  let b := (x.agent.blk?).getD 0
  let val := fun (ea : DWord) => BitVec.ofNat 64 (d.residency x.agent b ea)
  let eas := x.laneEAs d w
  if w.u then .ok (d.laterS x w.d.toNat (match eas with | p :: _ => val p.2 | [] => 0) 0 .nothing)
  else .ok (d.laterLanes x w.d.toNat false (eas.map (fun p => (p.1.getD 0, val p.2))) 0 .nothing)
def execWkres (w : MWord) (s : State) := s.runLanes (.wkres w) (wkresEff w)

/-- The state of a point (R210). -/
def WSlot.pointState (s : WSlot) (i : Nat) : DWord :=
  match s.points[i]? with
  | none => 0xFFFFFFFF
  | some p =>
    BitVec.ofNat 64 ((if p.handed then 1 else 0) + (if p.forced then 2 else 0) + (if p.fault then 4 else 0) + p.dc % 16 * 16)

/-- `wkmap` (R210). -/
def wkmapEff (w : MWord) (x : Issue) (d : Device) : Eff :=
  let gr := x.view
  let gq := d.view x.agent
  x.withSlot d w (fun core n =>
    let s := d.wslot core n
    .ok (d.laterLanes x w.d.toNat false
      (x.act.map (fun l => (l, s.pointState (bitsOf (vOperand gr gq w.index false 0 l) 0 32).toNat))) 0 .nothing))
def execWkmap (w : MWord) (s : State) := s.runLanes (.wkmap w) (wkmapEff w)

/-- The four counts (R211). -/
def WSlot.counts (s : WSlot) : List Byte :=
  [s.handed, s.deferrals, s.forced, s.completions].flatMap (fun n => bytesOf 4 (BitVec.ofNat 64 n))

/-- Store bytes at an address, a multiple of `al`; those of another device are awaited before a later packet (R211, R214). -/
def Device.writeBytes (d : Device) (a : Agent) (priv : Bool) (ea : DWord) (al : Nat) (bs : List Byte) : Eff :=
  if ea.toNat % al != 0 then .trap .misalign none 0
  else
    match d.reach a priv .store ea bs.length with
    | .error b => b.eff none ea
    | .ok ls =>
      if d.held ls then .wait else .ok (d.putBytesFor .unit (some a) (d.ctxOf a) ls bs)

/-- `wkstat` (R211). -/
def wkstatAct (w : MWord) (a : Agent) (g : Group) (_x : GrpInst) (d : Device) : Eff :=
  match a with
  | .group b _ =>
    let core := (d.block b).core
    if !d.holds core (wkSlot w) b then .trap .perm none 0
    else d.writeBytes a g.priv (fullEA w g) 4 (d.wslot core (wkSlot w)).counts
  | _ => .trap .illegal none 0
def execWkstat (w : MWord) (s : State) := s.runGang (.wkstat w) (fun x d => x.grpWord d (.wkstat w) [] (wkstatAct w))

/-! Slot images (R213, R214). -/

/-- The core whose walker an image form names. -/
def Device.imageCore (d : Device) (a : Agent) (w : MWord) : Nat :=
  match a with
  | .handler c => 4 * c + (bitsOf w.d 0 2).toNat
  | _ => d.coreOf a

/-- The image of a slot (R213). -/
def Device.slotImage (d : Device) (s : WSlot) : List Byte :=
  let h := s.holder.getD 0
  s.desc.take 32 ++ s.counts ++ bytesOf 8 (BitVec.ofNat 64 (d.block h).idx) ++ List.replicate 8 0

/-- `wkstat.img`: a group must hold the slot; the cluster handler saves any held slot (R213, R214). -/
def wkstatImgAct (w : MWord) (a : Agent) (g : Group) (_x : GrpInst) (d : Device) : Eff :=
  let core := d.imageCore a w
  let s := d.wslot core (wkSlot w)
  let ok := match a with | .group b _ => d.holds core (wkSlot w) b | _ => s.holder.isSome
  if !ok then .trap .perm none 0 else d.writeBytes a g.priv (fullEA w g) 64 (d.slotImage s)
def execWkstatImg (w : MWord) (s : State) :=
  s.runGang (.wkstatImg w) (fun x d => x.grpWord d (.wkstatImg w) [] (wkstatImgAct w))

/-- The block that `wkset.img` makes the holder: the issuer's, or the resident block of the named core whose index the
image holds (R214), of those of the context that the handler restores (DESIGN CHOICE, assumption 83). -/
def Device.imageHolder (d : Device) (a : Agent) (core idx : Nat) : Option Nat :=
  match a with
  | .group b _ => some b
  | _ =>
    (List.range d.blocks.length).find? (fun b =>
      let k := d.block b
      k.core == core && !k.ended && k.idx == idx && k.ctx == d.ctxOf a)

/-- Restore a slot from an image (R213): points whose map bit is clear are pending. `map` gives the map's bits. The image's bytes
56 to 63 are not looked at (DESIGN CHOICE, assumption 69). With S = 0 the pending points are forced, as R198 has it from the start of a set
(DESIGN CHOICE, assumption 83). -/
def Device.restoreSet (d : Device) (core n b : Nat) (bs : List Byte) (map : Nat → Bool) : Device :=
  let d1 := d.dismiss core n
  let v := fun (o : Nat) => bytesNat ((bs.drop o).take 4)
  let s0 : WSlot :=
    { WSlot.reset with
      holder := some b, serial := (d1.wslot core n).serial + 1, desc := bs.take 32 ++ List.replicate 32 0,
      handed := v 32, deferrals := v 36, forced := v 40, completions := v 44 }
  (d1.modWslot core n (fun _ =>
    { s0 with points := (newPoints s0.maxDefer s0.records s0.count).mapIdx (fun i p => { p with handed := map i }) })).readRecords core n

/-- The bits of a map that bytes hold. -/
def mapBits (bs : List Byte) (i : Nat) : Bool := bitOf ((bs[i / 8]?).getD 0) (i % 8)

/-- `wkset.img` (R213, R214): in a group the hold comes first, as in `wkset` (R198). -/
def wksetImgAct (w : MWord) (a : Agent) (g : Group) (_x : GrpInst) (d : Device) : Eff :=
  let core := d.imageCore a w
  let n := wkSlot w
  let shut := match a with | .group b _ => d.heldByOther core n b | _ => false
  if shut then .trap .capacity none 0
  else
    match d.readBytes a g.priv (fullEA w g) 64 64 with
    | .error e => e
    | .ok bs =>
      match d.imageHolder a core (bytesNat ((bs.drop 48).take 8)) with
      | none => .trap .illegal none 0
      | some b =>
        if d.heldByOther core n b then .trap .capacity none 0
        else
          let who := match a with | .group _ _ => (a, g.priv) | _ => (holderAgent b, (d.ctx (d.block b).ctx).privLaunch)
          match d.checkSet who.1 who.2 bs with
          | some e => e
          | none =>
            let s0 : WSlot := { WSlot.reset with desc := bs }
            let ls := d.mapLocs b s0.map s0.count
            if d.mapAway core n || d.held ls then .wait
            else
              match d.fetchOr a none ls with
              | .error e => e
              | .ok ms => .ok ((d.restoreSet core n b bs (mapBits ms)).endRegionOf a)
def execWksetImg (w : MWord) (s : State) :=
  s.runGang (.wksetImg w) (fun x d => x.grpWord d (.wksetImg w) [] (wksetImgAct w))

end Sys2Proof.Machine
end

