-- ==== Sys2Proof/Machine/Settle.lean ====
section
/-! DEFINITION. What the end of lanes brings about: instances, barriers and meetings that waited for them, the end of a
group, of a thread and of a block, and the active positions of a core. -/

namespace Sys2Proof.Machine

/-! Active positions (R37, R355, R356). -/

/-- Groups of a core that are resident: block and slot, in order of placement. -/
def Device.residents (d : Device) (core : Nat) : List (Nat × Nat) :=
  (List.range d.blocks.length).flatMap (fun b =>
    let x := d.block b
    if x.ended || x.core != core then []
    else ((List.range x.groups.length).filter (fun k => !(x.group k).exited)).map (fun k => (b, k)))
def Device.groupAt (d : Device) (p : Nat × Nat) : Group := (d.block p.1).group p.2
/-- The pending set of a core, oldest first. -/
def Device.pending (d : Device) (core : Nat) : List (Nat × Nat) :=
  let ps := (d.residents core).filter (fun p => (d.groupAt p).pos.isNone)
  ps.foldl (fun acc p =>
    (acc.takeWhile (fun q => decide ((d.groupAt q).since ≤ (d.groupAt p).since))) ++ p ::
      acc.dropWhile (fun q => decide ((d.groupAt q).since ≤ (d.groupAt p).since))) []
/-- The group in an active position. -/
def Device.inPos (d : Device) (core pos : Nat) : Option (Nat × Nat) :=
  (d.residents core).find? (fun p => (d.groupAt p).pos == some pos)
/-- Free active positions take the oldest pending groups, ready or not (DESIGN CHOICE, assumption 71: R38 speaks of swaps only). -/
def Device.fillPositions (d : Device) (core : Nat) : Device :=
  let free := (List.range 8).filter (fun n => (d.inPos core n).isNone)
  (free.zip (d.pending core)).foldl (fun d q => d.modGroup q.2.1 q.2.2 (fun g => { g with pos := some q.1, since := d.now })) d

/-! Instances that complete when slices die (R234, R269, R327). -/

/-- What an instance of a group-wide lane word writes. -/
def laneOut (i : Instr) (g : Group) (x : LaneInst) : LaneOut :=
  match i with
  | .lmov _ => lmovOut g x
  | .bcast w => bcastOut w.t g x
  | .vred w => vredOut w g x
  | .vscan w => vscanOut w g x
  | .vote w => voteOut w g x
  | _ => sampleOut g x

/-- What an instance of a per-group word does. -/
def grpAct (a : Agent) (g : Group) (x : GrpInst) (d : Device) : Eff :=
  match x.word with
  | .cp w => cpAct w a g x d
  | .cpclose w => cpcloseAct w a g x d
  | .stmap w => stmapAct w a g x d
  | .stunmap w => stunmapAct w a g x d
  | .stfl w => stflAct w a g x d
  | .append w => claimAct true (.append w) w a g x d
  | .atomOrdAdd w => claimAct false (.atomOrdAdd w) w a g x d
  | .appendDecl w => declineAct w a g x d
  | .eflush w => eflushAct w a g x d
  | .monwait w => monwaitAct w a g x d
  | .drain w => drainAct w a g x d
  | .wkset w => wksetAct w a g x d
  | .wksetImg w => wksetImgAct w a g x d
  | .wkadd w => wkaddAct w a g x d
  | .wknext w => wknextAct w a g x d
  | .wkstat w => wkstatAct w a g x d
  | .wkstatImg w => wkstatImgAct w a g x d
  | _ => .ok d

/-- Lane instances that every live slice has issued act. -/
def settleLanes (a : Agent) : Nat → Device → Device
  | 0, d => d
  | fuel + 1, d =>
    let g := d.view a
    match g.laneInsts.find? (fun x => g.allIssued x.issued) with
    | none => d
    | some x =>
      let d1 := d.modView a (fun g => { g with laneInsts := g.laneInsts.filter (fun y => y.k != x.k) })
      settleLanes a fuel (d1.laneResult a x (laneOut x.word g x))

/-- Per-group instances that every live slice has issued act, lowest first. A trap is taken by a gang of the instance at
the instance's packet. -/
def settleGrps (a : Agent) : Nat → Device → Eff
  | 0, d => .ok d
  | fuel + 1, d =>
    let g := d.view a
    match g.grpInsts.find? (fun x => g.allIssued x.issued) with
    | none => .ok d
    | some x =>
      let back := d.modView a (fun g => g.unissue x)
      match grpAct a g x (d.modView a (fun g => g.takeGrp x.k)) with
      | .ok d1 => settleGrps a fuel d1
      | .wait => .wait
      | .waitOn fix => .waitOn fix
      | .trap c l code => .ok (back.trapEntry a (x.gang g) x.pc x.idx c.code l code false false)
      | .trapOn fix c => .ok ((fix back).trapEntry a (x.gang g) x.pc x.idx c.code none 0 false false)
      | .fault c l addr => .ok (back.faultEntry a (x.gang g) x.pc x.idx c l addr)
      | .double => .ok d

/-- `region` acts (R327, R342): REC rises, and the entry is recorded, at the packet after the word. -/
def Group.openRegion (g : Group) (x : GrpInst) : Group :=
  let live := g.liveSlices
  let sl := g.slices.mapIdx (fun i s =>
    if live.contains i then
      { s with barLog := [], pc := if bitOf x.issued i then x.pc + 1 else s.pc,
               hold := if s.hold == .region x.k then .free else s.hold }
    else s)
  { g with
    recCnt := g.recCnt + 1
    regInsts := g.regInsts.filter (fun y => y.k != x.k)
    region := some sl
    regionLanes := g.laneInsts
    slices := g.slices.mapIdx (fun i s =>
      if live.contains i then { s with barLog := [], hold := if s.hold == .region x.k then .free else s.hold } else s) }

/-- `region` instances that every live slice has issued act. -/
def settleRegions : Nat → Group → Group
  | 0, g => g
  | fuel + 1, g =>
    match g.regInsts.find? (fun x => g.allIssued x.issued) with
    | none => g
    | some x => settleRegions fuel ((g.openRegion x).freeQueues)

/-- The live slices of a slice's former mask. -/
def Group.formerOf (g : Group) (i : Nat) : List Nat :=
  (List.range g.slices.length).filter (fun j => bitOf (g.slice i).former j && (g.slice j).live != 0)
/-- A slice waits at `regang.all`, and so does every live slice of its former mask. -/
def Group.regangMet (g : Group) (i : Nat) : Bool :=
  (g.slice i).hold == .regang && (g.slice i).live != 0 && (g.formerOf i).all (fun j => (g.slice j).hold == .regang)
/-- `regang.all` (R44): every slice whose former mask's live slices all wait there ends its parting with them, all at once. -/
def Group.regangDone (g : Group) : Group :=
  let met := (List.range g.slices.length).filter g.regangMet
  if met.isEmpty then g else g.modSlices (met ++ met.flatMap g.formerOf) (fun s => { s with parted := false, hold := .free })

/-! The end of a block. -/

/-- A block ends once everything in it has exited (R41): its walker slots and its Crest context come free. -/
def Device.endCheck (d : Device) (b : Nat) : Device :=
  let x := d.block b
  let gone := fun (t : Option Thread) => match t with | none => true | some t => t.exited
  if x.ended || !x.groups.all (fun g => g.exited) || !gone x.access || !gone x.ridge || !x.built.isEmpty || !x.formers.isEmpty then d
  else
    (d.modBlock b (fun x => { x with ended := true })).modCore x.core (fun k =>
      { k with
        crest := k.crest.map (fun c => if c.blk == some b then { c with blk := none } else c)
        walker := k.walker.map (fun w => if w.holder == some b then { WSlot.reset with serial := w.serial } else w) })

/-- A group leaves a barrier: its arrival is lost in a phase that counts groups which have not exited, and stands in one with a count of its
own (R137). -/
def Bar.leave (x : Bar) (key : Nat) : Bar :=
  { x with
    arrived := x.arrived.filter (fun n => n != key)
    gone := if x.form != some none && x.arrived.contains key then x.gone + 1 else x.gone
    issued := x.issued.filter (fun p => p.1 != key), wanted := x.wanted.filter (fun p => p.1 != key) }

/-- A group exits (R48, R137, R340): its registers go, launch groups lower the counts of their barriers and lose the
arrivals of the current phases, drains into it discard their data, and its position comes free. -/
def Device.groupExit (d : Device) (b k : Nat) : Device :=
  let a := Agent.group b k
  let key := b * 16 + k
  let core := (d.block b).core
  let d1 : Device :=
    { d with fills := d.fills.filter (fun f => f.agent != a)
             qfills := d.qfills.filter (fun f => !(f.blk == b && f.slot == k)) }
  let d2 := d1.modGroup b k (fun g =>
    { Group.fresh g.slot [] 0 with s := [], exited := true, spawned := g.spawned, eflushes := g.eflushes, region := none })
  let d3 := d2.modCore core (fun c =>
    { c with
      transfer := if c.transfer == some (b, k) then none else c.transfer
      crest := c.crest.map (fun x =>
        if x.blk == some b then
          { x with ops := x.ops.map (fun o => match o.dst with
              | some (slot, _) => if slot == k then { o with dst := none } else o
              | none => o) }
        else x) })
  let d4 := (List.range 32).foldl (fun d id => ((d.modBar b id (fun x => x.leave key)).barComplete b id).barLates b id) d3
  (d4.endCheck b).fillPositions core

/-- What follows when lanes of a group have ended. -/
def Device.afterDeath (d : Device) (b k : Nat) : Eff :=
  let a := Agent.group b k
  match settleGrps a 64 (settleLanes a 64 d) with
  | .ok d1 =>
    let d2 := d1.modGroup b k (fun g => (settleRegions 64 g).regangDone.freeQueues)
    let d3 := (List.range 32).foldl (fun d id => (d.barDeath b k id).barLates b id) d2
    let keys := dedup (((d3.block b).group k).slices.flatMap (fun s => s.pbarCnt.map Prod.fst))
    let d4 := keys.foldl (fun d key => d.slotGroup b k key) d3
    if ((d4.block b).group k).liveSlices.isEmpty && !((d4.block b).group k).exited then .ok (d4.groupExit b k) else .ok d4
  | e => e

/-- Lanes end (R45, R48): they leave their slice's mask, its stack and its live lanes. -/
def Group.endLanes (g : Group) (ls : List Nat) : Group :=
  let cut := fun (i : Nat) (m : BitVec 4) =>
    (List.range 4).foldl (fun m j => if ls.contains (4 * i + j) then m &&& ~~~(BitVec.ofNat 4 (2 ^ j)) else m) m
  { g with slices := g.slices.mapIdx (fun i s =>
      if ls.any (fun l => l / 4 == i) then
        { s with mask := cut i s.mask, live := cut i s.live, stack := s.stack.map (fun e => { e with mask := cut i e.mask }) }
      else s) }

/-- A scalar thread exits. -/
def Device.threadExit (d : Device) (a : Agent) : Device :=
  let d1 := { d with fills := d.fills.filter (fun f => f.agent != a) }
  let d2 := d1.modView a (fun g => { g with exited := true })
  match a.blk? with
  | some b => d2.endCheck b
  | none => d2

end Sys2Proof.Machine
end

