-- ==== Sys2Proof/Machine/Control.lean ====
section
/-! DEFINITION. Control flow (R42 to R48, R332 to R343), `nop`, `guard` and `ext`. A control word performs last in its
packet, on the registers its chain reads (R55). -/

namespace Sys2Proof.Machine

/-- `nop` (R72). -/
def execNop (c : Bool) (s : State) := s.runGang (.nop c) (fun _ d => .ok d)
/-- `guard`: it governs words of its chain, which the packet's reading gives them (R73). -/
def execGuard (w : GWord) (s : State) := s.runGang (.guard w) (fun _ d => .ok d)
/-- `ext`: the word before it holds its payload (R74); one that no word takes is ILLEGAL. -/
def execExt (c : Bool) (x : Payload) (s : State) :=
  s.runGang (.ext c x) (fun y d => if y.extOk then .ok d else .trap .illegal none 0)

/-! Transfers. -/

/-- cond(l) of a control word (R334). -/
def Issue.cond (x : Issue) (w : BWord) (lane : Nat) : Bool := x.view.pAt w.p.toNat lane != w.neg

/-- The members of a gang left at different packets part, and record the gang (R26, R44). -/
def Group.part (g : Group) (slices : List Nat) : Group :=
  match slices with
  | [] => g
  | i :: rest =>
    if rest.all (fun j => (g.slice j).pc == (g.slice i).pc) then g
    else g.modSlices slices (fun s => { s with parted := true, former := sliceMask slices })

/-- A slice's branch (R42, R334, R335). -/
def Slice.branch (s : Slice) (conditional link : Bool) (pc target : Word) (taken : BitVec 4) : Slice :=
  let nxt := pc + 1
  if !conditional then { s with pc := target, lk := if link then nxt else s.lk }
  else if taken == 0 then { s with pc := nxt, stack := { path := true, pc := target, mask := 0, fmt := s.fmt } :: s.stack }
  else
    { s with
      pc := target
      stack := { path := true, pc := nxt, mask := s.mask &&& ~~~taken, fmt := s.fmt } :: s.stack
      mask := taken
      lk := if link then nxt else s.lk }

/-- The lanes of a slice's mask that meet a condition. -/
def takenMask (slice : Nat) (m : BitVec 4) (f : Nat → Bool) : BitVec 4 :=
  (List.range 4).foldl (fun t j => if bitOf m j && f (4 * slice + j) then t ||| BitVec.ofNat 4 (2 ^ j) else t) 0

/-- `br`, `bri`, `call` and `ret` (R334, R335): by slice with its stack in a group, by the thread's predicate in a thread.
Depth 16 traps with STACKFULL before anything changes. -/
def branchEff (w : BWord) (link : Bool) (target : Slice → Word) (x : Issue) (d : Device) : Eff :=
  let g := x.view
  if !x.agent.isGroup then
    let go := !w.cond || x.cond w 0
    .ok (d.modView x.agent (fun h => h.modSlices x.slices (fun s =>
      { s with pc := if go then target s else x.pc + 1, lk := if go && link then x.pc + 1 else s.lk })))
  else if w.cond && x.slices.any (fun i => decide (16 ≤ (g.slice i).stack.length)) then .trap .stackFull none 0
  else
    .ok (d.modView x.agent (fun h =>
      (x.slices.foldl (fun h i =>
        h.modSlice i (fun s => s.branch w.cond link x.pc (target s) (takenMask i s.mask (x.cond w)))) h).part x.slices))

/-- The target of `br` and `call` (R333). -/
def branchTarget (w : BWord) (pc : Word) : Word := pc + w.off.signExtend 32

def execBr (w : BWord) (s : State) := s.runMove (.br w) (fun x d => branchEff w false (fun _ => branchTarget w x.pc) x d)
def execCall (w : BWord) (s : State) := s.runMove (.call w) (fun x d => branchEff w true (fun _ => branchTarget w x.pc) x d)
def execRet (w : BWord) (s : State) := s.runMove (.ret w) (fun x d => branchEff w false (fun t => t.lk) x d)
/-- `bri`: bits [63:32] of sT must be zero (R333). -/
def briEff (w : BWord) (x : Issue) (d : Device) : Eff :=
  let t := x.view.sAt w.sReg.toNat
  if bitsOf t 32 32 != 0 then .trap .illegal none 0 else branchEff w false (fun _ => bitsOf t 0 32) x d
def execBri (w : BWord) (s : State) := s.runMove (.bri w) (briEff w)

/-- A slice's join (R42, R43). -/
def Slice.join (s : Slice) (pc : Word) : Slice :=
  match s.stack with
  | [] => s
  | e :: rest =>
    if e.path && e.mask != 0 then
      { s with stack := { path := false, pc := 0, mask := s.mask ||| e.mask, fmt := e.fmt } :: rest, mask := e.mask, fmt := e.fmt, pc := e.pc }
    else { s with stack := rest, mask := s.mask ||| e.mask, fmt := e.fmt, pc := pc + 1 }

/-- `join`: an empty stack is ILLEGAL (R334). -/
def joinEff (x : Issue) (d : Device) : Eff :=
  if x.slices.any (fun i => (x.view.slice i).stack.isEmpty) then .trap .illegal none 0
  else .ok (d.modView x.agent (fun g => (g.modSlices x.slices (fun s => s.join x.pc)).part x.slices))
def execJoin (w : BWord) (s : State) := s.runMove (.join w) joinEff

/-- `regang` and `regang.all` (R44, R336). -/
def regangEff (w : BWord) (x : Issue) (d : Device) : Eff :=
  if bitOf w.off 0 then
    .ok (d.modView x.agent (fun g => (g.modSlices x.slices (fun s => if s.parted then { s with hold := .regang } else s)).regangDone))
  else .ok (d.modView x.agent (fun g => g.modSlices x.slices (fun s => { s with parted := false })))
def execRegang (w : BWord) (s : State) := s.runGang (.regang w) (regangEff w)

/-! Spawn (R45, R338, R339). -/

/-- The leaving set: the lanes of the minority value, and on a tie those whose value is 1. -/
def Issue.leaving (x : Issue) (w : BWord) : List Nat :=
  let l := x.gangLanes
  let ones := l.filter (x.cond w)
  if ones.length ≤ l.length - ones.length then ones else l.filter (fun i => !x.cond w i)

/-- The record of a lane (R45). -/
def Device.spawnRec (d : Device) (b k : Nat) (target : Word) (live : BitVec 16) (lane : Nat) : SpawnRec :=
  let g := (d.block b).group k
  { tid := d.tidOf (.group b k) lane % 2 ^ 32, target := target, fmt := (g.slice (lane / 4)).fmt, liveRegs := live,
    regs := (List.range 16).map (fun i => if bitOf live i then g.vAt i lane else 0) }

/-- The former gathers a record by target and `fmt`; 256 of them make a group (R46). -/
def Block.addRec (now : Nat) (b : Block) (r : SpawnRec) : Block :=
  let same := fun (f : Former) => f.target == r.target && f.fmt == r.fmt
  let fs :=
    if b.formers.any same then
      b.formers.map (fun f => if same f then { f with recs := f.recs ++ [r], last := now } else f)
    else b.formers ++ [({ target := r.target, fmt := r.fmt, recs := [r], last := now } : Former)]
  { b with
    spawnUsed := b.spawnUsed + 1
    formers := fs.filter (fun f => decide (f.recs.length < 256))
    built := b.built ++ fs.filter (fun f => decide (256 ≤ f.recs.length)) }

/-- `brs` (R338). -/
def brsEff (w : BWord) (x : Issue) (d : Device) : Eff :=
  let t := x.view.sAt w.sReg.toNat
  let live := bitsOf t 32 16
  let regs := (List.range 16).filter (fun i => bitOf live i)
  let ls := x.leaving w
  match x.agent with
  | .group b k =>
    if bitsOf t 48 16 != 0 || regs.any (fun r => decide (d.nregs x.agent ≤ r)) then .trap .illegal none 0
    else if ls.isEmpty then .ok (d.endRegionOf x.agent)
    else if regs.any (fun r => ls.any (fun l => x.view.vIsEmpty r (l / 4))) then .wait
    else if (d.block b).spawnCap < (d.block b).spawnUsed + ls.length then .trap .capacity none 0
    else
      let d1 := d.modBlock b (fun y => (ls.map (d.spawnRec b k (bitsOf t 0 32) live)).foldl (Block.addRec d.now) y)
      ((d1.modView x.agent (fun g => g.endLanes ls)).endRegionOf x.agent).afterDeath b k
  | _ => .trap .illegal none 0
def execBrs (w : BWord) (s : State) := s.runGang (.brs w) (brsEff w)

/-! Ending (R48, R131, R340). -/

/-- Copies that a group has issued and that are not complete. -/
def Device.copying (d : Device) (b k : Nat) : Bool := d.copies.any (fun c => c.blk == b && c.slot == k)

/-- `exit`: lanes end; the last lanes of a group wait for its copies and for reads of its registers, and a ridge thread for
the work of its context. -/
def exitEff (w : BWord) (x : Issue) (d : Device) : Eff :=
  match x.agent with
  | .group b k =>
    let ls := x.gangLanes.filter (fun l => !w.cond || x.cond w l)
    let g1 := (d.view x.agent).endLanes ls
    if g1.liveSlices.isEmpty && (d.copying b k || d.feeding b k) then .wait
    else ((d.putView x.agent g1).endRegionOf x.agent).afterDeath b k
  | a =>
    if w.cond && !x.cond w 0 then .ok d
    else
      match a with
      | .ridge b =>
        let k := d.block b
        if (d.crest k.core k.ridgeCtx).ops.isEmpty && !d.imageAway k.core k.ridgeCtx then .ok (d.threadExit a) else .wait
      | _ => .ok (d.threadExit a)
def execExit (w : BWord) (s : State) := s.runGang (.exit w) (exitEff w)

/-! Yield, region and traps. -/

/-- `yield` (R38, R341): the first gang to issue the group's k-th `yield` stops every gang until a swap makes the group active
again; with no other pending group on the core it is a no-op. -/
def yieldEff (x : Issue) (d : Device) : Eff :=
  let g := d.view x.agent
  let core := d.coreOf x.agent
  let first := x.slices.any (fun i => decide (g.yields ≤ (g.slice i).yieldCnt))
  let up := fun (g : Group) => g.modSlices x.slices (fun s => { s with yieldCnt := s.yieldCnt + 1 })
  if !first then .ok (d.modView x.agent up)
  else
    let d1 := d.modView x.agent (fun g => { up g with yields := g.yields + 1 })
    if (d.pending core).isEmpty then .ok d1
    else .ok (d1.modView x.agent (fun g =>
      g.modSlices g.liveSlices (fun s => if s.hold == .free then { s with hold := .yield } else s)))
def execYield (w : BWord) (s : State) := s.runGang (.yield w) yieldEff

/-- A gang issues `region`: each slice joins the instance of its count (R327). None at another packet than the instance's. -/
def Group.joinRegion (g : Group) (pc : Word) (i : Instr) : List Nat → Option Group
  | [] => some g
  | sl :: rest =>
    let k := (g.slice sl).regCnt
    let up := fun (g : Group) => g.modSlice sl (fun s => { s with regCnt := k + 1, hold := .region k })
    match g.regInsts.find? (fun x => x.k == k) with
    | none =>
      let inst : GrpInst := { k := k, word := i, pc := pc, idx := 0, issued := setBit 0 sl, lanes := 0, vals := [] }
      (up { g with regInsts := g.regInsts ++ [inst] }).joinRegion pc i rest
    | some x =>
      if x.pc != pc then none
      else
        (up { g with regInsts := g.regInsts.map (fun y => if y.k == k then { y with issued := setBit y.issued sl } else y) }).joinRegion
          pc i rest

/-- `region` (R327). -/
def regionEff (i : Instr) (x : Issue) (d : Device) : Eff :=
  match (d.view x.agent).joinRegion x.pc i x.slices with
  | none => .trap .illegal none 0
  | some g1 => .ok (d.putView x.agent ((settleRegions 64 g1).freeQueues))
def execRegion (w : BWord) (s : State) := s.runGang (.region w) (regionEff (.region w))

/-- `bkpt` (R343). -/
def execBkpt (w : BWord) (s : State) := s.runGang (.bkpt w) (fun _ _ => .trap .bkpt none w.code)
/-- `trapi`: in the conditional form when some lane passes (R343). -/
def trapiEff (w : BWord) (x : Issue) (d : Device) : Eff :=
  if !w.cond || x.gangLanes.any (x.cond w) then .trap .soft none w.code else .ok d
def execTrapi (w : BWord) (s : State) := s.runGang (.trapi w) (trapiEff w)

end Sys2Proof.Machine
end

