-- ==== Sys2Proof/Machine/Launch.lean ====
section
/-! DEFINITION. Launches: the packet (R405, R406), admission (R350 to R353), room and placement (R352 to R355, R360, R361),
and the start of replicated launches (R425, R426). -/

namespace Sys2Proof.Machine

/-! The launch packet. -/

/-- The packet that 128 bytes hold (R405). -/
def parsePacket (bs : List Byte) : Packet :=
  let n := fun (off len : Nat) => bytesNat ((bs.drop off).take len)
  let q := fun (off : Nat) => BitVec.ofNat 64 (n off 8)
  let b22 := BitVec.ofNat 8 (n 22 1)
  { codeBase := q 0
    entry := BitVec.ofNat 32 (n 8 4)
    accessEntry := BitVec.ofNat 32 (n 12 4)
    ridgeEntry := BitVec.ofNat 32 (n 16 4)
    groups := n 20 1
    regs8 := n 21 1
    csetCode := bitsOf b22 0 2
    cls := bitsOf b22 2 2
    promise := bitOf b22 4
    prio := (bitsOf b22 5 2).toNat
    ridgeBind := bitOf b22 7
    stash4k := n 24 2
    spawn := n 28 4
    grid := n 32 4
    params := q 40
    done := q 48
    depAddr := q 56
    depVal := q 64
    cwinBase := q 72
    cwinLen := n 80 4
    replicate := q 88
    gen := q 96
    dirtyZero := n 23 1 != 0 || n 26 2 != 0 || n 36 4 != 0 || n 84 4 != 0 || n 104 16 != 0 || n 120 8 != 0 }

/-- An entry that names no code. -/
def noEntry : Word := 0xFFFFFFFF
/-- Blocks of a cluster set (R405). -/
def Packet.setSize (p : Packet) : Nat := 2 ^ p.csetCode.toNat
def Packet.hasAccess (p : Packet) : Bool := p.accessEntry != noEntry
def Packet.concurrent (p : Packet) : Bool := p.cls == 0

/-- Every field lies within R405. -/
def Packet.fieldsOk (p : Packet) : Bool :=
  p.codeBase.toNat % 128 == 0 && (bitsOf p.codeBase 56 8).toNat == 0 && 1 ≤ p.groups && p.groups ≤ 16 && 1 ≤ p.regs8 &&
    p.regs8 ≤ 7 && p.csetCode != 3 && p.cls != 3 && (!p.ridgeBind || p.ridgeEntry != noEntry) && p.stash4k ≤ 192 &&
    1 ≤ p.grid && p.grid % p.setSize == 0 && p.done.toNat % 8 == 0 && !p.dirtyZero

/-! What a launch starts with. -/

/-- A context with the reset values of R396. -/
def Ctx.fresh (p : Packet) (die : Nat) (now : Nat) : Ctx :=
  { (default : Ctx) with
    packet := p, die := die, nextDie := die, arrival := now, state := .read, formto := 512, pdrain := 1048576,
    psave := 4194304, trapvec := Config.firmwareTrapvec, trapDefault := true, phase := 0 }

/-- What the firmware writes into a context before its launch's first agent issues (R396; assumption 56). -/
def Ctx.program (c : Ctx) (r : CtxRegs) : Ctx :=
  { c with spwin := r.spwin, splim := r.splim, formto := r.formto, tslice := r.tslice, pdrain := r.pdrain, psave := r.psave }

/-- A scalar thread at an entry packet (R12, R241). -/
def Thread.fresh (pc : Word) (param : DWord) : Thread :=
  { (default : Thread) with pc := pc, s := Fmap.set 0 [] 0 param }

/-- A named barrier in its first phase (R136). -/
def Bar.fresh : Bar := { phases := 0, arrived := [], gone := 0, issued := [], form := none, wanted := [] }

/-- A block on a core with nothing in it. -/
def Block.fresh (ctx idx core cset : Nat) : Block :=
  { (default : Block) with ctx := ctx, idx := idx, core := core, cset := cset, bars := List.replicate 24 Bar.fresh }

/-! Room (R352). -/

/-- Amounts of what blocks need of a core. -/
structure Room where
  groups : Nat
  kib : Nat
  stash : Nat
  queue : Nat
  access : Nat
  crest : Nat
  deriving DecidableEq, Repr, Inhabited

def Room.add (a b : Room) : Room :=
  { groups := a.groups + b.groups, kib := a.kib + b.kib, stash := a.stash + b.stash, queue := a.queue + b.queue,
    access := a.access + b.access, crest := a.crest + b.crest }
/-- What an empty core offers. -/
def Room.core : Room := { groups := 128, kib := 4096, stash := 768 * 1024, queue := 256, access := 4, crest := 2 }
/-- Stash is split from the L1 in steps of 128 KiB (R9, R218). -/
def Room.split (r : Room) : Nat := (r.stash + 131071) / 131072 * 131072
def Room.le (a b : Room) : Bool :=
  a.groups ≤ b.groups && a.kib ≤ b.kib && a.split ≤ b.stash && a.queue ≤ b.queue && a.access ≤ b.access && a.crest ≤ b.crest
/-- n times an amount. -/
def Room.times (n : Nat) (a : Room) : Room :=
  { groups := n * a.groups, kib := n * a.kib, stash := n * a.stash, queue := n * a.queue, access := n * a.access, crest := n * a.crest }

/-- What a block of the launch needs. -/
def Packet.need (p : Packet) : Room :=
  let g := p.groups + (if p.spawn == 0 then 0 else 1)
  { groups := g, kib := g * p.regs8 * 8, stash := p.stash4k * 4096, queue := if p.hasAccess then 16 * p.groups else 0,
    access := if p.hasAccess then 1 else 0, crest := if p.ridgeBind then 1 else 0 }

/-- The groups of a block whose room is taken: with spawn, the room of exited groups stays with the block (R360). -/
def Block.roomGroups (b : Block) (p : Packet) : Nat :=
  if b.ended then 0
  else if b.spawnCap == 0 then (b.groups.filter (fun g => !g.exited)).length
  else max (p.groups + 1) ((b.groups.filter (fun g => !g.exited)).length)

/-- What a block takes of its core: its stash until its whole cluster set has exited (R41, R218). -/
def Device.blockUse (d : Device) (i : Nat) : Room :=
  let b := d.block i
  let p := (d.ctx b.ctx).packet
  let g := b.roomGroups p
  let set := (d.sets[b.cset]?).getD default
  { groups := g, kib := g * p.regs8 * 8
    stash := if set.blocks.any (fun n => !(d.block n).ended) then b.stashBytes else 0
    queue := if p.hasAccess && !b.ended then 16 * p.groups else 0
    access := if p.hasAccess && !b.ended then 1 else 0
    crest := if p.ridgeBind && !b.ended then 1 else 0 }

/-- What the blocks of a core take. -/
def Device.coreUse (d : Device) (core : Nat) : Room :=
  ((List.range d.blocks.length).filter (fun b => (d.block b).core == core)).foldl (fun r b => r.add (d.blockUse b))
    ({ groups := 0, kib := 0, stash := 0, queue := 0, access := 0, crest := 0 } : Room)

/-- The bytes that the L1 of a core holds (R9, R218). -/
def Device.l1Bytes (d : Device) (core : Nat) : Nat := 2 ^ 20 - (d.core core).stash
/-- A placement on a core sets its split: the stash that its blocks take now, in steps of 128 KiB (R218). -/
def Device.setSplit (d : Device) (core : Nat) : Device := d.modCore core (fun k => { k with stash := (d.coreUse core).split })

/-- A core is fenced off, or under the test that may fence it (R442, R443). -/
def Device.coreOff (d : Device) (core : Nat) : Bool :=
  d.ham.fenced.contains (.core (core / 32) (core % 32)) || d.ham.testing.any (fun t => t.1 == .core (core / 32) (core % 32))

/-- A core has room for an amount. -/
def Device.hasRoom (d : Device) (core : Nat) (r : Room) : Bool := !d.coreOff core && ((d.coreUse core).add r).le Room.core

/-- Blocks of one shape that an empty core holds; more than 128 never fit. -/
def Room.perCore (r : Room) : Nat :=
  (List.range 129).foldl (fun m n => if (r.times n).le Room.core then n else m) 0

/-- Cluster sets of size c that an empty cluster of m cores holds, k blocks to a core. -/
def setsPerCluster (m k c : Nat) : Nat := if m < c then 0 else m * k / c

/-- Blocks of a shape that the empty device holds (R353). -/
def Device.gridRoom (d : Device) (p : Packet) : Nat :=
  let k := p.need.perCore
  ((List.range 32).map (fun cl =>
    let m := ((List.range 4).filter (fun i => !d.ham.fenced.contains (.core (cl / 8) (cl % 8 * 4 + i)))).length
    setsPerCluster m k p.setSize * p.setSize)).foldl (· + ·) 0

/-! Handing a packet to the distributor (R406, R350). -/

/-- Launches a die's distributor holds. -/
def Device.heldLaunches (d : Device) (die : Nat) : Nat :=
  (d.ctxs.filter (fun c => c.die == die &&
    (c.state == .read || c.state == .waiting || c.state == .queued || c.state == .placing))).length

/-- The location of the status word, when a translated page allows writing. -/
def Device.statusOf (d : Device) (c : Ctx) (blk : Option Nat) (die : Nat) (priv : Bool) (va : DWord) : Option Loc :=
  match d.decodeAddr c blk die priv .store (va + 120) with
  | .ok l => some l
  | .error _ => none

/-- The devices of the replication set other than this one, for a packet (R425). -/
def Device.othersOf (d : Device) (p : Packet) : List (BitVec 12) :=
  let base := d.ham.devNum.toNat / 64 * 64
  ((List.range 64).filter (fun i => bitOf p.replicate i && base + i != d.ham.devNum.toNat)).map (fun i => BitVec.ofNat 12 (base + i))

/-- The distributor holds a launch: its context has the launcher's page table, sees the tables as they stand, and holds what the
firmware writes. Replication carries the mode that admitted it (R390, R425). -/
def Device.hold (d : Device) (die root : Nat) (priv : Bool) (va : DWord) (bs : List Byte) (status : Option Loc)
    (origin : Option (BitVec 12)) (req : Option Req) : Device :=
  let p := parsePacket bs
  let c : Ctx :=
    { (Ctx.fresh p die d.now).program d.ham.regs with
      va := va, statusLoc := status, privLaunch := priv, root := root, tables := d.mem, origin := origin, requester := req }
  let d1 := { d with ctxs := d.ctxs ++ [c] }
  if origin.isSome then d1
  else
    (d.othersOf p).foldl (fun d n =>
      d.send (d1.ctxs.length - 1) false
        { OutMsg.empty n 11 with
            tag := BitVec.ofNat 20 (d1.ctxs.length - 1), data := va, size := 128, bytes := bs, op := if priv then 1 else 0 }) d1

/-! Admission. -/

/-- An address that must translate in the ordinary window: the cause when it does not (R351, R407). -/
def Device.wordCause (d : Device) (c : Ctx) (k : Acc) (va : DWord) : Option Cause :=
  if (bitsOf va 56 8).toNat != 0 || c.inScratch (bitsOf va 0 56).toNat then some .perm
  else
    match d.decodeAddr c none c.die c.privLaunch k va with
    | .ok _ => none
    | .error (.trap e) => some e
    | .error (.fault e) => some e

/-- The highest generation started in this device's 64-device block (R426). -/
def Device.genOf (d : Device) : DWord := Fmap.get 0 d.fab.gens (d.ham.devNum.toNat / 64)

/-- A replicated packet that breaks R426: its mask lacks the issuer, its generation is not new, or another launch of the
generation that this device holds has another grid. -/
def Device.replicaBad (d : Device) (c : Ctx) : Bool :=
  let p := c.packet
  p.replicate != 0 && (!bitOf p.replicate ((c.origin.getD d.ham.devNum).toNat % 64) || p.gen ≤ d.genOf ||
    d.ctxs.any (fun x => x.packet.replicate != 0 && x.packet.gen == p.gen && x.packet.grid != p.grid && x.state != .failed && x.state != .done))

/-- The records that an entry takes from an object's form summary: that of the closed span that holds it, or all (R434). -/
def recordsOf (rs : List FormRecord) (entry : Word) : List FormRecord :=
  match rs.find? (fun r => r.closed && r.first ≤ entry.toNat && entry.toNat ≤ r.last) with
  | some r => [r]
  | none => rs

/-- The form summaries refuse the promise that a launch asks for (R316, R434). -/
def Device.promiseRefused (d : Device) (p : Packet) : Bool :=
  p.promise && d.ham.summaries.any (fun o => o.1 == p.codeBase &&
    ([p.entry] ++ [p.accessEntry, p.ridgeEntry].filter (fun e => e != noEntry)).any (fun e =>
      (recordsOf o.2 e).any (fun r => r.unordered)))

/-- The first check that a launch fails, in the order of R406. -/
def Device.admissionCause (d : Device) (c : Ctx) : Option Cause :=
  let p := c.packet
  if !p.fieldsOk || d.replicaBad c then some .illegal
  else
    match if p.done == 0 then none else d.wordCause c .store p.done with
    | some e => some e
    | none =>
      let dep := if p.depAddr == 0 then none else if p.depAddr.toNat % 8 != 0 then some Cause.misalign else d.wordCause c .load p.depAddr
      match dep with
      | some e => some e
      | none =>
        if d.promiseRefused p then some .determ
        else if p.spawn != 0 && p.groups == 16 then some .capacity
        else if !p.need.le Room.core then some .capacity
        else if p.concurrent && d.gridRoom p < p.grid then some .capacity
        else none

/-- Where the dependency word lies: its locations, when it translates. -/
def Device.depLocs (d : Device) (c : Ctx) : Option (List Loc) :=
  match d.decodeRange c none c.die c.privLaunch .load c.packet.depAddr 8 with
  | .ok ls => some ls
  | .error _ => none

/-- A word meets a dependency: its bits 62 to 0 are at least those of the value (R351). -/
def Ctx.depHolds (c : Ctx) (x : DWord) : Bool := bitsOf c.packet.depVal 0 63 ≤ bitsOf x 0 63

/-- The dependency is met by a word of this device, or there is none (R351). -/
def Device.depMet (d : Device) (c : Ctx) : Bool :=
  c.packet.depAddr == 0 ||
    match d.depLocs c with
    | none => false
    | some ls => !ls.any isRemote && !d.held ls && c.depHolds (d.valueAt ls)

/-- The word lies on another device, and the distributor has no read of it under way. -/
def Device.depFar (d : Device) (c : Nat) : Bool :=
  (match d.depLocs (d.ctx c) with | some ls => ls.any isRemote | none => false) &&
    !d.fab.remotes.any (fun r => r.ctx == c && r.use == .dep)

/-- The distributor looks at the dependency word of a launch that waits: it takes its place in its queue, or the word is read from
another device (R351, R422). -/
def Device.lookDep (d : Device) (c : Nat) : Device :=
  let x := d.ctx c
  if x.state != .waiting then d
  else if d.depMet x then d.modCtx c (fun k => { k with state := .queued })
  else if d.depFar c then
    match d.depLocs x with
    | some ls => (remoteRuns ls 0).foldl (fun d q => d.ask { plainOp none c q.1 0 q.2.1 q.2.2.2 with use := .dep }) d
    | none => d
  else d

/-- Every device of the set has answered (R426). -/
def Device.allAnswered (d : Device) (c : Ctx) : Bool :=
  (d.othersOf c.packet).all (fun n => c.answers.any (fun a => a.1 == n)) && c.answers.any (fun a => a.1 == d.ham.devNum)

/-- The lowest-numbered device that failed, with its cause. -/
def Ctx.firstFailure (c : Ctx) : Option (BitVec 12 × BitVec 8) :=
  (c.answers.filter (fun a => a.2 != 0)).foldl (fun m a =>
    match m with | none => some a | some b => if a.1.toNat < b.1.toNat then some a else m) none

/-- The start flits of a generation that fails count for nothing. -/
def Device.dropStarts (d : Device) (gen : DWord) : Device := { d with fab := { d.fab with starts := d.fab.starts.filter (fun p => p.2 != gen) } }

/-- The issuing device reports once every device has answered (R426). When one has failed, none starts: word of it goes to every other device of
the set (DESIGN CHOICE, assumption 44). -/
def Device.concludeReplicas (d : Device) (c : Nat) : Device :=
  let x := d.ctx c
  if !d.allAnswered x then d
  else
    match x.firstFailure with
    | some (_, cause) =>
      ((d.othersOf x.packet).foldl (fun d n => d.send c false { OutMsg.empty n 11 with data := x.packet.gen, op := 2 })
        (d.failCtx c cause)).dropStarts x.packet.gen
    | none => d.report c 1

/-- This device answers a replicated launch: to the issuing device, or to itself (R426). -/
def Device.answerReplica (d : Device) (c : Nat) (cause : BitVec 8) : Device :=
  match (d.ctx c).origin with
  | some n =>
    d.send c false { OutMsg.empty n 11 with tag := BitVec.ofNat 20 c, data := zext cause }
  | none => (d.modCtx c (fun x => { x with answers := x.answers ++ [(d.ham.devNum, cause)] })).concludeReplicas c

/-- Admit a launch that the distributor has read, or fail it (R350, R405, R406). -/
def Device.admitCtx (d : Device) (c : Nat) : Device :=
  let x := d.ctx c
  match d.admissionCause x with
  | some e =>
    if x.packet.replicate == 0 then d.failCtx c e.code
    else if x.origin.isSome then
      ((d.stopCtx c).modCtx c (fun k => { k with state := .failed })).answerReplica c e.code
    else (d.modCtx c (fun k => { k with state := .failed })).answerReplica c e.code
  | none =>
    let d1 := d.modCtx c (fun k =>
      { k with state := if d.depMet x then .queued else .waiting, promise := x.packet.promise, constMem := d.mem })
    if x.packet.replicate == 0 then d1.report c 1 else d1.answerReplica c 0

/-- Contexts by number. -/
def Device.ctxIds (d : Device) : List Nat := List.range d.ctxs.length

/-- The head of a list of launches: the highest priority, then the earliest (R350). -/
def Device.headOf (d : Device) (cs : List Nat) : Option Nat :=
  cs.foldl (fun (m : Option Nat) c =>
    match m with | none => some c | some b => if (d.ctx b).packet.prio < (d.ctx c).packet.prio then some c else m) none

/-- The launch that a die's distributor admits next. -/
def Device.nextAdmission (d : Device) (die : Nat) : Option Nat :=
  d.headOf (d.ctxIds.filter (fun c => (d.ctx c).die == die && (d.ctx c).state == .read))

/-! Placement. -/

/-- A launch may have blocks placed: its dependency is met and no pre-emption stops it (R351, R379). -/
def Ctx.placeable (c : Ctx) : Bool := (c.state == .queued || c.state == .placing) && c.preempt.isNone

/-- The launch that a die's distributor serves (R350). -/
def Device.served (d : Device) (die : Nat) : Option Nat :=
  d.headOf (d.ctxIds.filter (fun c => (d.ctx c).die == die && (d.ctx c).placeable))

/-- The best of some cores: fewest resident groups, then the lowest number (R354). -/
def Device.leastLoaded (d : Device) (cores : List Nat) : Option Nat :=
  cores.foldl (fun (m : Option Nat) k =>
    match m with | none => some k | some b => if (d.residents k).length < (d.residents b).length then some k else m) none

/-- The cores of a die that a cluster set of c blocks goes to (R354). -/
def Device.coresFor (d : Device) (die c : Nat) (r : Room) : Option (List Nat) :=
  if c = 1 then
    (d.leastLoaded (((List.range 32).map (fun i => die * 32 + i)).filter (fun k => d.hasRoom k r))).map (fun k => [k])
  else
    (List.range 8).findSome? (fun cl =>
      let ok := ((List.range 4).map (fun i => die * 32 + cl * 4 + i)).filter (fun k => d.hasRoom k r)
      if ok.length < c then none
      else
        let pick := (List.range c).foldl (fun (acc : List Nat) _ =>
          match d.leastLoaded (ok.filter (fun k => !acc.contains k)) with | some k => acc ++ [k] | none => acc) []
        some ((ok.filter (fun k => pick.contains k))))

/-- The die that takes the next step of a launch's placement: in turn, skipping dies with no room (R354). -/
def Device.dieFor (d : Device) (c : Ctx) : Option (Nat × List Nat) :=
  (List.range 4).findSome? (fun i =>
    let die := (c.nextDie + i) % 4
    (d.coresFor die c.packet.setSize c.packet.need).map (fun ks => (die, ks)))

/-- The lowest Crest context of a core that no block holds (R40). -/
def Device.freeCrest (d : Device) (core : Nat) : Nat :=
  if ((((d.core core).crest[0]?).getD default).blk).isNone then 0 else 1

/-- A block of a launch as it is placed (R12, R89, R218, R241, R355). -/
def Packet.newBlock (p : Packet) (ctx idx core cset x : Nat) (priv : Bool) : Block :=
  let slices := List.replicate 64 (Slice.fresh p.entry 15)
  { Block.fresh ctx idx core cset with
    stashBytes := p.stash4k * 4096
    groups := (List.range p.groups).map (fun k => ({ Group.fresh k slices p.params with priv := priv } : Group))
    access := if p.hasAccess then some { Thread.fresh p.accessEntry p.params with priv := priv } else none
    ridge := if p.ridgeBind then some { Thread.fresh p.ridgeEntry p.params with priv := priv } else none
    ridgeCtx := x
    spawnCap := p.spawn }

/-- Place a block on a core: its groups enter the active positions or the pending set (R355). -/
def Device.placeBlock (d : Device) (c core cset : Nat) : Device :=
  let x := d.ctx c
  let n := d.freeCrest core
  let b := d.blocks.length
  let blk := x.packet.newBlock c x.placed core cset n x.privLaunch
  let blk := { blk with groups := blk.groups.map (fun g => ({ g with since := d.now } : Group)) }
  let d1 := { d with blocks := d.blocks ++ [blk] }
  let d2 := if x.packet.ridgeBind then
      d1.modCore core (fun k => { k with crest := listModify (fun _ => { Crest.reset with blk := some b }) k.crest n })
    else d1
  ((d2.modCtx c (fun k => { k with placed := k.placed + 1 })).setSplit core).fillPositions core

/-- Place the next block or cluster set of a launch; none without room. -/
def Device.placeSet (d : Device) (c : Nat) : Option Device :=
  let x := d.ctx c
  match d.dieFor x with
  | none => none
  | some (die, ks) =>
    let set := d.sets.length
    let ids := (List.range ks.length).map (fun i => d.blocks.length + i)
    let s : ClusterSet := { ctx := c, blocks := ids, bars := List.replicate 8 Bar.fresh }
    let d1 := { d with sets := d.sets ++ [s] }
    some ((ks.foldl (fun d k => d.placeBlock c k set) d1).modCtx c (fun k => { k with nextDie := (die + 1) % 4 }))

/-- Place every block of a concurrent launch at once (R353). -/
def Device.placeAll (c : Nat) : Nat → Device → Option Device
  | 0, d => some d
  | n + 1, d => match d.placeSet c with | none => none | some d1 => Device.placeAll c n d1

/-- Every device of the set has sent its start flit (R425). -/
def Device.hasStarted (d : Device) (c : Nat) : Bool := (d.replicas c).all (fun n => d.fab.starts.contains (n, (d.ctx c).packet.gen))

/-- The generation of a replicated launch has started here (R426). -/
def Device.noteStart (d : Device) (c : Nat) : Device :=
  let x := d.ctx c
  if x.packet.replicate == 0 || x.placed == 0 || !d.hasStarted c || x.packet.gen ≤ d.genOf then d
  else { d with fab := { d.fab with gens := Fmap.set 0 d.fab.gens (d.ham.devNum.toNat / 64) x.packet.gen } }

/-- After a placement: where the launch stands, and the start flits of a replicated one once its first block is placed
(R425). -/
def Device.afterPlacement (d : Device) (c : Nat) (first : Bool) : Device :=
  let x := d.ctx c
  let d1 := d.modCtx c (fun k => { k with state := if x.packet.grid ≤ x.placed then .running else .placing })
  let d2 := if first then
      (d.replicas c).foldl (fun d n => d.send c false { OutMsg.empty n 7 with data := x.packet.gen }) d1
    else d1
  d2.noteStart c

/-- The device with the next step of a launch's placement taken; none without room (R353). -/
def Device.nextStep (d : Device) (c : Nat) : Option Device :=
  let p := (d.ctx c).packet
  if p.concurrent then Device.placeAll c (p.grid / p.setSize) d else d.placeSet c

/-- BLOCK_PLACEMENT: the head launch of its die's distributor has its next step placed (R353, R354). -/
def Device.placeNext (d : Device) (c : Nat) : Device :=
  let x := d.ctx c
  if d.served x.die != some c then d
  else
    match d.nextStep c with
    | none => d
    | some d1 => d1.afterPlacement c (x.placed == 0)

/-- The agents of a launch may issue as far as placement and start flits go (R353, R425). -/
def Device.launched (d : Device) (c : Nat) : Bool :=
  let x := d.ctx c
  (x.state == .running || (x.state == .placing && !x.packet.concurrent)) && (x.packet.replicate == 0 || d.hasStarted c)

/-! Spawned groups (R46, R360). -/

/-- A group built from records: one a lane; lanes without one are dead from the start. -/
def Former.group (f : Former) (slot now : Nat) (params : DWord) (priv : Bool) : Group :=
  let n := f.recs.length
  let live := fun (i : Nat) => BitVec.ofNat 4 (2 ^ (min 4 (n - 4 * i)) - 1)
  let slices := (List.range 64).map (fun i => ({ Slice.fresh f.target (live i) with fmt := f.fmt } : Slice))
  let words := (f.recs.mapIdx (fun l r => (r.regs.mapIdx (fun k x => (k * 256 + l, x))))).flatten
  { Group.fresh slot slices params with
    spawned := true
    v := Fmap.setAll 0 [] words
    tids := Fmap.setAll 0 [] (f.recs.mapIdx (fun l r => (l, r.tid)))
    priv := priv
    since := now }

/-- The slot a built group takes: that of an exited group, or a new one while fewer than 16 exist (R27, R46). -/
def Block.freeSlot (b : Block) : Option Nat :=
  match listFind (fun (g : Group) => g.exited) b.groups 0 with
  | some k => some k
  | none => if b.groups.length < 16 then some b.groups.length else none

/-- A built group may be placed: room of one group of the block's reserve is free (R360). -/
def Block.spawnRoom (b : Block) (launchGroups : Nat) : Bool :=
  decide ((b.groups.filter (fun g => !g.exited)).length < launchGroups + 1)

/-- YELM_FORMER_PLACE (R46, R360). The spawn memory of its records comes free with the placement (DESIGN CHOICE, assumption 72: R45
does not say when it does). -/
def Device.placeFormer (d : Device) (b : Nat) : Device :=
  let x := d.block b
  let c := d.ctx x.ctx
  match x.built, x.freeSlot with
  | f :: rest, some k =>
    if x.ended || !x.spawnRoom c.packet.groups || c.preempt.any (fun p => decide (2 ≤ p.level)) then d
    else
      let g := f.group k d.now c.packet.params c.privLaunch
      (d.modBlock b (fun y =>
        { y with built := rest, spawnUsed := y.spawnUsed - f.recs.length
                 groups := if k < y.groups.length then listSet y.groups k g else y.groups ++ [g] })).fillPositions x.core
  | _, _ => d

/-! Events. -/

def execAdmission (die : Nat) (s : State) :=
  s.event (fun d => match d.nextAdmission die with | some c => d.admitCtx c | none => d)
def execDependencyMet (ctx : Nat) (s : State) := s.event (fun d => d.lookDep ctx)
def execBlockPlacement (ctx : Nat) (s : State) := s.event (fun d => d.placeNext ctx)
def execYelmFormerPlace (blk : Nat) (s : State) := s.event (fun d => d.placeFormer blk)

end Sys2Proof.Machine
end

