-- ==== Sys2Proof/Machine/Fetch.lean ====
section
/-! DEFINITION. Fetching a packet and reading its three words (R52, R53, R71, R73, R74), and the gang of a slice (R24). -/

namespace Sys2Proof.Machine

/-- An instruction of a packet: the index of its word, its chain, and the guard that governs it. -/
structure Item where
  idx : Nat
  /-- none for a word that is no instruction -/
  instr : Option Instr
  chain : Nat
  guard : Option Guard
  /-- an `ext` that the word before it takes -/
  taken : Bool
  deriving Repr, Inhabited

/-- The code base an agent's gang runs from (R364, R380, R405). -/
def Device.codeBase (d : Device) (a : Agent) (slices : List Nat) : DWord :=
  let c := d.ctx (d.ctxOf a)
  let g := d.view a
  match a with
  | .handler _ => d.ham.handlerBase
  | .group _ _ => if g.inHandler && slices.any (fun s => bitOf g.handler s) then g.vec else c.packet.codeBase
  | _ => if g.inHandler then g.vec else c.packet.codeBase

/-- The address of a packet (R52). -/
def packetAddr (base : DWord) (pc : Word) : DWord := base + zext pc * 12

/-- The three words that 12 bytes make. -/
def wordsOf (bs : List Byte) : List Word := (List.range 3).map (fun i => BitVec.ofNat 32 (bytesNat ((bs.drop (4 * i)).take 4)))

/-- The three words of a packet (R52), wherever it lies (R422), or why its fetch fails (R333). -/
def Device.fetchPacket (d : Device) (a : Agent) (slices : List Nat) (pc : Word) : Except Eff (List Word) :=
  let va := packetAddr (d.codeBase a slices) pc
  match d.reach a (d.view a).priv .fetch va 12 with
  | .error e => .error (e.eff none va)
  | .ok ls =>
    if d.held ls then .error .wait
    else if ls.any isRemote then (d.fetchOr a (if a.isGroup then slices.head? else none) ls).map wordsOf
    else if ls.any d.lostByte then .error (.trapOn (fun b => b.meetLost (b.ctxOf a) ls) .ecc)
    else .ok (wordsOf (ls.map d.byteAt))

/-- The chain each word of a packet lies in (R53). -/
def chainIds (c0 c1 : Bool) : Nat → Nat
  | 0 => 0
  | 1 => if c0 then 0 else 1
  | _ => (if c0 then 0 else 1) + (if c1 then 0 else 1)

/-- Read the words of a packet into instructions (R71, R74). -/
def readItems (ws : List Word) : List Item :=
  let w := fun i => (ws[i]?).getD 0
  let ch := chainIds (chainOf (w 0)) (chainOf (w 1))
  let item := fun (i : Nat) (nxt : Option Word) =>
    { idx := i, instr := match decode (w i) nxt with | .ok x => some x | .error _ => none, chain := ch i, guard := none,
      taken := false : Item }
  let extOf := fun (i : Nat) =>
    ({ idx := i, instr := some (.ext (chainOf (w i)) (bitsOf (w i) 0 24)), chain := ch i, guard := none, taken := true } : Item)
  let uses := fun (i : Nat) => (extAfter (w i) (some (w (i + 1)))).isSome
  if uses 0 then [item 0 (some (w 1)), extOf 1, item 2 none]
  else if uses 1 then [item 0 (some (w 1)), item 1 (some (w 2)), extOf 2]
  else [item 0 (some (w 1)), item 1 (some (w 2)), item 2 none]

/-- The words that a guard governs: the next `count` of its chain, or all of them; an `ext` goes with its instruction. -/
def governed (w : GWord) (chain : Nat) (rest : List Item) : List Item :=
  let ws := rest.filter (fun r => r.chain == chain && !r.taken)
  if w.count == 0 then ws else ws.take w.count.toNat

/-- A guard keeps R73: its chain holds the words it counts, and none of them is a guard or a B word. -/
def guardFits (w : GWord) (chain : Nat) (rest : List Item) : Bool :=
  let ws := governed w chain rest
  w.count.toNat ≤ ws.length &&
    ws.all (fun r => match r.instr with | some (.guard _) => false | some i => pipeOf i != .b | none => true)

/-- Give each word its guard (R73); false at a guard that breaks R73. -/
def placeGuards : Option (Guard × Nat) → List Item → List (Item × Bool)
  | _, [] => []
  | cur, it :: rest =>
    let cur := match cur with | some (g, ch) => if ch == it.chain then some (g, ch) else none | none => none
    match it.instr with
    | some (.guard w) =>
      let g : Guard := { p := w.p, neg := w.neg, left := if w.count == 0 then none else some w.count.toNat }
      (it, guardFits w it.chain rest) :: placeGuards (some (g, it.chain)) rest
    | _ =>
      if it.taken then ({ it with guard := cur.map Prod.fst }, true) :: placeGuards cur rest
      else
        match cur with
        | none => (it, true) :: placeGuards none rest
        | some (g, ch) =>
          let nxt := match g.left with
            | none => some (g, ch)
            | some 1 => none
            | some n => some ({ g with left := some (n - 1) }, ch)
          ({ it with guard := some g }, true) :: placeGuards nxt rest

/-! Gangs. -/

/-- A `yield` has stopped every gang of the group until it is active again (R341). -/
def Group.yielding (g : Group) : Bool := g.slices.any (fun s => s.hold == .yield)

/-- A slice may issue: it lives, no word holds it or its group, and a trap of its group does not (R24, R341, R366). -/
def Group.slicesReady (g : Group) (i : Nat) : Bool :=
  let s := g.slice i
  s.live != 0 && s.hold == .free && !g.yielding && (!g.inHandler || bitOf g.handler i)

/-- The gang of a slice: itself when parted, else the ready slices of its octet that are not parted and at its packet, with the
same words of it begun (R24). -/
def Group.gangOf (g : Group) (i : Nat) : List Nat :=
  let s := g.slice i
  if s.parted then [i]
  else (List.range 8).filterMap (fun j =>
    let n := i / 8 * 8 + j
    let t := g.slice n
    if n < g.slices.length && g.slicesReady n && !t.parted && t.pc == s.pc && g.aheadOf n == g.aheadOf i then some n else none)

/-- The issue of a word of a packet. -/
def Issue.at (x : Issue) (it : Item) (rd : Device) : Issue :=
  { x with word := it.idx, guard := it.guard, extOk := it.taken, rd := rd }

/-- A packet about to issue from a gang. -/
def Device.issueOf (d : Device) (a : Agent) (slices : List Nat) : Issue :=
  { agent := a, slices := slices, pc := ((d.view a).slice (slices.head?.getD 0)).pc, word := 0, guard := none, extOk := false,
    base := d, rd := d, moved := false, status := .run }

end Sys2Proof.Machine
end

