-- ==== Sys2Proof/Machine/Preempt.lean ====
section
/-! DEFINITION. Launch completion (R407) and pre-emption: drain, save, reset and restore (R362, R377 to R384). -/

namespace Sys2Proof.Machine

/-! Completion. -/

/-- Blocks of a context that have not ended. -/
def Device.liveBlocks (d : Device) (c : Nat) : List Nat :=
  (List.range d.blocks.length).filter (fun b => (d.block b).ctx == c && !(d.block b).ended)

/-- Blocks of a context whose cluster set has not ended: the stash of an ended one stays until the set has (R41, R217). -/
def Device.keptBlocks (d : Device) (c : Nat) : List Nat :=
  (List.range d.blocks.length).filter (fun b => (d.block b).ctx == c &&
    (((d.sets[(d.block b).cset]?).getD default).blocks).any (fun n => !(d.block n).ended))

/-- A message that must be performed before its launch is complete, or saved: one that writes, or whose answer a register awaits; one
that failed is awaited no more (R293, R407, R423). -/
def RemoteOp.binds (r : RemoteOp) : Bool :=
  !r.failed && match r.use with | .done | .fill _ | .copy _ _ | .mapBit _ _ _ | .image _ _ _ | .unit | .bring _ _ _ _ => true | _ => false

/-- Work that a context's agents or engines have issued and that is not complete. -/
def Device.workLeft (d : Device) (c : Nat) : Bool :=
  d.fills.any (fun f => d.ofCtx c f.agent) || d.qfills.any (fun f => (d.block f.blk).ctx == c) ||
    d.copies.any (fun x => (d.block x.blk).ctx == c) || d.prefetches.any (fun q => (d.block q.blk).ctx == c) || d.fab.remotes.any (fun r => r.ctx == c && r.binds)

/-- Every block has been placed and has ended, the final flush has been applied, and nothing issued is left (R407). -/
def Device.finished (d : Device) (c : Nat) : Bool :=
  let x := d.ctx c
  x.state == .running && (d.liveBlocks c).isEmpty && x.staged.isEmpty && !d.workLeft c

/-- The increment of a counter, with bit 63 when the promise was broken (R318, R407). -/
def countUp (broken : Bool) (v : DWord) : DWord := (v + 1) ||| (if broken then 0x8000000000000000 else 0)

/-- The launch is done; a drain is reported (R379). -/
def Device.doneCtx (d : Device) (c : Nat) : Device :=
  let d1 := d.modCtx c (fun x => { x with state := .done, preempt := none, doneFault := none })
  match (d.ctx c).preempt with
  | some p => (d1.modCtx c (fun x => { x with state := .drained })).endPreempt c 1 p
  | none => d1

/-- Increment the completion counter at its point of performance (R407): on another device by an add whose second operand says that bit
63 is to be set with it (R318; DESIGN CHOICE, assumption 51). -/
def Device.bumpDone (d : Device) (c : Nat) (ls : List Loc) : Device :=
  let x := d.ctx c
  match ls with
  | .remote n off :: _ =>
    let op := { plainOp none c n 4 off 8 with use := .firm }
    d.request op { op.msg n with data := 1, aux := if x.broken then 1 else 0 }
  | _ => d.storeValue ls (countUp x.broken (d.valueAt ls))

/-- LAUNCH_COMPLETE (R407): a counter whose translation fails is a translation fault of the launch. -/
def Device.completeCtx (d : Device) (c : Nat) : Device :=
  let x := d.ctx c
  if !d.finished c || x.doneFault.isSome then d
  else if x.packet.done == 0 then d.doneCtx c
  else
    match d.decodeRange x none x.die x.privLaunch .store x.packet.done 8 with
    | .error (.trap e) => d.modCtx c (fun k => { k with doneFault := some e })
    | .error (.fault e) => d.modCtx c (fun k => { k with doneFault := some e })
    | .ok ls => if d.held ls then d else (d.bumpDone c ls).doneCtx c
def execLaunchComplete (ctx : Nat) (s : State) := s.event (fun d => d.completeCtx ctx)

/-! Level 2: save. -/

/-- The save area a context's firmware allots when no request named one. -/
def firmwareArea (c : Nat) : Nat := Config.saveArea c % 2 ^ 26 * 4096

/-! The save area (R381). -/

/-- An image of the save area: of a block, a ridge thread, a Crest context, or a walker slot. -/
inductive ImageOf where
  | block (b : Nat)
  | ridge (b : Nat)
  | crest (b : Nat)
  | walker (b n : Nat)
  deriving DecidableEq, Repr, Inhabited

/-- Bytes of an image (R381); a core image takes the most that R381 lets it take (DESIGN CHOICE, assumption 73). -/
def Packet.imageSize (p : Packet) : ImageOf → Nat
  | .block _ =>
    let gs := p.groups + (if p.spawn == 0 then 0 else 1)
    4096 + gs * (1024 * (p.regs8 * 8) + 4096) + (if p.hasAccess then 16384 * p.groups else 0) + p.stash4k * 4096
  | .ridge _ => 1024
  | .crest _ => 370944
  | .walker _ _ => 64

/-- Images one after another, each with its offset and its size. -/
def Packet.imagePlaces (p : Packet) : Nat → List ImageOf → List (ImageOf × Nat × Nat)
  | _, [] => []
  | off, i :: rest => (i, off, p.imageSize i) :: p.imagePlaces (off + p.imageSize i) rest

/-- The images of a context, in the order of the directory. -/
def Device.images (d : Device) (c : Nat) : List (ImageOf × Nat × Nat) :=
  let live := d.liveBlocks c
  let ridges := live.filter (fun b => (d.block b).ridge.isSome)
  (d.ctx c).packet.imagePlaces 4096 ((d.keptBlocks c).map .block ++ ridges.map .ridge ++ ridges.map .crest ++
    live.flatMap (fun b => (List.range 4).filterMap (fun n =>
      if (d.wslot (d.block b).core n).holder == some b then some (.walker b n) else none)))

/-- Write bytes of a save area. -/
def Device.writeArea (d : Device) (at' : Nat) (bs : List Byte) : Device := d.firmStore (bs.mapIdx (fun i x => (Loc.mem (at' + i), x)))

/-- The directory: as many entries as bytes 64 to 4095 hold. -/
def Device.writeDirectory (d : Device) (c area : Nat) : Device :=
  d.writeArea (area + 64) (((d.images c).take 252).flatMap (fun i => bytesOf 8 (BitVec.ofNat 64 i.2.1) ++ bytesOf 8 (BitVec.ofNat 64 i.2.2)))

/-- The four areas of R129 as a Crest image: the control image, the list image of 64 rows, the bank image, the operand image. -/
def Crest.saveImage (k : Crest) : List Byte :=
  let x := { k with frozen := true }
  let ls := if k.mode == 2 then (k.listImage 64).flatMap word32 else []
  x.control ++ ls ++ List.replicate (8192 - ls.length) 0 ++ x.bankImage ++ x.operandImage

/-- The bytes of an image. A core image ends with its completion word, which reads 1 (DESIGN CHOICE, assumption 73). -/
def Device.imageBytes (d : Device) (at' size : Nat) : ImageOf → List Byte
  | .block _ => (List.range (size - 8)).map (fun i => Config.imageByte d.now (at' + i)) ++ bytesOf 8 1
  | .ridge _ => (List.range size).map (fun i => Config.imageByte d.now (at' + i))
  | .crest b => (d.crest (d.block b).core (d.block b).ridgeCtx).saveImage
  | .walker b n => d.slotImage (d.wslot (d.block b).core n)

/-- Write the images of a context that meet a test. -/
def Device.writeImages (d : Device) (c area : Nat) (q : ImageOf → Bool) : Device :=
  ((d.images c).filter (fun i => q i.1)).foldl (fun d i => d.writeArea (area + i.2.1) (d.imageBytes (area + i.2.1) i.2.2 i.1)) d
/-- A core image: of a block of the core. -/
def Device.coreImage (d : Device) (core : Nat) : ImageOf → Bool
  | .block b => (d.block b).core == core
  | _ => false
/-- What the cluster trap handler saves. -/
def handlerImage : ImageOf → Bool
  | .block _ => false
  | _ => true

/-- Level 2 begins (R377, R380): its agents issue no more, its faults are abandoned, `idle` ends, and each of its cores has
an image to write; the save waits as well for what its ended blocks have sent to other devices (R293). -/
def Device.beginSave (d : Device) (c : Nat) (p : Preempt) : Device :=
  let live := d.liveBlocks c
  let sent := d.fab.remotes.filterMap (fun r => if r.ctx == c && r.binds then r.agent.bind (fun a => a.blk?.map (fun b => (d.block b).core)) else none)
  let cores := dedup ((d.keptBlocks c).map (fun b => (d.block b).core) ++ sent)
  let area := p.save.getD (firmwareArea c)
  let gone := d.faults.any (fun f => d.ofCtx c f.agent)
  let d1 := { d with faults := d.faults.filter (fun f => !d.ofCtx c f.agent) }
  let d2 := live.foldl (fun d b => d.modBlock b (fun x =>
    { x with groups := x.groups.map (fun g => ({ g with slices := g.slices.map (fun s =>
        { s with hold := if s.hold == .yield then .free else s.hold.awake }) } : Group)) })) d1
  (d2.writeDirectory c area).modCtx c (fun x =>
    { x with preempt := some { p with level := 2, levelStart := d.now, save := some area,
                                      unresolved := p.unresolved || gone, cores := cores } })

/-- Level 1 (R379). -/
def Device.beginDrain (d : Device) (c : Nat) (p : Preempt) : Device := d.modCtx c (fun x => { x with preempt := some { p with level := 1 } })

/-- A saved block's groups are in no active position, and its mappings have been written back (R246, R380). -/
def Block.forImage (b : Block) : Block :=
  { b with groups := b.groups.map (fun g => ({ g with pos := none, stepping := none } : Group))
           maps := b.maps.map (fun m => { m with filled := [], dirty := [] }) }

/-- What is saved of a context. -/
def Device.snapshot (d : Device) (c area : Nat) : Saved :=
  let live := d.liveBlocks c
  { area := area, ctx := c
    blocks := (d.keptBlocks c).map (fun b => (b, (d.block b).forImage))
    crests := live.filterMap (fun b =>
      let x := d.block b
      if x.ridge.isSome then some (b, d.crest x.core x.ridgeCtx) else none)
    walkers := live.flatMap (fun b =>
      (List.range 4).filterMap (fun n =>
        let s := d.wslot (d.block b).core n
        if s.holder == some b then some (b, n, s) else none))
    drains := (d.ctx c).drains }

/-- Step 2 of the save: update-only copies of the context's cores are combined, and its eave buffers forwarded (R307, R312, R380). -/
def Device.gather (d : Device) (c : Nat) : Device :=
  let cores := (d.blocks.filter (fun b => b.ctx == c)).map Block.core
  ({ d with ulines := d.ulines.filter (fun u => !u.parts.any (fun p => cores.contains p.1)) } : Device).modCtx c (fun x =>
    { x with staged := x.staged.map (fun s => { s with buffered := false }) })

/-- The save is complete: the context leaves the device, and the report says so (R380, R382). Its waiting `monwait`
words are not performed, and issue again (R320); its waiting `drain` words leave the open phase until they do (R322). -/
def Device.finishSave (d : Device) (c : Nat) : Device :=
  match (d.ctx c).preempt with
  | none => d
  | some p =>
    let d := (d.monitors.filter (fun m => d.ofCtx c m.agent)).foldl Device.unwait d
    let s := d.snapshot c (p.save.getD (firmwareArea c))
    let x := d.ctx c
    let cores := dedup (s.blocks.map (fun q => q.2.core))
    let d1 := (d.stopCtx c).modCtx c (fun k =>
      { k with state := .saved, preempt := none, staged := x.staged, streams := x.streams, drains := [] })
    let d2 := { d1 with saved := d1.saved.filter (fun q => q.area != s.area) ++ [s] }
    (cores.foldl Device.fillPositions d2).endPreempt c 2 { p with save := some s.area }

/-- Nothing that a context's agents on a core have issued, or that the context has sent to other devices, is still to complete (R293,
R380, step 2). -/
def Device.imageReady (d : Device) (c core : Nat) : Bool :=
  let here := fun (b : Nat) => (d.block b).ctx == c && (d.block b).core == core
  let mine := fun (a : Agent) => match a.blk? with | some b => here b | none => false
  !d.fills.any (fun f => mine f.agent) && !d.qfills.any (fun f => here f.blk) && !d.copies.any (fun x => here x.blk) &&
    !d.fab.remotes.any (fun r => r.ctx == c && r.binds)

/-- The cluster trap handlers of a context's clusters: the firmware's program where there is one, else the model's own,
which writes the images of ridge threads, Crest contexts and walker slots in one step (R380, step 4). -/
def Device.startHandlers (d : Device) (c : Nat) : Device :=
  if d.ham.handlerBase == 0 then
    (match (d.ctx c).preempt with | some p => d.writeImages c (p.save.getD (firmwareArea c)) handlerImage | none => d).finishSave c
  else
    let clus := dedup ((d.liveBlocks c).map (fun b => (d.block b).core / 4))
    if clus.isEmpty then d.finishSave c
    else
      let t : Thread := { Thread.fresh 0 0 with inHandler := true, priv := true }
      { d with handlers := d.handlers ++ clus.map (fun k => (k, c, t)) }

/-- CORE_IMAGE_DONE (R380): the core's image is written, its completion word last. -/
def Device.imageDone (d : Device) (c core : Nat) : Device :=
  match (d.ctx c).preempt with
  | none => d
  | some p =>
    if p.level != 2 || !p.cores.contains core || !d.imageReady c core then d
    else
      let left := p.cores.filter (fun k => k != core)
      let d0 := (d.gather c).writeImages c (p.save.getD (firmwareArea c)) (d.coreImage core)
      let d1 := d0.modCtx c (fun x => { x with preempt := some { p with cores := left } })
      if left.isEmpty then d1.startHandlers c else d1
def execCoreImageDone (ctx core : Nat) (s : State) := s.event (fun d => d.imageDone ctx core)

/-- Level 2 begins; with no block resident there is no image to wait for. -/
def Device.save (d : Device) (c : Nat) (p : Preempt) : Device :=
  let d1 := d.beginSave c p
  if ((d1.ctx c).preempt.map Preempt.cores).getD [] == [] then (d1.gather c).finishSave c else d1

/-! The ways pre-emption begins and goes on (R362, R378). -/

/-- The launch has agents, or blocks to place, that pre-emption can take. -/
def Ctx.preemptible (c : Ctx) : Bool :=
  (c.state == .running || c.state == .placing || c.state == .queued || c.state == .waiting) && c.preempt.isNone

/-- Another context has a launch waiting for room: the one its die serves, which cannot be placed further (R362). -/
def Device.roomWanted (d : Device) (c : Nat) : Bool :=
  d.ctxIds.any (fun k => k != c && d.served (d.ctx k).die == some k && (d.nextStep k).isNone)

/-- SLICE_EXPIRY (R362, R379). -/
def Device.sliceDue (d : Device) (c : Nat) : Bool :=
  let x := d.ctx c
  x.preemptible && x.tslice != 0 && x.tslice ≤ x.slice && !(d.liveBlocks c).isEmpty && d.roomWanted c
def execSliceExpiry (ctx : Nat) (s : State) :=
  s.event (fun d => if d.sliceDue ctx then d.beginDrain ctx (d.newPreempt ctx 1) else d)

/-- PDRAIN_EXPIRY (R379). -/
def Device.drainDue (d : Device) (c : Nat) : Bool :=
  let x := d.ctx c
  match x.preempt with
  | some p => p.level == 1 && (x.state == .running || x.state == .placing || x.state == .queued || x.state == .waiting) &&
      decide (p.drainLimit ≤ d.now - p.levelStart)
  | none => false
def execPdrainExpiry (ctx : Nat) (s : State) :=
  s.event (fun d =>
    match (d.ctx ctx).preempt with
    | some p => if d.drainDue ctx then d.save ctx { p with pdrainMissed := true } else d
    | none => d)

/-- PSAVE_EXPIRY (R380, R383). -/
def Device.saveDue (d : Device) (c : Nat) : Bool :=
  let x := d.ctx c
  match x.preempt with
  | some p => p.level == 2 && (x.state == .running || x.state == .placing) && decide (p.saveLimit < d.now - p.levelStart)
  | none => false
def execPsaveExpiry (ctx : Nat) (s : State) :=
  s.event (fun d =>
    match (d.ctx ctx).preempt with
    | some p => if d.saveDue ctx then d.resetCtx ctx Cause.deadline.code { p with psaveMissed := true } else d
    | none => d)

/-! Restore (R384). -/

/-- Which points of a saved slot have been handed out, as the visited map says; a map on another device as it stood when the slot was
saved (R213; DESIGN CHOICE, assumption 70). -/
def Device.savedMap (d : Device) (b : Nat) (s : WSlot) (i : Nat) : Bool :=
  let ls := d.mapLocs b s.map s.count
  if ls.any isRemote then ((s.points[i]?).map WPoint.handed).getD false else mapBits (ls.map d.byteAt) i

/-- A block returns to a core: its place and its agents' units. Its Crest context is thawed (R129). -/
def Device.restoreBlock (d : Device) (s : Saved) (b : Nat) (x : Block) (core : Nat) : Device :=
  let n := d.freeCrest core
  let blk := { x with core := core, ridgeCtx := if x.ridge.isSome then n else x.ridgeCtx
                      groups := x.groups.map (fun g => ({ g with since := d.now } : Group)) }
  let d1 := d.modBlock b (fun _ => blk)
  let d2 := match s.crests.find? (fun q => q.1 == b) with
    | some (_, k) => d1.modCore core (fun c => { c with crest := listModify (fun _ => { k with frozen := false, freezing := false, blk := some b }) c.crest n })
    | none => d1
  let d3 := (s.walkers.filter (fun q => q.1 == b)).foldl (fun d q =>
    ((d.restoreSet core q.2.1 b (d.slotImage q.2.2) (d.savedMap b q.2.2)).modWslot core q.2.1 (fun w =>
      { w with waiting := q.2.2.waiting.map (fun r => ({ r with examined := false } : WkReq)) })).serveSlot core q.2.1) d2
  (d3.setSplit core).fillPositions core

/-- The room a saved block needs, that of an ended one for its stash alone, and its walker slots' places. -/
def Device.roomForSaved (d : Device) (s : Saved) (b : Nat) (x : Block) (core : Nat) : Bool :=
  let all := (d.ctx s.ctx).packet.need
  d.hasRoom core (if x.ended then { groups := 0, kib := 0, stash := all.stash, queue := 0, access := 0, crest := 0 } else all) &&
    (s.walkers.filter (fun q => q.1 == b)).all (fun q => (d.wslot core q.2.1).holder.isNone)

/-- The cluster whose cores, at the places the blocks had in theirs, take a whole cluster set. -/
def Device.clusterForSaved (d : Device) (s : Saved) (bs : List (Nat × Block)) : Option Nat :=
  (List.range 32).find? (fun cl => bs.all (fun q => d.roomForSaved s q.1 q.2 (4 * cl + q.2.core % 4)))

/-- Restore the cluster sets of a saved context one after another; none without room. -/
def Device.restoreSets (s : Saved) : List Nat → Device → Option Device
  | [], d => some d
  | k :: more, d =>
    let bs := s.blocks.filter (fun q => q.2.cset == k)
    match d.clusterForSaved s bs with
    | none => none
    | some cl => Device.restoreSets s more (bs.foldl (fun d q => d.restoreBlock s q.1 q.2 (4 * cl + q.2.core % 4)) d)

/-- Place a saved context again; none while there is no room (R384). -/
def Device.restoreSaved (d : Device) (s : Saved) : Option Device :=
  match Device.restoreSets s (dedup (s.blocks.map (fun q => q.2.cset))) d with
  | none => none
  | some d1 =>
    let x := d.ctx s.ctx
    some (({ d1 with saved := d1.saved.filter (fun q => q.area != s.area) }).modCtx s.ctx (fun k =>
      { k with slice := 0, preempt := none, drains := k.drains ++ s.drains
               state := if x.packet.grid ≤ x.placed then .running else if x.placed == 0 then (if d.depMet x then .queued else .waiting) else .placing }))

end Sys2Proof.Machine
end

