-- ==== Sys2Proof/Machine/System.lean ====
section
/-! DEFINITION. The Y words: control registers, `tret`, `tlbinv`, `cacheop`, `launch`, `idle`, `halt`, and the freeze of a
Crest context (R391 to R408). -/

namespace Sys2Proof.Machine

/-! Control registers. -/

/-- The value of a control register (R396). No code names the reconvergence stack: a STACKFULL handler reaches its entries through no register, though
R42 lets it spill them (DESIGN CHOICE, assumption 86). -/
def Device.csrValue (d : Device) (a : Agent) (code : Nat) (dom : DWord) : DWord :=
  let c := d.ctx (d.ctxOf a)
  let g := d.view a
  match code with
  | 0 => zext (d.wayPart (d.dieOf a) dom.toNat)
  | 1 => c.spwin
  | 2 => zext c.splim
  | 3 => zext (Fmap.get 24 d.swapth (d.dieOf a))
  | 4 => zext c.formto
  | 5 => c.tslice
  | 6 => zext c.pdrain
  | 7 => zext c.psave
  | 8 => if c.promise then 1 else 0
  | 9 => c.trapvec
  | 10 => g.cause
  | 11 => g.epc
  | _ => zext g.recCnt

/-- `csrr` (R397): a WAYPART domain above 31 is ILLEGAL. -/
def csrrEff (w : YWord) (x : Issue) (d : Device) : Eff :=
  let dom := x.view.sAt w.a.toNat
  if w.imm == 0 && 31 < dom.toNat then .trap .illegal none 0
  else .ok (d.putS x w.d.toNat (d.csrValue x.agent w.imm.toNat dom) 0)
def execCsrr (w : YWord) (s : State) := s.runGang (.csrr w) (csrrEff w)

/-- The width of a control register, and the limits of its value (R397). -/
def csrOk (code : Nat) (v : DWord) : Bool :=
  let fits := fun (n : Nat) => decide (v.toNat < 2 ^ n)
  match code with
  | 1 => (bitsOf v 56 8).toNat == 0 && (bitsOf v 2 27).toNat == 0
  | 2 => fits 32 && v.toNat % 2 ^ 20 == 0 && decide (v.toNat ≤ 2 ^ 29)
  | 3 => decide (v.toNat ≤ 4095)
  | 4 | 6 | 7 => fits 32 && v != 0
  | 5 | 10 => true
  | 9 => v.toNat % 128 == 0 && fits 56
  | 11 => fits 32
  | _ => false

/-- Write a control register (R398). -/
def Device.csrSet (d : Device) (a : Agent) (code : Nat) (v : DWord) : Device :=
  let c := d.ctxOf a
  match code with
  | 1 => d.modCtx c (fun k => { k with spwin := v })
  | 2 => d.modCtx c (fun k => { k with splim := bitsOf v 0 32 })
  | 3 => { d with swapth := Fmap.set 24 d.swapth (d.dieOf a) (bitsOf v 0 16) }
  | 4 => d.modCtx c (fun k => { k with formto := bitsOf v 0 32 })
  | 5 => d.modCtx c (fun k => { k with tslice := v })
  | 6 => d.modCtx c (fun k => { k with pdrain := bitsOf v 0 32 })
  | 7 => d.modCtx c (fun k => { k with psave := bitsOf v 0 32 })
  | 9 => d.modCtx c (fun k => { k with trapvec := v, trapDefault := false })
  | 10 => d.modView a (fun g => { g with cause := v })
  | _ => d.modView a (fun g => { g with epc := v })

/-- A message that carries an access of the context, but those for the word's own packet: what it has fetched. -/
def RemoteOp.accesses (r : RemoteOp) (a : Agent) (slices : List Nat) : Bool :=
  r.binds || (!r.failed && match r.use with
    | .record _ _ _ _ | .poll => true
    | .fetch gang => !(r.agent == some a && (match gang with | some n => slices.contains n | none => true))
    | _ => false)

/-- Accesses that a context's agents and engines have issued before a packet and that have still to be performed: messages, queue loads, copies,
prefetches, claimed turns, records that the walker has still to read, and the memory forms of its Crest contexts. A staged contribution is none: it
is written at its flush, at the place that it was staged for, and so is a waiting `monwait` between its reads (DESIGN CHOICE, assumption 74). -/
def Device.accessLeft (d : Device) (c : Nat) (a : Agent) (slices : List Nat) : Bool :=
  let mine := fun (b : Nat) => (d.block b).ctx == c
  d.fab.remotes.any (fun r => r.ctx == c && r.accesses a slices) || (d.ctx c).streams.any (fun s => !s.waiting.isEmpty) ||
    d.cores.any (fun k => k.walker.any (fun s => (match s.holder with | some b => mine b | none => false) &&
      s.points.any (fun p => p.unread && !p.handed))) || d.qfills.any (fun f => mine f.blk) || d.copies.any (fun q => mine q.blk) ||
    d.prefetches.any (fun q => mine q.blk) ||
    d.cores.any (fun k => k.crest.any (fun x => (match x.blk with | some b => mine b | none => false) && x.ops.any (fun o => !o.pieces.isEmpty)))

/-- `csrw` of a register but WAYPART. One of SPWIN or SPLIM completes once every access of the context under the old value has been
performed (R398). -/
def csrwEff (w : YWord) (x : Issue) (d : Device) : Eff :=
  let v := x.view.sAt w.a.toNat
  if csrOk w.imm.toNat v then
    if (w.imm == 1 || w.imm == 2) && x.base.accessLeft (d.ctxOf x.agent) x.agent x.slices then .wait else .ok (d.csrSet x.agent w.imm.toNat v) else .trap .illegal none 0
def execCsrw (w : YWord) (s : State) := s.runGang (.csrw w) (csrwEff w)

/-! L2 ways. -/

/-- Mapped stash entries of the lines that `p` names are left unfilled, and update-only copies of them combined (R220, R307). -/
def Device.recallWhere (d : Device) (p : Nat → Bool) : Device :=
  { d with ulines := d.ulines.filter (fun u => !p u.line), blocks := d.blocks.map (fun b => { b with maps := b.maps.map (fun m =>
      let gone := fun (e : Nat) => match m.lines[e]? with | some n => p n | none => false
      { m with filled := m.filled.filter (fun q => !gone q.1), dirty := m.dirty.filter (fun q => !gone q.1) }) }) }

/-- An engine owns, or the host caches, a line that `p` names: its copy has still to be recalled. -/
def Device.busyWhere (d : Device) (p : Nat → Bool) : Bool :=
  d.copies.any (fun c => c.lines.any p) || d.cores.any (fun k => k.crest.any (fun x => x.ops.any (fun o => o.lines.any p))) ||
    d.fab.hostLines.any p

/-- What is done to a line: by a `cacheop`, or `clean` for a reader that recalls it and leaves it valid. -/
inductive LineOp where
  | wb | inv | wbinv | clean
  deriving DecidableEq, Repr

/-- Dirty lines among those held that meet a test. -/
def Device.dirtyCount (d : Device) (q : L2Line → Bool) : Nat := (d.l2.filter (fun x => q x && x.behind.isSome)).length

/-- Act on the held lines that meet a test (R403, R404): a discarded dirty line's bytes are again those memory held. A line that
a `cacheop` writes back is exempt no more (R392). -/
def Device.lineOp (d : Device) (op : LineOp) (q : L2Line → Bool) : Device :=
  let hit := d.l2.filter q
  match op with
  | .wb => { d with l2 := d.l2.map (fun x => if q x then { x with behind := none, exempt := x.exempt && x.behind.isNone } else x) }
  | .clean => { d with l2 := d.l2.map (fun x => if q x then { x with behind := none } else x) }
  | .wbinv => ({ d with l2 := d.l2.filter (fun x => !q x) } : Device).recallWhere (fun n => hit.any (fun x => x.line == n))
  | .inv =>
    let back := hit.flatMap (fun x => match x.behind with
      | some bs => bs.mapIdx (fun i b => (x.line * 128 + i, b))
      | none => [])
    ({ d with l2 := d.l2.filter (fun x => !q x), mem := Fmap.setAll 0 d.mem back } : Device).recallWhere
      (fun n => hit.any (fun x => x.line == n))

/-- A line of some ways of a domain. -/
def inWays (die dom : Nat) (ways : Nat → Bool) (x : L2Line) : Bool := x.die == die && x.slice / 16 == dom && ways x.way

/-- A scratchpad byte, by its key, of some ways of a domain. -/
def scratchIn (die dom : Nat) (ways : Nat → Bool) (k : Nat) : Bool :=
  k / 2 ^ 29 == die && k % 2 ^ 29 / 2 ^ 24 == dom && ways (k / 2 ^ 20 % 16)

/-- Zero the scratchpad bytes of ways of a domain (R223, R224); zeros written are delivered again. -/
def Device.zeroWays (d : Device) (die dom : Nat) (ways : Nat → Bool) : Device :=
  { d with
    scratch := d.scratch.filter (fun p => !scratchIn die dom ways p.1)
    poison := d.poison.filter (fun p => !(2 ^ 68 ≤ p.1 && p.1 < 2 ^ 69 && scratchIn die dom ways (p.1 - 2 ^ 68))) }

/-- A write of WAYPART takes effect (R224): lines of ways turned to scratchpad are written back and dropped, ways that turn
are zero, and the log keeps the count (R398). -/
def Device.setWaypart (d : Device) (die dom : Nat) (v : BitVec 16) : Device :=
  let old := d.wayPart die dom
  let out := fun (w : Nat) => bitOf old w && !bitOf v w
  let turned := fun (w : Nat) => bitOf old w != bitOf v w
  let n := d.dirtyCount (inWays die dom out)
  let d1 := (d.lineOp .wbinv (inWays die dom out)).zeroWays die dom turned
  let d2 := { d1 with waypart := Fmap.set 0xFFFF d1.waypart (die * 32 + dom) v }
  d2.logEntry 5 die 0 (BitVec.ofNat 64 (n * 2 ^ 32 + dom * 256))

/-- Every slice of the domain keeps a way that caches and is not fenced (R225). -/
def Device.waysLeft (d : Device) (die dom : Nat) (v : BitVec 16) : Bool :=
  (List.range 16).all (fun s => (List.range 16).any (fun w => bitOf v w && !d.wayFenced die (16 * dom + s) w))

/-- An engine's access is under way at a scratchpad byte of some ways of a domain (R224, step 1). -/
def Device.scratchBusy (d : Device) (die dom : Nat) (ways : Nat → Bool) : Bool :=
  let hit := fun (l : Loc) => match l with
    | .scratch k => scratchIn die dom ways k
    | _ => false
  d.copies.any (fun c => c.pieces.any (fun p => hit p.1)) || d.qfills.any (fun f => f.locs.any (fun ls => ls.any hit)) ||
    d.cores.any (fun k => k.crest.any (fun x => x.ops.any (fun o => o.pieces.any (fun p => hit p.1))))

/-- `csrw WAYPART` (R224, R225, R397). -/
def csrwWaypartEff (w : YWord) (x : Issue) (d : Device) : Eff :=
  let v := x.view.sAt w.a.toNat
  let dom := (x.view.sAt w.d.toNat).toNat
  let die := d.dieOf x.agent
  let p := bitsOf v 0 16
  if 31 < dom || 2 ^ 16 ≤ v.toNat || !bitOf v 0 || !d.waysLeft die dom p then .trap .illegal none 0
  else
    let lines := (d.l2.filter (inWays die dom (fun w => bitOf (d.wayPart die dom) w && !bitOf p w))).map (fun y => y.line)
    if d.busyWhere (fun n => lines.contains n) || d.scratchBusy die dom (fun w => bitOf (d.wayPart die dom) w != bitOf p w) then .wait
    else .ok (d.setWaypart die dom p)
def execCsrwWaypart (w : YWord) (s : State) := s.runGang (.csrwWaypart w) (csrwWaypartEff w)

/-! `tret`. -/

/-- Change slices of a list by their number. -/
def Group.mapSlices (g : Group) (is : List Nat) (f : Nat → Slice → Slice) : Group :=
  { g with slices := g.slices.mapIdx (fun i s => if is.contains i then f i s else s) }

/-- `tret` (R364, R399): user mode, at the packet EPC names; a group that was rolled back returns where its rollback left it
while CAUSE [10] is 1. The cluster handler's run ends; once no handler of the context runs, its save is complete. -/
def Device.trapReturn (d : Device) (a : Agent) (slices : List Nat) : Device :=
  match a with
  | .handler k =>
    let c := d.ctxOf a
    let d1 := { d with handlers := d.handlers.filter (fun h => h.1 != k) }
    if d1.handlers.any (fun h => h.2.1 == c) then d1
    else
      match (d.ctx c).preempt with
      | some p => if p.level == 2 && p.cores.isEmpty then d1.finishSave c else d1
      | none => d1
  | _ =>
    d.modView a (fun g =>
      let back := { g with inHandler := false, priv := false, handler := 0, rolledPc := [] }
      let who := if g.inHandler && a.isGroup then (List.range 64).filter (fun i => bitOf g.handler i) else slices
      let epc := bitsOf g.epc 0 32
      if bitOf g.cause 10 then
        back.mapSlices who (fun i s => { s with pc := (g.rolledPc[i]?).getD epc })
      else back.mapSlices who (fun _ s => { s with pc := epc }))
def execTret (w : YWord) (s : State) := s.runMove (.tret w) (fun x d => .ok (d.trapReturn x.agent x.slices))

/-! `tlbinv`. -/

/-- The table bytes that the walk of an address reads, from the tables as they stand (R369). -/
def walkEntries (m : Fmap Byte) (va : Nat) : Nat → Nat → List Nat
  | level, table =>
    let idx := pteBits va (12 + 9 * level) (if level = 4 then 8 else 9)
    let e := tableEntry m (table + 8 * idx)
    let here := if level = 0 then (List.range 128).map (fun i => table + 8 * (idx / 16 * 16) + i) else (List.range 8).map (fun i => table + 8 * idx + i)
    match level with
    | 0 => here
    | l + 1 => if pteBits e 0 1 == 0 || pteBits e 1 1 == 1 then here else here ++ walkEntries m va l (pteBits e 12 40 * 4096)

/-- A table and the tables below it. -/
def tablesFrom (m : Fmap Byte) : Nat → Nat → List Nat
  | 0, table => [table]
  | l + 1, table =>
    table :: (List.range 512).flatMap (fun i =>
      let e := tableEntry m (table + 8 * i)
      if pteBits e 0 1 == 1 && pteBits e 1 1 == 0 then tablesFrom m l (pteBits e 12 40 * 4096) else [])
/-- The tables that an entry on the walk of `va` names now and did not name when they were last read, with those below them: a page that has been
split, or a table put in the place of another. -/
def tablesMoved (t m : Fmap Byte) (va : Nat) : Nat → Nat → List Nat
  | 0, _ => []
  | l + 1, table =>
    let at' := table + 8 * pteBits va (12 + 9 * (l + 1)) (if l = 3 then 8 else 9)
    let old := tableEntry t at'
    let e := tableEntry m at'
    let next := pteBits e 12 40 * 4096
    if pteBits e 0 1 == 0 || pteBits e 1 1 == 1 then []
    else if pteBits old 0 1 == 1 && pteBits old 1 1 == 0 && pteBits old 12 40 * 4096 == next then tablesMoved t m va l next
    else tablesFrom m l next

/-- `tlbinv` and `tlbinv.page` (R400): translations after it see the tables as they stand then, those of the page that held the
address in every part of it, and so do those through a table that takes another's place; the word completes once accesses translated before have been performed. -/
def tlbinvEff (w : YWord) (x : Issue) (d : Device) : Eff :=
  let c := d.ctxOf x.agent
  let k := d.ctx c
  if bitOf w.imm 0 then
    let va := x.view.sAt w.a.toNat
    if (bitsOf va 56 8).toNat != 0 then .trap .illegal none 0
    else if x.base.accessLeft c x.agent x.slices then .wait
    else
      let ks := walkEntries d.mem va.toNat 4 k.root ++ (tablesMoved k.tables d.mem va.toNat 4 k.root).flatMap (fun t => (List.range 4096).map (fun i => t + i))
      .ok (d.modCtx c (fun k => { k with tables := Fmap.setAll 0 k.tables (ks.map (fun i => (i, Fmap.get 0 d.mem i))) }))
  else if x.base.accessLeft c x.agent x.slices then .wait
  else .ok (d.modCtx c (fun k => { k with tables := d.mem }))
def execTlbinv (w : YWord) (s : State) := s.runGang (.tlbinv w) (tlbinvEff w)

/-! `cacheop`. -/

/-- A stash window or the enabled scratchpad window holds an address (R392, R403). -/
def Device.inWindow (d : Device) (a : Agent) (va : DWord) : Bool :=
  let top := (bitsOf va 56 8).toNat
  top == 0xFD || top == 0xFE || (top == 0 && (d.ctx (d.ctxOf a)).inScratch (bitsOf va 0 56).toNat)

/-- Place a line in way w of its home slice, exempt from replacement (R392). -/
def Device.allocLine (d : Device) (line w : Nat) : Device :=
  let die := homeDieOf line
  let slice := homeSliceOf line
  let set := lineSetOf line
  let there := fun (x : L2Line) => x.die == die && x.slice == slice && x.set == set && x.way == w && x.line != line
  let kept := d.l2.filter (fun x => !there x)
  if kept.any (fun x => x.line == line) then
    { d with l2 := kept.map (fun x => if x.line == line then { x with way := w, exempt := true } else x) }
  else
    { d with l2 := { line := line, die := die, slice := slice, set := set, way := w, exempt := true, behind := none } :: kept }

/-- `cacheop.alloc` (R391, R392): the way is sW [3:0], whose other bits must be 0. -/
def cacheopAllocEff (w : YWord) (x : Issue) (d : Device) : Eff :=
  let va := x.view.sAt w.a.toNat
  let way := (bitsOf (x.view.sAt w.d.toNat) 0 4).toNat
  if 16 ≤ (x.view.sAt w.d.toNat).toNat then .trap .illegal none 0
  else if d.inWindow x.agent va then .trap .perm none 0
  else
    match d.reach x.agent x.view.priv .store (va - BitVec.ofNat 64 (va.toNat % 128)) 1 with
    | .error b => b.eff none va
    | .ok (.mem pa :: _) =>
      let line := pa / 128
      let die := homeDieOf line
      let slice := homeSliceOf line
      if !bitOf (d.wayPart die (slice / 16)) way then .trap .spWindow none 0
      else if d.wayFenced die slice way then .ok d
      else if d.busyWhere (fun n => n == line) then .wait
      else .ok (d.allocLine line way)
    | .ok _ => .ok d
def execCacheopAlloc (w : YWord) (s : State) := s.runGang (.cacheopAlloc w) (cacheopAllocEff w)

/-- The runs of lines, first line and count, that a range reaches, page by page (R403). -/
def Device.rangeRuns (d : Device) (a : Agent) (priv : Bool) : Nat → DWord → Nat → Except Eff (List (Nat × Nat))
  | 0, _, _ => .ok []
  | fuel + 1, va, len =>
    if len = 0 then .ok []
    else if d.inWindow a va then .error (.trap .perm none 0)
    else
      match d.reach a priv .load va 1 with
      | .error b => .error (b.eff none va)
      | .ok ls =>
        let n := min len (4096 - va.toNat % 4096)
        match d.rangeRuns a priv fuel (va + BitVec.ofNat 64 n) (len - n) with
        | .error e => .error e
        | .ok more => .ok (match ls with | .mem pa :: _ => (pa / 128, n / 128) :: more | _ => more)

/-- A range form (R403, R404): each recalls every private copy. -/
def rangeForm (op : LineOp) (w : YWord) (x : Issue) (d : Device) : Eff :=
  let va := x.view.sAt w.a.toNat
  let len := (x.view.sAt w.d.toNat).toNat
  if len == 0 || len % 128 != 0 || 2 ^ 30 < len then .trap .illegal none 0
  else if va.toNat % 128 != 0 then .trap .misalign none 0
  else
    match d.rangeRuns x.agent x.view.priv (len / 4096 + 2) va len with
    | .error e => e
    | .ok runs =>
      let p := fun (n : Nat) => runs.any (fun r => decide (r.1 ≤ n) && decide (n < r.1 + r.2))
      if d.busyWhere p then .wait
      else
        .ok ((d.lineOp op (fun y => p y.line)).recallWhere p)
def execCacheopWb (w : YWord) (s : State) := s.runGang (.cacheopWb w) (rangeForm .wb w)
def execCacheopInv (w : YWord) (s : State) := s.runGang (.cacheopInv w) (rangeForm .inv w)
def execCacheopWbinv (w : YWord) (s : State) := s.runGang (.cacheopWbinv w) (rangeForm .wbinv w)

/-- A way form (R393, R403): sD counts the dirty lines. -/
def wayForm (op : LineOp) (w : YWord) (x : Issue) (d : Device) : Eff :=
  let j := x.view.sAt w.a.toNat
  let dom := (bitsOf j 8 5).toNat
  let way := (bitsOf j 0 4).toNat
  let die := d.dieOf x.agent
  let q := inWays die dom (fun n => n == way)
  if j &&& (~~~0x1F0F) != 0 then .trap .illegal none 0
  else if !bitOf (d.wayPart die dom) way then .trap .spWindow none 0
  else if d.busyWhere (fun n => d.l2.any (fun y => q y && y.line == n)) then .wait
  else .ok ((d.lineOp op q).putS x w.d.toNat (BitVec.ofNat 64 (d.dirtyCount q)) 0)
def execCacheopWbWay (w : YWord) (s : State) := s.runGang (.cacheopWbWay w) (wayForm .wb w)
def execCacheopInvWay (w : YWord) (s : State) := s.runGang (.cacheopInvWay w) (wayForm .inv w)
def execCacheopWbinvWay (w : YWord) (s : State) := s.runGang (.cacheopWbinvWay w) (wayForm .wbinv w)

/-! `launch`, `idle`, `halt`. -/

/-- `launch` (R406): a release at `sys`; the packet is read as one snapshot, wherever it lies (R422), and the distributor of the
issuer's die holds the launch. It waits while that distributor holds 1024. -/
def launchEff (w : YWord) (x : Issue) (d : Device) : Eff :=
  let va := x.view.sAt w.a.toNat
  let c := d.ctx (d.ctxOf x.agent)
  let die := d.dieOf x.agent
  if va.toNat % 128 != 0 then .trap .misalign none 0
  else
    match d.reach x.agent x.view.priv .load va 128 with
    | .error b => b.eff none va
    | .ok ls =>
      if 1024 ≤ d.heldLaunches die || d.held ls then .wait
      else if ls.any d.lostByte then .trap .ecc none 0
      else
        match d.fetchOr x.agent (if x.agent.isGroup then x.slices.head? else none) ls with
        | .error e => e
        | .ok bs =>
          let status := d.statusOf c x.agent.blk? die x.view.priv va
          x.released d true (.ok (((d.touchLoads ls).hold die c.root false va bs status none none).endRegionOf x.agent))
def execLaunch (w : YWord) (s : State) := s.runGang (.launch w) (launchEff w)

/-- `idle n` (R401): the gang is held. -/
def idleEff (w : YWord) (x : Issue) (d : Device) : Eff :=
  .ok (d.modView x.agent (fun g => g.modSlices x.slices (fun s => { s with hold := .idle d.now w.imm.toNat })))
def execIdle (w : YWord) (s : State) := s.runGang (.idle w) (idleEff w)

/-- `halt` (R402): the launch fails with the cause in CAUSE. -/
def haltEff (x : Issue) (d : Device) : Eff := .ok (d.failCtx (d.ctxOf x.agent) (bitsOf x.view.cause 0 8))
def execHalt (w : YWord) (s : State) := s.runMove (.halt w) haltEff

/-! Freezing a Crest context (R108, R408). -/

/-- The core of the issuer's cluster and the context that a freeze word names. -/
def freezeCore (clu : Nat) (w : YWord) : Nat := 4 * clu + (bitsOf w.imm 6 2).toNat
def freezeCtx (w : YWord) : Nat := (bitsOf w.imm 5 1).toNat

/-- `mfreeze`: an instruction whose last tile is done completes with that tile (R108, R111); the handler goes on once the context has stopped (FREEZE_STOP). -/
def mfreezeEff (w : YWord) (x : Issue) (d : Device) : Eff :=
  match x.agent with
  | .handler clu =>
    let core := freezeCore clu w
    let n := freezeCtx w
    if (d.crest core n).frozen then .ok d
    else
      .ok ((d.modCrest core n (fun k => { k.complete with frozen := true, freezing := true })).modView x.agent (fun g =>
        g.modSlices x.slices (fun s => { s with hold := .unit })))
  | _ => .trap .illegal none 0
def execMfreeze (w : YWord) (s : State) := s.runGang (.mfreeze w) (mfreezeEff w)

/-- `mthaw`. -/
def mthawEff (w : YWord) (x : Issue) (d : Device) : Eff :=
  match x.agent with
  | .handler clu => .ok (d.modCrest (freezeCore clu w) (freezeCtx w) (fun k => { k with frozen := false, freezing := false }))
  | _ => .trap .illegal none 0
def execMthaw (w : YWord) (s : State) := s.runGang (.mthaw w) (mthawEff w)

/-- FREEZE_STOP (R108): no tile is in progress between steps, so the context has stopped, and the handler goes on. -/
def Device.freezeStop (d : Device) (core x : Nat) : Device :=
  if (d.crest core x).freezing then
    (d.modCrest core x (fun k => { k with freezing := false })).letGo (.handler (core / 4))
  else d
def execFreezeStop (core x : Nat) (s : State) := s.event (fun d => d.freezeStop core x)

end Sys2Proof.Machine
end

