-- ==== Sys2Proof/Machine/Blocked.lean ====
section
/-! DEFINITION. When a group is blocked (R38), and the swaps of a core's active positions (R39, R356 to R358). -/

namespace Sys2Proof.Machine

/-- Performing the word would wait for something of this device. -/
def Eff.waits : Eff → Bool
  | .wait => true
  | _ => false

/-- A word that waits for a `pbar` slot, a batch, a register it passes on, the copy engine, the eave buffer or the distributor. -/
def Issue.wordWaits (x : Issue) (d : Device) (i : Instr) : Bool :=
  match i with
  | .pbarWait w => (pbarWaitEff w x d).waits
  | .cpwait w => (cpwaitEff w x d).waits
  | .launch w => (launchEff w x d).waits
  | .brs w => (brsEff w x d).waits
  | .redOrd w => (redOrdEff w x d).waits
  | .cp _ => decide (256 ≤ (d.copies.filter (fun q => (d.block q.blk).core == d.coreOf x.agent)).length)
  | _ => false

/-- The packet of a gang cannot issue for want of a register, a barrier, a batch or a place; one that would trap does not wait (R56). The waits of
R57 and those for bytes of another device are none of R38's. -/
def Device.gangWaits (d : Device) (a : Agent) (slices : List Nat) : Bool :=
  let x := d.issueOf a slices
  let done := (d.view a).aheadOf (slices.head?.getD 0)
  match d.fetchPacket a slices x.pc with
  | .error _ => false
  | .ok ws =>
    let ws := (placeGuards none (readItems ws)).filterMap (fun p =>
      if done.contains p.1.idx then none else p.1.instr.map (fun i => (x.at p.1 d, i)))
    !ws.any (fun q => match q.1.dynVerdict d q.2 with | .trap _ _ => true | _ => false) &&
      ws.any (fun q => q.1.regWaits d q.2 || q.1.wordWaits d q.2)

/-- Every gang of the group is held or waits (R38); a group that has issued `yield` is held by no wait. -/
def Device.groupBlocked (d : Device) (b k : Nat) : Bool :=
  let g := (d.block b).group k
  !g.yielding && g.liveSlices.all (fun i => !g.slicesReady i || d.gangWaits (.group b k) (g.gangOf i))

/-- A pending group that no wait would hold. -/
def Device.groupReady (d : Device) (p : Nat × Nat) : Bool := !(d.groupAt p).stopped && !d.groupBlocked p.1 p.2

/-- The group in a position meets a condition of R38: it has issued `yield`, or it has been blocked beyond SWAPTH. -/
def Device.swapWanted (d : Device) (core pos : Nat) : Bool :=
  match d.inPos core pos with
  | none => false
  | some (b, k) =>
    let g := (d.block b).group k
    g.yielding ||
      ((g.stopped || d.groupBlocked b k) && decide ((Fmap.get 24 d.swapth (core / 32)).toNat < d.now - g.since))

/-- A `yield` that finds no ready group is over. -/
def Group.endYield (g : Group) : Group :=
  { g with slices := g.slices.map (fun s => if s.hold == .yield then { s with hold := .free } else s) }

/-- The pending group that comes in: the oldest that is ready (R358). -/
def Device.incoming (d : Device) (core : Nat) : Option (Nat × Nat) := (d.pending core).find? d.groupReady

/-- A swap may start at this position: it is the lowest that wants one, and the bus is free (R358). With no ready group to come in,
a group that has issued `yield` goes on, whatever the others want (R38). -/
def Device.swapDue (d : Device) (core pos : Nat) : Bool :=
  (d.core core).transfer.isNone && d.swapWanted core pos &&
    match d.incoming core with
    | some _ => !(List.range pos).any (d.swapWanted core)
    | none => match d.inPos core pos with | some q => (d.groupAt q).yielding | none => false

/-- SWAP (R38, R358). -/
def Device.swapAt (d : Device) (core pos : Nat) : Device :=
  if !d.swapDue core pos then d
  else
    match d.inPos core pos, d.incoming core with
    | some (b, k), some (b', k') =>
      let d1 := d.modGroup b k (fun g => { g.endYield with pos := none, since := d.now })
      let d2 := d1.modGroup b' k' (fun g => { g with pos := some pos, since := d.now })
      d2.modCore core (fun c => { c with transfer := some (b', k') })
    | some (b, k), none => d.modGroup b k Group.endYield
    | none, _ => d
def execSwap (core pos : Nat) (s : State) := s.event (fun d => d.swapAt core pos)

/-- SWAP_TRANSFER_DONE (R39): the incoming group may issue. -/
def execSwapTransferDone (core : Nat) (s : State) := s.event (fun d => d.modCore core (fun c => { c with transfer := none }))

/-! The flush of a partial spawned group (R46). -/

/-- Every group of a block has exited or is blocked. -/
def Device.blockQuiet (d : Device) (b : Nat) : Bool :=
  let x := d.block b
  (List.range x.groups.length).all (fun k => (x.group k).exited || d.groupBlocked b k)

/-- The former's i-th partial group may be flushed: FORMTO cycles without a record, or no other group that goes on. -/
def Device.flushDue (d : Device) (b i : Nat) : Bool :=
  let x := d.block b
  match x.formers[i]? with
  | none => false
  | some f => !x.ended && (decide ((d.ctx x.ctx).formto.toNat ≤ d.now - f.last) || d.blockQuiet b)

/-- FORMTO_FLUSH (R46). -/
def Device.flushFormer (d : Device) (b i : Nat) : Device :=
  if !d.flushDue b i then d
  else
    d.modBlock b (fun x =>
      match x.formers[i]? with
      | some f => { x with formers := listDrop x.formers i, built := x.built ++ [f] }
      | none => x)
def execFormtoFlush (blk i : Nat) (s : State) := s.event (fun d => d.flushFormer blk i)

end Sys2Proof.Machine
end

