-- ==== Sys2Proof/Machine/Events.lean ====
section
/-! DEFINITION. What the core's units bring about by themselves: fills (R31, R243), translation faults answered (R375), the
walker and its prefetches (R201, R203), copies (R228), monitors and `idle` (R320, R401), flushes and turns (R309, R313). -/

namespace Sys2Proof.Machine

/-! Fills. -/

/-- REGISTER_FILL (R31): a producer that awaits no reply writes its destination. -/
def Device.registerFill (d : Device) (k : Nat) : Device :=
  match d.fills[k]? with
  | some f =>
    if f.await != 0 then d
    else
      -- a register that a drain has still to write stays empty (R31, R33, R116)
      let f' := { f with vFull := f.vFull.filter (fun n => !d.drainsTo f.agent (n / 64)) }
      ({ d with fills := listDrop d.fills k } : Device).modView f.agent (fun g => g.applyFill f')
  | none => d
def execRegisterFill (k : Nat) (s : State) := s.event (fun d => d.registerFill k)

/-- QUEUE_ENTRY_FILL (R243). -/
def Device.queueDue (d : Device) (k : Nat) : Bool :=
  match d.qfills[k]? with
  | some f => f.await == 0 && !d.heldLines f.locs.flatten
  | none => false
def execQueueEntryFill (k : Nat) (s : State) := s.event (fun d => if d.queueDue k then d.fillQueue k else d)

/-! Translation faults (R375). -/

/-- Bytes that the firmware or the host writes by physical address. -/
def Device.writeCells (d : Device) (cells : List Host.Cell) : Device :=
  d.firmStore (cells.map (fun p => (Loc.mem p.1, p.2)))

/-- The context whose completion a number past the faults names. -/
def Device.faultCtx (d : Device) (k : Nat) : Nat := k - d.faults.length

/-- FAULT_RESOLVED: the answer's table bytes are in force for the context, and its agent goes on. A number past the faults
names the context whose completion counter met one (R407). -/
def Device.resolveFault (d : Device) (k : Nat) (cells : List Host.Cell) : Device :=
  let c := match d.faults[k]? with | some f => d.ctxOf f.agent | none => d.faultCtx k
  let open' := match d.faults[k]? with | some _ => true | none => (d.ctx c).doneFault.isSome
  if !open' then d
  else
    let d1 := (d.writeCells cells).modCtx c (fun x => { x with tables := Fmap.setAll 0 x.tables (cells.map (fun p => (p.1, p.2))) })
    match d.faults[k]? with
    | some _ => { d1 with faults := listDrop d1.faults k }
    | none => d1.modCtx c (fun x => { x with doneFault := none })
def execFaultResolved (k : Nat) (cells : List Host.Cell) (s : State) := s.event (fun d => d.resolveFault k cells)

/-- FAULT_REFUSED: the trap is delivered with CAUSE [11], which ends a step over the packet (R387), or the launch whose completion met it
fails (R375, R407). -/
def Device.refuseFault (d : Device) (k : Nat) : Device :=
  match d.faults[k]? with
  | some f =>
    let d1 := ({ d with faults := listDrop d.faults k } : Device).logEntry 6 (d.dieOf f.agent) (BitVec.ofNat 64 (f.core % 32)) 0
    let d2 := d1.trapEntry f.agent f.slices f.pc f.word f.cause.code f.lane 0 f.rolled true
    match (d.view f.agent).stepping with
    | some (_, r) => d2.answer r 0 []
    | none => d2
  | none =>
    let c := d.faultCtx k
    match (d.ctx c).doneFault with
    | some e => (d.logEntry 6 (d.ctx c).die 0 0).failCtx c e.code
    | none => d
def execFaultRefused (k : Nat) (s : State) := s.event (fun d => d.refuseFault k)

/-! The walker. -/

/-- WALKER_WAIT_END (R201): waiting examinations of a slot go on as far as they can. -/
def execWalkerWaitEnd (core slot : Nat) (s : State) := s.event (fun d => d.serveSlot core slot)

/-- A line of another device that a prefetch has brought to its home: so it stands for every point of the core's walker. -/
def Device.bringLine (d : Device) (core line : Nat) : Device :=
  d.modCore core (fun k => { k with walker := k.walker.map (fun s =>
    { s with points := s.points.map (fun p => if p.handed then p else { p with brought := p.brought ++ [line] }) }) })

/-- A prefetch may come to its home slice: no engine owns its line, and the host does not cache it (R231, R414). -/
def Device.prefetchDue (d : Device) (k : Nat) : Bool :=
  match d.prefetches[k]? with
  | none => false
  | some q => match d.reachBlk q.blk .load q.va 1 with | .error _ => true | .ok ls => !d.held ls

/-- A point of the set that a prefetch was made for becomes deferred-fault (R203). -/
def Device.failPoint (d : Device) (core slot serial i : Nat) : Device :=
  if (d.wslot core slot).serial == serial then d.modPoint core slot i WPoint.failed else d

/-- PREFETCH_COMPLETE (R203): the line comes to its home slice, on another device by a load there; a fault or an uncorrected error marks the
point. -/
def Device.prefetchDone (d : Device) (k : Nat) (failed : Bool) : Device :=
  match d.prefetches[k]? with
  | none => d
  | some q =>
    if !d.prefetchDue k then d
    else
      let d1 := { d with prefetches := listDrop d.prefetches k }
      let mark := fun (d : Device) => d.failPoint q.core q.slot q.serial q.point
      let d2 :=
        match d1.reachBlk q.blk .load q.va 1 with
        | .error _ => mark d1
        | .ok ls =>
          if failed || ls.any d1.lostByte then mark d1
          else
            match ls with
            | .remote n off :: _ =>
              d1.ask { plainOp none (d.block q.blk).ctx n 0 (off / 128 * 128) 128 with use := .bring q.core q.slot q.serial q.point }
            | _ => d1.touchLoads ls
      d2.serveSlot q.core q.slot
def execPrefetchComplete (k : Nat) (failed : Bool) (s : State) := s.event (fun d => d.prefetchDone k failed)

/-- The clock of a point has run out (R201). -/
def Device.pointDue (d : Device) (core slot i : Nat) : Bool :=
  let s := d.wslot core slot
  match s.points[i]? with
  | some p => !p.handed && !p.forced && s.timeBound != 0 && p.dc != 0 && decide (s.timeBound ≤ d.now - p.t0)
  | none => false
/-- POINT_FORCED_BY_TIME (R201). -/
def Device.forcePoint (d : Device) (core slot i : Nat) : Device :=
  if d.pointDue core slot i then
    (d.modPoint core slot i (fun p => { p with forced := true })).serveSlot core slot
  else d
def execPointForcedByTime (core slot i : Nat) (s : State) := s.event (fun d => d.forcePoint core slot i)

/-! Copies. -/

/-- Copy k may complete. -/
def Device.copyDue (d : Device) (k : Nat) : Bool := match d.copies[k]? with | some c => d.copyReady c | none => false
/-- COPY_COMPLETE (R228, R239): the engine writes the bytes of a copy, or the last of its flits has been acknowledged. -/
def execCopyComplete (k : Nat) (ecc : Bool) (s : State) := s.event (fun d => if d.copyDue k then d.finishCopy k ecc else d)

/-! Monitors and `idle`. -/

/-- A read of the word of a `monwait` is on its way. -/
def Device.polling (d : Device) (a : Agent) : Bool := d.fab.remotes.any (fun r => r.agent == some a && r.use == .poll)

/-- A waiting `monwait` looks again (R320): a word of another device is asked for; an address that no longer translates is a fault of
the word, which issues again once the fault is resolved. -/
def Device.lookAgain (d : Device) (k : Nat) (m : Monitor) : Device :=
  let seen := fun (d : Device) => { d with monitors := listModify (fun (x : Monitor) => { x with woken := false, since := d.now }) d.monitors k }
  let gang := if m.agent.isGroup then m.inst.gang (d.view m.agent) else [0]
  match d.monitorLocs m with
  | .error (.fault c) => (d.unwait m).faultEntry m.agent gang m.inst.pc m.inst.idx c none m.ea
  | .error (.trap c) => (d.unwait m).trapEntry m.agent gang m.inst.pc m.inst.idx c.code none 0 false false
  | .ok ls =>
    if ls.any isRemote then (if d.polling m.agent then d else (seen d).askMonitor m ls)
    else if d.held ls then d
    else if ls.any d.lostByte then (d.unwait m).trapEntry m.agent gang m.inst.pc m.inst.idx Cause.ecc.code none 0 false false
    else
      let v := d.valueAt ls
      if m.called || m.met v then (d.touchLoads ls).endMonitor k m (if m.wide then v else zext (bitsOf v 0 32)) else seen (d.touchLoads ls)

/-- The agents of a context may take effects now: it is on the device and no save has begun. -/
def Device.live (d : Device) (a : Agent) : Bool :=
  match a with
  | .handler _ => true
  | _ => match (d.ctx (d.ctxOf a)).preempt with | some p => decide (p.level < 2) | none => true

/-- MONITOR_WAKE (R320): a write or a wake has reached an entry. -/
def execMonitorWake (k : Nat) (s : State) :=
  s.event (fun d =>
    match d.monitors[k]? with
    | some m => if (m.woken || m.called) && d.live m.agent then d.lookAgain k m else d
    | none => d)
/-- A wait that polls looks again, and so does one on a word of another device (R320; DESIGN CHOICE, assumption 51). -/
def Device.pollDue (d : Device) (m : Monitor) : Bool := (m.line.isNone || m.far) && decide (1024 ≤ d.now - m.since)
/-- MONWAIT_POLL_TIMEOUT (R320): after 1024 cycles. -/
def execMonwaitPollTimeout (k : Nat) (s : State) :=
  s.event (fun d =>
    match d.monitors[k]? with
    | some m => if d.pollDue m && d.live m.agent then d.lookAgain k m else d
    | none => d)

/-- The slices held by `idle`, in order. -/
def Device.idlers (d : Device) : List (Agent × Nat × Nat × Nat) :=
  let of := fun (a : Agent) (n : Nat) (h : Hold) => match h with | .idle since m => [(a, n, since, m)] | _ => []
  (List.range d.blocks.length).flatMap (fun b =>
    (List.range (d.block b).groups.length).flatMap (fun k =>
      let g := (d.block b).group k
      (List.range g.slices.length).flatMap (fun i => of (.group b k) i (g.slice i).hold))) ++
    d.handlers.flatMap (fun h => of (.handler h.1) 0 h.2.2.hold)
/-- The k-th idle slice has waited 64·n cycles (R401). -/
def Device.idleDue (d : Device) (k : Nat) : Option (Agent × Nat) :=
  match d.idlers[k]? with
  | some (a, i, since, n) => if n != 0 && 64 * n ≤ d.now - since then some (a, i) else none
  | none => none
/-- IDLE_TIMEOUT (R401). -/
def execIdleTimeout (k : Nat) (s : State) :=
  s.event (fun d =>
    match d.idleDue k with
    | some (a, i) => d.modView a (fun g => g.modSlice i (fun s => { s with hold := .free }))
    | none => d)

/-! Flushes (R309). -/

/-- The key of a contribution, as one number. -/
def Contribution.key (c : Contribution) : Nat :=
  (((c.ea.toNat * 2 ^ 32 + c.blk) * 16 + c.grp) * 256 + c.lane) * 2 ^ 32 + c.seq
/-- Insert in ascending key. -/
def insertContribution (c : Contribution) : List Contribution → List Contribution
  | [] => [c]
  | x :: rest => if c.key ≤ x.key then c :: x :: rest else x :: insertContribution c rest

/-- Launch groups of a context, each with whether it has ended and its `eflush` count. -/
def Device.launchGroupsOf (d : Device) (c : Nat) : List (Bool × Nat) :=
  d.blocks.flatMap (fun b =>
    if b.ctx != c then []
    else (List.range (d.ctx c).packet.groups).map (fun k =>
      let g := b.group k
      (b.ended || g.exited || g.spawned, g.eflushes)))

/-- Flush number `k` takes place once every launch group has issued k `eflush` words or has exited (R309); it has something to do
when a group has issued them, or a contribution waits for it. -/
def Device.flushReady (d : Device) (c k : Nat) : Bool :=
  let x := d.ctx c
  let gs := d.launchGroupsOf c
  x.state == .running && gs.all (fun g => g.1 || decide (k ≤ g.2)) &&
    (gs.any (fun g => decide (k ≤ g.2)) || x.staged.any (fun y => decide (y.epoch < k)))
/-- The final flush: every block has ended. -/
def Device.finalReady (d : Device) (c : Nat) : Bool :=
  let x := d.ctx c
  x.state == .running && (d.liveBlocks c).isEmpty && !x.staged.isEmpty

/-- Apply one contribution. -/
def Device.applyContribution (ctx : Nat) (d : Device) (c : Contribution) : Device :=
  let n := if c.wide then 8 else 4
  let ls := (List.range n).map (fun i => Loc.mem (c.addr + i))
  let v := (d.valueAt ls).toNat
  let x := c.x.toNat % 2 ^ (8 * n)
  (d.storeValue ls (BitVec.ofNat 64 (atomNew (if c.fadd then 8 else 0) false (8 * n) v x 0))).meetLost ctx ls

/-- Apply the staged contributions that meet a test, in ascending key. -/
def Device.applyStaged (d : Device) (c : Nat) (q : Contribution → Bool) : Device :=
  let cs := ((d.ctx c).staged.filter q).foldr insertContribution []
  (cs.foldl (Device.applyContribution c) d).modCtx c (fun x => { x with staged := x.staged.filter (fun y => !q y) })

/-- The groups that wait for flush k go on; with it their `eflush.wait` is complete, and ends the region (R303, R310). -/
def Device.freeFlush (d : Device) (c k : Nat) : Device :=
  { d with blocks := d.blocks.map (fun b =>
      if b.ctx == c then
        { b with groups := b.groups.map (fun g =>
          if g.slices.any (fun s => s.hold == .flush k) then
            ({ g with slices := g.slices.map (fun s => if s.hold == .flush k then { s with hold := .free } else s) } : Group).endRegion
          else g) }
      else b) }

/-- The lines of contributions are free to be written. -/
def Device.stagedFree (d : Device) (c : Nat) : Bool := !(d.ctx c).staged.any (fun y => d.held [.mem y.addr])

/-- FLUSH (R309): the next flush of a launch, or its final one. -/
def Device.flushNext (d : Device) (c : Nat) : Device :=
  let k := (d.ctx c).flushes + 1
  if !d.stagedFree c then d
  else if d.flushReady c k then
    ((d.applyStaged c (fun y => decide (y.epoch < k))).modCtx c (fun x => { x with flushes := k })).freeFlush c k
  else if d.finalReady c then d.applyStaged c (fun _ => true)
  else d
def execFlush (ctx : Nat) (s : State) := s.event (fun d => d.flushNext ctx)

/-! Turns (R313). -/

/-- The request of stream i whose turn has come. -/
def Device.turnDue (d : Device) (c i : Nat) : Option (DWord × TurnReq) :=
  let x := d.ctx c
  if !(x.state == .running || x.state == .placing) then none
  else
    match x.streams[i]? with
    | none => none
    | some st => (st.waiting.find? (fun q => d.turnReady c st ((d.block q.blk).idx * 16 + q.slot) && d.live (.group q.blk q.slot) &&
        !d.held q.locs)).map (fun q => (st.ea, q))
/-- TURN (R313 to R315). -/
def execTurn (ctx i : Nat) (s : State) :=
  s.event (fun d =>
    match d.turnDue ctx i with
    | some (ea, q) =>
      (d.modCtx ctx (fun x => x.modStream ea (fun st => { st with waiting := st.waiting.filter (fun r => r != q) }))).takeTurn q
    | none => d)

end Sys2Proof.Machine
end

