-- ==== Sys2Proof/Machine/Service.lean ====
section
/-! DEFINITION. The Hamada services (R409 to R412): reading a request, serving it, and its fifteen operations; the front
program (R415); the registers of the Hamada register block. -/

namespace Sys2Proof.Machine

/-! Requests. -/

/-- A request as it is read (R410). -/
structure Call where
  seq : DWord
  service : Nat
  op : Nat
  /-- a byte marked zero is not zero -/
  dirty : Bool
  args : List DWord
  deriving DecidableEq, Repr, Inhabited

/-- Argument number i. -/
def Call.arg (c : Call) (i : Nat) : Nat := ((c.args[i]?).getD 0).toNat

/-- The call that 64 bytes make. -/
def parseCall (bs : List Byte) : Call :=
  let n := fun (off len : Nat) => bytesNat ((bs.drop off).take len)
  { seq := BitVec.ofNat 64 (n 0 8), service := n 8 2, op := n 10 2, dirty := n 12 4 != 0
    args := (List.range 6).map (fun i => BitVec.ofNat 64 (n (16 + 8 * i) 8)) }

/-- What serving a call comes to. -/
inductive Served where
  /-- it is complete: a result and its data -/
  | done (d : Device) (result : BitVec 8) (data : List Byte)
  /-- its answer comes later -/
  | later (d : Device)
  /-- it cannot begin yet: bytes of another device have been asked for -/
  | asks (d : Device)
  /-- it cannot begin yet -/
  | notYet

/-- A failed request: a result and no effect. -/
def Served.fails (d : Device) (c : Cause) : Served := .done d c.code []

/-- The operations that R411 lists. -/
def listedOp (service op : Nat) : Bool :=
  (service == 1 && 1 ≤ op && op ≤ 3) || (service == 2 && 1 ≤ op && op ≤ 4) || (service == 3 && 1 ≤ op && op ≤ 8)

/-- The call of a request that waits to be served; none for a block whose sequence has not changed, or whose line is held (R409,
R410, R414). -/
def Device.callOf (d : Device) (r : Req) : Option Call :=
  match r with
  | .block i =>
    let base := ((d.ham.services[i]?).getD 0).toNat
    let c := parseCall ((List.range 64).map (fun n => d.byteAt (.mem (base + n))))
    if base = 0 || d.held [.mem base] || c.seq == (d.ham.servedSeq[i]?).getD 0 then none else some c
  | .datagram _ bs => some (parseCall bs)

/-- A datagram from a source that the configuration does not list (R409). -/
def Device.unlisted (d : Device) (r : Req) : Bool :=
  match r with
  | .datagram src _ => !d.ham.sources.contains src
  | .block _ => false

/-- A context that stands for none: what the front program and the services send belongs to no launch. -/
def noCtx : Nat := 2 ^ 64

/-! The maintenance service. -/

/-- The address space of the front program and of the services: the firmware's own root, in privileged mode. -/
def Device.frontCtx (d : Device) : Ctx := { (default : Ctx) with root := d.ham.frontRoot, tables := d.mem, privLaunch := true }

/-- What handing a packet address to the distributor comes to. -/
inductive Handed where
  /-- `launch` would trap with this cause -/
  | refused (c : Cause)
  | held (d : Device)
  /-- the packet lies on another device, and has been asked for -/
  | asked (d : Device)
  /-- the distributor is full, a line of the packet is held, or its bytes have not come -/
  | waits

/-- Hand a packet address of the firmware's address space to the distributor of die 0, as request number `n` (R406, R411, R415, R422). -/
def Device.frontLaunch (d : Device) (priv : Bool) (n : Nat) (va : DWord) (r : Option Req) : Handed :=
  let c := d.frontCtx
  if va.toNat % 128 != 0 then .refused .misalign
  else
    match d.decodeRange c none 0 true .load va 128 with
    | .error (.trap e) => .refused e
    | .error (.fault e) => .refused e
    | .ok ls =>
      if 1024 ≤ d.heldLaunches 0 || d.held ls then .waits
      else if ls.any d.lostByte then .refused .ecc
      else
        match d.fetch none noCtx (some n) ls with
        | .ask fix => .asked (fix d)
        | .wait => .waits
        | .lost => .refused .ecc
        | .bytes bs =>
          .held (((d.touchLoads ls).dropFetched none [n]).hold 0 c.root priv va bs (d.statusOf c none 0 true va) none r)

/-- The number under which a service asks for bytes of other devices; the front program's blocks come before. -/
def reqNumber : Req → Nat
  | .block i => 64 + i
  | .datagram src _ => 72 + src.toNat

/-- MAINT_ADMIT (R390, R411). -/
def admitCall (r : Req) (c : Call) (d : Device) : Served :=
  match d.frontLaunch true (reqNumber r) ((c.args[0]?).getD 0) (some r) with
  | .waits => .notYet
  | .asked d1 => .asks d1
  | .refused e => .fails (d.dropFetched none [reqNumber r]) e
  | .held d1 => .later d1

/-- The 32 bytes of a log entry (R411). -/
def LogEntry.bytes (e : LogEntry) : List Byte :=
  bytesOf 8 (BitVec.ofNat 64 e.cycles) ++ [BitVec.ofNat 8 e.kind, BitVec.ofNat 8 e.die] ++ List.replicate 6 0 ++ bytesOf 8 e.unit ++
    bytesOf 8 e.detail

/-- MAINT_READ_LOG: 1 to 5 entries; an entry past the last reads as zeros. -/
def readLogCall (c : Call) (d : Device) : Served :=
  if c.arg 1 == 0 || 5 < c.arg 1 then .fails d .illegal
  else
    .done d 0 ((List.range (c.arg 1)).flatMap (fun i =>
      match d.ham.log[c.arg 0 + i]? with
      | some e => e.bytes
      | none => List.replicate 32 0))

/-- MAINT_FENCE_MAP: for each way, the slices of the domain whose way is fenced (R225). -/
def fenceMapCall (c : Call) (d : Device) : Served :=
  if 3 < c.arg 0 || 31 < c.arg 1 then .fails d .illegal
  else
    .done d 0 ((List.range 16).flatMap (fun w =>
      bytesOf 2 (BitVec.ofNat 64 ((List.range 16).foldl (fun m s =>
        if d.wayFenced (c.arg 0) (16 * c.arg 1 + s) w then m + 2 ^ s else m) 0))))

/-! The management service. -/

/-- The most the arithmetic clock may be under a cap, in MHz (R445). -/
def clockLimit (watts : Nat) : Option Nat :=
  match watts with
  | 2800 => some 1800
  | 2200 => some 1500
  | 1600 => some 1150
  | _ => none

/-- MGMT_SET_CAP (R445). -/
def setCapCall (c : Call) (d : Device) : Served :=
  match clockLimit (c.arg 0) with
  | none => .fails d .illegal
  | some mhz => .done { d with ham := { d.ham with cap := c.arg 0, clocks := d.ham.clocks.map (fun _ => mhz) } } 0 []

/-- MGMT_READ_POWER. -/
def readPowerCall (_c : Call) (d : Device) : Served :=
  let n := fun (len x : Nat) => bytesOf len (BitVec.ofNat 64 x)
  let sensor := fun (i : Nat) => (d.ham.sensors[i]?).getD 0
  .done d 0 (n 4 d.ham.cap ++ n 4 (sensor 0) ++ (List.range 4).flatMap (fun i => n 2 ((d.ham.clocks[i]?).getD 0)) ++
    (List.range 8).flatMap (fun i => n 2 (sensor (1 + i))))

/-- The launch of a packet address that is on the device. -/
def Device.launchAt (d : Device) (va : Nat) : Option Nat :=
  d.ctxIds.find? (fun c =>
    let x := d.ctx c
    x.va.toNat == va && (x.state == .running || x.state == .placing || x.state == .queued || x.state == .waiting))

/-- Start a pre-emption at a level, or go on with one under way (R378, R411). -/
def Device.preemptAt (d : Device) (c level : Nat) (area : Option Nat) (r : Option Req) : Device :=
  match (d.ctx c).preempt with
  | none =>
    let p := { d.newPreempt c level with save := area, requester := r }
    if level = 1 then d.beginDrain c p else if level = 2 then d.save c p else d.resetCtx c 0 p
  | some old =>
    let p := { old with save := area.or old.save, requester := r.or old.requester }
    if level ≤ old.level then d.modCtx c (fun x => { x with preempt := some p })
    else if level = 2 then d.save c p
    else d.resetCtx c 0 p

/-- MGMT_PREEMPT (R378). -/
def preemptCall (r : Req) (c : Call) (d : Device) : Served :=
  let level := c.arg 1
  if level == 0 || 3 < level || (level == 3 && c.arg 2 != 0) || (level != 3 && c.arg 2 % 4096 != 0) then .fails d .illegal
  else
    match d.launchAt (c.arg 0) with
    | none => .fails d .perm
    | some k => .later (d.preemptAt k level (if level = 3 then none else some (c.arg 2)) (some r))

/-- MGMT_RESTORE (R384): it waits while the saved blocks have no room. -/
def restoreCall (c : Call) (d : Device) : Served :=
  if c.arg 0 % 4096 != 0 then .fails d .illegal
  else
    match d.saved.find? (fun s => s.area == c.arg 0) with
    | none => .fails d .perm
    | some s => match d.restoreSaved s with | none => .notYet | some d1 => .done d1 0 []

/-! The debug service. -/

/-- The group that an argument names, in the attached context (R411): of several, the one attached last (DESIGN CHOICE, assumption 75). -/
def Device.debugGroup (d : Device) (x : Nat) : Except Cause (Nat × Nat) :=
  if 2 ^ 40 ≤ x || x / 16 % 16 != 0 then .error .illegal
  else
    match d.ham.attached.head? with
    | none => .error .perm
    | some c =>
      match (d.liveBlocks c).find? (fun b => (d.block b).idx == x / 256) with
      | none => .error .perm
      | some b =>
        let k := x % 16
        if k < (d.block b).groups.length && !((d.block b).group k).exited then .ok (b, k) else .error .perm

/-- The same, of a group that is under a debug stop. -/
def Device.stoppedGroup (d : Device) (x : Nat) : Except Cause (Nat × Nat) :=
  match d.debugGroup x with
  | .error e => .error e
  | .ok (b, k) => if ((d.block b).group k).stopped then .ok (b, k) else .error .perm

/-- DEBUG_ATTACH: one attachment a context. -/
def attachCall (c : Call) (d : Device) : Served :=
  match d.launchAt (c.arg 0) with
  | some k =>
    if d.ham.attached.contains k then .fails d .perm else .done { d with ham := { d.ham with attached := k :: d.ham.attached } } 0 []
  | none => .fails d .perm

/-- The gang that stopped goes on at EPC, which the service may have set (R385, R387). -/
def Group.fromStop (g : Group) : Group :=
  if g.inHandler then g
  else
    { g.mapSlices ((List.range 64).filter (fun i => bitOf g.handler i)) (fun _ s => { s with pc := bitsOf g.epc 0 32 }) with handler := 0 }
/-- The end of a debug stop. -/
def Group.resume (g : Group) : Group := if g.stopped then { g.fromStop with stopped := false, stepping := none } else g

/-- A thread that a BKPT stopped goes on at EPC (DESIGN CHOICE, assumption 54). -/
def Thread.resume (t : Thread) : Thread :=
  if t.stopped then { t with stopped := false, pc := bitsOf t.epc 0 32 } else t

/-- DEBUG_DETACH: every stopped agent of the context goes on. -/
def detachCall (_c : Call) (d : Device) : Served :=
  match d.ham.attached with
  | [] => .fails d .perm
  | k :: rest =>
    .done
      { d with
        ham := { d.ham with attached := rest }
        blocks := d.blocks.map (fun b =>
          if b.ctx == k then
            { b with groups := b.groups.map Group.resume, access := b.access.map Thread.resume, ridge := b.ridge.map Thread.resume }
          else b) } 0 []

/-- DEBUG_STOP_REQUEST: every gang of the group is at a packet boundary between steps (R385). -/
def stopCall (c : Call) (d : Device) : Served :=
  match d.debugGroup (c.arg 0) with
  | .error e => .fails d e
  | .ok (b, k) =>
    .done (d.modGroup b k (fun g => if g.stopped then g else { g with stopped := true, handler := if g.inHandler then g.handler else 0 })) 0 []

/-- DEBUG_STEP: the gang that holds a slice issues one packet (R387). -/
def stepCall (r : Req) (c : Call) (d : Device) : Served :=
  if 63 < c.arg 1 then .fails d .illegal
  else
    match d.stoppedGroup (c.arg 0) with
    | .error e => .fails d e
    | .ok (b, k) =>
      if (((d.block b).group k).slice (c.arg 1)).live == 0 then .fails d .perm
      else .later (d.modGroup b k (fun g => { g.fromStop with stepping := some (c.arg 1, r) }))

/-- DEBUG_RESUME. -/
def resumeCall (c : Call) (d : Device) : Served :=
  match d.stoppedGroup (c.arg 0) with
  | .error e => .fails d e
  | .ok (b, k) => .done (d.modGroup b k Group.resume) 0 []

/-- A selector: kind, register and lane (R411); none when a bit above them is set, or the register does not exist. -/
def selector (n nregs : Nat) : Option (Nat × Nat × Nat) :=
  let kind := n % 256
  let reg := n / 2 ^ 8 % 256
  let lane := n / 2 ^ 16
  let most := match kind with | 0 | 8 => nregs | 1 | 9 => 64 | 2 => 8 | _ => 256
  if 256 ≤ lane || 9 < kind || most ≤ reg then none else some (kind, reg, lane)

/-- The value a selector names; a full register's F/E bit reads 1. -/
def Group.select (g : Group) (kind reg lane : Nat) : DWord :=
  match kind with
  | 0 => zext (g.vAt reg lane)
  | 1 => g.sAt reg
  | 2 => if g.pAt reg lane then 1 else 0
  | 3 => zext (g.slice (lane / 4)).fmt
  | 4 => zext (g.slice (lane / 4)).lk
  | 5 => g.cause
  | 6 => g.epc
  | 7 => zext g.recCnt
  | 8 => if g.vIsEmpty reg (lane / 4) then 0 else 1
  | _ => if g.sIsEmpty reg then 0 else 1

/-- Write the value a selector names; the reserved bits of `fmt` read as 0 (R260). -/
def Group.assign (g : Group) (kind reg lane : Nat) (x : DWord) : Group :=
  match kind with
  | 0 => g.setV [(reg * 256 + lane, bitsOf x 0 32)]
  | 1 => g.setS reg x
  | 2 => g.setP [(reg * 256 + lane, bitOf x 0)]
  | 3 => g.modSlice (lane / 4) (fun s => { s with fmt := bitsOf x 0 32 &&& 3 })
  | 4 => g.modSlice (lane / 4) (fun s => { s with lk := bitsOf x 0 32 })
  | 5 => { g with cause := x }
  | 6 => { g with epc := zext (bitsOf x 0 32) }
  | 8 => g.markV (!bitOf x 0) [reg] [lane / 4]
  | 9 => g.markS (!bitOf x 0) [reg]
  | _ => g

/-- DEBUG_READ. -/
def readCall (c : Call) (d : Device) : Served :=
  match d.stoppedGroup (c.arg 0) with
  | .error e => .fails d e
  | .ok (b, k) =>
    match selector (c.arg 1) (d.nregs (.group b k)) with
    | none => .fails d .illegal
    | some (kind, reg, lane) => .done d 0 (bytesOf 8 (((d.block b).group k).select kind reg lane))

/-- DEBUG_WRITE: REC is read only. -/
def writeCall (c : Call) (d : Device) : Served :=
  match d.stoppedGroup (c.arg 0) with
  | .error e => .fails d e
  | .ok (b, k) =>
    match selector (c.arg 1) (d.nregs (.group b k)) with
    | none => .fails d .illegal
    | some (kind, reg, lane) =>
      if kind = 7 then .fails d .illegal
      else .done (d.modGroup b k (fun g => g.assign kind reg lane ((c.args[2]?).getD 0))) 0 []

/-- DEBUG_CORE_STOP (R386). -/
def coreStopCall (c : Call) (d : Device) : Served :=
  let n := c.arg 0
  let core := n / 2 ^ 16 * 32 + n / 2 ^ 12 % 8 * 4 + n / 2 ^ 8 % 4
  if 2 ^ 18 ≤ n || n % 2 ^ 8 != 0 || n / 2 ^ 10 % 4 != 0 || n / 2 ^ 15 % 2 != 0 || 1 < c.arg 1 then .fails d .illegal
  else .done (d.modCore core (fun k => { k with coreStop := c.arg 1 == 1 })) 0 []

/-! Serving. -/

/-- What an operation of a service does (R411). -/
def serviceOp (r : Req) (service op : Nat) : Call → Device → Served :=
  match service, op with
  | 1, 2 => readLogCall
  | 1, 3 => fenceMapCall
  | 2, 1 => setCapCall
  | 2, 2 => readPowerCall
  | 2, 3 => preemptCall r
  | 2, 4 => restoreCall
  | 3, 1 => attachCall
  | 3, 2 => detachCall
  | 3, 3 => stopCall
  | 3, 4 => stepCall r
  | 3, 5 => resumeCall
  | 3, 6 => readCall
  | 3, 7 => writeCall
  | 3, 8 => coreStopCall
  | _, _ => admitCall r

/-- The device once the Hamada core serves a call. -/
def Device.beginCall (d : Device) (r : Req) (c : Call) : Device :=
  { d with ham := { d.ham with serving := d.ham.serving ++ [(c.service, r, c.seq)] } }

/-- A call that can be served: the Hamada core serves one at a time per service (R412), and the operation can begin. -/
def Device.callReady (d : Device) (r : Req) (c : Call) : Bool :=
  !d.ham.serving.any (fun q => q.1 == c.service || q.2.1 == r) &&
    (c.dirty || !listedOp c.service c.op ||
      match serviceOp r c.service c.op c (d.beginCall r c) with | .notYet => false | _ => true)

/-- How many named blocks come before block i in turn: after the block served last, and round (R409). -/
def Device.turnsTo (d : Device) (i : Nat) : Nat := (i + 7 - d.ham.lastBlock % 8) % 8
/-- It is the turn of a request: no named block that comes before it in turn has one that can be served (R409). A datagram waits
for no block. -/
def Device.blockTurn (d : Device) (r : Req) : Bool :=
  match r with
  | .datagram _ _ => true
  | .block i => (List.range 8).all (fun j => !(decide (d.turnsTo j < d.turnsTo i) && (d.callOf (.block j)).any (d.callReady (.block j))))

/-- The block of a request is the one served last. -/
def Device.noteTurn (d : Device) (r : Req) : Device :=
  match r with
  | .block i => { d with ham := { d.ham with lastBlock := i } }
  | .datagram _ _ => d

/-- Serve a call (R410): what R411 does not list, and a nonzero byte marked zero, is ILLEGAL. -/
def Device.serveCall (d : Device) (r : Req) (c : Call) : Device :=
  let b := (d.noteTurn r).beginCall r c
  if c.dirty || !listedOp c.service c.op then b.answer r Cause.illegal.code []
  else
    match serviceOp r c.service c.op c b with
    | .done d1 result data => d1.answer r result data
    | .later d1 => d1
    | .asks d1 => { d1 with ham := { d1.ham with serving := d.ham.serving, lastBlock := d.ham.lastBlock } }
    | .notYet => d

/-- A request is served as operation `op` of a service, when it is its turn and its service is free (R409, R412); a datagram from an
unlisted source is discarded and logged. -/
def Device.serveAs (d : Device) (r : Req) (service op : Nat) : Device :=
  if d.unlisted r then d.logEntry 7 0 0 0
  else
    match d.callOf r with
    | none => d
    | some c =>
      if d.ham.serving.any (fun q => q.1 == c.service || q.2.1 == r) || !d.blockTurn r then d
      else if listedOp c.service c.op && (c.service != service || c.op != op) then d
      else d.serveCall r c

def execMaintAdmit (r : Req) (s : State) := s.event (fun d => d.serveAs r 1 1)
def execMaintReadLog (r : Req) (s : State) := s.event (fun d => d.serveAs r 1 2)
def execMaintFenceMap (r : Req) (s : State) := s.event (fun d => d.serveAs r 1 3)
def execMgmtSetCap (r : Req) (s : State) := s.event (fun d => d.serveAs r 2 1)
def execMgmtReadPower (r : Req) (s : State) := s.event (fun d => d.serveAs r 2 2)
def execMgmtPreempt (r : Req) (s : State) := s.event (fun d => d.serveAs r 2 3)
def execMgmtRestore (r : Req) (s : State) := s.event (fun d => d.serveAs r 2 4)
def execDebugAttach (r : Req) (s : State) := s.event (fun d => d.serveAs r 3 1)
def execDebugDetach (r : Req) (s : State) := s.event (fun d => d.serveAs r 3 2)
def execDebugStopRequest (r : Req) (s : State) := s.event (fun d => d.serveAs r 3 3)
def execDebugStep (r : Req) (s : State) := s.event (fun d => d.serveAs r 3 4)
def execDebugResume (r : Req) (s : State) := s.event (fun d => d.serveAs r 3 5)
def execDebugRead (r : Req) (s : State) := s.event (fun d => d.serveAs r 3 6)
def execDebugWrite (r : Req) (s : State) := s.event (fun d => d.serveAs r 3 7)
def execDebugCoreStop (r : Req) (s : State) := s.event (fun d => d.serveAs r 3 8)

/-! The front program and the register block. -/

/-- A request block of the front program: the 32 bytes that hold its four words. -/
def frontLocs (base : DWord) : List Loc := (List.range 32).map (fun n => Loc.mem (base.toNat + n))

/-- FRONT_REQUEST (R415): a changed sequence is served: `launch` on the packet, the result, then the sequence. -/
def Device.frontServe (d : Device) (i : Nat) : Device :=
  match d.ham.front[i]? with
  | none => d
  | some (base, ack) =>
    let at' := fun (off : Nat) => ((frontLocs base).drop off).take 8
    let seq := d.valueAt (at' 0)
    if d.held (frontLocs base) || seq == ack then d
    else
      let close := fun (d : Device) (result : BitVec 8) =>
        let d1 := (d.storeValue (at' 24) (zext result)).storeValue (at' 16) seq
        ({ d1 with ham := { d1.ham with front := listSet d1.ham.front i (base, seq) } } : Device)
      match d.frontLaunch false i (d.valueAt (at' 8)) none with
      | .waits => d
      | .asked d1 => d1
      | .refused e => close ((d.dropFetched none [i]).logEntry 6 0 0 0) e.code
      | .held d1 => close d1 0
def execFrontRequest (i : Nat) (s : State) := s.event (fun d => d.frontServe i)

/-- SERVICE_BLOCK_ADDRESS_WRITE (R409): the host names a service block, whose served sequence is what the block says; an
address that is not 256-byte aligned names none. -/
def Device.nameBlock (d : Device) (i : Nat) (addr : DWord) : Device :=
  if 8 ≤ i then d
  else
    let a : DWord := if addr.toNat % 256 == 0 then addr else 0
    let served := d.valueAt ((List.range 8).map (fun n => Loc.mem (a.toNat + 64 + n)))
    { d with ham := { d.ham with services := listSet d.ham.services i a, servedSeq := listSet d.ham.servedSeq i served } }
def execServiceBlockAddressWrite (i : Nat) (addr : DWord) (s : State) := s.event (fun d => d.nameBlock i addr)

end Sys2Proof.Machine
end

