-- ==== Sys2Proof/Machine/Xmss.lean ====
section
/-! DEFINITION. SHAKE256 and the XMSS scheme of R438 and R439: n = 32, w = 16. R438 names RFC 8391 with SHAKE256; the spec gives neither function,
and both are taken from their standards (FIPS 202; RFC 8391 with the hash functions of SP 800-208; PRESUMED, assumption 87). The tree height is a
parameter, 20 for every key of a device. -/

namespace Sys2Proof.Machine

/-! SHAKE256. -/

/-- Lane x, y of the permutation's 25. -/
def laneAt (a : List DWord) (x y : Nat) : DWord := (a[x % 5 + 5 * (y % 5)]?).getD 0
/-- The 25 lanes that a function of x and y gives. -/
def lanesOf (f : Nat → Nat → DWord) : List DWord := (List.range 25).map (fun i => f (i % 5) (i / 5))

/-- Each lane takes the parity of two columns beside its own. -/
def keccakTheta (a : List DWord) : List DWord :=
  let column := fun (x : Nat) => (List.range 5).foldl (fun acc y => acc ^^^ laneAt a x y) 0
  let cs := (List.range 5).map column
  let c := fun (x : Nat) => (cs[x % 5]?).getD 0
  lanesOf (fun x y => laneAt a x y ^^^ (c (x + 4) ^^^ (c (x + 1)).rotateLeft 1))
/-- Lanes turn by the triangular numbers and change places, along the walk that starts at lane 1, 0. -/
def keccakRhoPi (a : List DWord) : List DWord :=
  ((List.range 24).foldl (fun (s : (Nat × Nat) × List DWord) t =>
    let (x, y) := s.1
    let z := (2 * x + 3 * y) % 5
    ((y, z), s.2.set (y + 5 * z) ((laneAt a x y).rotateLeft ((t + 1) * (t + 2) / 2 % 64)))) ((1, 0), a)).2
/-- Each lane takes the bits that the next lane clears and the one after it sets. -/
def keccakChi (a : List DWord) : List DWord := lanesOf (fun x y => laneAt a x y ^^^ (~~~laneAt a (x + 1) y &&& laneAt a (x + 2) y))

/-- The byte of the feedback register after t steps. -/
def keccakFeed : Nat → Nat
  | 0 => 1
  | t + 1 => let r := 2 * keccakFeed t; if r < 256 then r else (r ^^^ 0x171)
/-- The constant of a round: bit 2^j - 1 comes from the feedback register. -/
def keccakConst (round : Nat) : DWord :=
  (List.range 7).foldl (fun (acc : DWord) j => if keccakFeed ((j + 7 * round) % 255) % 2 == 1 then acc ||| BitVec.ofNat 64 (2 ^ (2 ^ j - 1)) else acc) 0
/-- The constants of the 24 rounds. -/
def keccakConsts : List DWord := (List.range 24).map keccakConst
/-- The permutation of 1600 bits. -/
def keccakF (a : List DWord) : List DWord :=
  keccakConsts.foldl (fun s k =>
    let b := keccakChi (keccakRhoPi (keccakTheta s))
    b.set 0 (laneAt b 0 0 ^^^ k)) a

/-- Bytes that a permutation takes in. -/
def shakeRate : Nat := 136
/-- A message with its padding. -/
def shakePad (m : List Byte) : List Byte :=
  match shakeRate - m.length % shakeRate with
  | 1 => m ++ [0x9F]
  | q => m ++ [0x1F] ++ List.replicate (q - 2) 0 ++ [0x80]
/-- SHAKE256 with 32 bytes of output. -/
def shake256 (m : List Byte) : List Byte :=
  let p := shakePad m
  let block := fun (i : Nat) => (p.drop (shakeRate * i)).take shakeRate
  let word := fun (bs : List Byte) (k : Nat) => if k < 17 then BitVec.ofNat 64 (bytesNat ((bs.drop (8 * k)).take 8)) else 0
  let s := (List.range (p.length / shakeRate)).foldl (fun s i =>
    let bs := block i
    keccakF ((List.range 25).map (fun k => (s[k]?).getD 0 ^^^ word bs k))) (List.replicate 25 0)
  (s.take 4).flatMap (bytesOf 8)

/-! Hash functions and addresses. -/

/-- n bytes of a number, the highest first. -/
def toByte (n x : Nat) : List Byte := (List.range n).map (fun i => BitVec.ofNat 8 (x / 256 ^ (n - 1 - i)))

/-- The function number k of SP 800-208: F, H, H_msg, PRF and PRF_keygen are 0 to 4. -/
def xmssHash (k : Nat) (key m : List Byte) : List Byte := shake256 (toByte 32 k ++ key ++ m)

/-- An address: its type, three words that depend on the type, and which of a node's keys and masks it names; the layer and the tree are 0. -/
structure XmssAdrs where
  type : Nat
  a : Nat
  b : Nat
  c : Nat

/-- Its 32 bytes, with `m` the word that tells key and masks apart. -/
def XmssAdrs.bytes (x : XmssAdrs) (m : Nat) : List Byte :=
  List.replicate 12 0 ++ [x.type, x.a, x.b, x.c, m].flatMap (toByte 4)

/-- Bytes of two strings, exclusive or. -/
def xorBytes (xs ys : List Byte) : List Byte := List.zipWith (fun x y => x ^^^ y) xs ys

/-- Two nodes make the one above them. -/
def randHash (seed : List Byte) (x : XmssAdrs) (left right : List Byte) : List Byte :=
  let prf := fun (m : Nat) => xmssHash 3 seed (x.bytes m)
  xmssHash 1 (prf 0) (xorBytes left (prf 1) ++ xorBytes right (prf 2))

/-! One-time signatures. -/

/-- Chains of a one-time key: 64 for the digits of a message, 3 for their sum. -/
def wotsLen : Nat := 67

/-- One step of chain `i` of one-time key `ots`, from position k. -/
def wotsStep (seed : List Byte) (ots i k : Nat) (v : List Byte) : List Byte :=
  let x : XmssAdrs := { type := 0, a := ots, b := i, c := k }
  let prf := fun (m : Nat) => xmssHash 3 seed (x.bytes m)
  xmssHash 0 (prf 0) (xorBytes v (prf 1))
/-- n steps from position k. -/
def wotsChain (seed : List Byte) (ots i : Nat) : Nat → Nat → List Byte → List Byte
  | 0, _, v => v
  | n + 1, k, v => wotsChain seed ots i n (k + 1) (wotsStep seed ots i k v)

/-- The digits of a 32-byte message, and of their sum. -/
def wotsDigits (m : List Byte) : List Nat :=
  let ds := m.flatMap (fun b => [b.toNat / 16, b.toNat % 16])
  let sum := (ds.map (fun x => 15 - x)).sum
  ds ++ [sum / 256 % 16, sum / 16 % 16, sum % 16]

/-- The leaf of a one-time public key: its values are hashed in pairs, and one left over goes up as it is. -/
def lTree (seed : List Byte) (ots : Nat) : Nat → Nat → List (List Byte) → List Byte
  | 0, _, vs => (vs[0]?).getD []
  | fuel + 1, level, vs =>
    if vs.length ≤ 1 then (vs[0]?).getD []
    else
      let up := (List.range (vs.length / 2)).map (fun i =>
        randHash seed { type := 1, a := ots, b := level, c := i } ((vs[2 * i]?).getD []) ((vs[2 * i + 1]?).getD []))
      lTree seed ots fuel (level + 1) (if vs.length % 2 == 1 then up ++ [(vs[vs.length - 1]?).getD []] else up)
/-- The leaf that the ends of all chains make. -/
def wotsLeaf (seed : List Byte) (ots : Nat) (ends : List (List Byte)) : List Byte := lTree seed ots wotsLen 0 ends

/-! Keys, signatures and their check. -/

/-- The start of chain i of one-time key `ots`. -/
def XmssKey.start (k : XmssKey) (ots i : Nat) : List Byte :=
  xmssHash 4 k.secret (k.seed ++ ({ type := 0, a := ots, b := i, c := 0 } : XmssAdrs).bytes 0)
/-- Leaf number `ots` of a key. -/
def XmssKey.leaf (k : XmssKey) (ots : Nat) : List Byte :=
  wotsLeaf k.seed ots ((List.range wotsLen).map (fun i => wotsChain k.seed ots i 15 0 (k.start ots i)))
/-- A node of a key's tree. -/
def XmssKey.node (k : XmssKey) : Nat → Nat → List Byte
  | 0, i => k.leaf i
  | l + 1, i => randHash k.seed { type := 2, a := 0, b := l, c := i } (k.node l (2 * i)) (k.node l (2 * i + 1))

/-- The root that a leaf and the nodes beside its path give, from a level up. -/
def xmssClimb (seed : List Byte) : List (List Byte) → Nat → Nat → List Byte → List Byte
  | [], _, _, v => v
  | side :: rest, level, i, v =>
    let x : XmssAdrs := { type := 2, a := 0, b := level, c := i / 2 }
    xmssClimb seed rest (level + 1) (i / 2) (if i % 2 == 0 then randHash seed x v side else randHash seed x side v)

/-- What a one-time key signs: the message under the signature's randomiser, the root and the index. -/
def xmssDigest (r root : List Byte) (idx : Nat) (m : List Byte) : List Byte := xmssHash 2 (r ++ root ++ toByte 32 idx) m

/-- A public key of a tree: its parameters' number, its root and its seed. -/
def xmssPublic (root seed : List Byte) : List Byte := toByte 4 0x12 ++ root ++ seed
/-- The public key of a key. -/
def XmssKey.pub (k : XmssKey) (height : Nat) : List Byte := xmssPublic (k.node height 0) k.seed

/-- The bytes of a signature. -/
def xmssSig (idx : Nat) (r : List Byte) (ots side : List (List Byte)) : List Byte := toByte 4 idx ++ r ++ ots.flatten ++ side.flatten

/-- The chains of a one-time signature, each gone as far as its digit says. -/
def XmssKey.ots (k : XmssKey) (idx : Nat) (m : List Byte) : List (List Byte) :=
  (wotsDigits m).mapIdx (fun i n => wotsChain k.seed idx i n 0 (k.start idx i))
/-- The nodes beside the path of a leaf. -/
def XmssKey.path (k : XmssKey) (height idx : Nat) : List (List Byte) :=
  (List.range height).map (fun l => k.node l (idx / 2 ^ l + 1 - 2 * (idx / 2 ^ l % 2)))
/-- Sign a message with an index. -/
def XmssKey.sign (k : XmssKey) (height idx : Nat) (m : List Byte) : List Byte :=
  let r := xmssHash 3 k.prf (toByte 32 idx)
  xmssSig idx r (k.ots idx (xmssDigest r (k.node height 0) idx m)) (k.path height idx)

/-- Strings of 32 bytes, from a place on. -/
def pieces32 (bs : List Byte) (off n : Nat) : List (List Byte) := (List.range n).map (fun i => (bs.drop (off + 32 * i)).take 32)

/-- A signature verifies under a public key. -/
def xmssVerify (height : Nat) (pub m sig : List Byte) : Bool :=
  let root := (pub.drop 4).take 32
  let seed := (pub.drop 36).take 32
  let idx := (sig.take 4).foldl (fun acc b => 256 * acc + b.toNat) 0
  let r := (sig.drop 4).take 32
  let ends := (List.zip (wotsDigits (xmssDigest r root idx m)) (pieces32 sig 36 wotsLen)).mapIdx (fun i p =>
    wotsChain seed idx i (15 - p.1) p.1 p.2)
  pub.length == 68 && pub.take 4 == toByte 4 0x12 && sig.length == 36 + 32 * (wotsLen + height) && decide (idx < 2 ^ height) &&
    xmssClimb seed (pieces32 sig (36 + 32 * wotsLen) height) 0 idx (wotsLeaf seed idx ends) == root

/-- The height of every key's tree (R438, R439). -/
def xmssHeight : Nat := 20

end Sys2Proof.Machine
end

