-- ==== Sys2Proof/Machine/Boot.lean ====
section
/-! DEFINITION. Boot and power (R437 to R439, R445 to R447), attestation (R440), self-test and fencing (R225, R442, R443),
and page migration (R226, R417). -/

namespace Sys2Proof.Machine

/-! Attestation. -/

/-- The fuse bits of the XMSS state counter. -/
def xmssFuses : Nat := 1024
/-- Indices that one fuse bit reserves. -/
def xmssRun : Nat := 1024

/-- Burn the next fuse bit, which reserves its indices (R439). -/
def Hamada.reserve (h : Hamada) : Hamada :=
  if h.xmssBits < xmssFuses then { h with xmssBits := h.xmssBits + 1, xmssNext := h.xmssBits * xmssRun } else h

/-- A digest, as the number of its bytes. -/
def digestOf (m : List Byte) : BitVec 256 := BitVec.ofNat 256 (bytesNat (shake256 m))

/-- n bytes of a number, the lowest first. -/
def natBytes (n x : Nat) : List Byte := (List.range n).map (fun i => BitVec.ofNat 8 (x / 256 ^ i))

/-- What the signature of a response is over: its fields in the order of R440, each as its bytes (DESIGN CHOICE, assumption 87). -/
def Attestation.bytes (a : Attestation) : List Byte :=
  natBytes 16 a.ident.toNat ++ natBytes 4 a.digests.length ++ a.digests.flatMap (fun x => natBytes 32 x.toNat) ++ natBytes 4 a.version.toNat ++
    natBytes 4 a.index ++ a.fenced.flatMap (natBytes 4) ++ natBytes 2 a.devNum.toNat ++ natBytes 32 a.nonce.toNat

/-- Fenced units by kind: cores, L2 ways, DRAM frames, lanes. -/
def fencedCounts (ps : List Piece) : List Nat :=
  let n := fun (f : Piece → Bool) => (ps.filter f).length
  [n (fun p => match p with | .core .. => true | _ => false), n (fun p => match p with | .l2way .. => true | _ => false),
   n (fun p => match p with | .dramFrame .. => true | _ => false), n (fun p => match p with | .lane .. => true | _ => false)]

/-- ATTESTATION_REQUEST (R439, R440): refused once every fuse bit is burned; a reservation that has run out is renewed; the response is signed
with the next index of the device's own key. -/
def Device.attest (d : Device) (nonce : BitVec 256) : Device :=
  let h := if d.ham.xmssBits * xmssRun ≤ d.ham.xmssNext then d.ham.reserve else d.ham
  if xmssFuses ≤ h.xmssBits then { d with ham := h }
  else
    let a : Attestation :=
      { ident := h.ident, digests := h.digests, version := h.minVersion, index := h.xmssNext, fenced := fencedCounts h.fenced
        devNum := h.devNum, nonce := nonce, signature := [] }
    let signed := { a with signature := h.identity.sign xmssHeight h.xmssNext a.bytes }
    { d with ham := { h with xmssNext := h.xmssNext + 1, attests := h.attests ++ [signed] } }
def execAttestationRequest (nonce : BitVec 256) (s : State) := s.event (fun d => d.attest nonce)

/-! Fencing. -/

/-- What is fenced when a unit fails: half its port's lanes for a lane, the core for a row of its memories, else the unit (R443). -/
def pieceFences : Piece → List Piece
  | .coreRow die k _ => [.core die k]
  | .lane p l => (List.range 4).map (fun i => .lane p (l / 4 * 4 + i))
  | u => [u]

/-- A byte of a line cannot be delivered. -/
def Device.badLine (d : Device) (line : Nat) : Bool := (List.range 128).any (fun i => Fmap.get false d.poison (line * 128 + i))

/-- A line of a way that is fenced and that SECDED cannot deliver: a later access finds memory's value, and a dirty one is logged (R225). -/
def Device.loseLine (d : Device) (x : L2Line) : Device :=
  if !d.badLine x.line then d
  else
    let found : Device := { d with poison := Fmap.setAll false d.poison ((List.range 128).map (fun i => (x.line * 128 + i, false))) }
    match x.behind with
    | none => found
    | some bs =>
      ({ found with mem := Fmap.setAll 0 d.mem (bs.mapIdx (fun i b => (x.line * 128 + i, b))) } : Device).logPiece 2
        (.l2way x.die x.slice x.way)

/-- A way of one slice leaves use (R225): a caching piece is written back as far as it can be delivered and holds no line, a
scratchpad piece loses its contents, and a domain that would keep no way in a slice has WAYPART 0xFFFF first. -/
def Device.fenceWay (d : Device) (die slice way : Nat) : Device :=
  let dom := slice / 16
  let u := Piece.l2way die slice way
  let after := { d with ham := { d.ham with fenced := d.ham.fenced ++ [u] } }
  let d1 := if after.waysLeft die dom (d.wayPart die dom) then d else d.setWaypart die dom 0xFFFF
  let here := fun (x : L2Line) => x.die == die && x.slice == slice && x.way == way
  let d2 := ((d1.l2.filter here).foldl Device.loseLine d1).lineOp .wbinv here
  let lost := fun (k : Nat) =>
    k / 2 ^ 29 == die && k % 2 ^ 29 / 2 ^ 24 == dom && k / 2 ^ 20 % 16 == way && k / 2 ^ 16 % 16 == slice % 16
  { d2 with scratch := d2.scratch.filter (fun p => !lost p.1) }

/-- Fence a failed unit (R443). -/
def Device.fence (d : Device) (u : Piece) : Device :=
  let d1 := match u with | .l2way die slice way => d.fenceWay die slice way | _ => d
  let new := (pieceFences u).filter (fun p => !d1.ham.fenced.contains p)
  ({ d1 with ham := { d1.ham with fenced := d1.ham.fenced ++ new } } : Device).logPiece 4 u

/-! Boot. -/

/-- The signature that comes with an image verifies under the Greath image key: the key that comes with it has the digest that is fused (R438). -/
def Hamada.signedBy (h : Hamada) (i : BootImage) : Bool :=
  digestOf i.key == h.imageKey && xmssVerify xmssHeight i.key i.bytes i.signature
/-- An image is accepted (R438). -/
def Hamada.imageOk (h : Hamada) (i : BootImage) : Bool :=
  h.signedBy i && h.minVersion ≤ i.version && decide (i.bytes.length ≤ 64 * 2 ^ 20)

/-- The image that boots: the first path's, else the other's. -/
def Hamada.bootChoice (h : Hamada) (first second : Option BootImage) : Option BootImage :=
  match first.filter h.imageOk with
  | some i => some i
  | none => second.filter h.imageOk

/-- A range that an HDM decoder can map (R416): of the CXL tier, a multiple of 256 MiB, over 1, 2 or 4 ports. -/
def hdmOk (h : Hdm) : Bool :=
  h.len != 0 && h.len % 2 ^ 28 == 0 && decide (h.first + h.len ≤ 2 ^ 43) && (h.ports == 1 || h.ports == 2 || h.ports == 4) &&
    (h.gran == 256 || h.gran == 1024 || h.gran == 4096)
/-- The registers of a context hold only values that a program could write (R397); the firmware keeps to them. -/
def regsOk (r : CtxRegs) : Bool :=
  csrOk 1 r.spwin && csrOk 2 (zext r.splim) && csrOk 4 (zext r.formto) && csrOk 5 r.tslice && csrOk 6 (zext r.pdrain) &&
    csrOk 7 (zext r.psave)

/-- Bytes that the boot does not clear: those of the CXL tier and of the host. -/
def farBytes (m : Fmap Byte) : Fmap Byte := m.filter (fun p => decide (2 ^ 43 ≤ p.1))

/-- The Hamada cores' fuses, which outlive power (R437, R439). -/
def Hamada.fuses (h : Hamada) : Hamada :=
  { Hamada.reset with ident := h.ident, identity := h.identity, imageKey := h.imageKey, minVersion := h.minVersion, xmssBits := h.xmssBits, xmssNext := h.xmssBits * xmssRun,
                      bootPath := h.bootPath, sensors := h.sensors }

/-- What the Hamada cores hold once an image runs: what its configuration lists, and what its firmware sets up (R396, R415, R416,
R419, R438, R439). -/
def Hamada.runImage (h : Hamada) (i : BootImage) : Hamada :=
  let mine := (i.devices.find? (fun p => p.1 == h.ident)).map Prod.snd
  { { h with minVersion := if h.minVersion < i.minVersion then i.minVersion else h.minVersion }.reserve with
    digests := [digestOf i.bytes], devNum := mine.getD 0, listed := mine.isSome, numbers := i.devices.map Prod.snd, sources := i.sources
    decoders := (i.decoders.filter hdmOk).take 8
    regs := if regsOk i.regs then i.regs else CtxRegs.reset
    handlerBase := i.handlerBase, frontRoot := i.frontRoot
    front := ((i.front.filter (fun a => a.toNat % 128 == 0)).take 64).map (fun a => (a, 0)) }

/-- POWER_GOOD (R437 to R439): the boot runs to step 6 with the image of the path that fuse bit 0 selects, or of the other; with none
it stays in the boot ROM and reports over the management port. Units that fail step 4 are fenced before they are used. -/
def Device.powerUp (d : Device) (mgmt heotte : Option BootImage) (failed : List Piece) : Device :=
  if d.boot != .off then d
  else
    let h := d.ham.fuses
    let base : Device := { Device.reset with mem := farBytes d.mem, ham := h }
    let (first, second) := if h.bootPath then (heotte, mgmt) else (mgmt, heotte)
    match h.bootChoice first second with
    | none => { base with boot := .rom, mem := d.mem, ham := { h with bootReport := true } }
    | some i => failed.foldl Device.fence { base with ham := h.runImage i }
def execPowerGood (mgmt heotte : Option BootImage) (failed : List Piece) (s : State) :=
  s.event (fun d => d.powerUp mgmt heotte failed)

/-- POWER_OFF (R437, R439): the fuses and the contents of DRAM stay; a dirty line of L2 is lost, and DRAM holds what it held
before. -/
def Device.powerDown (d : Device) : Device :=
  let kept := (d.lineOp .inv (fun _ => true)).mem
  { Device.reset with boot := .off, mem := kept, ham := d.ham.fuses }
def execPowerOff (s : State) := s.event Device.powerDown

/-- NEIGHBOUR_LINK_TRAINING (R419): the two devices exchange numbers. A neighbour that has this device's number, or that of another
neighbour, keeps the port down, which trained later, and is logged. -/
def Device.trainPort (d : Device) (port : Nat) (num : BitVec 12) (ident : BitVec 128) : Device :=
  if !d.ham.listed || 24 ≤ port then d
  else
    let others := d.ham.ports.filter (fun p => p.1 != port)
    let told := d.ham.announced.filter (fun p => p.1 != port) ++ [(port, d.ham.devNum)]
    if num == d.ham.devNum || others.any (fun p => p.2.1 == num && p.2.2 != ident) then
      ({ d with ham := { d.ham with ports := others, announced := told } } : Device).logEntry 7 0 (BitVec.ofNat 64 (port * 8)) 0
    else { d with ham := { d.ham with ports := others ++ [(port, num, ident)], announced := told } }
def execNeighbourLinkTraining (port : Nat) (n : Neighbour) (s : State) := s.event (fun d => d.trainPort port n.num n.ident)

/-! Errors and self-test. -/

/-- Bytes at locations cannot be delivered any more. -/
def Device.spoil (d : Device) (ls : List Loc) : Device :=
  { d with poison := Fmap.setAll false d.poison (ls.map (fun l => (locKey (d.settle l), true))) }
/-- What an error that cannot be corrected leaves (R368, R441; DESIGN CHOICE, assumption 55). -/
def Device.leave (d : Device) (p : ErrorPlace) : Device :=
  match p with
  | .nothing => d
  | .memory pa len => d.spoil ((List.range (min len 4096)).map (fun i => Loc.mem (pa + i)))
  | .scratch k len => d.spoil ((List.range (min len 4096)).map (fun i => Loc.scratch (k + i)))
  | .stash b off len => d.spoil ((List.range (min len 4096)).map (fun i => Loc.stash b (off + i)))
  | .vreg b k r lane => d.modGroup b k (fun g => { g with vBad := Fmap.set false g.vBad (r * 256 + lane) true })
  | .transfer k => { d with fills := listModify (fun (f : Fill) => { f with vErr := f.v.map Prod.fst, sErr := true }) d.fills k }
  | .queueTransfer k => { d with qfills := listModify (fun (f : QFill) => { f with err := List.range 256 }) d.qfills k }

/-- The contexts with a block on a core are pre-empted at level 2. -/
def Device.clearCore (d : Device) (core : Nat) : Device :=
  (d.ctxIds.filter (fun c => (d.liveBlocks c).any (fun b => (d.block b).core == core))).foldl (fun d c => d.preemptAt c 2 none none) d
/-- No live block is on a core. -/
def Device.coreEmpty (d : Device) (core : Nat) : Bool := d.blocks.all (fun b => b.ended || b.core != core)

/-- ERROR_DETECTED (R442): logged, and the unit goes under test; the contexts of a core are pre-empted at level 2 first. Data that
could not be corrected is marked, so that whoever reads it traps or says so. -/
def Device.detect (d : Device) (u : Piece) (corrected : Bool) (left : ErrorPlace) : Device :=
  let d0 := if corrected then d else d.leave left
  let d1 := d0.logPiece (if corrected then 1 else 2) u
  let d2 := { d1 with ham := { d1.ham with testing := d1.ham.testing ++ [(u, corrected)] } }
  match u with
  | .core die k => d2.clearCore (die * 32 + k)
  | _ => d2
def execErrorDetected (u : Piece) (e : ErrorFound) (s : State) := s.event (fun d => d.detect u e.corrected e.left)

/-- The ways of a domain whose bytes a fencing of one way reaches: that way, and those that cache again where no other way would be left
(R225). -/
def Device.waysReached (d : Device) (die slice way : Nat) (w : Nat) : Bool :=
  let dom := slice / 16
  let after := { d with ham := { d.ham with fenced := d.ham.fenced ++ [Piece.l2way die slice way] } }
  w == way || (!after.waysLeft die dom (d.wayPart die dom) && !bitOf (d.wayPart die dom) w)

/-- A test can end: a core under test has no context left on it, and what engines do at an L2 way has been performed (R224, R225, R442). -/
def Device.testReady (d : Device) (u : Piece) : Bool :=
  d.ham.testing.any (fun t => t.1 == u) &&
    match u with
    | .core die k => d.coreEmpty (die * 32 + k)
    | .l2way die slice way =>
      let lines := (d.l2.filter (fun x => x.die == die && x.slice == slice && x.way == way)).map (fun x => x.line)
      !d.busyWhere lines.contains && !d.scratchBusy die (slice / 16) (d.waysReached die slice way)
    | _ => true

/-- The contexts that the firmware saved off a core are placed again where there is room (R443). -/
def Device.restoreFrom (d : Device) (core : Nat) : Device :=
  (d.saved.filter (fun s => s.area == firmwareArea s.ctx && s.blocks.any (fun q => q.2.core == core))).foldl (fun d s =>
    match d.restoreSaved s with | some d1 => d1 | none => d) d

/-- SELF_TEST_DONE (R442, R443): a passed test classes the error transient; a failed one fences the unit. Before a core is fenced for a row of its
memories, its contexts are pre-empted as for a test of the core, and the row stays under test until it is empty (DESIGN CHOICE, assumption 88). -/
def Device.testDone (d : Device) (u : Piece) (passed : Bool) : Device :=
  let d1 := { d with ham := { d.ham with testing := d.ham.testing.filter (fun t => t.1 != u) } }
  let d2 := if passed then d1.logPiece 3 u else d1.fence u
  if !d.testReady u then d
  else
    match u with
    | .core die k => d2.restoreFrom (die * 32 + k)
    | .coreRow die k _ =>
      if passed then d2 else if d.coreEmpty (die * 32 + k) then d2.restoreFrom (die * 32 + k) else d.clearCore (die * 32 + k)
    | _ => d2
def execSelfTestDone (u : Piece) (passed : Bool) (s : State) := s.event (fun d => d.testDone u passed)

/-! Power and heat. -/

/-- Lower the clock of a die by a step of 50 MHz (R445). -/
def Device.slower (d : Device) (die : Nat) : Device :=
  { d with ham := { d.ham with clocks := listModify (fun n => n - 50) d.ham.clocks die } }
/-- POWER_OVER_CAP (R445). -/
def execPowerOverCap (s : State) := s.event (fun d => (List.range 4).foldl Device.slower d)
/-- JUNCTION_100C (R446). -/
def execJunction100c (die : Nat) (s : State) := s.event (fun d => d.slower die)
/-- JUNCTION_110C (R446): every context is reset, and the module powers down. -/
def Device.overheat (d : Device) : Device :=
  ((d.ctxIds.filter (fun c =>
      let x := d.ctx c
      x.state == .running || x.state == .placing || x.state == .queued || x.state == .waiting || x.state == .read || x.state == .saved)).foldl
    (fun d c => d.resetCtx c 0 (((d.ctx c).preempt).getD (d.newPreempt c 3))) d).powerDown
def execJunction110c (_die : Nat) (s : State) := s.event Device.overheat
/-- DRAM refresh of a die, doubled or not (R447). -/
def Device.setHot (d : Device) (die : Nat) (hot : Bool) : Device :=
  { d with ham := { d.ham with hotDram := listModify (fun _ => hot) d.ham.hotDram die } }
def execDram85c (die : Nat) (s : State) := s.event (fun d => d.setHot die true)
def execDramBelow80c (die : Nat) (s : State) := s.event (fun d => d.setHot die false)

/-! Page migration. -/

/-- A page size the firmware migrates (R417). -/
def migrates (size : Nat) : Bool := size == 2 ^ 12 || size == 2 ^ 16 || size == 2 ^ 21

/-- A physical address of own DRAM or of the mapped CXL tier. -/
def Device.ownMemory (d : Device) (pa : Nat) : Bool := decide (pa < 2 ^ 38) || (decide (2 ^ 43 ≤ pa) && decide (pa < 2 ^ 44) && !d.unmapped pa)

/-- Accesses or engine work still to be performed at a page. -/
def Device.pageBusy (d : Device) (src size : Nat) : Bool :=
  let in' := fun (l : Loc) => match l with | .mem pa => decide (src ≤ pa) && decide (pa < src + size) | _ => false
  d.qfills.any (fun f => f.locs.any (fun ls => ls.any in')) || d.copies.any (fun c => c.pieces.any (fun p => in' p.1)) ||
    d.cores.any (fun k => k.crest.any (fun x => x.ops.any (fun o => o.pieces.any (fun p => in' p.1)))) ||
    d.ctxs.any (fun c => c.streams.any (fun t => t.waiting.any (fun q => q.locs.any in')))

/-- A mapping or a staged contribution lies in a page (R417). -/
def Device.pagePinned (d : Device) (src size : Nat) : Bool :=
  let line := fun (n : Nat) => decide (src ≤ n * 128) && decide (n * 128 < src + size)
  d.blocks.any (fun b => !b.ended && b.maps.any (fun m => m.lines.any line)) ||
    d.saved.any (fun s => s.blocks.any (fun b => b.2.maps.any (fun m => m.lines.any line))) ||
    d.ctxs.any (fun c => c.staged.any (fun y => line (y.addr / 128)))

/-- The pages that tables map, from a level down: frame and size (R369). -/
def pagesOf (t : Fmap Byte) : Nat → Nat → List (Nat × Nat)
  | level, table =>
    (List.range (if level = 4 then 256 else 512)).flatMap (fun i =>
      let e := tableEntry t (table + 8 * i)
      let frame := pteBits e 12 40 * 4096
      if pteBits e 0 1 == 0 then []
      else if pteBits e 1 1 == 1 then
        (if level == 0 && pteBits e 7 1 == 1 then [((frame - i % 16 * 4096), 2 ^ 16)] else [(frame, 2 ^ (12 + 9 * level))])
      else match level with | 0 => [] | l + 1 => pagesOf t l frame)
/-- The pages that the contexts on the device, those saved, and the firmware map. -/
def Device.pages (d : Device) : List (Nat × Nat) :=
  (d.ctxs.filter (fun c => c.state != .done && c.state != .failed && c.state != .drained)).flatMap (fun c => pagesOf c.tables 4 c.root) ++
    pagesOf d.mem 4 d.ham.frontRoot
/-- A range is one page of its size, and no part of another (R417). -/
def Device.onePage (d : Device) (src size : Nat) : Bool :=
  let met := d.pages.filter (fun p => decide (p.1 < src + size) && decide (src < p.1 + p.2))
  !met.isEmpty && met.all (fun p => p.1 == src && p.2 == size)
/-- A 2 MiB frame that is fenced lies in a range: it is never allocated again (R443). -/
def Device.fencedFrame (d : Device) (dst size : Nat) : Bool :=
  d.ham.fenced.any (fun p => match p with | .dramFrame _ f => decide (f * 2 ^ 21 < dst + size) && decide (dst < (f + 1) * 2 ^ 21) | _ => false)
/-- No page lies in a range, and no fenced frame. -/
def Device.unmappedRange (d : Device) (dst size : Nat) : Bool := !d.fencedFrame dst size && !d.pages.any (fun p => decide (p.1 < dst + size) && decide (dst < p.1 + p.2))

/-- Bytes of memory once those of a page have been copied to another place. -/
def movedBytes (src dst size : Nat) (m : Fmap Byte) : Fmap Byte :=
  Fmap.setAll 0 (Fmap.clear m dst size) ((m.filter (fun p => decide (src ≤ p.1) && decide (p.1 < src + size))).map (fun p => (p.1 - src + dst, p.2)))

/-- Marks of bytes in error once those of a page have moved with it. -/
def movedMarks (src dst size : Nat) (m : Fmap Bool) : Fmap Bool :=
  let in' := fun (lo k : Nat) => decide (lo ≤ k) && decide (k < lo + size)
  Fmap.setAll false (m.filter (fun p => !in' src p.1 && !in' dst p.1)) ((m.filter (fun p => in' src p.1)).map (fun p => (p.1 - src + dst, p.2)))

/-- PAGE_MIGRATION (R226, R417): a page of bonded DRAM and a free place of the CXL tier, or the other way about; its bytes move, the
firmware's table bytes are in force, and every byte holds what it held. -/
def Device.migrate (d : Device) (src dst size : Nat) (cells : List Host.Cell) : Device :=
  let lines := fun (n : Nat) => decide (src ≤ n * 128) && decide (n * 128 < src + size)
  if !migrates size || src % size != 0 || dst % size != 0 || decide (src < 2 ^ 38) == decide (dst < 2 ^ 38) || !d.ownMemory src || !d.ownMemory dst ||
      !d.onePage src size || !d.unmappedRange dst size || d.pageBusy src size || d.pageBusy dst size || d.pagePinned src size || d.pagePinned dst size then d
  else
    let d1 := d.lineOp .wbinv (fun x => lines x.line || (decide (dst ≤ x.line * 128) && decide (x.line * 128 < dst + size)))
    let there := fun (l : Loc) => match l with
      | .mem pa => if decide (src ≤ pa) && decide (pa < src + size) then Loc.mem (pa - src + dst) else l
      | l => l
    let d2 : Device :=
      { d1 with
      mem := movedBytes src dst size d1.mem
      poison := movedMarks src dst size d1.poison
      monitors := d1.monitors.map (fun (m : Monitor) =>
        { m with line := m.line.map (fun n => if lines n then n - src / 128 + dst / 128 else n) })
      ctxs := d1.ctxs.map (fun c =>
        { c with
          tables := Fmap.setAll 0 c.tables (cells.map (fun p => (p.1, p.2)))
          constMem := movedBytes src dst size c.constMem
          statusLoc := c.statusLoc.map there }) }
    d2.writeCells cells
def execPageMigration (src dst size : Nat) (cells : List Host.Cell) (s : State) :=
  s.event (fun d => d.migrate src dst size cells)

end Sys2Proof.Machine
end

