-- ==== Sys2Proof/Machine/Bytes.lean ====
section
/-! DEFINITION. The byte-string words (R325, R326, R344 to R349). -/

namespace Sys2Proof.Machine

/-- Byte k of a word. -/
def byteOf (x : DWord) (k : Nat) : Nat := elemAt 8 x k
/-- A bit for each k below n that meets a condition. -/
def bitMask (n : Nat) (f : Nat → Bool) : Nat := (List.range n).foldl (fun m k => if f k then m + 2 ^ k else m) 0
/-- ASCII capitals as small letters (R345). -/
def lower (b : Nat) : Nat := if 0x41 ≤ b && b ≤ 0x5A then b + 0x20 else b

/-- `bcmp` (R345). -/
def bcmpVal (t : BitVec 3) (a b : DWord) : Nat :=
  match t.toNat with
  | 0 => bitMask 4 (fun k => byteOf a k == byteOf b k)
  | 1 => bitMask 4 (fun k => decide (byteOf a k < byteOf b k))
  | 2 => bitMask 4 (fun k => lower (byteOf a k) == lower (byteOf b k))
  | _ => ((List.range 4).takeWhile (fun k => byteOf a k == byteOf b k)).length

/-- `bfind` (R346). -/
def bfindVal (t : BitVec 3) (a b : DWord) : Nat :=
  let hit := fun (k : Nat) =>
    let x := byteOf a k
    match t.toNat with
    | 0 => x == byteOf b 0
    | 1 => (List.range 4).any (fun i => x == byteOf b i)
    | _ => decide (byteOf b 0 ≤ x) && decide (x ≤ byteOf b 1)
  bitMask 4 hit * 256 + ((List.range 4).find? hit).getD 4

/-- `bperm` (R347). -/
def bpermVal (a b d : DWord) : Nat :=
  (List.range 4).foldl (fun m k =>
    let s := b.toNat / 16 ^ k % 16
    m + 256 ^ k * (if s < 4 then byteOf a s else if s < 8 then byteOf d (s - 4) else 0)) 0

/-- One bit of the CRC (R348). -/
def crcBit (c : Nat) : Nat := (c / 2) ^^^ (if c % 2 = 1 then 0x82F63B78 else 0)
/-- `hcrc` (R348). -/
def hcrcVal (n : Nat) (a b : DWord) : Nat :=
  (List.range n).foldl (fun c k => (List.range 8).foldl (fun c _ => crcBit c) (c ^^^ byteOf a k)) (elemAt 32 b 0)

/-- `hmix` (R349). -/
def hmixVal (x : DWord) : DWord :=
  let x := (x ^^^ (x >>> 31)) * 0x8F3C5A29D14E6B73
  let x := (x ^^^ (x >>> 29)) * 0x6C1BE4F093A72D45
  x ^^^ (x >>> 32)

/-- A byte-string word of two operands and d. -/
def bytesEff (w : AWord) (f : DWord → DWord → DWord → Nat) (x : Issue) (d : Device) : Eff :=
  let gr := x.view
  let gq := d.view x.agent
  laterA w x d false .nothing (fun l =>
    (BitVec.ofNat 64 (f (w.aVal gr gq false l) (w.bVal zext gr gq false l) (w.dVal gr false l)), 0))

def execBcmp (w : AWord) (s : State) := s.runLanes (.bcmp w) (bytesEff w (fun a b _ => bcmpVal w.t a b))
def execBfind (w : AWord) (s : State) := s.runLanes (.bfind w) (bytesEff w (fun a b _ => bfindVal w.t a b))
def execBperm (w : AWord) (s : State) := s.runLanes (.bperm w) (bytesEff w bpermVal)
def execHcrc (w : AWord) (s : State) := s.runLanes (.hcrc w) (bytesEff w (fun a b _ => hcrcVal (w.t.toNat + 1) a b))

/-- `hmix` (R349). -/
def hmixEff (w : AWord) (x : Issue) (d : Device) : Eff :=
  let gr := x.view
  let gq := d.view x.agent
  laterA w x d true .nothing (fun l => (hmixVal (w.aVal gr gq true l), 0))
def execHmix (w : AWord) (s : State) := s.runLanes (.hmix w) (hmixEff w)

/-! `acstep` (R325, R326). -/

/-- A read of n bytes of the constant window at an offset, as `ldc` reads them (R171): each byte as stored last or as at admission, those of another
device once they have come (R422); a byte that cannot be delivered raises ECC (R368). -/
def Issue.constRead (x : Issue) (d : Device) (r lane : Nat) (off n : Nat) : Except Eff (Nat × List Loc) :=
  let c := d.ctx (d.ctxOf x.agent)
  match c.packet.constEAs n [(some lane, BitVec.ofNat 64 off)] with
  | .error e => .error e
  | .ok eas =>
    match x.reach d .load n eas with
    | .error e => .error e
    | .ok as =>
      let ls := locsOf as
      if ls.any d.lostByte then .error (.trapOn (fun b => b.meetLost (b.ctxOf x.agent) ls) .ecc)
      else
        match d.fetchOr x.agent x.slices.head? ls with
        | .error e => .error e
        | .ok bs => .ok (bytesNat (ls.mapIdx (fun i l => if isRemote l then (bs[i]?).getD 0 else d.constByte c r lane l)), ls)

/-- The bytes of a lane, one after another: state, match mask, last entry, and what was read. -/
def Issue.acBytes (x : Issue) (d : Device) (r lane base c s : Nat) (ok : Bool) (a : DWord) :
    Nat → Nat → Nat → Nat → Nat → List Loc → Except Eff (Nat × List Loc)
  | 0, _, _, mask, e, ls => .ok (mask * 65536 + e, ls)
  | n + 1, k, st, mask, _, ls =>
    match x.constRead d r lane (base + byteOf a k) 1 with
    | .error e => .error e
    | .ok (cl, l1) =>
      if !ok || c ≤ cl || s ≤ st then .error (.trap .illegal (some lane) 0)
      else
        match x.constRead d r lane (base + 272 + 2 * (st * c + cl)) 2 with
        | .error e => .error e
        | .ok (e, l2) =>
          x.acBytes d r lane base c s ok a n (k + 1) (e % 32768) (mask + e / 32768 * 2 ^ k) e (ls ++ l1 ++ l2)

/-- `acstep` in a lane: the new automaton word and the locations read. -/
def Issue.acLane (x : Issue) (d : Device) (r lane : Nat) (a w : DWord) : Except Eff (DWord × List Loc) :=
  let base := (bitsOf w 24 8).toNat * 256
  match x.constRead d r lane (base + 256) 2, x.constRead d r lane (base + 258) 2, x.constRead d r lane (base + 260) 8,
      x.constRead d r lane (base + 268) 4 with
  | .ok (h, l0), .ok (s, l1), .ok (z, l2), .ok (y, l3) =>
    let c := h % 256
    let ok := c != 0 && decide (c ≤ 64) && s != 0 && decide (s ≤ 32768) && h / 256 == 0 && z == 0 && y == 0
    match x.acBytes d r lane base c s ok a ((bitsOf w 20 2).toNat + 1) 0 (bitsOf w 0 15).toNat 0 0 (l0 ++ l1 ++ l2 ++ l3) with
    | .error e => .error e
    | .ok (y, ls) => .ok (zext (bitsOf w 20 12) <<< 20 ||| BitVec.ofNat 64 y, ls)
  | .error e, _, _, _ | _, .error e, _, _ | _, _, .error e, _ | _, _, _, .error e => .error e

/-- Every lane of act, ascending. -/
def Issue.acAll (x : Issue) (d : Device) (r : Nat) (av bv : Nat → DWord) : List Nat → Except Eff (List (Nat × DWord) × List Loc)
  | [] => .ok ([], [])
  | l :: rest =>
    match x.acLane d r l (av l) (bv l) with
    | .error e => .error e
    | .ok (v, ls) =>
      match x.acAll d r av bv rest with
      | .error e => .error e
      | .ok (vs, more) => .ok ((l, v) :: vs, ls ++ more)

def acstepEff (w : AWord) (x : Issue) (d : Device) : Eff :=
  let gr := x.view
  let gq := d.view x.agent
  match x.acAll d w.d.toNat (fun l => w.aVal gr gq false l) (fun l => w.bVal zext gr gq false l) x.act with
  | .error e => e
  | .ok (vs, ls) => if d.held ls then .wait else .ok ((d.touchLoads ls).laterLanes x w.d.toNat false vs 0 .nothing)
def execAcstep (w : AWord) (s : State) := s.runLanes (.acstep w) (acstepEff w)

end Sys2Proof.Machine
end

