-- ==== Sys2Proof/Machine/CurveKey.lean ====
section
/-! DEFINITION. Curve keys (R182 to R196). A key is a natural number below 2^128; bit i*D + j of it is bit i of axis j. -/

namespace Sys2Proof.Machine

/-- A descriptor: dimensions and bits (R183). -/
structure Desc where
  dim : Nat
  bits : Nat
  deriving DecidableEq, Repr

def descOf (w : KWord) : Desc := ⟨w.dim, w.nbits⟩
/-- Bits of a key. -/
def Desc.size (c : Desc) : Nat := c.dim * c.bits
/-- The largest key (R184). -/
def Desc.top (c : Desc) : Nat := 2 ^ c.size - 1

/-- The coordinate of a key on axis j (R184). -/
def Desc.axis (c : Desc) (k j : Nat) : Nat :=
  (List.range c.bits).foldl (fun m i => if k.testBit (i * c.dim + j) then m + 2 ^ i else m) 0
/-- The key of a list of coordinates (R184). -/
def Desc.pack (c : Desc) (xs : List Nat) : Nat :=
  (List.range c.dim).foldl (fun m j =>
    let x := (xs[j]?).getD 0
    (List.range c.bits).foldl (fun m i => if x.testBit i then m + 2 ^ (i * c.dim + j) else m) m) 0
def Desc.axes (c : Desc) (k : Nat) : List Nat := (List.range c.dim).map (c.axis k)

/-- A box as the coordinates of its corners (R193). -/
structure KBox where
  lo : List Nat
  hi : List Nat
  deriving DecidableEq, Repr

/-- Pointwise comparison of coordinates. -/
def allLe (xs ys : List Nat) : Bool := (xs.zip ys).all (fun p => decide (p.1 ≤ p.2))
/-- A key lies in a box (R184). -/
def Desc.inBox (c : Desc) (b : KBox) (k : Nat) : Bool := allLe b.lo (c.axes k) && allLe (c.axes k) b.hi
/-- An aligned run of 2^n keys from p on, an aligned cell, meets the box. -/
def Desc.meets (c : Desc) (b : KBox) (p n : Nat) : Bool :=
  let l := c.axes p
  let h := c.axes (p + 2 ^ n - 1)
  allLe b.lo h && allLe l b.hi && allLe b.lo b.hi
/-- The cell lies wholly in the box. -/
def Desc.within (c : Desc) (b : KBox) (p n : Nat) : Bool := c.inBox b p && c.inBox b (p + 2 ^ n - 1)

/-- The least key of a cell that lies in the box and is at least k (R194). -/
def Desc.nextIn (c : Desc) (b : KBox) (k : Nat) : Nat → Nat → Option Nat
  | 0, p => if k ≤ p && c.inBox b p then some p else none
  | n + 1, p =>
    if p + 2 ^ (n + 1) ≤ k || !c.meets b p (n + 1) then none
    else match c.nextIn b k n p with | some x => some x | none => c.nextIn b k n (p + 2 ^ n)
/-- The greatest key of a cell that lies in the box and is at most k (R194). -/
def Desc.prevIn (c : Desc) (b : KBox) (k : Nat) : Nat → Nat → Option Nat
  | 0, p => if p ≤ k && c.inBox b p then some p else none
  | n + 1, p =>
    if k < p || !c.meets b p (n + 1) then none
    else match c.prevIn b k n (p + 2 ^ n) with | some x => some x | none => c.prevIn b k n p

/-- An inclusive range of keys. -/
abbrev KRange := Nat × Nat

/-- Join neighbouring ranges. -/
def joinRanges : List KRange → List KRange → List KRange
  | [], ys => ys
  | [x], y :: ys => if x.2 + 1 = y.1 then (x.1, y.2) :: ys else x :: y :: ys
  | x :: xs, ys => x :: joinRanges xs ys

/-- The maximal runs of a cell's keys that lie in the box (R195). -/
def Desc.runs (c : Desc) (b : KBox) : Nat → Nat → List KRange
  | 0, p => if c.inBox b p then [(p, p)] else []
  | n + 1, p =>
    if !c.meets b p (n + 1) then []
    else if c.within b p (n + 1) then [(p, p + 2 ^ (n + 1) - 1)]
    else joinRanges (c.runs b n p) (c.runs b n (p + 2 ^ n))

/-- The keys between neighbouring ranges. -/
def gaps : List KRange → List Nat
  | x :: y :: rest => (y.1 - x.2 - 1) :: gaps (y :: rest)
  | _ => []
/-- The position of the least gap, the first of equals. -/
def leastGap (gs : List Nat) : Nat :=
  (gs.foldl (fun (st : Nat × Nat × Nat) g => if g < st.2.1 then (st.1 + 1, g, st.1) else (st.1 + 1, st.2)) (0, 2 ^ 200, 0)).2.2
/-- Join ranges i and i+1. -/
def mergeAt : Nat → List KRange → List KRange
  | 0, x :: y :: rest => (x.1, y.2) :: rest
  | i + 1, x :: rest => x :: mergeAt i rest
  | _, xs => xs
/-- Merge at least gaps until at most 16 ranges are left (R195); `fuel` bounds the merges. -/
def mergeRanges : Nat → List KRange → List KRange
  | 0, rs => rs
  | fuel + 1, rs => if rs.length ≤ 16 then rs else mergeRanges fuel (mergeAt (leastGap (gaps rs)) rs)

/-- The cover of a box: its ranges, and whether it is inexact (R195). -/
def Desc.cover (c : Desc) (b : KBox) : List KRange × Bool :=
  let rs := c.runs b c.size 0
  (mergeRanges rs.length rs, decide (16 < rs.length))

/-! Registers. -/

/-- The key in a quad of a lane, its unused bits read as 0 (R184). -/
def Group.key (g : Group) (c : Desc) (r lane : Nat) : Nat :=
  ((List.range 4).foldl (fun m i => m + (g.vAt (r + i) lane).toNat * 2 ^ (32 * i)) 0) % 2 ^ c.size
/-- The box in a quad pair of a lane (R193). -/
def Group.box (g : Group) (c : Desc) (r lane : Nat) : KBox := ⟨c.axes (g.key c r lane), c.axes (g.key c (r + 4) lane)⟩

/-- The register words of a key. -/
def keyWords (r lane k : Nat) : List (Nat × Word) :=
  (List.range 4).map (fun i => ((r + i) * 256 + lane, BitVec.ofNat 32 (k / 2 ^ (32 * i))))

/-- Mark v registers empty in the slices of act and fill them later (R31). -/
def Device.laterRegs (d : Device) (x : Issue) (rs : List Nat) (ws : List (Nat × Word)) : Device :=
  let d := d.modView x.agent (fun g => g.markV true rs x.actSlices)
  { d with fills := d.fills ++ [Fill.lanes x.agent x.slices ws (rs.flatMap (fun n => x.actSlices.map (fun s => n * 64 + s))) 0 .ckf] }

/-- OR overflow flags into lanes (R187). -/
def Device.orCkf (d : Device) (a : Agent) (fs : List (Nat × Nat)) : Device :=
  d.modView a (fun g => { g with ckf := fs.foldl (fun m p =>
    Fmap.set 0 m p.1 (Fmap.get 0 m p.1 ||| BitVec.ofNat 8 p.2)) g.ckf })

/-- The check of a descriptor at execution (R186). -/
def ckCheck (w : KWord) (e : Eff) : Eff := if 128 < (descOf w).size then .trap .ckDesc none 0 else e

/-- A word that writes a key quad in each lane of act, and overflow flags. -/
def quadEff (w : KWord) (x : Issue) (d : Device) (f : Nat → Nat × Nat) : Eff :=
  ckCheck w (
    let vs := x.act.map (fun l => (l, f l))
    .ok ((d.orCkf x.agent (vs.map (fun p => (p.1, p.2.2)))).laterRegs x ((List.range 4).map (fun i => w.d.toNat + i))
      (vs.flatMap (fun p => keyWords w.d.toNat p.1 p.2.1))))

/-- `ckpack` (R188). -/
def ckpackEff (w : KWord) (x : Issue) (d : Device) : Eff :=
  let c := descOf w
  let g := x.view
  quadEff w x d (fun l =>
    let xs := (List.range c.dim).map (fun j => (g.vAt (w.a.toNat + j) l).toNat)
    (c.pack xs, (List.range c.dim).foldl (fun m j => if 2 ^ c.bits ≤ (xs[j]?).getD 0 then m + 2 ^ j else m) 0))
def execCkpack (w : KWord) (s : State) := s.runLanes (.ckpack w) (ckpackEff w)

/-- `ckunpk` (R188). -/
def ckunpkEff (w : KWord) (x : Issue) (d : Device) : Eff :=
  let c := descOf w
  let g := x.view
  ckCheck w (.ok (d.laterRegs x ((List.range c.dim).map (fun j => w.d.toNat + j))
    (x.act.flatMap (fun l => (List.range c.dim).map (fun j =>
      ((w.d.toNat + j) * 256 + l, BitVec.ofNat 32 (c.axis (g.key c w.a.toNat l) j)))))))
def execCkunpk (w : KWord) (s : State) := s.runLanes (.ckunpk w) (ckunpkEff w)

/-- One axis of `ckadd` and `cksub`: the new coordinate, and whether it overflowed (R189). -/
def axisAdd (bits : Nat) (sat : Bool) (y : Int) : Nat × Bool :=
  let out := decide (y < 0) || decide ((2 : Int) ^ bits - 1 < y)
  (if out && sat then (min (max y 0) (2 ^ bits - 1)).toNat else (y % 2 ^ bits).toNat, out)

/-- `ckadd` and `cksub` (R189, R190). -/
def ckaddEff (minus : Bool) (w : KWord) (x : Issue) (d : Device) : Eff :=
  let c := descOf w
  let g := x.view
  quadEff w x d (fun l =>
    let k := g.key c w.a.toNat l
    let ys := (List.range c.dim).map (fun j =>
      let o := (g.vAt (w.b.toNat + j) l).toInt
      axisAdd c.bits (bitOf w.op 0) ((c.axis k j : Int) + (if minus then -o else o)))
    (c.pack (ys.map Prod.fst),
      (List.range c.dim).foldl (fun m j => if ((ys[j]?).map Prod.snd).getD false then m + 2 ^ j else m) 0))
def execCkadd (w : KWord) (s : State) := s.runLanes (.ckadd w) (ckaddEff false w)
def execCksub (w : KWord) (s : State) := s.runLanes (.cksub w) (ckaddEff true w)

/-- The conditions of `ckcmp` (R191). -/
def keyCond (c : BitVec 3) (a b : Nat) : Bool :=
  match c.toNat with
  | 0 => a == b
  | 1 => a != b
  | 2 => decide (a < b)
  | 3 => decide (a ≤ b)
  | 4 => decide (b < a)
  | _ => decide (b ≤ a)

/-- `ckcmp` (R191). -/
def ckcmpEff (w : KWord) (x : Issue) (d : Device) : Eff :=
  let c := descOf w
  let g := x.view
  ckCheck w (.ok (d.putP x w.pCmp.toNat
    (x.act.map (fun l => (l, keyCond (bitsOf w.op 0 3) (g.key c w.a.toNat l) (g.key c w.b.toNat l)))) 0))
def execCkcmp (w : KWord) (s : State) := s.runLanes (.ckcmp w) (ckcmpEff w)

/-- `ckbox` (R193). -/
def ckboxEff (w : KWord) (x : Issue) (d : Device) : Eff :=
  let c := descOf w
  let g := x.view
  ckCheck w (.ok (d.laterLanes x w.d.toNat false
    (x.act.map (fun l => (l, if c.inBox (g.box c w.b.toNat l) (g.key c w.a.toNat l) then 1 else 0))) 0 .ckf))
def execCkbox (w : KWord) (s : State) := s.runLanes (.ckbox w) (ckboxEff w)

/-- The key that `cknext` or `ckprev` finds (R194). -/
def nearKey (c : Desc) (prev incl : Bool) (b : KBox) (k : Nat) : Option Nat :=
  if prev then
    if incl then c.prevIn b k c.size 0 else if k = 0 then none else c.prevIn b (k - 1) c.size 0
  else c.nextIn b (if incl then k else k + 1) c.size 0

/-- `cknext` and `ckprev` (R194). -/
def cknearEff (prev : Bool) (w : KWord) (x : Issue) (d : Device) : Eff :=
  let c := descOf w
  let g := x.view
  let vs := x.act.map (fun l => (l, nearKey c prev (bitOf w.op 3) (g.box c w.b.toNat l) (g.key c w.a.toNat l)))
  ckCheck w (.ok ((d.putP x w.pNext.toNat (vs.map (fun p => (p.1, p.2.isSome))) 0).laterRegs x
    ((List.range 4).map (fun i => w.d.toNat + i)) (vs.flatMap (fun p => keyWords w.d.toNat p.1 (p.2.getD 0)))))
def execCknext (w : KWord) (s : State) := s.runLanes (.cknext w) (cknearEff false w)
def execCkprev (w : KWord) (s : State) := s.runLanes (.ckprev w) (cknearEff true w)

/-- `cklvl` (R192). -/
def cklvlEff (w : KWord) (x : Issue) (d : Device) : Eff :=
  let c := descOf w
  let g := x.view
  ckCheck w (.ok (d.laterLanes x w.d.toNat false
    (x.act.map (fun l =>
      (l, BitVec.ofNat 64 ((bitLen (g.key c w.a.toNat l ^^^ g.key c w.b.toNat l) + c.dim - 1) / c.dim)))) 0 .ckf))
def execCklvl (w : KWord) (s : State) := s.runLanes (.cklvl w) (cklvlEff w)

/-- The 512 bytes of a cover (R195). -/
def coverBytes (rs : List KRange) : List Byte :=
  let key := fun (k : Nat) => (List.range 16).map (fun i => BitVec.ofNat 8 (k / 256 ^ i))
  (List.range 16).flatMap (fun e => match rs[e]? with | some r => key r.1 ++ key r.2 | none => List.replicate 32 0)

/-- `cksplit` (R195, R196): once for the gang, with the box of its lowest lane. It blocks on that box's registers (R186) also where a guard
passes no lane of that lane's slice, whose sources R73 leaves unchecked (DESIGN CHOICE, assumption 79). -/
def cksplitEff (w : KWord) (x : Issue) (d : Device) : Eff :=
  let c := descOf w
  let g := x.view
  let off := w.op.toNat * 32
  ckCheck w (
    match x.agent.blk? with
    | none => .trap .perm none 0
    | some b =>
      if (List.range 8).any (fun i => g.vIsEmpty (w.b.toNat + i) (x.lead / 4)) then .wait
      else if (d.block b).stashBytes < off + 512 then .trap .perm none 0
      else
        let locs := (List.range 512).map (fun i => Loc.stash b (off + i))
        if d.held locs then .wait
        else
          let cv := c.cover (g.box c w.b.toNat x.lead)
          let v := BitVec.ofNat 64 (cv.1.length + if cv.2 then 256 else 0)
          .ok ((d.storeBytes x.agent none locs (coverBytes cv.1)).laterLanes x w.d.toNat false (x.act.map (fun l => (l, v))) 0 .ckf))
def execCksplit (w : KWord) (s : State) := s.runLanes (.cksplit w) (cksplitEff w)

end Sys2Proof.Machine
end

