-- ==== Sys2Proof/Machine/Fabric.lean ====
section
/-! DEFINITION. Messages of the Heotte fabric as they arrive (R420 to R427), and the host's accesses over CXL (R414). -/

namespace Sys2Proof.Machine

/-- A message that has come over a Heotte port: none comes to a device whose ports stay down (R419). -/
def State.incoming (s : State) (f : Device → Device) : Host.Outcome State Fault Refusal := s.event (fun d => if d.ham.listed then f d else d)

/-! Requests performed here for other devices (R422, R424). -/

/-- The locations of a request: bytes of own DRAM, of one line. -/
def reqLocs (m : RemoteReq) : List Loc := (List.range (min m.size 128)).map (fun i => Loc.mem (m.addr % 2 ^ 38 + i))

/-- A context that runs, or has run, a replicated launch with another device. -/
def Device.sharesWith (d : Device) (c : Nat) (src : BitVec 12) : Bool :=
  let x := d.ctx c
  (d.replicas c).contains src && (x.state == .running || x.state == .placing || x.state == .done || x.state == .drained)

/-- A request has been performed: the launches that its sender shares count it (R322). -/
def Device.countReceived (d : Device) (src : BitVec 12) : Device :=
  { d with ctxs := d.ctxs.mapIdx (fun c x => if d.sharesWith c src then { x with received := x.received + 1 } else x) }

/-- A request has been performed, if its sender counts it. -/
def Device.countReq (d : Device) (m : RemoteReq) : Device := if m.counted then d.countReceived m.src else d

/-- Answer a request with a message of a class. -/
def Device.replyTo (d : Device) (m : RemoteReq) (cls : BitVec 4) (data : DWord) (bytes : List Byte) : Device :=
  { d with fab := { d.fab with outbox := d.fab.outbox ++
      [{ OutMsg.empty m.src cls with tag := m.tag, addr := m.addr, size := m.size, data := data, bytes := bytes }] } }

/-- A load at its home slice, for another device. Bytes that cannot be delivered are answered without any, and the load fails there
(R423; DESIGN CHOICE, assumption 51). -/
def Device.loadFor (d : Device) (m : RemoteReq) (ls : List Loc) (cls : BitVec 4) : Device :=
  if d.held ls then d
  else if ls.any d.lostByte then d.replyTo m cls 0 []
  else (((d.touchLoads ls).countReq m).replyTo m cls (d.valueAt (ls.take 8)) (ls.map d.byteAt))

/-- REMOTE_LOAD_REQUEST (R422). -/
def execRemoteLoadRequest (m : RemoteReq) (s : State) := s.incoming (fun d => d.loadFor m (reqLocs m) 1)
/-- REDUCTION_LOAD_REQUEST (R424). -/
def execReductionLoadRequest (m : RemoteReq) (s : State) := s.incoming (fun d => d.loadFor m (reqLocs m) 9)

/-- The bytes of a store of another device, with their places here: those of one line. -/
def storeCells (m : RemoteReq) : List (Loc × Byte) :=
  (m.cells.filter (fun p => decide (m.addr % 128 + p.1 < 128))).map (fun p => (Loc.mem (m.addr % 2 ^ 38 + p.1), p.2))

/-- A wake from another device, of a line that has its home on device `home` (R321). -/
def Device.wakeFrom (d : Device) (home : BitVec 12) (off : Nat) : Device :=
  let l := if 2 ^ 50 ≤ off || home == d.ham.devNum then Loc.mem (if 2 ^ 50 ≤ off then off else off % 2 ^ 38) else .remote home (off % 2 ^ 38)
  d.wake (.handler 0) 5 (lineKey l)

/-- REMOTE_STORE (R422): one event at the line, whatever its bytes are (R236); without bytes, the wakes of a `monwake.sys`. -/
def Device.storeFor (d : Device) (m : RemoteReq) : Device :=
  let ws := storeCells m
  if d.held (ws.map Prod.fst) then d
  else
    let d1 := if ws.isEmpty then d.wakeFrom (bitsOf m.data 0 12) m.addr else d.storeAll ws
    (d1.countReq m).replyTo m 3 0 []
def execRemoteStore (m : RemoteReq) (s : State) := s.incoming (fun d => d.storeFor m)

/-- REMOTE_ATOMIC (R422): the old value goes back, or no bytes where the word cannot be delivered. An add whose second operand is 1 sets bit 63 with it: a completion counter of a
launch whose promise was broken (R318; DESIGN CHOICE, assumption 51). -/
def Device.atomicFor (d : Device) (m : RemoteReq) : Device :=
  let ls := (reqLocs m).take 8
  if d.held ls then d
  else if ls.any d.lostByte then d.replyTo m 5 0 []
  else
    let w := 8 * ls.length
    let old := (d.valueAt ls).toNat
    let new := atomNew (bitsOf m.op 0 4).toNat (bitOf m.op 4) w old (elemAt w m.data 0) (elemAt w m.cmp 0)
    let x : DWord := if bitsOf m.op 0 4 == 0 && m.cmp == 1 then BitVec.ofNat 64 new ||| 0x8000000000000000 else BitVec.ofNat 64 new
    (((d.breakPromises ls).storeValue ls x).countReq m).replyTo m 5 (BitVec.ofNat 64 old) (bytesOf ls.length (BitVec.ofNat 64 old))
def execRemoteAtomic (m : RemoteReq) (s : State) := s.incoming (fun d => d.atomicFor m)

/-! Replies (R421). -/

/-- The part of a register that the bytes of a reply make, extended when they are the highest of a signed access. -/
def RemoteOp.partOf (op : RemoteOp) (p : RemotePart) (bytes : List Byte) : DWord :=
  let low : DWord := BitVec.ofNat 64 (bytesNat ((bytes.drop p.off).take p.cnt))
  let v := low <<< (8 * p.pos)
  if (op.size == 4 || op.size == 5) && p.pos + p.cnt == sizeBytes op.size then extendVal op.size v else v

/-- Change the words of one lane's access in a fill, or the s register. -/
def Fill.onLane (f : Fill) (op : RemoteOp) (lane : Option Nat) (g : DWord → DWord) : Fill :=
  let r := op.reg.toNat
  match lane with
  | none => { f with s := f.s.map (fun p => if p.1 == r then (p.1, g p.2) else p) }
  | some l =>
    let at' := fun (k : Nat) => ((f.v.find? (fun p => p.1 == k)).map Prod.snd).getD 0
    let v := g (at' ((r + 1) * 256 + l) ++ at' (r * 256 + l))
    { f with v := f.v.map (fun p =>
        if p.1 == r * 256 + l then (p.1, bitsOf v 0 32)
        else if op.size == 3 && p.1 == (r + 1) * 256 + l then (p.1, bitsOf v 32 32)
        else p) }

/-- Mark the words of one access as being in error (R423). -/
def Fill.failLane (f : Fill) (op : RemoteOp) (lane : Option Nat) : Fill :=
  match lane with
  | none => { f with sErr := true }
  | some l =>
    let r := op.reg.toNat
    { f with vErr := f.vErr ++ (if op.size == 3 then [r * 256 + l, (r + 1) * 256 + l] else [r * 256 + l]) }

/-- A queue word takes bytes of its load. -/
def QFill.orWord (x : QFill) (lane : Option Nat) (v : DWord) : QFill :=
  let l := lane.getD 0
  { x with words := Fmap.set 0 x.words l (Fmap.get 0 x.words l ||| bitsOf v 0 32) }

/-- A reply reaches the fill or the queue entry that awaits it. -/
def Device.reach' (d : Device) (tag : Nat) (f : Fill → Fill) (q : QFill → QFill) : Device :=
  { d with
    fills := d.fills.map (fun x => if x.tag == tag && x.await != 0 then { f x with await := x.await - 1 } else x)
    qfills := d.qfills.map (fun x => if x.tag == tag && x.await != 0 then { q x with await := x.await - 1 } else x) }

/-- The bytes of a reply reach every lane they are for. -/
def Device.deliverBytes (d : Device) (op : RemoteOp) (tag : Nat) (bytes : List Byte) : Device :=
  d.reach' tag
    (fun f => op.parts.foldl (fun (f : Fill) (p : RemotePart) => f.onLane op p.lane (fun x => x ||| op.partOf p bytes)) f)
    (fun q => op.parts.foldl (fun (q : QFill) (p : RemotePart) => q.orWord p.lane (op.partOf p bytes)) q)

/-- Remove a request. -/
def Device.dropRemote (d : Device) (k : Nat) : Device := { d with fab := { d.fab with remotes := listDrop d.fab.remotes k } }

/-- The waiting `monwait` of an agent (R320). -/
def Device.pollerOf (d : Device) (a : Agent) : Option (Nat × Monitor) :=
  match listFind (fun (m : Monitor) => m.agent == a) d.monitors 0 with
  | some k => (d.monitors[k]?).map (fun m => (k, m))
  | none => none

/-- The value of a poll arrives: it ends the wait when the condition holds of it, or a wake has come. -/
def Device.polled (d : Device) (a : Agent) (v : DWord) : Device :=
  match d.pollerOf a with
  | some (k, m) => if d.live a && (m.called || m.met v) then d.endMonitor k m v else d
  | none => d

/-- What an agent's word has asked for has come, or will not. -/
def Device.fetchCame (d : Device) (op : RemoteOp) (gang : Option Nat) (bytes : Option (List Byte)) : Device :=
  { d with fab := { d.fab with fetched := d.fab.fetched ++
      [{ agent := op.agent, gang := gang, dev := op.dev, addr := op.addr, bytes := bytes }] } }

/-- The walker goes on with a record that has come, or that cannot be read (R199, R203). -/
def Device.recordCame (d : Device) (core slot serial i : Nat) (f : WPoint → WPoint) : Device :=
  let s := d.wslot core slot
  if s.serial == serial && ((s.points[i]?).map WPoint.unread).getD false then (d.modPoint core slot i f).serveSlot core slot else d

/-- A message of a launch has failed: it ends the phase that its device has joined, on every device, or is met by the launch's next
`drain` (R423, R427). It is counted as received, or the counts could never agree (DESIGN CHOICE, assumption 61). -/
def Device.countFailed (d : Device) (c : Nat) : Device :=
  let d1 := d.modCtx c (fun x => { x with received := x.received + 1 })
  if (d.ctx c).drains.isEmpty then d1.noteFailed c else (d1.failOthers c).failPhase c

/-- A store or a copy flit of an agent has failed: the Hamada core logs it (R423). -/
def Device.logFailed (d : Device) : Device := d.logEntry 7 0 0 0

/-- Request k has failed (R423): a load or an atomic fills its destination with a value in error; a store or a copy flit is logged;
the next release at `sys` of the agent meets a store or an atomic, and the copy's batch a flit. -/
def Device.failRequest (d : Device) (k : Nat) (op : RemoteOp) : Device :=
  let gone := d.dropRemote k
  let stands := if op.agent.isNone then gone
    else { d with fab := { d.fab with remotes := listModify (fun (o : RemoteOp) => { o with use := .done, failed := true }) d.fab.remotes k } }
  let d1 :=
    match op.use with
    | .fill tag =>
      ((if op.kind == 4 then stands else gone).errorMet (d.heotteLane op.dev)).reach' tag
        (fun f => op.parts.foldl (fun (f : Fill) (p : RemotePart) => f.failLane op p.lane) f)
        (fun q => { q with err := q.err ++ op.parts.map (fun (p : RemotePart) => p.lane.getD 0) })
    | .done => if op.kind == 2 then stands.logFailed else stands
    | .poll =>
      match op.agent with
      | none => gone
      | some a =>
        match gone.pollerOf a with
        | some (n, m) => (gone.endMonitor n m 0).modView a (fun g => { g with sBad := Fmap.set false g.sBad m.sreg.toNat true })
        | none => gone
    | .fetch gang => gone.fetchCame op gang none
    | .copy id _ =>
      ({ gone with copies := gone.copies.map (fun (c : CopyOp) => if c.id == id then { c with bad := true } else c) } : Device).logFailed
    | .record core slot serial i => gone.recordCame core slot serial i WPoint.failed
    | .mapBit core slot _ => gone.logFailed.serveSlot core slot
    | .bring core slot serial i => (gone.failPoint core slot serial i).serveSlot core slot
    | .image core n bar => stands.logFailed.imageCame core n bar
    | .unit => stands.logFailed
    | .firm => if op.kind == 2 then gone.logFailed else gone
    | .wake => gone
    | .dep => gone
  if op.counts then d1.countFailed op.ctx else d1

/-- LOAD_REPLY (R421); a reply without bytes says that the load has failed. -/
def Device.loadReply (d : Device) (k : Nat) (bytes : List Byte) : Device :=
  match d.fab.remotes[k]? with
  | some op =>
    if op.kind != 0 || op.failed then d
    else if bytes.isEmpty then d.failRequest k op
    else
      let d1 := d.dropRemote k
      match op.use with
      | .fill tag => d1.deliverBytes op tag bytes
      | .poll => match op.agent with | some a => d1.polled a (BitVec.ofNat 64 (bytesNat (bytes.take op.cnt))) | none => d1
      | .fetch gang => d1.fetchCame op gang (some bytes)
      | .record core slot serial i => d1.recordCame core slot serial i (fun p => p.read bytes)
      | .bring core slot _ _ => (d1.bringLine core (lineKey (.remote op.dev op.addr))).serveSlot core slot
      | .dep =>
        if (d.ctx op.ctx).depHolds (BitVec.ofNat 64 (bytesNat (bytes.take 8))) then
          d1.modCtx op.ctx (fun x => if x.state == .waiting then { x with state := .queued } else x)
        else d1
      | _ => d1
  | none => d
def execLoadReply (k : Nat) (bytes : List Byte) (s : State) := s.incoming (fun d => d.loadReply k bytes)

/-- A request is complete; a walker that awaited a write of its map goes on, and a Crest form arrives. -/
def Device.acknowledge (d : Device) (k : Nat) (op : RemoteOp) : Device :=
  match op.use with
  | .mapBit core slot _ => (d.dropRemote k).serveSlot core slot
  | .image core n bar => (d.dropRemote k).imageCame core n bar
  | _ => d.dropRemote k

/-- STORE_ACKNOWLEDGEMENT (R421), of a store or of a flit of copy data (DESIGN CHOICE, assumption 51). -/
def Device.storeAcked (d : Device) (k : Nat) : Device :=
  match d.fab.remotes[k]? with
  | some op => if (op.kind == 2 || op.kind == 6) && !op.failed then d.acknowledge k op else d
  | none => d
def execStoreAcknowledgement (k : Nat) (s : State) := s.incoming (fun d => d.storeAcked k)

/-- ATOMIC_REPLY (R421); one without a value says that the atomic has failed. -/
def Device.atomicReply (d : Device) (k : Nat) (data : Option DWord) : Device :=
  match d.fab.remotes[k]? with
  | some op =>
    if op.kind != 4 || op.failed then d
    else
      match data, op.use with
      | none, _ => d.failRequest k op
      | some v, .fill tag => (d.dropRemote k).deliverBytes op tag (bytesOf op.cnt v)
      | some _, _ => d.acknowledge k op
  | none => d
def execAtomicReply (k : Nat) (data : Option DWord) (s : State) := s.incoming (fun d => d.atomicReply k data)

/-- A replica's value joins the sum of a reduction load (R424); the last one fills the register. -/
def Device.addReplica (d : Device) (k : Nat) (op : RemoteOp) (src : BitVec 12) (v : DWord) : Device :=
  let sum : DWord := BitVec.ofNat 64 ((op.acc.toNat + v.toNat) % 2 ^ (8 * op.cnt))
  let left := op.left.filter (fun n => n != src)
  match left.isEmpty, op.use with
  | true, .fill tag =>
    (d.dropRemote k).reach' tag (fun f => op.parts.foldl (fun (f : Fill) (p : RemotePart) => f.onLane op p.lane (fun _ => sum)) f) (fun q => q)
  | true, _ => d.dropRemote k
  | false, _ => { d with fab := { d.fab with remotes := listModify (fun o => { o with acc := sum, left := left }) d.fab.remotes k } }

/-- REDUCTION_REPLY (R424): replica values are summed modulo 2^w. A replica that cannot deliver its value answers without one, and the load
fails (R423). -/
def Device.reductionReply (d : Device) (k : Nat) (src : BitVec 12) (data : Option DWord) : Device :=
  match d.fab.remotes[k]? with
  | some op =>
    if op.kind != 8 || op.failed || !op.left.contains src then d
    else match data with | none => d.failRequest k op | some v => d.addReplica k op src v
  | none => d
def execReductionReply (k : Nat) (src : BitVec 12) (data : Option DWord) (s : State) := s.incoming (fun d => d.reductionReply k src data)

/-! Copy data. -/

/-- The request of a copy that an answer is for. -/
def Device.copyAsked (d : Device) (src : BitVec 12) (tag : BitVec 20) : Option (Nat × RemoteOp × Nat × Nat) :=
  match listFind (fun (r : RemoteOp) => r.kind == 6 && r.dev == src && r.tag == tag && !r.failed) d.fab.remotes 0 with
  | none => none
  | some k =>
    match d.fab.remotes[k]? with
    | some op => match op.use with | .copy id pos => some (k, op, id, pos) | _ => none
    | none => none

/-- The answer to a peer's flit: bytes for its copy, or none where they cannot be delivered. -/
def Device.copyAnswer (d : Device) (src : BitVec 12) (tag : BitVec 20) (addr size : Nat) (bytes : List Byte) : Device :=
  { d with fab := { d.fab with outbox := d.fab.outbox ++
      [{ OutMsg.empty src 6 with addr := addr, size := size, tag := tag, op := 1, bytes := bytes }] } }

/-- COPY_DATA (R421): a request for bytes is answered with a flit of them; an answer goes to the copy that asked; any other flit is a
peer's data, of which all but the holes is stored in own DRAM, and which is acknowledged. -/
def Device.copyData (d : Device) (m : CopyFlit) (addr size : Nat) (bytes : List Byte) : Device :=
  let src := m.src
  let tag := m.tag
  let own := fun (n : Nat) => (List.range n).map (fun i => Loc.mem (addr % 2 ^ 38 + i))
  if m.answer then
    match d.copyAsked src tag with
    | none => d
    | some (k, op, id, pos) =>
      if bytes.isEmpty then d.failRequest k op
      else
        let d1 := d.dropRemote k
        { d1 with copies := d1.copies.map (fun (c : CopyOp) =>
            if c.id == id then { c with bytes := Fmap.setAll 0 c.bytes ((bytes.take op.cnt).mapIdx (fun i x => (pos + i, x))) } else c) }
  else if bytes.isEmpty then
    let ls := own (min size flitBytes)
    if d.held ls then d
    else if ls.any d.lostByte then d.copyAnswer src tag addr size []
    else ((d.touchLoads ls).countReceived src).copyAnswer src tag addr size (ls.map d.byteAt)
  else
    let ws := ((own (min bytes.length flitBytes)).zip bytes).zipIdx.filterMap (fun p => if m.holes.contains p.2 then none else some p.1)
    if d.held (ws.map Prod.fst) then d
    else
      let d1 := (d.storeAll ws).countReceived src
      { d1 with fab := { d1.fab with outbox := d1.fab.outbox ++ [{ OutMsg.empty src 3 with addr := addr, size := size, tag := tag }] } }
def execCopyData (m : CopyFlit) (addr size : Nat) (bytes : List Byte) (s : State) :=
  s.incoming (fun d => d.copyData m addr size bytes)

/-! Replicated launches (R425, R426). -/

/-- START_BARRIER (R425). -/
def Device.startFlit (d : Device) (src : BitVec 12) (gen : DWord) : Device :=
  let d1 := { d with fab := { d.fab with starts := d.fab.starts ++ [(src, gen)] } }
  d1.ctxIds.foldl (fun d c => if (d.ctx c).packet.gen == gen then d.noteStart c else d) d1
def execStartBarrier (src : BitVec 12) (gen : DWord) (s : State) := s.incoming (fun d => d.startFlit src gen)

/-- The launches of a generation that a device has sent and that are still held here end: it says that one of the set has failed, and no device of the
set starts (R426). -/
def Device.endGeneration (d : Device) (src : BitVec 12) (gen : DWord) : Device :=
  ((d.ctxIds.filter (fun c => (d.ctx c).origin == some src && (d.ctx c).packet.gen == gen && (d.ctx c).state != .failed &&
      (d.ctx c).state != .done)).foldl (fun d c => (d.stopCtx c).modCtx c (fun k => { k with state := .failed })) d).dropStarts gen

/-- LAUNCH_PACKET_REPLICATION (R425, R426): a packet is admitted in the context the firmware has bound; without one the
device fails with PERM. The message says whether the launch runs privileged (R390). A message without a packet is a device's answer. -/
def Device.replica (d : Device) (src : BitVec 12) (ctx : Nat) (va : DWord) (priv : Bool) (packet : List Byte) : Device :=
  if packet.isEmpty then
    let x := d.ctx ctx
    if x.origin.isSome || x.packet.replicate == 0 || x.answers.any (fun a => a.1 == src) then d
    else (d.modCtx ctx (fun k => { k with answers := k.answers ++ [(src, bitsOf va 0 8)] })).concludeReplicas ctx
  else if ctx < d.ctxs.length then d.hold (d.ctx ctx).die (d.ctx ctx).root priv va packet none (some src) none
  else
    { d with fab := { d.fab with outbox := d.fab.outbox ++ [{ OutMsg.empty src 11 with data := zext Cause.perm.code }] } }
def execLaunchPacketReplication (src : BitVec 12) (x : ReplicaOf) (va : DWord) (packet : List Byte) (s : State) :=
  s.incoming (fun d => if x.ended then d.endGeneration src va else d.replica src x.ctx va x.priv packet)

/-- A replicated launch has gone 2^24 cycles without this device's answer, or without another's (R426). -/
def Device.replicaLate (d : Device) (c : Nat) : Bool :=
  let x := d.ctx c
  x.packet.replicate != 0 && decide (2 ^ 24 ≤ d.now - x.arrival) &&
    (x.state == .read || (x.origin.isNone && !d.allAnswered x))
/-- REPLICATION_TIMEOUT (R426): those that have not answered fail with CAPACITY. -/
def Device.replicaTimeout (d : Device) (c : Nat) : Device :=
  if !d.replicaLate c then d
  else
    let x := d.ctx c
    match x.origin with
    | some _ => ((d.stopCtx c).modCtx c (fun k => { k with state := .failed })).answerReplica c Cause.capacity.code
    | none =>
      let missing := ((d.ham.devNum :: d.othersOf x.packet).filter (fun n => !x.answers.any (fun a => a.1 == n)))
      (d.modCtx c (fun k => { k with answers := k.answers ++ missing.map (fun n => (n, Cause.capacity.code)) })).concludeReplicas c
def execReplicationTimeout (ctx : Nat) (s : State) := s.event (fun d => d.replicaTimeout ctx)

/-! Drain sweeps (R322, R427). -/

/-- The devices of a launch's set in ascending order, this one among them. -/
def Device.setOf (d : Device) (c : Nat) : List Nat :=
  let me := d.ham.devNum.toNat
  let others := (d.replicas c).map BitVec.toNat
  (others.filter (fun n => decide (n < me))) ++ me :: others.filter (fun n => decide (me < n))
/-- This device's position in the tree. -/
def Device.treePos (d : Device) (c : Nat) : Nat := ((d.replicas c).filter (fun n => decide (n.toNat < d.ham.devNum.toNat))).length
/-- The devices whose parent is this one: those at positions 2p and 2p + 1. -/
def Device.treeChildren (d : Device) (c : Nat) : List (BitVec 12) :=
  let p := d.treePos c
  ((List.range (d.setOf c).length).filter (fun i => i / 2 == p && i != p)).filterMap (fun i =>
    ((d.setOf c)[i]?).map (BitVec.ofNat 12))
def Device.treeParent (d : Device) (c : Nat) : BitVec 12 :=
  BitVec.ofNat 12 (((d.setOf c)[d.treePos c / 2]?).getD 0)

/-- The device has joined the open phase: a `drain` waits, or its grid has completed (R322). -/
def Ctx.joined (x : Ctx) : Bool := !x.drains.isEmpty || x.state == .done || x.state == .drained

/-- The launch is saved, or a save of it has begun: it takes no step of a phase until it is back (R322, R380). -/
def Ctx.away (x : Ctx) : Bool := x.state == .saved || x.preempt.any (fun p => decide (2 ≤ p.level))

/-- A sweep flit. -/
def Device.sweepFlit (d : Device) (c : Nat) (dst : BitVec 12) (sums : DWord × DWord) (verdict : Bool) : Device :=
  let x := d.ctx c
  d.send c false
    { OutMsg.empty dst 10 with addr := x.phase, size := x.sweepNo, data := sums.1, aux := sums.2, op := if verdict then 1 else 0 }

/-- The open phase ends: every joined `drain` writes the sum, which ends its region, and its group goes on (R303, R322, R342). -/
def Device.endPhase (d : Device) (c : Nat) (sum : DWord) : Device :=
  let d1 := (d.ctx c).drains.foldl (fun d q =>
    ((d.modGroup q.blk q.slot (fun g => (g.setS q.sreg.toNat sum).markS false [q.sreg.toNat])).letGo (.group q.blk q.slot)).endRegionOf
      (.group q.blk q.slot)) d
  d1.modCtx c Ctx.nextPhase

/-- The next sweep starts. -/
def Device.nextSweep (d : Device) (c : Nat) : Device :=
  d.modCtx c (fun k => { k with sweepNo := k.sweepNo + 1, sweepSent := false, childSums := [] })

/-- The verdict goes down the tree, and is carried out here. -/
def Device.carryVerdict (d : Device) (c : Nat) (sums : DWord × DWord) (verdict : Bool) : Device :=
  let d1 := (d.treeChildren c).foldl (fun d n => d.sweepFlit c n sums verdict) d
  if verdict then d1.endPhase c sums.1 else d1.nextSweep c

/-- This device's own step of a sweep: its counts and its children's go up; the root compares with the sweep before. -/
def Device.sweepUp (d : Device) (c : Nat) : Device :=
  let x := d.ctx c
  let kids := d.treeChildren c
  if !x.joined || x.away || x.sweepSent || !kids.all (fun n => x.childSums.any (fun s => s.1 == n)) then d
  else
    let sums := x.childSums.foldl (fun (a : DWord × DWord) s => (a.1 + s.2.1, a.2 + s.2.2)) (x.sent, x.received)
    if d.treePos c = 0 then
      let agree := x.lastSum == some sums && sums.1 == sums.2
      (d.modCtx c (fun k => { k with lastSum := some sums })).carryVerdict c sums agree
    else (d.modCtx c (fun k => { k with sweepSent := true })).sweepFlit c (d.treeParent c) sums false

/-- DRAIN_SWEEP (R427): this device's own step, a child's sums, the parent's verdict, or word that the phase has failed (op 2). -/
def Device.sweep (d : Device) (c : Nat) (src : BitVec 12) (phase no sent received : DWord) (op : BitVec 2) : Device :=
  let x := d.ctx c
  if c ≥ d.ctxs.length || x.away then d
  else if src == d.ham.devNum then d.sweepUp c
  else if !d.ham.listed then d
  else if phase.toNat != x.phase then d
  else if op == 2 then (if (d.replicas c).contains src then d.failPhase c else d)
  else if no.toNat != x.sweepNo then d
  else if (d.treeChildren c).contains src then
    if x.childSums.any (fun s => s.1 == src) then d
    else d.modCtx c (fun k => { k with childSums := k.childSums ++ [(src, sent, received)] })
  else if src == d.treeParent c && x.sweepSent then d.carryVerdict c (sent, received) (op == 1)
  else d
def execDrainSweep (ctx : Nat) (src : BitVec 12) (phase sweep sent received : DWord) (op : BitVec 2) (s : State) :=
  s.event (fun d => d.sweep ctx src phase sweep sent received op)

/-! Links and failures. -/

/-- LINK_CONTROL (R420): replay and credits change nothing that a program sees. -/
def execLinkControl (_port : Nat) (s : State) := s.event (fun d => d)
/-- RESERVED_FLIT (R421): discarded and logged. -/
def execReservedFlit (port : Nat) (cls : BitVec 4) (s : State) :=
  s.incoming (fun d => if 13 ≤ cls.toNat then d.logEntry 7 0 (BitVec.ofNat 64 (port * 8)) 0 else d)

/-- MESSAGE_FAILURE (R423). A number past the requests names the launch whose sweep failed (R427). -/
def Device.messageFails (d : Device) (k : Nat) : Device :=
  match d.fab.remotes[k]? with
  | some op => if op.failed then d else d.failRequest k op
  | none =>
    let c := k - d.fab.remotes.length
    if c < d.ctxs.length && !(d.ctx c).away then (d.failOthers c).failPhase c else d
def execMessageFailure (k : Nat) (s : State) := s.event (fun d => d.messageFails k)

/-! The host (R414). -/

/-- HOST_SNOOP (R414): the host line's copies in L2 and in stash entries are recalled; a snoop for reading leaves a clean
line valid. -/
def Device.hostSnoop (d : Device) (line : Nat) (write : Bool) : Device :=
  let host := decide (2 ^ 50 ≤ line * 128) && decide (line * 128 < 2 ^ 51)
  if !host || d.owned line then d
  else if write then (d.lineOp .wbinv (fun x => x.line == line)).recallWhere (fun n => n == line)
  else
    let d1 := (d.lineOp .clean (fun x => x.line == line)).cleanEntries [] line
    { d1 with ulines := d1.ulines.filter (fun u => u.line != line) }
def execHostSnoop (line : Nat) (write : Bool) (s : State) := s.event (fun d => d.hostSnoop line write)

/-- The host's own access to its memory: a snoop recalls the lines first, and the bytes are written there, in no line of L2 (R414). -/
def Device.hostOwn (d : Device) (write : Bool) (ls : List Loc) (bytes : List Byte) : Device :=
  let lines := d.linesOf ls
  let d1 := lines.foldl (fun d n => d.hostSnoop n write) d
  if write then lines.foldl Device.wakeLine (((ls.zip bytes).foldl (fun d p => d.setByte p.1 p.2) d1).cured ls) else d1

/-- HOST_DEVICE_ACCESS (R414): performed at the home slice as an access at `sys`, of 64 bytes at most; a read of a whole 64-byte line is
held by the host. An access of the host to its own memory recalls the device's copies. -/
def Device.hostAccess (d : Device) (write : Bool) (addr size : Nat) (bytes : List Byte) : Device :=
  let n := min (if write then bytes.length else size) 64
  let ls := (List.range n).map (fun i => Loc.mem (addr % 2 ^ 51 + i))
  if d.ownedLocs ls then d
  else if 2 ^ 50 ≤ addr % 2 ^ 51 then d.hostOwn write ls bytes
  else if write then d.storeAll (ls.zip bytes)
  else
    let d1 := d.touchLoads ls
    if n = 64 then
      { d1 with fab := { d1.fab with hostLines := dedup (d1.fab.hostLines ++ d1.linesOf ls) } }
    else d1
def execHostDeviceAccess (write : Bool) (addr size : Nat) (bytes : List Byte) (s : State) := s.event (fun d => d.hostAccess write addr size bytes)

/-- BACK_INVALIDATE_RESPONSE (R414): the host holds the line no more. -/
def execBackInvalidateResponse (line : Nat) (s : State) :=
  s.event (fun d => { d with fab := { d.fab with hostLines := d.fab.hostLines.filter (fun n => n != line) } })

end Sys2Proof.Machine
end

