-- ==== Sys2Proof/Machine/Dispatch.lean ====
section
/-! DEFINITION. One arm for each instruction, each one call of its meaning. -/

namespace Sys2Proof.Machine

def exec (i : Instr) (s : State) : Host.Outcome State Fault Refusal :=
  match i with
  | .nop c => Sys2Proof.Machine.execNop c s
  | .guard w => Sys2Proof.Machine.execGuard w s
  | .ext c x => Sys2Proof.Machine.execExt c x s
  | .br w => Sys2Proof.Machine.execBr w s
  | .brs w => Sys2Proof.Machine.execBrs w s
  | .bri w => Sys2Proof.Machine.execBri w s
  | .call w => Sys2Proof.Machine.execCall w s
  | .ret w => Sys2Proof.Machine.execRet w s
  | .join w => Sys2Proof.Machine.execJoin w s
  | .regang w => Sys2Proof.Machine.execRegang w s
  | .exit w => Sys2Proof.Machine.execExit w s
  | .yield w => Sys2Proof.Machine.execYield w s
  | .region w => Sys2Proof.Machine.execRegion w s
  | .bkpt w => Sys2Proof.Machine.execBkpt w s
  | .trapi w => Sys2Proof.Machine.execTrapi w s
  | .add w => Sys2Proof.Machine.execAdd w s
  | .sub w => Sys2Proof.Machine.execSub w s
  | .mul w => Sys2Proof.Machine.execMul w s
  | .mulhi w => Sys2Proof.Machine.execMulhi w s
  | .mad w => Sys2Proof.Machine.execMad w s
  | .min w => Sys2Proof.Machine.execMin w s
  | .max w => Sys2Proof.Machine.execMax w s
  | .abs w => Sys2Proof.Machine.execAbs w s
  | .neg w => Sys2Proof.Machine.execNeg w s
  | .and w => Sys2Proof.Machine.execAnd w s
  | .or w => Sys2Proof.Machine.execOr w s
  | .xor w => Sys2Proof.Machine.execXor w s
  | .not w => Sys2Proof.Machine.execNot w s
  | .shl w => Sys2Proof.Machine.execShl w s
  | .shr w => Sys2Proof.Machine.execShr w s
  | .sra w => Sys2Proof.Machine.execSra w s
  | .rot w => Sys2Proof.Machine.execRot w s
  | .bfx w => Sys2Proof.Machine.execBfx w s
  | .bfi w => Sys2Proof.Machine.execBfi w s
  | .popc w => Sys2Proof.Machine.execPopc w s
  | .clz w => Sys2Proof.Machine.execClz w s
  | .ctz w => Sys2Proof.Machine.execCtz w s
  | .cmp w => Sys2Proof.Machine.execCmp w s
  | .sel w => Sys2Proof.Machine.execSel w s
  | .fadd w => Sys2Proof.Machine.execFadd w s
  | .fsub w => Sys2Proof.Machine.execFsub w s
  | .fmul w => Sys2Proof.Machine.execFmul w s
  | .fma w => Sys2Proof.Machine.execFma w s
  | .fmin w => Sys2Proof.Machine.execFmin w s
  | .fmax w => Sys2Proof.Machine.execFmax w s
  | .fneg w => Sys2Proof.Machine.execFneg w s
  | .fabs w => Sys2Proof.Machine.execFabs w s
  | .fcmp w => Sys2Proof.Machine.execFcmp w s
  | .fclass w => Sys2Proof.Machine.execFclass w s
  | .fscale w => Sys2Proof.Machine.execFscale w s
  | .frnd w => Sys2Proof.Machine.execFrnd w s
  | .fdot2 w => Sys2Proof.Machine.execFdot2 w s
  | .fpack w => Sys2Proof.Machine.execFpack w s
  | .funpk w => Sys2Proof.Machine.execFunpk w s
  | .frcp w => Sys2Proof.Machine.execFrcp w s
  | .frsq w => Sys2Proof.Machine.execFrsq w s
  | .fsqrt w => Sys2Proof.Machine.execFsqrt w s
  | .fexp2 w => Sys2Proof.Machine.execFexp2 w s
  | .flog2 w => Sys2Proof.Machine.execFlog2 w s
  | .cvt w => Sys2Proof.Machine.execCvt w s
  | .cvtbfp w => Sys2Proof.Machine.execCvtbfp w s
  | .fmtset w => Sys2Proof.Machine.execFmtset w s
  | .fmtget w => Sys2Proof.Machine.execFmtget w s
  | .mov w => Sys2Proof.Machine.execMov w s
  | .movi w => Sys2Proof.Machine.execMovi w s
  | .lmov w => Sys2Proof.Machine.execLmov w s
  | .bcast w => Sys2Proof.Machine.execBcast w s
  | .vred w => Sys2Proof.Machine.execVred w s
  | .vscan w => Sys2Proof.Machine.execVscan w s
  | .vote w => Sys2Proof.Machine.execVote w s
  | .sample w => Sys2Proof.Machine.execSample w s
  | .getsv w => Sys2Proof.Machine.execGetsv w s
  | .ld w => Sys2Proof.Machine.execLd w s
  | .st w => Sys2Proof.Machine.execSt w s
  | .ldc w => Sys2Proof.Machine.execLdc w s
  | .ldl w => Sys2Proof.Machine.execLdl w s
  | .stl w => Sys2Proof.Machine.execStl w s
  | .cp w => Sys2Proof.Machine.execCp w s
  | .cpclose w => Sys2Proof.Machine.execCpclose w s
  | .cpwait w => Sys2Proof.Machine.execCpwait w s
  | .qld w => Sys2Proof.Machine.execQld w s
  | .stmap w => Sys2Proof.Machine.execStmap w s
  | .stunmap w => Sys2Proof.Machine.execStunmap w s
  | .stfl w => Sys2Proof.Machine.execStfl w s
  | .pref w => Sys2Proof.Machine.execPref w s
  | .kvx w => Sys2Proof.Machine.execKvx w s
  | .atom w => Sys2Proof.Machine.execAtom w s
  | .atomOrdAdd w => Sys2Proof.Machine.execAtomOrdAdd w s
  | .red w => Sys2Proof.Machine.execRed w s
  | .redOrd w => Sys2Proof.Machine.execRedOrd w s
  | .append w => Sys2Proof.Machine.execAppend w s
  | .appendDecl w => Sys2Proof.Machine.execAppendDecl w s
  | .eflush w => Sys2Proof.Machine.execEflush w s
  | .fence w => Sys2Proof.Machine.execFence w s
  | .barSync w => Sys2Proof.Machine.execBarSync w s
  | .barArrive w => Sys2Proof.Machine.execBarArrive w s
  | .barWait w => Sys2Proof.Machine.execBarWait w s
  | .pbarArrive w => Sys2Proof.Machine.execPbarArrive w s
  | .pbarWait w => Sys2Proof.Machine.execPbarWait w s
  | .monwait w => Sys2Proof.Machine.execMonwait w s
  | .monwake w => Sys2Proof.Machine.execMonwake w s
  | .drain w => Sys2Proof.Machine.execDrain w s
  | .bcmp w => Sys2Proof.Machine.execBcmp w s
  | .bfind w => Sys2Proof.Machine.execBfind w s
  | .bperm w => Sys2Proof.Machine.execBperm w s
  | .hcrc w => Sys2Proof.Machine.execHcrc w s
  | .hmix w => Sys2Proof.Machine.execHmix w s
  | .acstep w => Sys2Proof.Machine.execAcstep w s
  | .ckpack w => Sys2Proof.Machine.execCkpack w s
  | .ckunpk w => Sys2Proof.Machine.execCkunpk w s
  | .ckadd w => Sys2Proof.Machine.execCkadd w s
  | .cksub w => Sys2Proof.Machine.execCksub w s
  | .ckcmp w => Sys2Proof.Machine.execCkcmp w s
  | .ckbox w => Sys2Proof.Machine.execCkbox w s
  | .cknext w => Sys2Proof.Machine.execCknext w s
  | .ckprev w => Sys2Proof.Machine.execCkprev w s
  | .cksplit w => Sys2Proof.Machine.execCksplit w s
  | .cklvl w => Sys2Proof.Machine.execCklvl w s
  | .wkset w => Sys2Proof.Machine.execWkset w s
  | .wksetImg w => Sys2Proof.Machine.execWksetImg w s
  | .wkadd w => Sys2Proof.Machine.execWkadd w s
  | .wknext w => Sys2Proof.Machine.execWknext w s
  | .wkdone w => Sys2Proof.Machine.execWkdone w s
  | .wkres w => Sys2Proof.Machine.execWkres w s
  | .wkmap w => Sys2Proof.Machine.execWkmap w s
  | .wkstat w => Sys2Proof.Machine.execWkstat w s
  | .wkstatImg w => Sys2Proof.Machine.execWkstatImg w s
  | .minit w => Sys2Proof.Machine.execMinit w s
  | .mtile w => Sys2Proof.Machine.execMtile w s
  | .mma w => Sys2Proof.Machine.execMma w s
  | .crmm w => Sys2Proof.Machine.execCrmm w s
  | .mwait w => Sys2Proof.Machine.execMwait w s
  | .mdrain w => Sys2Proof.Machine.execMdrain w s
  | .mload w => Sys2Proof.Machine.execMload w s
  | .crdrain w => Sys2Proof.Machine.execCrdrain w s
  | .crload w => Sys2Proof.Machine.execCrload w s
  | .crmerge w => Sys2Proof.Machine.execCrmerge w s
  | .crstat w => Sys2Proof.Machine.execCrstat w s
  | .csrr w => Sys2Proof.Machine.execCsrr w s
  | .csrw w => Sys2Proof.Machine.execCsrw w s
  | .csrwWaypart w => Sys2Proof.Machine.execCsrwWaypart w s
  | .tret w => Sys2Proof.Machine.execTret w s
  | .tlbinv w => Sys2Proof.Machine.execTlbinv w s
  | .cacheopAlloc w => Sys2Proof.Machine.execCacheopAlloc w s
  | .cacheopWb w => Sys2Proof.Machine.execCacheopWb w s
  | .cacheopInv w => Sys2Proof.Machine.execCacheopInv w s
  | .cacheopWbinv w => Sys2Proof.Machine.execCacheopWbinv w s
  | .cacheopWbWay w => Sys2Proof.Machine.execCacheopWbWay w s
  | .cacheopInvWay w => Sys2Proof.Machine.execCacheopInvWay w s
  | .cacheopWbinvWay w => Sys2Proof.Machine.execCacheopWbinvWay w s
  | .launch w => Sys2Proof.Machine.execLaunch w s
  | .idle w => Sys2Proof.Machine.execIdle w s
  | .halt w => Sys2Proof.Machine.execHalt w s
  | .mfreeze w => Sys2Proof.Machine.execMfreeze w s
  | .mthaw w => Sys2Proof.Machine.execMthaw w s
  | .registerFill k => Sys2Proof.Machine.execRegisterFill k s
  | .queueEntryFill k => Sys2Proof.Machine.execQueueEntryFill k s
  | .faultResolved k cells => Sys2Proof.Machine.execFaultResolved k cells s
  | .faultRefused k => Sys2Proof.Machine.execFaultRefused k s
  | .swap core pos => Sys2Proof.Machine.execSwap core pos s
  | .swapTransferDone core => Sys2Proof.Machine.execSwapTransferDone core s
  | .admission die => Sys2Proof.Machine.execAdmission die s
  | .dependencyMet ctx => Sys2Proof.Machine.execDependencyMet ctx s
  | .blockPlacement ctx => Sys2Proof.Machine.execBlockPlacement ctx s
  | .yelmFormerPlace blk => Sys2Proof.Machine.execYelmFormerPlace blk s
  | .formtoFlush blk ix => Sys2Proof.Machine.execFormtoFlush blk ix s
  | .crestReadsComplete core x => Sys2Proof.Machine.execCrestReadsComplete core x s
  | .crestTile core x => Sys2Proof.Machine.execCrestTile core x s
  | .crestComplete core x => Sys2Proof.Machine.execCrestComplete core x s
  | .drainTakesEffect core x => Sys2Proof.Machine.execDrainTakesEffect core x s
  | .freezeStop core x => Sys2Proof.Machine.execFreezeStop core x s
  | .walkerWaitEnd core slot => Sys2Proof.Machine.execWalkerWaitEnd core slot s
  | .prefetchComplete k failed => Sys2Proof.Machine.execPrefetchComplete k failed s
  | .pointForcedByTime core slot ix => Sys2Proof.Machine.execPointForcedByTime core slot ix s
  | .copyComplete k ecc => Sys2Proof.Machine.execCopyComplete k ecc s
  | .monitorWake k => Sys2Proof.Machine.execMonitorWake k s
  | .monwaitPollTimeout k => Sys2Proof.Machine.execMonwaitPollTimeout k s
  | .idleTimeout k => Sys2Proof.Machine.execIdleTimeout k s
  | .flush ctx => Sys2Proof.Machine.execFlush ctx s
  | .turn ctx ix => Sys2Proof.Machine.execTurn ctx ix s
  | .launchComplete ctx => Sys2Proof.Machine.execLaunchComplete ctx s
  | .sliceExpiry ctx => Sys2Proof.Machine.execSliceExpiry ctx s
  | .pdrainExpiry ctx => Sys2Proof.Machine.execPdrainExpiry ctx s
  | .coreImageDone ctx core => Sys2Proof.Machine.execCoreImageDone ctx core s
  | .psaveExpiry ctx => Sys2Proof.Machine.execPsaveExpiry ctx s
  | .maintAdmit r => Sys2Proof.Machine.execMaintAdmit r s
  | .maintReadLog r => Sys2Proof.Machine.execMaintReadLog r s
  | .maintFenceMap r => Sys2Proof.Machine.execMaintFenceMap r s
  | .mgmtSetCap r => Sys2Proof.Machine.execMgmtSetCap r s
  | .mgmtReadPower r => Sys2Proof.Machine.execMgmtReadPower r s
  | .mgmtPreempt r => Sys2Proof.Machine.execMgmtPreempt r s
  | .mgmtRestore r => Sys2Proof.Machine.execMgmtRestore r s
  | .debugAttach r => Sys2Proof.Machine.execDebugAttach r s
  | .debugDetach r => Sys2Proof.Machine.execDebugDetach r s
  | .debugStopRequest r => Sys2Proof.Machine.execDebugStopRequest r s
  | .debugStep r => Sys2Proof.Machine.execDebugStep r s
  | .debugResume r => Sys2Proof.Machine.execDebugResume r s
  | .debugRead r => Sys2Proof.Machine.execDebugRead r s
  | .debugWrite r => Sys2Proof.Machine.execDebugWrite r s
  | .debugCoreStop r => Sys2Proof.Machine.execDebugCoreStop r s
  | .frontRequest ix => Sys2Proof.Machine.execFrontRequest ix s
  | .attestationRequest nonce => Sys2Proof.Machine.execAttestationRequest nonce s
  | .powerGood mgmt heotte failed => Sys2Proof.Machine.execPowerGood mgmt heotte failed s
  | .errorDetected u e => Sys2Proof.Machine.execErrorDetected u e s
  | .selfTestDone u passed => Sys2Proof.Machine.execSelfTestDone u passed s
  | .powerOverCap => Sys2Proof.Machine.execPowerOverCap s
  | .junction100c die => Sys2Proof.Machine.execJunction100c die s
  | .junction110c die => Sys2Proof.Machine.execJunction110c die s
  | .dram85c die => Sys2Proof.Machine.execDram85c die s
  | .dramBelow80c die => Sys2Proof.Machine.execDramBelow80c die s
  | .remoteLoadRequest m => Sys2Proof.Machine.execRemoteLoadRequest m s
  | .loadReply k bytes => Sys2Proof.Machine.execLoadReply k bytes s
  | .remoteStore m => Sys2Proof.Machine.execRemoteStore m s
  | .storeAcknowledgement k => Sys2Proof.Machine.execStoreAcknowledgement k s
  | .remoteAtomic m => Sys2Proof.Machine.execRemoteAtomic m s
  | .atomicReply k data => Sys2Proof.Machine.execAtomicReply k data s
  | .copyData m addr size bytes => Sys2Proof.Machine.execCopyData m addr size bytes s
  | .startBarrier src gen => Sys2Proof.Machine.execStartBarrier src gen s
  | .reductionLoadRequest m => Sys2Proof.Machine.execReductionLoadRequest m s
  | .reductionReply k src data => Sys2Proof.Machine.execReductionReply k src data s
  | .drainSweep ctx src phase sweep sent received op => Sys2Proof.Machine.execDrainSweep ctx src phase sweep sent received op s
  | .launchPacketReplication src x va packet => Sys2Proof.Machine.execLaunchPacketReplication src x va packet s
  | .linkControl port => Sys2Proof.Machine.execLinkControl port s
  | .reservedFlit port cls => Sys2Proof.Machine.execReservedFlit port cls s
  | .messageFailure k => Sys2Proof.Machine.execMessageFailure k s
  | .replicationTimeout ctx => Sys2Proof.Machine.execReplicationTimeout ctx s
  | .hostDeviceAccess write addr size bytes => Sys2Proof.Machine.execHostDeviceAccess write addr size bytes s
  | .backInvalidateResponse line => Sys2Proof.Machine.execBackInvalidateResponse line s
  | .hostSnoop line write => Sys2Proof.Machine.execHostSnoop line write s
  | .pageMigration src dst size cells => Sys2Proof.Machine.execPageMigration src dst size cells s
  | .memoryFormComplete core x => Sys2Proof.Machine.execMemoryFormComplete core x s
  | .neighbourLinkTraining port n => Sys2Proof.Machine.execNeighbourLinkTraining port n s
  | .serviceBlockAddressWrite ix addr => Sys2Proof.Machine.execServiceBlockAddressWrite ix addr s
  | .powerOff => Sys2Proof.Machine.execPowerOff s

end Sys2Proof.Machine
end

