-- ==== Sys2Proof/Machine/Packet.lean ====
section
/-! DEFINITION. Issuing a packet (R53 to R57, R75, R76): the checks made before its first chain issues, performing its
chains, and its commit; which gangs may issue, and in which order (R57, R89, R241, R356). -/

namespace Sys2Proof.Machine

/-- The registers and predicates a word writes, as one list of keys: v, s and predicates apart. -/
def writeKeys (i : Instr) : List Nat :=
  let o := operands i
  o.vd ++ o.sd.map (fun r => 100 + r) ++ o.pd.map (fun p => 200 + p)
/-- The registers a word names as sources or destinations. -/
def nameKeys (i : Instr) : List Nat :=
  let o := operands i
  o.v.map Prod.fst ++ o.s.map (fun p => 100 + p.1) ++ o.ps.map (fun p => 200 + p) ++ writeKeys i
/-- The registers a word marks empty at issue (R31); predicates have no F/E bit (R30). -/
def emptiedKeys (i : Instr) : List Nat := if early i then (operands i).vd ++ (operands i).sd.map (fun r => 100 + r) else []

/-- The lowest word at which the packet is ILLEGAL (R53, R55, R73, R75), beyond each word's own checks. Of two words that make a
fault together, the later one counts (DESIGN CHOICE, assumption 78: R76 does not say which of them decides). -/
def packetIllegal (ws : List Word) (its : List (Item × Bool)) : Option Nat :=
  let bad := fun (n : Nat) =>
    match its[n]? with
    | none => false
    | some (it, ok) =>
      match it.instr with
      | none => true
      | some i =>
        let before := (its.take n).map Prod.fst
        let writes := writeKeys i
        !ok || (it.idx == 2 && chainOf ((ws[2]?).getD 0)) || (it.taken == false && (match i with | .ext _ _ => true | _ => false)) ||
          before.any (fun b =>
            match b.instr with
            | none => false
            | some j =>
              (b.chain == it.chain && (writeKeys j).any (fun k => writes.contains k)) ||
                (emptiedKeys j).any (fun k => (nameKeys i).contains k) ||
                (pipeOf j == .b && pipeOf i == .b))
  ((List.range its.length).find? bad).map (fun n => match its[n]? with | some (it, _) => it.idx | none => 0)

/-- The lowest word that breaks R54: a second word of a chain on its pipe, or a word beside an S word; of the two, the later one counts
(DESIGN CHOICE, assumption 78). -/
def pipeConflict (its : List Item) : Option Nat :=
  let clash := fun (i j : Instr) =>
    pipeOf i != .none && pipeOf j != .none && (pipeOf i == pipeOf j || pipeOf i == .s || pipeOf j == .s)
  let bad := fun (n : Nat) =>
    match its[n]? with
    | none => false
    | some it =>
      (its.take n).any (fun b => b.chain == it.chain &&
        match b.instr, it.instr with | some j, some i => clash i j | _, _ => false)
  ((List.range its.length).find? bad).map (fun n => match its[n]? with | some it => it.idx | none => 0)

/-- The lowest word that meets this cause among its own checks. -/
def firstCause (x : Issue) (c : Cause) (its : List Item) : Option Nat :=
  (its.find? (fun it => match it.instr with
    | some i => !it.taken && (x.at it x.base).staticCause x.base i == some c
    | none => false)).map (fun it => it.idx)

/-- The cause and word that the checks on encoding, register names, pipes and privilege decide, in the order of R76. -/
def Issue.packetCause (x : Issue) (ws : List Word) (its : List (Item × Bool)) : Option (Cause × Nat) :=
  let items := its.map Prod.fst
  let low := fun (a b : Option Nat) => match a, b with | some m, some n => some (min m n) | some m, none => some m | none, b => b
  match low (packetIllegal ws its) (firstCause x .illegal items) with
  | some n => some (.illegal, n)
  | none =>
    match firstCause x .misalign items with
    | some n => some (.misalign, n)
    | none =>
      match pipeConflict items with
      | some n => some (.pipeConflict, n)
      | none => (firstCause x .priv items).map (fun n => (.priv, n))

/-- Perform one word of the packet, against the reads of its chain, once the accesses to other devices that it follows are performed
(R285); a packet that has stopped stays so. -/
def State.perform (s : State) (x : Issue) (it : Item) (rd : Device) : State :=
  match s.iss, it.instr with
  | some y, some i =>
    let z := { (x.at it rd) with moved := y.moved }
    if y.status != .run then s
    else if s.dev.orderWaits x.agent x.slices i && (unguardable i || !z.act.isEmpty) then s.waitNow z
    else
      match exec i { s with iss := some z } with
      | .next s' => s'
      | _ => { s with iss := some { y with status := .waits } }
  | _, _ => s

/-- How the packet stands after a word. -/
def State.status (s : State) : IssueStatus := match s.iss with | some y => y.status | none => .run

/-- How far the words of a packet have come. -/
structure Run where
  state : State
  /-- the chain of the last word, and the device where it began (R55) -/
  chain : Nat
  rd : Device
  /-- the chain of the first word that waits, and the state in which that word asks for bytes -/
  stop : Option (Nat × Option State)
  /-- the lowest word that traps, and the lowest that meets a translation fault, each with the state after it -/
  trap : Option (Nat × State)
  fault : Option (Nat × State)
  /-- what the words that have not been performed would have written -/
  lost : List Nat
  /-- the transfer of control, and the device where its chain began -/
  last : Option (Item × Device)

/-- The lower of a word found before and this one. -/
def lowest (p : Option (Nat × State)) (n : Nat) (s : State) : Option (Nat × State) :=
  if (p.map (fun q => decide (n < q.1))).getD true then some (n, s) else p

/-- What a word reads of registers and predicates, its guard among them. -/
def Item.reads (it : Item) : List Nat :=
  (match it.guard with | some g => [200 + g.p.toNat] | none => []) ++
    match it.instr with
    | some i => let o := operands i; o.v.map Prod.fst ++ o.s.map (fun p => 100 + p.1) ++ o.ps.map (fun p => 200 + p)
    | none => []
/-- What a word changes that a later word may read: registers, predicates, and its place in queues. -/
def Item.writes (it : Item) : List Nat :=
  match it.instr with | some i => writeKeys i ++ ((operands i).v.map Prod.fst).filter (fun r => 56 ≤ r) | none => []
def Item.isB (it : Item) : Bool := match it.instr with | some i => pipeOf i == .b | none => false
def Item.isMX (it : Item) : Bool := match it.instr with | some i => pipeOf i == .m || pipeOf i == .x | none => false

/-- What a word that has been tried adds to a run (R56, R76). -/
def Run.note (r : Run) (it : Item) (s' : State) : Run :=
  let off := { r with lost := r.lost ++ it.writes }
  match s'.status with
  | .run => { r with state := s' }
  | .waits => { off with stop := r.stop.or (some (it.chain, none)) }
  | .asked => { off with stop := r.stop.or (some (it.chain, some s')) }
  | .trapped => { off with trap := lowest r.trap it.idx s' }
  | .faulted => { off with fault := lowest r.fault it.idx s' }

/-- Try a word: not one that the checks before the first chain hold, nor one that reads what a word not performed would have written. -/
def Run.try (x : Issue) (held : List Nat) (r : Run) (it : Item) (rd : Device) : Run :=
  if held.contains it.idx then { r with stop := r.stop.or (some (it.chain, none)), lost := r.lost ++ it.writes }
  else if it.reads.any r.lost.contains then { r with lost := r.lost ++ it.writes }
  else r.note it (r.state.perform x it rd)

/-- One word; the transfer of control is kept for the end (R55). -/
def Run.word (x : Issue) (held : List Nat) (r0 : Run) (it : Item) : Run :=
  let r := if it.chain == r0.chain then r0 else { r0 with chain := it.chain, rd := r0.state.dev }
  if it.isB then { r with last := some (it, r.rd) } else r.try x held it r.rd

/-- The words of a packet in order, then its transfer of control (R55). When one waits the others are still tried, for a trap (R56).
`held` are the words that the checks before the first chain make wait. -/
def State.performPacket (s : State) (x : Issue) (held : List Nat) (its : List Item) : Run :=
  let r := its.foldl (Run.word x held)
    { state := { s with iss := some x }, chain := (its.head?.map Item.chain).getD 0, rd := s.dev, stop := none, trap := none, fault := none,
      lost := [], last := none }
  match r.last with
  | some (it, rd) => r.try x held it rd
  | none => r

/-- The empty and queue checks of all words before the first chain issues (R56), against the registers as they stand then. A guard of a
later chain is evaluated after the chains before it. -/
def State.packetVerdict (s : State) (x : Issue) (its : List Item) : List (Nat × Verdict) :=
  let first := (its.head?.map Item.chain).getD 0
  let late := its.any (fun it => it.chain != first && it.guard.isSome)
  let reads := fun (ch : Nat) =>
    if late && ch != first then
      let later := (s.performPacket x [] (its.filter (fun it => it.chain < ch && !it.isB))).state.dev.view x.agent
      s.dev.modView x.agent (fun g => { g with p := later.p })
    else s.dev
  let go := its.foldl (fun (acc : List (Nat × Verdict) × Device) it =>
    match it.instr with
    | none => acc
    | some i =>
      let y := x.at it (reads it.chain)
      (acc.1 ++ [(it.idx, y.dynVerdict acc.2 i)], acc.2.popWord y i)) ([], s.dev)
  go.1

/-- The packet commits: the members of the gang move to the next packet (R56), but for those that a word of the packet, or a trap taken
meanwhile, has sent elsewhere. -/
def Device.advance (d : Device) (x : Issue) (moved : Bool) : Device :=
  let was := (x.base.view x.agent).inHandler
  (d.modView x.agent (fun g =>
    { g.mapSlices x.slices (fun i s =>
        { s with
          ahead := s.ahead.filter (fun q => q.1 != was)
          pc := if !moved && s.pc == x.pc && (was || !g.inHandler || !bitOf g.handler i) then s.pc + 1 else s.pc }) with
      since := d.now })).dropFetched (some x.agent) x.slices

/-- Every live slice has popped both entries of a queue that an open region still retains (R374). -/
def Group.retained (g : Group) (q : Nat) : Bool :=
  let x := (g.queues[q]?).getD default
  g.region.isSome && x.entries.length == 2 && g.liveSlices.all (fun i => decide (x.base + 2 ≤ (g.slice i).qAt q))

/-- A packet that waits, or would trap, on an empty queue: when the queue's entries are all retained, the open region ends (R374). -/
def State.whenWaiting (s : State) (x : Issue) (its : List Item) : Option State :=
  let g := s.dev.view x.agent
  if its.any (fun it => match it.instr with | some i => (operands i).pops.any g.retained | none => false) then
    some { s with dev := s.dev.modView x.agent Group.endRegion }
  else none

/-! Words that begin before their packet (DESIGN CHOICE, assumption 77): a word of a later chain may wait for what only an earlier chain of
its packet can bring. The memory and X-pipe words of those chains then begin, with the reads they have in the packet; the packet issues as a
whole, without them, once the word that waits can go. -/

/-- The words that can begin before a chain of their packet. -/
def beginners (its : List Item) (ch : Nat) : List Item := its.filter (fun it => it.chain < ch && it.isMX)

/-- The word of a chain waits for words of earlier chains alone: without them the packet would not wait. -/
def State.ownWait (s : State) (x : Issue) (held : List Nat) (its : List Item) (ch : Nat) : Bool :=
  let bs := (beginners its ch).map Item.idx
  let r := s.performPacket x held (its.filter (fun it => !bs.contains it.idx))
  !bs.isEmpty && r.stop.isNone && r.fault.isNone

/-- They begin. -/
def State.begin (s : State) (x : Issue) (its : List Item) (ch : Nat) : State :=
  let bs := beginners its ch
  let d := bs.foldl (fun (d : Device) it =>
    let rd := (s.performPacket x [] (its.filter (fun j => j.chain < it.chain && !j.isB))).state.dev
    (({ s with dev := d, iss := some x } : State).perform x it rd).dev) s.dev
  let mark := bs.map (fun it => ((s.dev.view x.agent).inHandler, x.pc, it.idx))
  { s with dev := d.modView x.agent (fun g => g.modSlices x.slices (fun sl => { sl with ahead := sl.ahead ++ mark })), iss := none }

/-- What trying to issue a packet has done. -/
inductive Went where
  /-- the packet has not issued: a region has ended, bytes have been asked for, or words have begun before it -/
  | changed
  /-- the packet has issued: it has committed, or a trap or a fault has cancelled it -/
  | packet
  deriving DecidableEq, Repr, Inhabited

/-- Issue a packet of words whose checks raise no trap (R56): what the run of its words comes to. A trap is taken even when a word waits, a
translation fault only when none does. -/
def State.conclude (s : State) (x : Issue) (held : List Nat) (its : List Item) : Option (State × Went) :=
  let r := s.performPacket x held its
  let cancelled := fun (t : State) => some (({ t with iss := none, dev := t.dev.dropFetched (some x.agent) x.slices } : State), Went.packet)
  match r.stop, r.trap, r.fault with
  | none, some (m, t), some (n, u) => cancelled (if n < m then u else t)
  | _, some (_, t), _ => cancelled t
  | none, none, some (_, t) => cancelled t
  | none, none, none =>
    let moved := (r.state.iss.map Issue.moved).getD false
    some ({ r.state with dev := r.state.dev.advance x moved, iss := none }, .packet)
  | some (ch, asks), none, _ =>
    if s.ownWait x held its ch then some (s.begin x its ch, .changed)
    else
      match asks with
      | some t => some ({ t with iss := none }, .changed)
      | none => (s.whenWaiting x its).map (fun t => (t, .changed))

/-- The words of a gang's packet that have still to be performed. -/
def Group.left (g : Group) (slices : List Nat) (its : List Item) : List Item :=
  let done := g.aheadOf (slices.head?.getD 0)
  its.filter (fun it => !done.contains it.idx)

/-- Issue one packet of a gang of an agent (R56). None when it has to wait. -/
def State.issueGang (s : State) (a : Agent) (slices : List Nat) : Option (State × Went) :=
  let x := s.dev.issueOf a slices
  let pc := x.pc
  let traps := fun (c : Cause) (l : Option Nat) (n : Nat) (code : BitVec 16) =>
    some (({ s with dev := (s.dev.trapEntry a slices pc n c.code l code false false).dropFetched (some a) slices } : State), Went.packet)
  match s.dev.fetchPacket a slices pc with
  | .error (.waitOn fix) => some ({ s with dev := fix s.dev }, .changed)
  | .error (.trap c l code) => traps c l 0 code
  | .error (.trapOn fix c) => some ({ s with dev := ((fix s.dev).trapEntry a slices pc 0 c.code none 0 false false).dropFetched (some a) slices }, .packet)
  | .error (.fault c l addr) => some ({ s with dev := s.dev.faultEntry a slices pc 0 c l addr }, .packet)
  | .error _ => none
  | .ok ws =>
    let placed := placeGuards none (readItems ws)
    match x.packetCause ws placed with
    | some (c, n) => traps c none n 0
    | none =>
      let items := (s.dev.view a).left slices (placed.map Prod.fst)
      let vs := s.packetVerdict x items
      match vs.find? (fun v => match v.2 with | .trap _ _ => true | _ => false) with
      | some (n, .trap c l) =>
        if c == .emptyRead && (s.whenWaiting x items).isSome then (s.whenWaiting x items).map (fun t => (t, .changed)) else traps c l n 0
      | _ => s.conclude x ((vs.filter (fun v => v.2 == .wait)).map Prod.fst) items

/-- The gang could issue (R356). -/
def State.ready (s : State) (a : Agent) (slices : List Nat) : Bool := (s.issueGang a slices).isSome

/-! Who can issue. -/

/-- An agent's launch has gone as far as it must, no fault stalls it, and no pre-emption at level 2 and no debug stop holds
it (R22, R353, R371, R380, R385, R386, R425). Only the stop of a group halts its core in core-stop debug mode, not that of an access slice
or a ridge thread (DESIGN CHOICE, assumption 54). It waits for what a walker word has sent, or a handler's memory form (R117, R211). -/
def Device.mayIssue (d : Device) (a : Agent) : Bool :=
  let c := d.ctx (d.ctxOf a)
  let running : Bool := match a with | .handler _ => true | _ => d.launched (d.ctxOf a)
  let held : Bool := match a with | .handler _ => false | _ => match c.preempt with | some p => 2 ≤ p.level | none => false
  let handlerHere : Bool := match a with | .ridge b => d.handlers.any (fun h => h.1 == (d.block b).core / 4) | _ => false
  let coreHeld : Bool := match a.blk? with
    | none => false
    | some b =>
      let k := (d.block b).core
      (d.core k).coreStop && d.blocks.any (fun x => x.core == k && !x.ended && x.groups.any (fun g => g.stopped))
  let stopped : Bool := match a with
    | .group b k => let g := (d.block b).group k; (g.stopped && g.stepping.isNone) || (coreHeld && g.stepping.isNone)
    | .handler _ => false
    | _ => coreHeld || (d.view a).stopped
  running && !held && !handlerHere && !stopped && !d.stalled a && !d.fab.remotes.any (fun r => r.holds a)

/-- While a step is under way, only its gang issues (R387). -/
def Group.maySlice (g : Group) (i : Nat) : Bool :=
  match g.stepping with | none => true | some (n, _) => (g.gangOf i).contains n

/-- A group's gangs may issue: it is in an active position, its registers are there, and nothing holds it (R39, R356). -/
def Device.groupOn (d : Device) (b k : Nat) : Bool :=
  let x := d.block b
  let g := x.group k
  !x.ended && k < x.groups.length && !g.exited && g.pos.isSome && (d.core x.core).transfer != some (b, k) && d.mayIssue (.group b k)
/-- A thread may issue. -/
def Device.threadOn (d : Device) (a : Agent) : Bool :=
  (match a with
    | .group _ _ => false
    | .access b => !(d.block b).ended && (d.block b).access.any (fun t => !t.exited && t.hold == .free)
    | .ridge b => !(d.block b).ended && (d.block b).ridge.any (fun t => !t.exited && t.hold == .free)
    | .handler c => d.handlers.any (fun h => h.1 == c && !h.2.2.exited && h.2.2.hold == .free)) && d.mayIssue a
/-- The slice is the first of a gang that nothing holds. -/
def Group.heads (g : Group) (i : Nat) : Bool := g.slicesReady i && g.maySlice i && (g.gangOf i).head? == some i

/-! The order of issue. -/

/-- 0 to n - 1, round from the number after `last`. -/
def roundFrom (n : Nat) : Option Nat → List Nat
  | none => List.range n
  | some m => (List.range n).drop (m + 1) ++ (List.range n).take (m + 1)

/-- The first `n` of a list that meet a test. -/
def firstFew {α : Type} (p : α → Bool) : Nat → List α → List α
  | 0, _ => []
  | _, [] => []
  | n + 1, x :: xs => if p x then x :: firstFew p n xs else firstFew p (n + 1) xs

/-- The first `n` ready gangs of the group in a position, in round robin after the gang that issued last (R356). -/
def State.readyGangs (s : State) (core pos n : Nat) : List Place :=
  match s.dev.inPos core pos with
  | none => []
  | some (b, k) =>
    let g := (s.dev.block b).group k
    if !s.dev.groupOn b k then []
    else
      (firstFew (fun i => g.heads i && s.ready (.group b k) (g.gangOf i)) n (roundFrom g.slices.length g.rrLast)).map
        (fun i => { blk := b, slot := k, slice := i, next := none })

/-- The pipes that the first chain of a gang's packet needs, of those that two gangs of a slot's cycle cannot share (R57). -/
def State.firstPipes (s : State) (p : Place) : List Pipe :=
  let a := Agent.group p.blk p.slot
  let g := s.dev.view a
  let gang := g.gangOf p.slice
  match s.dev.fetchPacket a gang (g.slice p.slice).pc with
  | .error _ => []
  | .ok ws =>
    let its := g.left gang (readItems ws)
    let first := (its.head?.map Item.chain).getD 0
    (its.filterMap (fun it => if it.chain == first then it.instr.map pipeOf else none)).filter (fun q => q == .b || q == .x || q == .m)

/-- The gangs that a slot selects for its next cycle (R57, R356): up to two of the group that has first choice, and what place is left of
the other; a second gang that needs a pipe of the first waits. Two gangs of one group act in the order of their slices (R367). -/
def State.select (s : State) (core n : Nat) : List Place :=
  let up := (((s.dev.core core).slots[n]?).getD default).upper
  let f := s.readyGangs core (if up then n + 4 else n) 2
  match f ++ (if f.length < 2 then s.readyGangs core (if up then n else n + 4) (2 - f.length) else []) with
  | [p, q] =>
    if (s.firstPipes p).any (s.firstPipes q).contains then [p]
    else if p.blk == q.blk && p.slot == q.slot then
      let p := { p with next := some q.slice }
      if p.slice < q.slice then [p, q] else [q, p]
    else [p, q]
  | l => l

/-- A gang that a slot has selected can still act. -/
def State.stillReady (s : State) (core n : Nat) (p : Place) : Bool :=
  let g := (s.dev.block p.blk).group p.slot
  (s.dev.block p.blk).core == core && s.dev.groupOn p.blk p.slot && (g.pos == some n || g.pos == some (n + 4)) && g.slicesReady p.slice &&
    g.maySlice p.slice && s.ready (.group p.blk p.slot) (g.gangOf p.slice)

/-- The gangs of a slot's cycle that are still to act, and whether the cycle begins with them. A cycle is one in which the slot issues: those in
which it has no ready gang do not count (DESIGN CHOICE, assumption 52). -/
def State.slotPlan (s : State) (core n : Nat) : List Place × Bool :=
  match ((((s.dev.core core).slots[n]?).getD default).rest).filter (s.stillReady core n) with
  | [] => (s.select core n, true)
  | l => (l, false)

/-- What takes turns to issue: a slot of a core, the access engine of a core, the ridge core of a cluster, a cluster trap handler. -/
inductive Issuer where
  | slot (core n : Nat)
  | engine (core : Nat)
  | ridge (clu : Nat)
  | handler (clu : Nat)

/-- An agent that may issue now from the gang of a slice, and what its issue leaves in its issuer. -/
structure Turn where
  agent : Agent
  slice : Nat
  note : Device → Device

/-- One gang of a slot's plan issues: the rest follow, and the other group has first choice in the next cycle. The round of its group goes on
from the gang selected last. -/
def Place.turn (core n : Nat) (plan : List Place) (fresh : Bool) (p : Place) : Turn where
  agent := .group p.blk p.slot
  slice := p.slice
  note := fun d =>
    (d.modCore core (fun k =>
      { k with slots := listModify (fun t => { upper := if fresh then !t.upper else t.upper, rest := plan.filter (fun q => q != p) }) k.slots n })).modGroup
      p.blk p.slot (fun g => if p.next.isSome && g.rrLast == p.next then g else { g with rrLast := some p.slice })

/-- The number of a ridge thread on its cluster's ridge core (R89). -/
def Device.threadNo (d : Device) (b : Nat) : Nat := (d.block b).core % 4 * 2 + (d.block b).ridgeCtx

/-- The thread whose turn it is among those of one engine, numbered 0 to n - 1: the first that could issue, round from the one that issued
last (R89, R241). -/
def State.threadTurn (s : State) (of : Nat → Agent) (at' : Nat → Option Nat) (n : Nat) (last : Nat) : Option Nat :=
  ((roundFrom n (if last = 0 then none else some (last - 1))).filterMap at').find? (fun b => s.dev.threadOn (of b) && s.ready (of b) [0])

/-- Those that may issue next (R89, R241, R356): of two gangs of one group in a slot's cycle only the lower, of two groups either. -/
def State.turns (s : State) (q : Issuer) : List Turn :=
  let d := s.dev
  match q with
  | .slot core n =>
    let (plan, fresh) := s.slotPlan core n
    let first := match plan with | [p, q] => if p.blk == q.blk && p.slot == q.slot then [p] else plan | _ => plan
    first.map (Place.turn core n plan fresh)
  | .engine core =>
    let at' := fun (b : Nat) => if (d.block b).core == core then some b else none
    match s.threadTurn .access at' d.blocks.length (d.core core).accessLast with
    | some b => [{ agent := .access b, slice := 0, note := fun d => d.modCore core (fun k => { k with accessLast := b + 1 }) }]
    | none => []
  | .ridge clu =>
    let at' := fun (n : Nat) => (List.range d.blocks.length).find? (fun b =>
      !(d.block b).ended && (d.block b).ridge.isSome && (d.block b).core / 4 == clu && d.threadNo b == n)
    match s.threadTurn .ridge at' 8 (Fmap.get 0 d.ridgeLast clu) with
    | some b => [{ agent := .ridge b, slice := 0, note := fun d => { d with ridgeLast := Fmap.set 0 d.ridgeLast clu (d.threadNo b + 1) } }]
    | none => []
  | .handler clu => if d.threadOn (.handler clu) then [{ agent := .handler clu, slice := 0, note := id }] else []

/-- The issuer of an agent. -/
def Device.issuerOf (d : Device) (a : Agent) : Issuer :=
  match a with
  | .group b k => .slot (d.block b).core ((((d.block b).group k).pos.getD 0) % 4)
  | .access b => .engine (d.block b).core
  | .ridge b => .ridge ((d.block b).core / 4)
  | .handler c => .handler c

/-- The turn of an agent to issue from the gang that holds a slice, when it is its turn. -/
def State.turnOf (s : State) (a : Agent) (i : Nat) : Option Turn :=
  (s.turns (s.dev.issuerOf a)).find? (fun t => t.agent == a && (!a.isGroup || ((s.dev.view a).gangOf t.slice).contains i))

/-- Everything that issues, in the model's own order: cores in the order in which blocks were placed on them, each with its slots, its access
engine and its cluster's ridge core, then the cluster handlers (DESIGN CHOICE, assumption 1). -/
def Device.issuers (d : Device) : List Issuer :=
  let cores := dedup ((d.blocks.filter (fun b => !b.ended)).map Block.core)
  cores.flatMap (fun c => [.slot c 0, .slot c 1, .slot c 2, .slot c 3, .engine c]) ++ (dedup (cores.map (fun c => c / 4))).map Issuer.ridge ++
    d.handlers.map (fun h => Issuer.handler h.1)

/-- The end of a step (R387): the group stops again at its gang's next packet, as by BKPT with code 0xFFFF; a trap it took is
delivered instead; a packet that met a translation fault has still to be performed. -/
def Device.afterStep (d : Device) (a : Agent) (n : Nat) (r : Req) : Device :=
  let g := d.view a
  if d.faults.any (fun f => f.agent == a) then d
  else if g.stepping.isNone then d.answer r 0 []
  else if g.inHandler then (d.putView a { g with stepping := none }).answer r 0 []
  else
    (d.putView a
      { g with
        stepping := none, cause := causeWord Cause.bkpt.code 0 none 0xFFFF false false, epc := zext (g.slice n).pc
        handler := sliceMask (g.gangOf n) }).answer r 0 []

/-- An agent whose turn it is tries to issue. A step is over once its packet has issued (R387). -/
def State.issueTurn (s : State) (t : Turn) : Option State :=
  let g := s.dev.view t.agent
  match s.issueGang t.agent (if t.agent.isGroup then g.gangOf t.slice else [0]) with
  | none => none
  | some (u, .changed) => some u
  | some (u, .packet) =>
    let d1 := t.note u.dev
    let d2 := match g.stepping with | some (n, r) => d1.afterStep t.agent n r | none => d1
    some { u with dev := d2, turn := s.turn + 1 }

/-- Issue from the gang that holds a slice, if it is its turn. -/
def State.issueFrom (s : State) (a : Agent) (slice : Nat) : Option State := (s.turnOf a slice).bind s.issueTurn

/-- The issuers in the model's own order, which goes round them: from where the packets issued so far have brought it. -/
def State.inTurn (s : State) : List Issuer :=
  let cs := s.dev.issuers
  let n := s.turn % max cs.length 1
  cs.drop n ++ cs.take n

/-- The first that may issue and can does; none when every one waits. -/
def State.issueFirst (s : State) (qs : List Issuer) : Option State :=
  qs.findSome? (fun q => (s.turns q).findSome? s.issueTurn)

/-- A context's slice counter advances: a block of it is resident, and no fault of another context stalls its core
(R362). -/
def Device.charged (d : Device) (c : Nat) : Bool :=
  let cores := (d.liveBlocks c).map (fun b => (d.block b).core)
  !cores.isEmpty && !d.faults.any (fun f =>
    !d.ofCtx c f.agent && cores.contains f.core && (match f.agent with | .ridge _ => false | _ => true))

/-- Groups that wait for a position while their core has one free. -/
def Device.refill (d : Device) : Device :=
  let cores := dedup (((List.range d.blocks.length).filter (fun b =>
    !(d.block b).ended && (d.block b).groups.any (fun g => g.pos.isNone && !g.exited))).map (fun b => (d.block b).core))
  cores.foldl Device.fillPositions d

/-- Time passes: slices of launches run (R362), eave buffers forward what they hold (R308), and stores of the firmware that waited are
performed (R231). -/
def State.tick (s : State) (n : Nat) : State :=
  let d := s.dev.eaveForward
  let d := if d.ham.stores.isEmpty then d else d.firmFlush d.ham.stores
  { s with dev := { d.refill with
      now := d.now + n
      ctxs := d.ctxs.mapIdx (fun c x => if d.charged c then { x with slice := x.slice + BitVec.ofNat 64 n } else x) } }

end Sys2Proof.Machine
end

