-- ==== Sys2Proof/Machine/Due.lean ====
section
/-! DEFINITION. The events that the machine brings about by itself when the agenda is empty, in the model's own order
(DESIGN CHOICE, assumption 1). An event is due only where it has an effect, so that none is repeated for nothing. -/

namespace Sys2Proof.Machine

/-- The first of some places that gives an event. -/
def firstDue {α : Type} (xs : List α) (f : α → Option Instr) : Option Instr := xs.findSome? f
/-- The event, when its condition holds. -/
def dueIf (b : Bool) (i : Instr) : Option Instr := if b then some i else none

/-- Cores that hold a block, or stand in the cluster of a handler. -/
def Device.busyCores (d : Device) : List Nat :=
  dedup (d.blocks.map Block.core ++ d.handlers.flatMap (fun h => (List.range 4).map (fun i => 4 * h.1 + i)))

/-- A waiting `monwait` can look at its word (R320). -/
def Device.canLook (d : Device) (m : Monitor) : Bool :=
  d.live m.agent &&
    match d.monitorLocs m with
    | .error _ => true
    | .ok ls => if ls.any isRemote then !d.polling m.agent else !d.held ls

/-- Producers, queues and copies. -/
def Device.fillsDue (d : Device) : Option Instr :=
  ((listFind (fun (f : Fill) => f.await == 0) d.fills 0).map Instr.registerFill).or
    ((firstDue (List.range d.qfills.length) (fun k => dueIf (d.queueDue k) (.queueEntryFill k))).or
      (firstDue (List.range d.copies.length) (fun k => dueIf (d.copyDue k) (.copyComplete k false))))

/-- One Crest context. -/
def Device.crestDue (d : Device) (core n : Nat) : Option Instr :=
  let k := d.crest core n
  if k.freezing then some (.freezeStop core n)
  else if (d.readable k).isSome then some (.crestReadsComplete core n)
  else if d.mayTile core n then some (.crestTile core n)
  else if k.mulDone then some (.crestComplete core n)
  else if d.drainReady k then some (.drainTakesEffect core n)
  else dueIf (d.memReady core n) (.memoryFormComplete core n)

/-- A record that the walker has still to read, and can read or ask for (R199). -/
def Device.recordDue (d : Device) (core n : Nat) : Bool :=
  let s := d.wslot core n
  (List.range s.points.length).any (fun i =>
    match s.points[i]? with
    | none => false
    | some p =>
      p.unread &&
        match d.reachBlk (s.holder.getD 0) .load p.record 32 with
        | .error _ => true
        | .ok ls => if ls.any isRemote then !d.fab.remotes.any (fun r => r.use == .record core n s.serial i) else !d.held ls)

/-- The first waiting `wknext` of a slot can go on (R201). -/
def Device.slotDue (d : Device) (core n : Nat) : Bool :=
  let s := d.wslot core n
  match s.waiting with
  | [] => false
  | q :: _ =>
    if q.ids.isSome then !d.mapAway core n
    else if d.slotShut core n then false
    else
      let cs := d.candidatesOf core n
      s.points.all (fun p => p.handed) || (!(q.examined && cs.isEmpty) && !d.mapHeld core n (d.takes q cs))

/-- One walker slot. -/
def Device.walkerDue (d : Device) (core n : Nat) : Option Instr :=
  let s := d.wslot core n
  (firstDue (List.range s.points.length) (fun i => dueIf (d.pointDue core n i) (.pointForcedByTime core n i))).or
    (dueIf (d.recordDue core n || d.slotDue core n) (.walkerWaitEnd core n))

/-- Swaps of a core. -/
def Device.coreSwapDue (d : Device) (core : Nat) : Option Instr :=
  if (d.core core).transfer.isSome then some (.swapTransferDone core)
  else if (d.pending core).isEmpty && !(d.residents core).any (fun p => (d.groupAt p).yielding) then none
  else firstDue (List.range 8) (fun pos => dueIf (d.swapDue core pos) (.swap core pos))

/-- A core's units. -/
def Device.coreDue (d : Device) (core : Nat) : Option Instr :=
  (firstDue [0, 1] (d.crestDue core)).or ((firstDue [0, 1, 2, 3] (d.walkerDue core)).or (d.coreSwapDue core))

/-- Monitors and `idle`. -/
def Device.waitsDue (d : Device) : Option Instr :=
  (firstDue (List.range d.monitors.length) (fun k =>
    match d.monitors[k]? with
    | some m =>
      if !d.canLook m then none
      else if m.woken || m.called then some (.monitorWake k)
      else dueIf (d.pollDue m) (.monwaitPollTimeout k)
    | none => none)).or
    (firstDue (List.range d.idlers.length) (fun k => dueIf (d.idleDue k).isSome (.idleTimeout k)))

/-- The completion counter can be incremented, or there is none, or its translation fails (R407). -/
def Device.completionDue (d : Device) (c : Nat) : Bool :=
  let x := d.ctx c
  d.finished c && x.doneFault.isNone &&
    (x.packet.done == 0 ||
      match d.decodeRange x none x.die x.privLaunch .store x.packet.done 8 with
      | .error _ => true
      | .ok ls => !d.held ls)

/-- The launch that a die serves has room for its next step (R353, R354). -/
def Device.placementDue (d : Device) (die : Nat) : Option Instr :=
  match d.served die with
  | none => none
  | some c =>
    dueIf (d.nextStep c).isSome (.blockPlacement c)

/-- The events of one context. -/
def Device.ctxDue (d : Device) (c : Nat) : Option Instr :=
  let x := d.ctx c
  if d.stagedFree c && (d.flushReady c (x.flushes + 1) || d.finalReady c) then some (.flush c)
  else
    (firstDue (List.range x.streams.length) (fun i => dueIf (d.turnDue c i).isSome (.turn c i))).or
      (if x.state == .waiting && (d.depMet x || d.depFar c) then some (.dependencyMet c)
      else if d.completionDue c then some (.launchComplete c)
      else if d.sliceDue c then some (.sliceExpiry c)
      else if d.drainDue c then some (.pdrainExpiry c)
      else if d.saveDue c then some (.psaveExpiry c)
      else if d.replicaLate c then some (.replicationTimeout c)
      else
        match x.preempt with
        | some p => if p.level == 2 then firstDue p.cores (fun k => dueIf (d.imageReady c k) (.coreImageDone c k)) else none
        | none => none)

/-- The yelm former of a block. -/
def Device.formerDue (d : Device) (b : Nat) : Option Instr :=
  let x := d.block b
  if x.ended then none
  else if !x.built.isEmpty && x.freeSlot.isSome && x.spawnRoom (d.ctx x.ctx).packet.groups &&
      !(d.ctx x.ctx).preempt.any (fun p => decide (2 ≤ p.level)) then some (.yelmFormerPlace b)
  else firstDue (List.range x.formers.length) (fun i => dueIf (d.flushDue b i) (.formtoFlush b i))

/-- The first event that is due. -/
def Device.due (d : Device) : Option Instr :=
  d.fillsDue.or ((firstDue d.busyCores d.coreDue).or (d.waitsDue.or
    ((firstDue (List.range d.prefetches.length) (fun k => dueIf (d.prefetchDue k) (.prefetchComplete k false))).or
      ((firstDue d.ctxIds d.ctxDue).or ((firstDue (List.range d.blocks.length) d.formerDue).or
        ((firstDue [0, 1, 2, 3] (fun n => dueIf (d.nextAdmission n).isSome (.admission n))).or
          (firstDue [0, 1, 2, 3] d.placementDue)))))))

/-! What happens only while no packet can issue: the Hamada cores' work and the outside world's. -/

/-- The event that serves an operation of a service. -/
def serviceEvent (r : Req) (service op : Nat) : Instr :=
  match service, op with
  | 1, 2 => .maintReadLog r
  | 1, 3 => .maintFenceMap r
  | 2, 1 => .mgmtSetCap r
  | 2, 2 => .mgmtReadPower r
  | 2, 3 => .mgmtPreempt r
  | 2, 4 => .mgmtRestore r
  | 3, 1 => .debugAttach r
  | 3, 2 => .debugDetach r
  | 3, 3 => .debugStopRequest r
  | 3, 4 => .debugStep r
  | 3, 5 => .debugResume r
  | 3, 6 => .debugRead r
  | 3, 7 => .debugWrite r
  | 3, 8 => .debugCoreStop r
  | _, _ => .maintAdmit r

/-- A named block holds a request that can be served now, and it is its turn (R409, R412). -/
def Device.blockCallDue (d : Device) (i : Nat) : Option Instr :=
  let r := Req.block i
  match d.callOf r with
  | none => none
  | some c => dueIf (d.callReady r c && d.blockTurn r) (serviceEvent r c.service c.op)

/-- A request of the front program can be served (R415). -/
def Device.frontDue (d : Device) (i : Nat) : Option Instr :=
  match d.ham.front[i]? with
  | none => none
  | some (base, ack) =>
    let at' := fun (off : Nat) => ((frontLocs base).drop off).take 8
    dueIf (!d.held (frontLocs base) && d.valueAt (at' 0) != ack &&
      (match d.frontLaunch false i (d.valueAt (at' 8)) none with | .waits => false | _ => true)) (.frontRequest i)

/-- This device's own step of a drain sweep: a `drain` waits on it, or children have sent their sums, or a parent waits for
its own (R427). -/
def Device.sweepDue (d : Device) (c : Nat) : Option Instr :=
  let x := d.ctx c
  let kids := d.treeChildren c
  if x.joined && !x.away && !x.sweepSent && kids.all (fun n => x.childSums.any (fun s => s.1 == n)) &&
      (!x.drains.isEmpty || !kids.isEmpty || d.treePos c != 0) then
    some (.drainSweep c d.ham.devNum 0 0 0 0 0)
  else none

/-- A request that cannot leave the device, whose ports stay down: it fails (R419, R423). -/
def Device.unsentDue (d : Device) : Option Instr :=
  if d.ham.listed then none else (listFind (fun (r : RemoteOp) => !r.failed) d.fab.remotes 0).map Instr.messageFailure

/-- The first such event. The host gives back a line it caches, and a test of a unit passes, last of all (R414, R442). -/
def Device.lateDue (d : Device) : Option Instr :=
  (firstDue (List.range 8) d.blockCallDue).or ((firstDue (List.range d.ham.front.length) d.frontDue).or
    ((firstDue d.ctxIds d.sweepDue).or (d.unsentDue.or (((d.fab.hostLines[0]?).map Instr.backInvalidateResponse).or
      (firstDue d.ham.testing (fun t => dueIf (d.testReady t.1) (.selfTestDone t.1 true)))))))

end Sys2Proof.Machine
end

