-- ==== Sys2Proof/Machine/Sched.lean ====
section
/-! DEFINITION. One step of the machine: the head of the agenda, or, when the agenda is empty, the event that is due,
else the packet of the first gang that can issue. Every step takes one cycle, and `pass` as many as it says. -/

namespace Sys2Proof.Machine

/-- Time goes on after an outcome. -/
def afterCycle (o : Host.Outcome State Fault Refusal) : Host.Outcome State Fault Refusal :=
  match o with
  | .next s => .next (s.tick 1)
  | .fault f => .fault f
  | .refused r => .refused r

/-- A packet issues, or nothing but time passes. -/
def State.orTick (s : State) (o : Option State) : Host.Outcome State Fault Refusal :=
  .next ((o.getD s).tick 1)

/-- With an empty agenda: the event that is due, else the first packet that can issue, else what waits for neither. -/
def State.stepFree (s : State) : Host.Outcome State Fault Refusal :=
  match s.dev.due with
  | some i => afterCycle (exec i s)
  | none =>
    match s.issueFirst s.inTurn with
    | some s' => .next (s'.tick 1)
    | none =>
      match s.dev.lateDue with
      | some i => afterCycle (exec i s)
      | none => .next (s.tick 1)

/-- The step of a running machine. -/
def State.stepRunning (s : State) : Host.Outcome State Fault Refusal :=
  match s.agenda with
  | .event i :: rest => afterCycle (exec i { s with agenda := rest })
  | .issue a sl :: rest =>
    let s1 := { s with agenda := rest }
    s1.orTick (s1.issueFrom a sl)
  | .pass n :: rest => .next (({ s with agenda := rest } : State).tick n)
  | [] => s.stepFree

/-- The step of a machine that has not booted: power comes or goes, or time passes; nothing else can happen (R437). -/
def State.stepUnbooted (s : State) : Host.Outcome State Fault Refusal :=
  match s.agenda with
  | .event (.powerGood f1 f2 bad) :: rest => afterCycle (exec (.powerGood f1 f2 bad) { s with agenda := rest })
  | .event .powerOff :: rest => afterCycle (exec .powerOff { s with agenda := rest })
  | .pass n :: rest => .next (({ s with agenda := rest } : State).tick n)
  | [] => .next (s.tick 1)
  | _ => .fault .notBooted

/-- One step. Nothing runs before boot but the boot itself (R437). -/
def State.stepOnce (s : State) : Host.Outcome State Fault Refusal :=
  match s.dev.boot with
  | .running => s.stepRunning
  | _ => s.stepUnbooted

end Sys2Proof.Machine
end

