-- ==== Sys2Proof/Machine/Place.lean ====
section
/-! DEFINITION. A program put where the machine fetches its next packet: a context whose page table maps the first GiB of
its addresses to the same physical addresses, one block with one agent, and the packet at the code base (DESIGN CHOICE, assumption 11). -/

namespace Sys2Proof.Machine

/-- A table entry: valid, not a leaf, naming the next table. -/
def tablePte (table : Nat) : DWord := BitVec.ofNat 64 (table + 1)
/-- A leaf of frame 0 with every right (R370). -/
def leafPte : DWord := 0x7B

/-- The page tables: levels 4, 3 and 2 at 0x10000, 0x11000 and 0x12000, and a leaf of 1 GiB. -/
def placeTables : List (Nat × Byte) :=
  let at' := fun (pa : Nat) (x : DWord) => (bytesOf 8 x).mapIdx (fun i b => (pa + i, b))
  at' 0x10000 (tablePte 0x11000) ++ at' 0x11000 (tablePte 0x12000) ++ at' 0x12000 leafPte

/-- The packet's words: the instruction's, and `nop` in every word it leaves. -/
def placeWords (nbits w : Nat) : List Word :=
  let w0 := BitVec.ofNat 32 w
  let w1 := BitVec.ofNat 32 (w >>> 32)
  let nopWord : Word := 0x01000000
  if nbits ≤ 32 then [w0, if needsExt (opcodeOf w0).toNat then extWord false 0 else nopWord, nopWord]
  else [w0, w1, nopWord]

/-- A launch packet of one block of one group with 56 registers, parallel class, code at 0x1000. -/
def placePacket : Packet :=
  { (default : Packet) with codeBase := 0x1000, groups := 1, regs8 := 7, cls := 1, grid := 1,
                            accessEntry := 0xFFFFFFFF, ridgeEntry := 0xFFFFFFFF }

/-- The role that may issue an instruction: a group where one may, else an access slice, a ridge thread, a handler. -/
def placeRole (i : Instr) : Agent :=
  if roleOk (.group 0 0) i then .group 0 0 else if accessOk i then .access 0 else if ridgeOk i then .ridge 0 else .handler 0

/-- The machine with a packet placed where its next step fetches. -/
def State.placeWord (s : State) (nbits w : Nat) : State :=
  let i := (decodeTableWord nbits w).getD (.nop false)
  let code := (placeWords nbits w).flatMap bytesOfWord
  let role := placeRole i
  let slices := List.replicate 64 (Slice.fresh 0 15)
  let grp := { Group.fresh 0 slices 0 with pos := some 0, priv := privileged i }
  let b := Block.fresh 0 0 0 0
  let b := match role with
    | .group _ _ => { b with groups := [grp] }
    | .access _ => { b with access := some (Thread.fresh 0 0), groups := [grp] }
    | .ridge _ => { b with ridge := some (Thread.fresh 0 0) }
    | .handler _ => { b with ended := true }
  let handlers := match role with | .handler _ => [(0, 0, { Thread.fresh 0 0 with priv := true })] | _ => []
  let ctx := { Ctx.fresh placePacket 0 0 with
    state := .running, root := 0x10000, tables := Fmap.setAll 0 [] placeTables, placed := 1, privLaunch := privileged i }
  let bytes := code.mapIdx (fun n x => (0x1000 + n, x))
  let cores := match role with
    | .ridge _ => listModify (fun k => { k with crest := listModify (fun x => { x with blk := some 0 }) k.crest 0 }) s.dev.cores 0
    | _ => s.dev.cores
  { s with
    agenda := [.issue role 0]
    iss := none
    turn := 0
    dev := { s.dev with
      mem := Fmap.setAll 0 s.dev.mem (bytes ++ placeTables)
      ctxs := [ctx], blocks := [b], handlers := handlers, cores := cores
      sets := [{ ctx := 0, blocks := [0], bars := List.replicate 8 Bar.fresh }]
      ham := { s.dev.ham with handlerBase := 0x1000 } } }

end Sys2Proof.Machine
end

