-- ==== Sys2Proof/Machine/Step.lean ====
section
/-! DEFINITION. The step function, and a program's packet placed where it fetches. -/

namespace Sys2Proof.Machine

/-- One step of the machine. -/
def step (s : State) : Host.Outcome State Fault Refusal := s.stepOnce

/-- The machine with an instruction stored where the next step fetches it, in a packet filled with `nop`
(DESIGN CHOICE, assumption 11). -/
def State.withFetchWord (s : State) (nbits w : Nat) : State := s.placeWord nbits w

end Sys2Proof.Machine
end

