-- ==== Sys2Proof/Safety.lean ====
section
/-! DEFINITION. What a safe state is, and the terms that claims are stated in: memories in their canonical form, a word
that may be performed, the state a performed word leaves, and what registers of an agent hold. -/

namespace Sys2Proof.Machine

/-! Memories. -/

/-- The canonical form of a byte memory: addresses strictly rising, no byte equal to what an unlisted address reads as. -/
def Memory.wf (m : Fmap Byte) : Bool := Fmap.wf 0 m

/-- The device's memory and scratchpad have their canonical form. -/
def Device.memWf (d : Device) : Bool := Memory.wf d.mem && Memory.wf d.scratch

/-- What slices have read for instances that have not acted is in its canonical form. -/
def Group.instsWf (g : Group) : Bool :=
  (g.laneInsts ++ g.regionLanes).all (fun y => Fmap.wf 0 y.a && Fmap.wf 0 y.b) && g.grpInsts.all (fun y => Fmap.wf 0 y.vals)

/-- The registers of a group are in their canonical form, and what its instances hold is. -/
def Group.regsWf (g : Group) : Bool :=
  Fmap.wf 0 g.v && Fmap.wf 0 g.s && Fmap.wf false g.p && Fmap.wf false g.vEmpty && Fmap.wf false g.sEmpty &&
    Fmap.wf false g.vBad && Fmap.wf false g.sBad && Fmap.wf 0 g.ckf &&
    g.instsWf

/-- The registers of a thread are. -/
def Thread.regsWf (t : Thread) : Bool := Fmap.wf 0 t.s && Fmap.wf false t.sEmpty && Fmap.wf false t.sBad

/-- A block's stash and its agents' registers are. -/
def Block.wf (b : Block) : Bool :=
  Memory.wf b.stash && b.groups.all Group.regsWf && b.access.all Thread.regsWf && b.ridge.all Thread.regsWf

/-- Every stash and register file of the device, resident or saved, has its canonical form. -/
def Device.filesWf (d : Device) : Bool :=
  d.blocks.all Block.wf && d.handlers.all (fun h => h.2.2.regsWf) && d.saved.all (fun s => s.blocks.all (fun b => b.2.wf))

/-! Words of a packet in issue. -/

/-- The agent exists. -/
def Device.has (d : Device) : Agent → Bool
  | .group b k => decide (b < d.blocks.length) && decide (k < (d.block b).groups.length)
  | .access b => decide (b < d.blocks.length) && (d.block b).access.isSome
  | .ridge b => decide (b < d.blocks.length) && (d.block b).ridge.isSome
  | .handler c => (d.handlerOf c).isSome

/-- A word of the packet in issue passes every check made before it is performed: R32, R33, R36, R56, R75, R76. -/
def Cleared (s : State) (x : Issue) (i : Instr) : Prop := s.iss = some x ∧ x.verdict s.dev i = .go

/-- It passes them, and some lane performs it (R73). -/
def Ready (s : State) (x : Issue) (i : Instr) : Prop := Cleared s x i ∧ x.act ≠ []

/-- The gang in issue is one of an agent that exists: its members are slices of the agent, each once. -/
def GangOk (s : State) (x : Issue) : Prop :=
  s.dev.has x.agent = true ∧ x.slices ≠ [] ∧ x.slices.Nodup ∧
    ∀ i ∈ x.slices, i < 64 ∧ i < (s.dev.view x.agent).slices.length

/-- The state after a word has been performed with this effect on the device: the queues it names are popped (R36), and
the packet goes on. -/
def State.after (s : State) (x : Issue) (i : Instr) (moved : Bool) (d : Device) : State :=
  { s with dev := d.popWord x i, iss := some { x with moved := x.moved || moved } }

/-- The word in issue raises a trap, which cancels its packet (R56, R364). -/
def State.trapped (s : State) (x : Issue) (c : Cause) (lane : Option Nat) (code : BitVec 16) : State :=
  { s with
    dev := x.base.trapEntry x.agent x.slices x.pc x.word c.code lane code false false
    iss := some { x with status := .trapped } }

/-! What a lane reads and holds. -/

/-- The 32-bit value of a v register in a lane, or the 64 bits of the pair that begins with it (R62). -/
def Group.laneVal (g : Group) (wide : Bool) (r lane : Nat) : DWord :=
  if wide then g.vAt (r + 1) lane ++ g.vAt r lane else zext (g.vAt r lane)

/-- Element i of a value, as a word of w bits (R61). -/
def element (w : Nat) (v : DWord) (i : Nat) : BitVec w := v.extractLsb' (w * i) w

/-- An agent's registers differ from another's only in v and s registers with their full bits and error marks, in
predicates, in the sticky flags, and in how far its slices have read their queues. -/
def Group.sameControl (g h : Group) : Prop :=
  h = { g with
    v := h.v, vEmpty := h.vEmpty, vBad := h.vBad, s := h.s, sEmpty := h.sEmpty, sBad := h.sBad, p := h.p, flags := h.flags
    slices := h.slices, queues := h.queues } ∧
  ∀ i, h.slice i = { g.slice i with qpos := (h.slice i).qpos }

/-- Nothing of the device differs but the registers of one agent and the results still to be written. -/
def Device.sameBeside (d e : Device) (a : Agent) : Prop := e = { d.putView a (e.view a) with fills := e.fills }

end Sys2Proof.Machine
end

