-- ==== Sys2Proof/Claims.lean ====
section
/-! DEFINITION. The effects that statements name: what a word has written where, with everything else as it was. -/

namespace Sys2Proof.Machine

/-- The state beside one agent's registers is as it was: memory, every unit, every other agent, the packet in issue and
the agenda. Results still to be written are left to the statement. -/
def State.sameBeside (s t : State) (a : Agent) : Prop :=
  t.agenda = s.agenda ∧ t.turn = s.turn ∧ t.iss = s.iss ∧ s.dev.sameBeside t.dev a

/-- The registers that a value of a lane occupies: r, and r + 1 for 64 bits (R62). -/
def inRegs (r : Nat) (wide : Bool) (q : Nat) : Prop := q = r ∨ (wide = true ∧ q = r + 1)

/-- Each lane that performs the word holds `v` of the lane in v register r, full and free of error marks (R139), and the
sticky flags gained `fl` (R146). Every other lane and register, the full bits of the others, s registers, predicates,
places, masks, stacks and everything beside the agent are as they were. -/
def WroteLanes (s t : State) (x : Issue) (r : Nat) (wide : Bool) (v : Nat → DWord) (fl : BitVec 5) : Prop :=
  let g := s.dev.view x.agent
  let h := t.dev.view x.agent
  (∀ l ∈ x.act, h.laneVal wide r l = v l) ∧
  (∀ q l, l < 256 → ¬ (l ∈ x.act ∧ inRegs r wide q) →
    h.vAt q l = g.vAt q l ∧ Fmap.get false h.vBad (q * 256 + l) = Fmap.get false g.vBad (q * 256 + l)) ∧
  (∀ q l, l ∈ x.act → inRegs r wide q → Fmap.get false h.vBad (q * 256 + l) = false) ∧
  (∀ q i, i ∈ x.actSlices → inRegs r wide q → h.vIsEmpty q i = false) ∧
  (∀ q i, i < 64 → ¬ (i ∈ x.actSlices ∧ inRegs r wide q) → h.vIsEmpty q i = g.vIsEmpty q i) ∧
  h.s = g.s ∧ h.sEmpty = g.sEmpty ∧ h.sBad = g.sBad ∧ h.p = g.p ∧ h.flags = g.flags ||| fl ∧
  g.sameControl h ∧ s.sameBeside t x.agent ∧ t.dev.fills = s.dev.fills

/-- s register r holds v, full and free of its error mark (R138, R140), and the sticky flags gained `fl`. Every other
register, predicates and everything else are as they were. -/
def WroteS (s t : State) (x : Issue) (r : Nat) (v : DWord) (fl : BitVec 5) : Prop :=
  let g := s.dev.view x.agent
  let h := t.dev.view x.agent
  h.sAt r = v ∧ h.sIsEmpty r = false ∧ Fmap.get false h.sBad r = false ∧
  (∀ q, q ≠ r → h.sAt q = g.sAt q ∧ h.sIsEmpty q = g.sIsEmpty q ∧ Fmap.get false h.sBad q = Fmap.get false g.sBad q) ∧
  h.v = g.v ∧ h.vEmpty = g.vEmpty ∧ h.vBad = g.vBad ∧ h.p = g.p ∧ h.flags = g.flags ||| fl ∧
  g.sameControl h ∧ s.sameBeside t x.agent ∧ t.dev.fills = s.dev.fills

/-- Each lane of a list holds `v` of the lane in predicate p, unless p is p7, whose writes are discarded (R27). Every other predicate,
every register and everything else are as they were. -/
def WrotePIn (s t : State) (x : Issue) (act : List Nat) (p : Nat) (v : Nat → Bool) (fl : BitVec 5) : Prop :=
  let g := s.dev.view x.agent
  let h := t.dev.view x.agent
  (∀ l ∈ act, p < 7 → h.pAt p l = v l) ∧
  (∀ q l, l < 256 → ¬ (l ∈ act ∧ q = p ∧ p < 7) → h.pAt q l = g.pAt q l) ∧
  h.v = g.v ∧ h.vEmpty = g.vEmpty ∧ h.vBad = g.vBad ∧ h.s = g.s ∧ h.sEmpty = g.sEmpty ∧ h.sBad = g.sBad ∧
  h.flags = g.flags ||| fl ∧ g.sameControl h ∧ s.sameBeside t x.agent ∧ t.dev.fills = s.dev.fills
/-- The same of the lanes that perform the word. -/
def WroteP (s t : State) (x : Issue) (p : Nat) (v : Nat → Bool) (fl : BitVec 5) : Prop := WrotePIn s t x x.act p v fl

/-- What a fill of v registers writes, and for whom: the slices that issued its word, the slices whose registers it leaves full, and the lanes
that it writes. -/
structure FillOf where
  issued : List Nat
  full : List Nat
  act : List Nat

/-- v register r of each slice of the gang that performs the word is marked empty, and a fill holds `v` of each lane of `o`, with the flags
`fl` (R31). Nothing else differs. -/
def MarkedFor (s t : State) (x : Issue) (o : FillOf) (r : Nat) (wide : Bool) (v : Nat → DWord) (fl : BitVec 5) : Prop :=
  let g := s.dev.view x.agent
  let h := t.dev.view x.agent
  (∀ q i, i ∈ x.actSlices → inRegs r wide q → h.vIsEmpty q i = true) ∧
  (∀ q i, i < 64 → ¬ (i ∈ x.actSlices ∧ inRegs r wide q) → h.vIsEmpty q i = g.vIsEmpty q i) ∧
  h.v = g.v ∧ h.vBad = g.vBad ∧ h.s = g.s ∧ h.sEmpty = g.sEmpty ∧ h.sBad = g.sBad ∧ h.p = g.p ∧ h.flags = g.flags ∧
  g.sameControl h ∧ s.sameBeside t x.agent ∧
  ∃ f, t.dev.fills = s.dev.fills ++ [f] ∧ f.agent = x.agent ∧ (∀ i, i ∈ f.issued ↔ i ∈ o.issued) ∧ f.await = 0 ∧ f.s = [] ∧
    f.sFull = [] ∧ f.vErr = [] ∧ f.sErr = false ∧ f.flags = fl ∧
    (∀ p, p ∈ f.v ↔ ∃ l ∈ o.act, p = (r * 256 + l, bitsOf (v l) 0 32) ∨
      wide = true ∧ p = ((r + 1) * 256 + l, bitsOf (v l) 32 32)) ∧
    ∀ k, k ∈ f.vFull ↔ ∃ q i, i ∈ o.full ∧ inRegs r wide q ∧ k = q * 64 + i
/-- The same for a word that acts for its gang alone. -/
def MarkedLanes (s t : State) (x : Issue) (r : Nat) (wide : Bool) (v : Nat → DWord) (fl : BitVec 5) : Prop :=
  MarkedFor s t x { issued := x.slices, full := x.actSlices, act := x.act } r wide v fl

/-- s register r is marked empty, and a fill holds v for it, with the flags `fl`, for the slices that issued its word (R31). Nothing else differs. -/
def MarkedSFor (s t : State) (x : Issue) (issued : List Nat) (r : Nat) (v : DWord) (fl : BitVec 5) : Prop :=
  let g := s.dev.view x.agent
  let h := t.dev.view x.agent
  h.sIsEmpty r = true ∧ (∀ q, q ≠ r → h.sIsEmpty q = g.sIsEmpty q) ∧
  h.v = g.v ∧ h.vEmpty = g.vEmpty ∧ h.vBad = g.vBad ∧ h.s = g.s ∧ h.sBad = g.sBad ∧ h.p = g.p ∧ h.flags = g.flags ∧
  g.sameControl h ∧ s.sameBeside t x.agent ∧
  ∃ n is k, t.dev.fills = s.dev.fills ++ [{ Fill.scalar x.agent is r v fl k with tag := n }] ∧ ∀ i, i ∈ is ↔ i ∈ issued
/-- The same for a word that acts for its gang alone. -/
def MarkedS (s t : State) (x : Issue) (r : Nat) (v : DWord) (fl : BitVec 5) : Prop := MarkedSFor s t x x.slices r v fl

/-! Integers. -/

/-- Each element of r is `op` of the elements of a, b and d (R61, R138, R141). -/
def Elementwise (t : BitVec 3) (op : (n : Nat) → BitVec n → BitVec n → BitVec n → BitVec n) (a b d r : DWord) : Prop :=
  ∀ i < elemCount t, element (elemWidth t) r i =
    op (elemWidth t) (element (elemWidth t) a i) (element (elemWidth t) b i) (element (elemWidth t) d i)

/-- An integer word, ready to be performed, completes: in each lane of act d takes `op` of the elements of a, b and d; in
the uniform form s register d does once for the gang, with the sign extension of a 32-bit result for i32 and zeros above
for the other types of 32 bits. No flag is set, and nothing else differs (R138 to R141). -/
def IntegerWord (mk : AWord → Instr) (op : BitVec 3 → (n : Nat) → BitVec n → BitVec n → BitVec n → BitVec n) : Prop :=
  ∀ (s : State) (x : Issue) (w : AWord), Ready s x (mk w) → GangOk s x → (s.dev.view x.agent).regsWf = true →
    let wide := wideT w.t
    let a := w.aVal x.view (s.dev.view x.agent) wide
    let b := w.bVal (intImm w.t) x.view (s.dev.view x.agent) wide
    let d := w.dVal x.view wide
    ∃ t v, exec (mk w) s = .next t ∧
      (w.u = false → WroteLanes s t x w.d.toNat wide v 0 ∧ ∀ l ∈ x.act, Elementwise w.t (op w.t) (a l) (b l) (d l) (v l)) ∧
      (w.u = true → WroteS s t x w.d.toNat (v x.lead) 0 ∧
        Elementwise w.t (op w.t) (a x.lead) (b x.lead) (d x.lead) (v x.lead) ∧
        (wide = false → v x.lead = if w.t = 0 then sext (bitsOf (v x.lead) 0 32) else zext (bitsOf (v x.lead) 0 32)))

/-- One integer ordered against another, as signed or as unsigned numbers. -/
def below (signed : Bool) {n : Nat} (a b : BitVec n) : Bool := if signed then a.slt b else a.ult b

/-- The condition of `cmp` (R143). -/
def compares (c : BitVec 3) (signed : Bool) {n : Nat} (a b : BitVec n) : Bool :=
  match c.toNat with
  | 0 => a == b
  | 1 => !(a == b)
  | 2 => below signed a b
  | 3 => !below signed b a
  | 4 => below signed b a
  | 5 => !below signed a b
  | _ => false

/-! Moves and system values. -/

/-- The immediate that a payload forms, by the integer table or by the float table (R62). -/
def ImmediateOf (float : Bool) (t : BitVec 3) (p : Payload) (v : DWord) : Prop :=
  if float then v.toNat = if t = 1 ∨ t = 2 then p.toNat % 2 ^ 16 * 0x10001 else p.toNat * 256
  else match t.toNat with
    | 0 => v = zext (BitVec.ofInt 32 p.toInt)
    | 2 | 3 => v.toNat = p.toNat % 2 ^ 16 * 0x10001
    | 4 | 5 => v.toNat = p.toNat % 2 ^ 8 * 0x1010101
    | 6 => v = BitVec.ofInt 64 p.toInt
    | _ => v.toNat = p.toNat

/-- The value of a `getsv` code in a lane (R23, R163), read from the device as the chain found it. The place of a cluster
handler, which has no block, is left open (DESIGN CHOICE, assumption 2). -/
def SystemValue (x : Issue) (code lane : Nat) (v : DWord) : Prop :=
  let d := x.rd
  let g := x.view
  match code with
  | 0 => v = BitVec.ofNat 64 lane
  | 1 => v = BitVec.ofNat 64 (lane / 4)
  | 2 => ∀ b k, x.agent = .group b k → v = BitVec.ofNat 64 k
  | 3 => ∀ b, x.agent.blk? = some b → v = BitVec.ofNat 64 (d.block b).idx
  | 4 => ∀ b k, x.agent = .group b k → v = BitVec.ofNat 64 (
      if ((d.block b).group k).spawned then Fmap.get 0 ((d.block b).group k).tids lane
      else (d.block b).idx * (d.ctx (d.block b).ctx).packet.groups * 256 + k * 256 + lane)
  | 5 => ∀ b, x.agent.blk? = some b → v = BitVec.ofNat 64 ((d.block b).core % 32 / 4)
  | 6 => ∀ b, x.agent.blk? = some b → v = BitVec.ofNat 64 ((d.block b).core % 4)
  | 7 => ∀ b, x.agent.blk? = some b → v = BitVec.ofNat 64 ((d.block b).core / 32)
  | 8 => v = zext d.ham.devNum
  | 9 | 12 => v = zext (g.ckfAt lane)
  | 10 | 11 => v = zext g.flags
  | _ => True

/-- The state with what `getsv` clears already cleared: the sticky flags that code 11 reads, and the curve-key flags of the
lanes of act for code 12 (R163). -/
def State.cleared (s : State) (x : Issue) (code : Nat) : State :=
  { s with dev := s.dev.modView x.agent (fun g =>
      if code = 11 then { g with flags := g.flags &&& ~~~x.view.flags }
      else if code = 12 then { g with ckf := Fmap.setAll 0 g.ckf (x.act.map (fun l => (l, 0))) }
      else g) }

/-! Group-wide lane words. -/

/-- The instance k of a group-wide lane word that some slices have joined and that has still to act (R269). -/
def Group.waitingLane (g : Group) (k : Nat) : Option LaneInst := g.laneInsts.find? (fun y => y.k == k)

/-- The gang in issue may join instance k with a group-wide lane word: it belongs to a group outside a trap handler, each of its slices has
issued k such words, and what waits as instance k holds the same word, from other slices. Every other instance still waits for a live
slice (R269). -/
def JoinsLane (s : State) (x : Issue) (i : Instr) (k : Nat) : Prop :=
  GangOk s x ∧ x.agent.isGroup = true ∧
    let g := s.dev.view x.agent
    g.inHandler = false ∧ (∀ j ∈ x.slices, (g.slice j).laneCnt = k) ∧ (g.laneInsts.map LaneInst.k).Nodup ∧
    ∀ y ∈ g.laneInsts,
      if y.k = k then sameWords y.word i = true ∧ (∀ j ∈ x.slices, bitOf y.issued j = false) ∧
        ∀ l < 256, bitOf y.acts l = true → bitOf y.issued (l / 4) = true
      else ∃ j ∈ g.liveSlices, bitOf y.issued j = false
/-- With the gang every live slice has issued instance k. -/
def LastOfLane (s : State) (x : Issue) (k : Nat) : Prop :=
  let g := s.dev.view x.agent
  ∀ j ∈ g.liveSlices, j ∈ x.slices ∨ ∃ y ∈ g.laneInsts, y.k = k ∧ bitOf y.issued j = true

/-- The state with one more group-wide lane word counted in each slice of the gang, and without instance k (R269). -/
def State.counted (s : State) (x : Issue) (k : Nat) : State :=
  { s with dev := s.dev.modView x.agent (fun g =>
      { g.modSlices x.slices (fun i => { i with laneCnt := i.laneCnt + 1 }) with laneInsts := g.laneInsts.filter (fun y => y.k != k) }) }

/-- What all slices of an instance have read once the gang in issue has joined it (R269): the slices, the lanes in act, operands a and b, a
predicate, and the uniform operand. -/
structure Joined where
  slices : List Nat
  act : List Nat
  a : Nat → DWord
  b : Nat → DWord
  pred : Nat → Bool
  uni : DWord

/-- The slices of an instance with a lane in act. -/
def Joined.actSlices (J : Joined) : List Nat := J.slices.filter (fun i => J.act.any (fun l => l / 4 == i))

/-- The value of the lowest-numbered slice with a lane in act, or of the lowest-numbered slice when none has one (R269). -/
def lowestUni (us : List (Nat × Bool × DWord)) : DWord :=
  let cs := if us.any (fun u => u.2.1) then us.filter (fun u => u.2.1) else us
  ((cs.find? (fun u => cs.all (fun w => decide (u.1 ≤ w.1)))).map (fun u => u.2.2)).getD 0

/-- Instance k once the gang in issue has joined it, with what the gang reads. -/
def State.joinedLane (s : State) (x : Issue) (k : Nat) (a b : Nat → DWord) (pred : Nat → Bool) (uni : DWord) : Joined :=
  let y := (s.dev.view x.agent).waitingLane k
  let bit := fun (f : LaneInst → Nat → Bool) (n : Nat) => y.any (fun y => f y n)
  let old := fun (f : LaneInst → Fmap DWord) (l : Nat) => (y.map (fun y => Fmap.get 0 (f y) l)).getD 0
  { slices := (List.range 64).filter (fun i => decide (i ∈ x.slices) || bit (fun y i => bitOf y.issued i) i)
    act := (List.range 256).filter (fun l => decide (l ∈ x.act) || bit (fun y l => bitOf y.acts l) l)
    a := fun l => if l / 4 ∈ x.actSlices then a l else old LaneInst.a l
    b := fun l => if l / 4 ∈ x.actSlices then b l else old LaneInst.b l
    pred := fun l => (decide (l ∈ x.act) && pred l) || bit (fun y l => bitOf y.preds l) l
    uni := lowestUni ((y.map LaneInst.uni).getD [] ++ x.slices.map (fun i => (i, decide (i ∈ x.actSlices), uni))) }

/-- The inputs of the segment of n lanes that holds lane l: the value of each lane in act, the identity elsewhere (R266,
R270). -/
def Joined.seg (J : Joined) (n l ident : Nat) : List Nat :=
  (List.range n).map (fun i => if l / n * n + i ∈ J.act then (element 32 (J.a (l / n * n + i)) 0).toNat else ident)

/-- A group-wide lane word acts when the last live slice has issued it, from what each slice read when it issued: the gang's destination is
marked empty in each slice with a lane in act, as those of the gangs before it were, and a fill holds the value of each lane in act of the
instance; the flags of those lanes are joined (R31, R269). -/
def LaneWord (mk : AWord → Instr) (wide : BitVec 3 → Bool) (a b : AWord → Group → Group → Nat → DWord)
    (P : AWord → Group → Joined → Nat → LaneVal → Prop) : Prop :=
  ∀ (s : State) (x : Issue) (w : AWord) (k : Nat), Cleared s x (mk w) → JoinsLane s x (mk w) k → LastOfLane s x k →
    (s.dev.view x.agent).regsWf = true →
    let g := s.dev.view x.agent
    let J := s.joinedLane x k (a w x.view g) (b w x.view g) (fun l => x.view.pAt w.a.toNat l) 0
    ∃ t, ∃ v : Nat → LaneVal, exec (mk w) s = .next t ∧
      MarkedFor (s.counted x k) t x { issued := J.slices, full := J.actSlices, act := J.act } w.d.toNat (wide w.t) (fun l => (v l).1)
        (orFlags (J.act.map (fun l => (l, v l)))) ∧
      ∀ l ∈ J.act, P w g J l (v l)

/-- Position p of n is the lowest that ranks first among the lanes in act that hold a number; 0xFFFFFFFF when none does
(R251, R273). -/
def FirstRanked (larger : Bool) (J : Joined) (n l p : Nat) : Prop :=
  let val := fun i => FFmt.f32.decode (element 32 (J.a (l / n * n + i)) 0).toNat
  let cand := fun i => i < n ∧ l / n * n + i ∈ J.act ∧ (val i).isNan = false
  let above := fun i j => if larger then (val j).below (val i) else (val i).below (val j)
  ((∀ i, ¬ cand i) → p = 0xFFFFFFFF) ∧
  ((∃ i, cand i) → cand p ∧ ∀ i, cand i → above i p = false ∧ (i < p → above p i = true))

end Sys2Proof.Machine
end

