-- ==== Sys2Proof/ClaimsFloat.lean ====
section
/-! DEFINITION. Exact values and their rounding, as statements name them: over rational and real numbers, apart from the
machine's own arithmetic. -/

namespace Sys2Proof.Machine

/-- The rational number of a finite value. -/
def FVal.rat : FVal → ℚ
  | .fin neg m e => (if neg then -1 else 1) * (m : ℚ) * (2 : ℚ) ^ e
  | _ => 0

/-- A point of a format's grid: its precision, its subnormals below, and no upper limit of the exponent (R262). -/
def FFmt.Grid (f : FFmt) (n : Nat) (k : Int) : Prop :=
  n < 2 ^ (f.fbits + 1) ∧ f.emin ≤ k ∧ (2 ^ f.fbits ≤ n ∨ k = f.emin)

/-- The grid point n * 2^k is a magnitude rounded in a mode: to the nearest, ties to an even last bit; or to the nearest in the
mode's direction (R262). -/
def FFmt.RoundsTo (f : FFmt) (mode : RMode) (neg : Bool) (a : ℝ) (n : Nat) (k : Int) : Prop :=
  f.Grid n k ∧
  match mode with
  | .rne => ∀ m j, f.Grid m j → |a - n * 2 ^ k| ≤ |a - m * 2 ^ j| ∧
      (|a - n * 2 ^ k| = |a - m * 2 ^ j| → (m * 2 ^ j : ℝ) ≠ n * 2 ^ k → n % 2 = 0)
  | .rz => (n * 2 ^ k : ℝ) ≤ a ∧ ∀ m j, f.Grid m j → (m * 2 ^ j : ℝ) ≤ a → (m * 2 ^ j : ℝ) ≤ n * 2 ^ k
  | .ru =>
    if neg then (n * 2 ^ k : ℝ) ≤ a ∧ ∀ m j, f.Grid m j → (m * 2 ^ j : ℝ) ≤ a → (m * 2 ^ j : ℝ) ≤ n * 2 ^ k
    else a ≤ n * 2 ^ k ∧ ∀ m j, f.Grid m j → a ≤ m * 2 ^ j → (n * 2 ^ k : ℝ) ≤ m * 2 ^ j
  | .rd =>
    if neg then a ≤ n * 2 ^ k ∧ ∀ m j, f.Grid m j → a ≤ m * 2 ^ j → (n * 2 ^ k : ℝ) ≤ m * 2 ^ j
    else (n * 2 ^ k : ℝ) ≤ a ∧ ∀ m j, f.Grid m j → (m * 2 ^ j : ℝ) ≤ a → (m * 2 ^ j : ℝ) ≤ n * 2 ^ k

/-- What an overflow gives (R146, R262). -/
def FFmt.Overflows (f : FFmt) (mode : RMode) (neg : Bool) (r : Nat) : Prop :=
  if f.noInf then r = f.maxFin neg
  else match mode, neg with
    | .rne, _ => r = f.inf neg
    | .rz, _ => r = f.maxFin neg
    | .ru, false => r = f.inf false
    | .ru, true => r = f.maxFin true
    | .rd, false => r = f.maxFin false
    | .rd, true => r = f.inf true

/-- The rounding of a magnitude that is not zero, with its sign, and the flags it sets (R146, R262). -/
def FFmt.Rounded (f : FFmt) (mode : RMode) (neg : Bool) (a : ℝ) (r : Nat × Flags) : Prop :=
  ∃ n k, f.RoundsTo mode neg a n k ∧
    if ((f.decode (f.maxFin false)).rat : ℝ) < n * 2 ^ k then f.Overflows mode neg r.1 ∧ r.2 = fOverflow ||| fInexact
    else r.1 < 2 ^ f.width ∧ (∃ m e, f.decode r.1 = .fin neg m e ∧ (m * 2 ^ e : ℝ) = n * 2 ^ k) ∧
      r.2 = if (n * 2 ^ k : ℝ) = a then 0
        else if (n * 2 ^ k : ℝ) < 2 ^ ((f.fbits : Int) + f.emin) then fInexact ||| fUnderflow else fInexact

/-- The zero of a sign. -/
def FFmt.zero (f : FFmt) (neg : Bool) : Nat := if neg then 2 ^ (f.ebits + f.fbits) else 0

/-- The exact sum of terms, rounded, where `ops` are the operands (R146): NaNs, infinities, and zeros with their signs. -/
def FFmt.SumOf (f : FFmt) (mode : RMode) (ops terms : List FVal) (r : Nat × Flags) : Prop :=
  if ∃ x ∈ terms, x.isNan = true then r = (f.nan, if FVal.nan true ∈ ops then fInvalid else 0)
  else if FVal.inf false ∈ terms ∧ FVal.inf true ∈ terms then r = (f.nan, fInvalid)
  else if FVal.inf false ∈ terms then r = (f.inf false, 0)
  else if FVal.inf true ∈ terms then r = (f.inf true, 0)
  else
    let q := (terms.map FVal.rat).sum
    if q ≠ 0 then f.Rounded mode (decide (q < 0)) ((|q| : ℚ) : ℝ) r
    else if ∀ x ∈ terms, x.isNeg = true then r = (f.zero true, 0)
    else if ∀ x ∈ terms, x.isNeg = false then r = (f.zero false, 0)
    else r = (f.zero (decide (mode = .rd)), 0)

/-- The exact sum of products and an addend (R146): a product of a zero and an infinity is invalid whatever the rest. -/
def FFmt.DotOf (f : FFmt) (mode : RMode) (ps : List (FVal × FVal)) (ds : List FVal) (r : Nat × Flags) : Prop :=
  if ∃ p ∈ ps, p.1.mul p.2 = none then r = (f.nan, fInvalid)
  else f.SumOf mode (ps.flatMap (fun p => [p.1, p.2]) ++ ds) (ps.map (fun p => (p.1.mul p.2).getD default) ++ ds) r

/-- One value ordered below another, with -0 equal to +0; never with a NaN (R149). -/
def FVal.Less : FVal → FVal → Prop
  | .inf true, .inf t => t = false
  | .inf true, .fin _ _ _ => True
  | .fin _ _ _, .inf t => t = false
  | .fin s m e, .fin t n g => (FVal.fin s m e).rat < (FVal.fin t n g).rat
  | _, _ => False

/-- The magnitude a is rounded to the integer n in a mode (R152, R263). -/
def RoundsToInt (mode : RMode) (neg : Bool) (a : ℚ) (n : Nat) : Prop :=
  match mode with
  | .rne => |a - n| ≤ 1 / 2 ∧ (|a - n| = 1 / 2 → n % 2 = 0)
  | .rz => (n : ℚ) ≤ a ∧ a < n + 1
  | .ru => if neg then (n : ℚ) ≤ a ∧ a < n + 1 else a ≤ n ∧ (n : ℚ) < a + 1
  | .rd => if neg then a ≤ n ∧ (n : ℚ) < a + 1 else (n : ℚ) ≤ a ∧ a < n + 1

/-- A relation holds for each element of a float type, whose flags are joined; a packed result fills 32 bits (R138, R145). -/
def PerFloat (t : BitVec 3) (P : FFmt → Nat → Nat → Nat → Nat × Flags → Prop) (a b d : DWord) (r : LaneVal) : Prop :=
  let e := fun (n : Nat) (x : DWord) (i : Nat) => (element n x i).toNat
  if t = 1 ∨ t = 2 then
    ∃ lo hi, P (floatFmt t) (e 16 a 0) (e 16 b 0) (e 16 d 0) (e 16 r.1 0, lo) ∧
      P (floatFmt t) (e 16 a 1) (e 16 b 1) (e 16 d 1) (e 16 r.1 1, hi) ∧ r.2 = lo ||| hi ∧ bitsOf r.1 32 32 = 0
  else P (floatFmt t) (e 32 a 0) (e 32 b 0) (e 32 d 0) (e 32 r.1 0, r.2) ∧ bitsOf r.1 32 32 = 0

/-- A float word, ready to be performed, completes: in each lane of act d takes a value that `P` relates to the operands in the
lane's rounding mode; in the uniform form s register d does once for the gang. The flags of the lanes are joined (R138, R139,
R145, R155). -/
def FloatWord (mk : AWord → Instr) (imm : BitVec 3 → Payload → DWord) (wide : Bool)
    (P : BitVec 3 → RMode → DWord → DWord → DWord → LaneVal → Prop) : Prop :=
  ∀ (s : State) (x : Issue) (w : AWord), Ready s x (mk w) → GangOk s x → (s.dev.view x.agent).regsWf = true →
    let a := w.aVal x.view (s.dev.view x.agent) false
    let b := w.bVal (imm w.t) x.view (s.dev.view x.agent) false
    let d := w.dVal x.view false
    ∃ t, ∃ v : Nat → LaneVal, exec (mk w) s = .next t ∧
      (w.u = false → WroteLanes s t x w.d.toNat wide (fun l => (v l).1) (orFlags (x.lanesWith v)) ∧
        ∀ l ∈ x.act, P w.t (floatMode w.t (x.fmtAt l)) (a l) (b l) (d l) (v l)) ∧
      (w.u = true → WroteS s t x w.d.toNat (v x.lead).1 (v x.lead).2 ∧
        P w.t (floatMode w.t (x.fmtAt x.lead)) (a x.lead) (b x.lead) (d x.lead) (v x.lead))

/-- A word of the X pipe from f32 to f32: its destination is marked empty at once, in each lane of act or for the gang, and
a fill holds values that `P` relates to the operand (R31, R252, R279). -/
def LaterFloatWord (mk : AWord → Instr) (P : Nat → Nat × Flags → Prop) : Prop :=
  ∀ (s : State) (x : Issue) (w : AWord), Ready s x (mk w) → GangOk s x → (s.dev.view x.agent).regsWf = true →
    let a := fun l => (element 32 (w.aVal x.view (s.dev.view x.agent) false l) 0).toNat
    ∃ t, ∃ v : Nat → Nat × Flags, exec (mk w) s = .next t ∧
      (w.u = false → MarkedLanes s t x w.d.toNat false (fun l => BitVec.ofNat 64 (v l).1)
          (orFlags (x.lanesWith (fun l => (BitVec.ofNat 64 (v l).1, (v l).2)))) ∧ ∀ l ∈ x.act, P (a l) (v l)) ∧
      (w.u = true → MarkedS s t x w.d.toNat (BitVec.ofNat 64 (v x.lead).1) (v x.lead).2 ∧ P (a x.lead) (v x.lead))

/-! The bound of the matrix engine. -/

/-- The value that is no NaN, over the extended reals. -/
noncomputable def FVal.val : FVal → EReal
  | .fin neg m e => (((FVal.fin neg m e).rat : ℝ) : EReal)
  | .inf neg => if neg then ⊥ else ⊤
  | .nan _ => ⊤
/-- A finite value. -/
def FVal.Fin (x : FVal) : Prop := ∃ neg m e, x = .fin neg m e

/-- u is up(x): x rounded to FP32 toward +∞ (R263). -/
def UpOf (x : EReal) (u : FVal) : Prop :=
  (x = ⊤ → u = .inf false) ∧ (x = 0 → u.Fin ∧ u.rat = 0) ∧
  ∀ a : ℝ, x = a → a ≠ 0 → ∃ r fl, (0 < a → FFmt.f32.Rounded .ru false |a| (r, fl)) ∧ (a < 0 → FFmt.f32.Rounded .ru true |a| (r, fl)) ∧
    u = FFmt.f32.decode r
/-- The square root of a value that is not negative. -/
noncomputable def rootOf (x : EReal) : EReal := if x = ⊤ then ⊤ else (Real.sqrt x.toReal : ℝ)

/-- The sum of up(x²) in order from s on, each addition rounded by up (R97). -/
def SquaresUp : List FVal → FVal → FVal → Prop
  | [], s, r => r = s
  | x :: xs, s, r => ∃ y z, UpOf (x.val * x.val) y ∧ UpOf (s.val + y.val) z ∧ SquaresUp xs z r
/-- t is the tail norm over the elements that remain of an instruction and a beyond word; one that is not finite when one of those is not, or the
beyond word is negative (R97). -/
def TailNorm (els : List FVal) (beyond : Word) (t : FVal) : Prop :=
  let b := FFmt.f32.decode beyond.toNat
  let plain := (∀ x ∈ els, x.Fin) ∧ b.Fin ∧ 0 ≤ b.rat
  (¬ plain → ¬ t.Fin) ∧
  (plain → ∃ s w w2 b2, SquaresUp els (.fin false 0 0) s ∧ UpOf (rootOf s.val) w ∧ UpOf (w.val * w.val) w2 ∧ UpOf (b.val * b.val) b2 ∧
    UpOf (rootOf (w2.val + b2.val)) t)
/-- u is the bound of a cell's final with r steps left (R98). -/
def BoundOf (p tA tB : FVal) (r : Nat) (u : FVal) : Prop :=
  ∃ t q sigma y, UpOf (tA.val * tB.val) t ∧ UpOf (((|p.rat| : ℚ) : ℝ) + t.val) q ∧
    (q.val = 0 → sigma = 0) ∧
    (q.val ≠ 0 → ∃ a g, UpOf (q.val * ((r + 1 : ℝ) : EReal)) a ∧ UpOf (a.val * ((2 ^ (-22 : Int) : ℝ) : EReal)) g ∧
      sigma = max g.val ((2 ^ (-126 : Int) : ℝ) : EReal)) ∧
    UpOf (p.val + t.val) y ∧ UpOf (y.val + sigma) u

/-! Conversions. -/

/-- A value converted to a float format (R157, R262, R264). -/
def FFmt.ConvertOf (g : FFmt) (mode : RMode) (x : FVal) (r : Nat × Flags) : Prop :=
  match x with
  | .nan sig => r = (g.nan, if sig then fInvalid else 0)
  | .inf neg => r = if g.noInf then (g.maxFin neg, fOverflow ||| fInexact) else (g.inf neg, 0)
  | .fin neg n e => if n = 0 then r = (g.zero neg, 0) else g.Rounded mode neg ((n * 2 ^ e : ℚ) : ℝ) r

/-- The bounds of an integer type. -/
def intLow (w : Nat) (signed : Bool) : Int := if signed then -(2 ^ (w - 1)) else 0
def intHigh (w : Nat) (signed : Bool) : Int := if signed then 2 ^ (w - 1) - 1 else 2 ^ w - 1

/-- An integer saturated to a type of w bits, with invalid when it lies outside (R157, R263): the pattern and the flags. -/
def SaturateOf (w : Nat) (signed : Bool) (z : Int) (inside : Flags) (r : LaneVal) : Prop :=
  if z < intLow w signed then r = (zext (BitVec.ofInt w (intLow w signed)), fInvalid)
  else if intHigh w signed < z then r = (zext (BitVec.ofInt w (intHigh w signed)), fInvalid)
  else r = (zext (BitVec.ofInt w z), inside)

/-- A value rounded to an integer type (R263). -/
def RoundIntOf (w : Nat) (signed : Bool) (mode : RMode) (x : FVal) (r : LaneVal) : Prop :=
  match x with
  | .nan _ => r = (0, fInvalid)
  | .inf neg => r = (zext (BitVec.ofInt w (if neg then intLow w signed else intHigh w signed)), fInvalid)
  | .fin neg n e => ∃ k, RoundsToInt mode neg (n * 2 ^ e) k ∧
      SaturateOf w signed (if neg then -(k : Int) else k) (if (k : ℚ) = n * 2 ^ e then 0 else fInexact) r

/-- The integer of a source class (R156). -/
def cvtInt (src : BitVec 3) (uns : Bool) (a : DWord) : Int :=
  if src = 6 then (if uns then (a.toNat : Int) else a.toInt)
  else (if uns then ((bitsOf a 0 32).toNat : Int) else (bitsOf a 0 32).toInt)

/-- An integer as an exact value. -/
def intVal (z : Int) : FVal := .fin (decide (z < 0)) z.natAbs 0

/-- `cvt` of one value (R156, R157, R264). -/
def CvtOf (dst src : BitVec 3) (uns : Bool) (mode : RMode) (a : DWord) (r : LaneVal) : Prop :=
  match classFmt src, classFmt dst with
  | some f, some g => ∃ y, g.ConvertOf mode (f.decode (a.toNat % 2 ^ f.width)) y ∧ r = (BitVec.ofNat 64 y.1, y.2)
  | some f, none => RoundIntOf (classBits dst) (!uns) mode (f.decode (a.toNat % 2 ^ f.width)) r
  | none, some g => ∃ y, g.ConvertOf mode (intVal (cvtInt src uns a)) y ∧ r = (BitVec.ofNat 64 y.1, y.2)
  | none, none => SaturateOf (classBits dst) (!uns) (cvtInt src uns a) 0 r

/-! Block floating point. -/

/-- The magnitude of a value, an infinity counting as 2^128 (R258). -/
def FVal.mag128 : FVal → ℚ
  | .nan _ => 0
  | .inf _ => 2 ^ 128
  | .fin _ n e => n * 2 ^ e

open Classical in
/-- A block of 16 exact values in BFP at width m: scale, mantissas and flags (R258). -/
def BfpOf (m : Nat) (X : Nat → FVal) (E : Nat) (M : Nat → Int) (fl : Flags) : Prop :=
  if ∃ i < 16, (X i).isNan = true then
    E = 0xFF ∧ (∀ i < 16, M i = 0) ∧ fl = if ∃ i < 16, X i = .nan true then fInvalid else 0
  else if ∀ i < 16, (X i).mag128 = 0 then E = 0 ∧ (∀ i < 16, M i = 0) ∧ fl = 0
  else
    let q : ℚ := 2 ^ ((E : Int) - 127 - ((m : Int) - 1))
    (∃ e : Int, (∃ i < 16, (2 : ℚ) ^ e ≤ (X i).mag128) ∧ (∀ i < 16, (X i).mag128 < 2 ^ (e + 1)) ∧
      (E : Int) = min (max (e + 128) 0) 0xFE) ∧
    (∀ i < 16, match X i with
      | .inf neg => M i = if neg then -(2 ^ (m - 1)) else 2 ^ (m - 1) - 1
      | .fin neg n e => ∃ k, RoundsToInt .rne neg (n * 2 ^ e / q) k ∧
          M i = min (max (if neg then -(k : Int) else k) (-(2 ^ (m - 1)))) (2 ^ (m - 1) - 1)
      | .nan _ => True) ∧
    fl = (if ∃ i < 16, ∃ neg, X i = .inf neg then fOverflow ||| fInexact else 0) |||
      (if ∃ i < 16, (∃ neg n e, X i = .fin neg n e) ∧ (M i : ℚ) * q ≠ (X i).rat then fInexact else 0) |||
      (if ∃ i < 16, (∃ neg n e, X i = .fin neg n e) ∧ (X i).rat ≠ 0 ∧ M i = 0 then fUnderflow else 0)

end Sys2Proof.Machine
end

