-- ==== Sys2Proof/ClaimsMemory.lean ====
section
/-! DEFINITION. The effects of words on memory, and of words that write several registers, as statements name them. -/

namespace Sys2Proof.Machine

/-! Bytes. -/

/-- The byte that a location names, whichever window it was reached through (R220, R424). -/
def Device.cell (d : Device) (l : Loc) : Loc :=
  match d.settle l with
  | .reduction o => .mem o
  | m => m

/-- The last byte of a list of stores to the byte that a location names. -/
def Device.lastTo (d : Device) (W : List (Loc × Byte)) (l : Loc) : Option Byte :=
  (W.reverse.find? (fun p => d.cell p.1 == d.cell l)).map Prod.snd

/-- A group's slices may have moved in their queues and been woken from `idle` (R401); its region may differ. Nothing else. -/
def Group.sameWaking (g h : Group) : Prop :=
  h = { g with slices := h.slices, queues := h.queues, region := h.region } ∧
  ∀ i, h.slice i = { g.slice i with qpos := (h.slice i).qpos, hold := (h.slice i).hold } ∧
    ((h.slice i).hold = (g.slice i).hold ∨ (h.slice i).hold = (g.slice i).hold.awake)

/-- Nothing of the device differs but bytes of memory, of the scratchpad and of stashes, what L2, update-only copies and mapped
entries hold, which bytes cannot be delivered, which
monitors have woken, the fills still to come and their numbering, marks on contexts, what waking ends, and the region and queues
of one agent. -/
def Device.sameBesideMemory (d e : Device) (a : Agent) : Prop :=
  e = { d with mem := e.mem, scratch := e.scratch, l2 := e.l2, ulines := e.ulines, poison := e.poison, monitors := e.monitors, blocks := e.blocks,
               handlers := e.handlers, fills := e.fills, ctxs := e.ctxs, fab := { d.fab with tags := e.fab.tags } } ∧
  (∀ b, (d.view b).sameWaking (e.view b) ∧ (b ≠ a → (e.view b).region = (d.view b).region)) ∧
  (∀ b, e.block b = { d.block b with
    stash := (e.block b).stash, maps := (e.block b).maps, groups := (e.block b).groups, access := (e.block b).access,
    ridge := (e.block b).ridge } ∧
    (e.block b).maps.map (fun m => (m.off, m.len, m.lines)) = (d.block b).maps.map (fun m => (m.off, m.len, m.lines))) ∧
  e.monitors.map (fun m => { m with woken := false }) = d.monitors.map (fun m => { m with woken := false })

/-- The bytes of a list of stores stand, each byte with the last stored to it, and every other byte of memory, of the
scratchpad and of every stash reads as before. Registers, and everything that a store does not reach, are as they were. -/
def Stored (s t : State) (x : Issue) (W : List (Loc × Byte)) : Prop :=
  (∀ l, t.dev.byteAt l = (s.dev.lastTo W l).getD (s.dev.byteAt l)) ∧
  t.agenda = s.agenda ∧ t.turn = s.turn ∧ t.iss = s.iss ∧ s.dev.sameBesideMemory t.dev x.agent ∧
  t.dev.fills = s.dev.fills ∧ t.dev.ctxs = s.dev.ctxs ∧ t.dev.fab = s.dev.fab

/-- A byte of this device that memory answers for: not another device's, nor a reduction's, nor an unmapped one of the CXL tier. -/
def Device.answers (d : Device) (l : Loc) : Prop :=
  isRemote l = false ∧ (∀ o, l ≠ .reduction o) ∧ d.lostByte l = false

/-- The lanes that an M word accesses memory for: those of act, or the leading lane for the gang (R172). -/
def Issue.accessing (x : Issue) (u : Bool) : List Nat := if u then [x.lead] else x.act

/-- Every lane's n bytes from its address translate, for an access of this kind, to bytes of this device that no engine and no
host holds back. -/
def Reaches (s : State) (x : Issue) (k : Acc) (n : Nat) (lanes : List Nat) (ea : Nat → DWord) (ls : Nat → List Loc) : Prop :=
  (∀ l ∈ lanes, s.dev.reach x.agent x.view.priv k (ea l) n = .ok (ls l) ∧ ∀ m ∈ ls l, s.dev.answers m) ∧
  s.dev.held (lanes.flatMap ls) = false

end Sys2Proof.Machine

namespace Sys2Proof
open Machine

/-- The address of a lane: s(base) + zext(index[31:0]) + offset * size, modulo 2^64 (R166). -/
def MWord.address (w : MWord) (s : State) (x : Issue) (l : Nat) : DWord :=
  let i := if w.u then x.view.sAt w.index.toNat else vOperand x.view (s.dev.view x.agent) w.index false 0 l
  x.view.sAt w.base.toNat + zext (bitsOf i 0 32) + w.off.signExtend 64 * BitVec.ofNat 64 (sizeBytes w.size)

end Sys2Proof

namespace Sys2Proof.Machine

/-- The state with the lines of these locations brought in, and one more fill numbered. -/
def State.loaded (s : State) (ls : List Loc) : State :=
  { s with dev := { s.dev.touchLoads ls with fab := { s.dev.fab with tags := s.dev.fab.tags + 1 } } }
/-- The state with the lines of these locations brought in. -/
def State.touched (s : State) (ls : List Loc) : State := { s with dev := s.dev.touchLoads ls }

/-- Bringing lines in changes no byte and no register: only which lines L2 holds and which mapped entries are filled. -/
def SameBytes (s t : State) : Prop := ∀ l, t.dev.byteAt l = s.dev.byteAt l

/-- The value of n bytes, the lowest first. -/
def Device.little (d : Device) (ls : List Loc) (v : DWord) : Prop :=
  ls.length ≤ 8 ∧ v.toNat < 256 ^ ls.length ∧ ∀ i l, ls[i]? = some l → element 8 v i = d.byteAt l

/-! Atomics. -/

/-- The value of bytes as they stand in M. -/
def littleOf (M : Loc → Byte) (ls : List Loc) : DWord := BitVec.ofNat 64 (bytesNat (ls.map M))
/-- The bytes M with a value stored at locations. -/
def Device.putAt (d : Device) (M : Loc → Byte) (ls : List Loc) (v : DWord) : Loc → Byte :=
  fun l => (d.lastTo (ls.mapIdx (fun i m => (m, element 8 v i))) l).getD (M l)
/-- One read-modify-write for each lane of a list, in order (R305). -/
def Device.rmw (d : Device) (ls : Nat → List Loc) (new : Nat → DWord → DWord) : List Nat → (Loc → Byte) → Loc → Byte
  | [], M => M
  | l :: rest, M => d.rmw ls new rest (d.putAt M (ls l) (new l (littleOf M (ls l))))

/-- The new value of an atomic of n bits (R304). -/
def atomResult (op : Nat) (signed : Bool) {n : Nat} (m x new : BitVec n) : BitVec n :=
  match op with
  | 0 => m + x
  | 1 => m &&& x
  | 2 => m ||| x
  | 3 => m ^^^ x
  | 4 => if below signed x m then x else m
  | 5 => if below signed m x then x else m
  | 6 => x
  | 7 => if m = x then new else m
  | 8 => BitVec.ofNat n (FFmt.f32.add .rne m.toNat x.toNat).1
  | 9 => BitVec.ofNat n (FFmt.f32.pick false m.toNat x.toNat).1
  | _ => BitVec.ofNat n (FFmt.f32.pick true m.toNat x.toNat).1

/-- Every line of update-only copies holds words of its size, and memory shows each word that a copy holds as it stands once the
home has combined them (R307). -/
def Device.copiesShown (d : Device) : Prop :=
  ∀ u ∈ d.ulines,
    let n := if u.wide then 8 else 4
    (∀ p ∈ u.base, p.2.toNat < 256 ^ n) ∧ ∀ p ∈ u.parts, p.2.2.toNat < 256 ^ n ∧ p.2.1 % n = 0 ∧
      littleOf d.byteAt ((List.range n).map (fun i => Loc.mem (p.2.1 + i))) = u.word (8 * n) p.2.1

/-- No message of the gang has failed that a release at `sys` would meet (R423). -/
def Device.noneFailed (d : Device) (a : Agent) (slices : List Nat) : Prop := ∀ r ∈ d.fab.remotes, ¬ (r.ofGang a slices = true ∧ r.failed = true)
/-- A word that is a release at `sys` meets no failed message. -/
def MayRelease (w : MWord) (s : State) (x : Issue) : Prop :=
  w.scope = 5 → w.order.getLsbD 1 = true → s.dev.noneFailed x.agent x.slices
/-- A release at `sys` has met a failed message of the gang: it traps with ECC, and meets it no more (R423). -/
def State.releaseFails (s : State) (x : Issue) : State :=
  { s with
    dev := (x.base.clearFailed x.agent x.slices).trapEntry x.agent x.slices x.pc x.word Cause.ecc.code none 0 false false
    iss := some { x with status := .trapped } }

/-- A context whose promise an unordered atomic on these lines breaks (R311). -/
def Ctx.afterAtomic (c : Ctx) (lines : List Nat) : Ctx :=
  if c.promise = true ∧ ∃ k ∈ c.staged, k.addr / 128 ∈ lines then { c with broken := true } else c

/-! Per-group words. -/

/-- The instance k of a per-group word that some slices have joined and that has still to act (R234). -/
def Group.waitingGrp (g : Group) (k : Nat) : Option GrpInst := g.grpInsts.find? (fun y => y.k == k)

/-- The number of per-group words that the gang's slices have issued (R234). -/
def Issue.grpNo (x : Issue) (g : Group) : Nat := (g.slice (x.slices.headD 0)).grpCnt

/-- A per-group word of the gang in issue acts with it: the agent is no group; or it is one outside a trap handler, every live slice that is no
member of the gang has joined the instance of the gang's count, which holds the same word, and every other instance still waits for a live
slice (R234). -/
def ActsNow (s : State) (x : Issue) (i : Instr) : Prop :=
  GangOk s x ∧ (x.agent.isGroup = true →
    let g := s.dev.view x.agent
    let k := x.grpNo g
    g.inHandler = false ∧ (∀ j ∈ x.slices, (g.slice j).grpCnt = k) ∧ (g.grpInsts.map GrpInst.k).Nodup ∧
    (∀ y ∈ g.grpInsts,
      if y.k = k then sameWords y.word i = true ∧ ∀ j ∈ x.slices, bitOf y.issued j = false
      else ∃ j ∈ g.liveSlices, bitOf y.issued j = false) ∧
    ∀ j ∈ g.liveSlices, j ∈ x.slices ∨ ∃ y ∈ g.grpInsts, y.k = k ∧ bitOf y.issued j = true)

/-- A slice of the gang has issued one more per-group word, and one that was held in the instance goes on (R234). -/
def Slice.joined (mine : Bool) (k : Nat) (i : Slice) : Slice :=
  if mine then { i with grpCnt := i.grpCnt + 1, hold := .free } else if i.hold = .inst k then { i with hold := .free } else i

/-- The agent's registers once a per-group word of its gang has acted (R234). -/
def Issue.joined (x : Issue) (g : Group) : Group :=
  if x.agent.isGroup then
    let k := x.grpNo g
    { g with slices := g.slices.mapIdx (fun i u => u.joined (decide (i ∈ x.slices)) k), grpInsts := g.grpInsts.filter (fun y => y.k != k) }
  else g

/-- The slices that have issued the instance, and the lanes that they issued it with (R234, R315). -/
def Issue.allJoined (x : Issue) (g : Group) : List Nat :=
  (List.range 64).filter (fun i => decide (i ∈ x.slices) || (g.waitingGrp (x.grpNo g)).any (fun y => bitOf y.issued i))
def Issue.allLanes (x : Issue) (g : Group) : List Nat :=
  (List.range 256).filter (fun l => decide (l ∈ g.lanesOf x.slices) || (g.waitingGrp (x.grpNo g)).any (fun y => bitOf y.lanes l))
/-- The operand that a lane's slice read when it issued the word. -/
def Issue.laneRead (x : Issue) (g : Group) (v : Nat → DWord) (l : Nat) : DWord :=
  if l ∈ x.gangLanes then v l else ((g.waitingGrp (x.grpNo g)).map (fun y => Fmap.get 0 y.vals l)).getD 0

/-- The live slices of a group are held, the others as before. -/
def Group.heldAs (g h : Group) (w : Hold) : Prop :=
  h.slices.length = g.slices.length ∧
  ∀ i, h.slice i = { g.slice i with qpos := (h.slice i).qpos, hold := if i ∈ g.liveSlices then w else (g.slice i).hold }

/-- The state beside one agent's registers is as it was, but for these changes to the device. -/
def State.sameBut (s t : State) (a : Agent) (d : Device) : Prop := State.sameBeside { s with dev := d } t a

/-! Named barriers. -/

/-- Barrier id of block n may differ, with the waiting and the counts of arrivals of slices. No byte and nothing else does. -/
def Device.besideBarrier (d e : Device) (n id : Nat) : Prop :=
  (∀ m j, m < d.blocks.length → (m ∉ d.barBlocks n id ∨ j ≠ id) → j < 32 → e.bar m j = d.bar m j) ∧ (∀ l, e.byteAt l = d.byteAt l) ∧
  e = { d with blocks := e.blocks, sets := e.sets } ∧
  e.sets.map (fun c => { c with bars := [] }) = d.sets.map (fun c => { c with bars := [] }) ∧
  (∀ m, e.block m = { d.block m with groups := (e.block m).groups, bars := (e.block m).bars }) ∧
  ∀ m q, let u := (d.block m).group q
    let v := (e.block m).group q
    v = { u with slices := v.slices } ∧ v.slices.length = u.slices.length ∧ ∀ i, v.slice i =
      { u.slice i with hold := (v.slice i).hold, barPhase := (v.slice i).barPhase, barCnt := (v.slice i).barCnt, barLog := (v.slice i).barLog }

/-- The barrier of a block exists and is the same for each block that it serves, and its counts are in their canonical form. -/
def Device.barOk (d : Device) (n id : Nat) : Prop :=
  (id < 24 → id < (d.block n).bars.length) ∧
  (24 ≤ id → n ∈ d.barBlocks n id ∧ ((d.sets[(d.block n).cset]?).getD default).bars.length = 8 ∧
    (∀ m ∈ d.barBlocks n id, m < d.blocks.length ∧ (d.block m).cset = (d.block n).cset) ∧
    ∀ m < d.blocks.length, (d.block m).cset = (d.block n).cset → m ∈ d.barBlocks n id) ∧
  Fmap.wf default (d.bar n id).wanted = true ∧ Fmap.wf 0 (d.bar n id).issued = true ∧
  ∀ m k i, Fmap.wf 0 (((d.block m).group k).slice i).barPhase = true ∧ Fmap.wf 0 (((d.block m).group k).slice i).barCnt = true

/-- A slice that arrives is counted in the current phase: it replays no arrival, and has not arrived in this phase (R136, R373). -/
def Device.counts (d : Device) (n k id j : Nat) : Prop :=
  let s := ((d.block n).group k).slice j
  s.replay id = none ∧ Fmap.get 0 s.barPhase id ≠ (d.bar n id).phases + 1

/-- The count of arrivals that completes the phase of a form (R137). -/
def Device.countOf (d : Device) (n id : Nat) (form : Option Nat) : Nat :=
  match form with | some c => c | none => d.launchGroups n id

/-- Slice j of group k of block n arrives (R136, R137, R373). A replay joins the phase of its first time. A second arrival in a phase waits.
Otherwise it is counted; with the last live slice the group arrives, which fixes the form of the phase if none has, and completes it when the
arrivals reach the count, with the phase's waiters released. With `sync` the slice waits for the phase that it joined. -/
def Device.Arrives (d e : Device) (n k id j : Nat) (want : BarWant) (sync : Bool) : Prop :=
  d.besideBarrier e n id ∧
  let X := d.bar n id
  let Y := e.bar n id
  let u := (d.block n).group k
  let s := u.slice j
  let t := ((e.block n).group k).slice j
  let key := n * 16 + k
  let held := fun (m q i : Nat) => (((d.block m).group q).slice i).hold
  let holds := fun (f : Nat → Nat → Nat → Hold) => ∀ m q i, (((e.block m).group q).slice i).hold = f m q i
  let mine := fun (h : Hold) (m q i : Nat) => if m = n ∧ q = k ∧ i = j then h else held m q i
  let joins := fun (p : Nat) (log : List (Nat × Nat × Nat)) => Fmap.get 0 t.barPhase id = p + 1 ∧
    Fmap.get 0 t.barCnt id = Fmap.get 0 s.barCnt id + 1 ∧ t.barLog = s.barLog ++ log
  (∀ q ≠ id, Fmap.get 0 t.barPhase q = Fmap.get 0 s.barPhase q ∧ Fmap.get 0 t.barCnt q = Fmap.get 0 s.barCnt q) ∧
  (∀ m q i, ¬ (m = n ∧ q = k ∧ i = j) → (((e.block m).group q).slice i) =
    { ((d.block m).group q).slice i with hold := (((e.block m).group q).slice i).hold }) ∧
  (∀ p, s.replay id = some p → Y = X ∧ joins p [] ∧ holds (mine (if sync = true ∧ X.phases ≤ p then .bar id p else s.hold))) ∧
  (s.replay id = none → ¬ d.counts n k id j → Y = X ∧ t = { s with hold := .late id want sync } ∧ holds (mine (.late id want sync))) ∧
  (d.counts n k id j →
    let bits := Fmap.get 0 X.issued key
    let due := key ∉ X.arrived ∧ ∀ i ∈ u.liveSlices, i = j ∨ bitOf bits i = true
    let form := X.form.getD want.form
    let full := due ∧ d.countOf n id form ≤ X.arrived.length + X.gone + 1
    joins X.phases (if u.region.isSome then [(id, Fmap.get 0 s.barCnt id, X.phases)] else []) ∧
    (¬ full → Y.phases = X.phases ∧ Y.gone = X.gone ∧ Y.arrived = (if due then X.arrived ++ [key] else X.arrived) ∧
      Y.form = (if due then some form else X.form) ∧ Fmap.get default Y.wanted key = want ∧
      (∀ i < 64, bitOf (Fmap.get 0 Y.issued key) i = (bitOf bits i || decide (i = j))) ∧
      ∀ q ≠ key, Fmap.get 0 Y.issued q = Fmap.get 0 X.issued q ∧ Fmap.get default Y.wanted q = Fmap.get default X.wanted q) ∧
    (full → Y = { phases := X.phases + 1, arrived := [], gone := 0, issued := [], form := none, wanted := [] }) ∧
    holds (fun m q i =>
      let h := mine (if sync = true then .bar id X.phases else s.hold) m q i
      if m ∈ d.barBlocks n id ∧ full then (match h with | .bar a p => if a = id ∧ p < X.phases + 1 then .free else h | _ => h) else h))

/-! Registers in runs. -/

/-- n v registers from r on are marked empty in each slice that performs the word, and a fill holds `v i l` for register r + i of
lane l (R31). Nothing else differs. -/
def MarkedRun (s t : State) (x : Issue) (r n : Nat) (v : Nat → Nat → Word) : Prop :=
  let g := s.dev.view x.agent
  let h := t.dev.view x.agent
  (∀ q i, i ∈ x.actSlices → r ≤ q → q < r + n → h.vIsEmpty q i = true) ∧
  (∀ q i, i < 64 → ¬ (i ∈ x.actSlices ∧ r ≤ q ∧ q < r + n) → h.vIsEmpty q i = g.vIsEmpty q i) ∧
  h.v = g.v ∧ h.vBad = g.vBad ∧ h.s = g.s ∧ h.sEmpty = g.sEmpty ∧ h.sBad = g.sBad ∧ h.p = g.p ∧ h.flags = g.flags ∧
  g.sameControl h ∧ s.sameBeside t x.agent ∧
  ∃ f, t.dev.fills = s.dev.fills ++ [f] ∧ f.agent = x.agent ∧ (∀ i, i ∈ f.issued ↔ i ∈ x.slices) ∧ f.await = 0 ∧ f.s = [] ∧
    f.sFull = [] ∧ f.vErr = [] ∧ f.sErr = false ∧ f.flags = 0 ∧
    (∀ p, p ∈ f.v ↔ ∃ l ∈ x.act, ∃ i < n, p = ((r + i) * 256 + l, v i l)) ∧
    ∀ k, k ∈ f.vFull ↔ ∃ i ∈ x.actSlices, ∃ j < n, k = (r + j) * 64 + i

/-- The curve-key flags of each lane that performs the word gained `f`; nothing else differs (R187). -/
def RaisedCkf (s t : State) (x : Issue) (f : Nat → Byte) : Prop :=
  let g := s.dev.view x.agent
  let h := t.dev.view x.agent
  h = { g with ckf := h.ckf } ∧ (∀ l, h.ckfAt l = if l ∈ x.act then g.ckfAt l ||| f l else g.ckfAt l) ∧
  t.agenda = s.agenda ∧ t.turn = s.turn ∧ t.iss = s.iss ∧ t.dev = s.dev.putView x.agent h

/-! Byte strings. -/

/-- A byte-string word, ready to be performed, marks d empty and fills it with a value that P relates to a, b and the old d
(R31, R344). -/
def ByteWord (mk : AWord → Instr) (P : AWord → DWord → DWord → DWord → DWord → Prop) : Prop :=
  ∀ (s : State) (x : Issue) (w : AWord), Ready s x (mk w) → GangOk s x → (s.dev.view x.agent).regsWf = true →
    let a := w.aVal x.view (s.dev.view x.agent) false
    let b := w.bVal zext x.view (s.dev.view x.agent) false
    ∃ t v, exec (mk w) s = .next t ∧ MarkedLanes s t x w.d.toNat false v 0 ∧
      ∀ l ∈ x.act, P w (a l) (b l) (w.dVal x.view false l) (v l)

/-- One bit of a reflected CRC-32C (R348). -/
def crcShift (c : Word) : Word := c >>> 1 ^^^ (if c.getLsbD 0 then 0x82F63B78 else 0)

/-! Curve keys. -/

/-- The 128-bit key in a quad of a lane, its unused bits read as 0 (R182, R184). -/
def Group.keyAt (g : Group) (n r l : Nat) : Nat := (g.vAt (r + 3) l ++ g.vAt (r + 2) l ++ g.vAt (r + 1) l ++ g.vAt r l).toNat % 2 ^ n
/-- axis(k, j) of a key of D dimensions and B bits (R184). -/
def axisOf (D B k j : Nat) : Nat := ∑ i ∈ Finset.range B, if k.testBit (i * D + j) then 2 ^ i else 0
/-- k is the key whose axis j is x j, for each j below D, with its unused bits 0 (R184). -/
def IsKey (D B : Nat) (x : Nat → Nat) (k : Nat) : Prop :=
  k < 2 ^ (D * B) ∧ ∀ j < D, ∀ i < B, k.testBit (i * D + j) = (x j).testBit i
/-- inbox(k, lo, hi) (R184). -/
def InBox (D B lo hi k : Nat) : Prop := ∀ j < D, axisOf D B lo j ≤ axisOf D B k j ∧ axisOf D B k j ≤ axisOf D B hi j

/-- A curve-key word whose descriptor fits 128 bits, ready to be performed (R186). -/
def KeyReady (s : State) (x : Issue) (w : KWord) (i : Instr) : Prop :=
  Ready s x i ∧ GangOk s x ∧ (s.dev.view x.agent).regsWf = true ∧ w.dim * w.nbits ≤ 128

/-- A curve-key word that writes a key quad and raises overflow flags. -/
def KeyWord (mk : KWord → Instr) (P : KWord → Group → Nat → Nat → Byte → Prop) : Prop :=
  ∀ (s : State) (x : Issue) (w : KWord), KeyReady s x w (mk w) →
    ∃ m t, ∃ k : Nat → Nat, ∃ f : Nat → Byte, exec (mk w) s = .next t ∧ RaisedCkf s m x f ∧
      MarkedRun m t x w.d.toNat 4 (fun i l => BitVec.ofNat 32 (k l / 2 ^ (32 * i))) ∧
      ∀ l ∈ x.act, k l < 2 ^ 128 ∧ P w x.view l (k l) (f l)

/-- The runs of keys of a box: ascending, apart from one another, and exactly its keys (R195). -/
def RunsOf (D B lo hi : Nat) (R : List (Nat × Nat)) : Prop :=
  (∀ p ∈ R, p.1 ≤ p.2) ∧ R.Pairwise (fun p q => p.2 + 1 < q.1) ∧
  ∀ c, (∃ p ∈ R, p.1 ≤ c ∧ c ≤ p.2) ↔ c < 2 ^ (D * B) ∧ InBox D B lo hi c

/-- One merge of a cover of more than 16 ranges: the first of the least gaps is closed (R195). -/
def Merges (R S : List (Nat × Nat)) : Prop :=
  16 < R.length ∧ ∃ pre p q post, R = pre ++ p :: q :: post ∧ S = pre ++ (p.1, q.2) :: post ∧
    (∀ pre' p' q' post', R = pre' ++ p' :: q' :: post' → q.1 - p.2 ≤ q'.1 - p'.2 ∧ (pre'.length < pre.length → q.1 - p.2 < q'.1 - p'.2))

end Sys2Proof.Machine
end

