-- ==== Sys2Proof/ClaimsUnits.lean ====
section
/-! DEFINITION. What statements say of the walker, of launches, of pre-emption and of the events that the machine's units bring
about. -/

namespace Sys2Proof.Machine

/-- The k-th point of a slot stands at index i. -/
def WSlot.pt (s : WSlot) (i : Nat) : WPoint := (s.points[i]?).getD default
/-- Point i is pending. -/
def WSlot.isPending (s : WSlot) (i : Nat) : Prop := i < s.points.length ∧ (s.pt i).handed = false
/-- Point i comes before point j by id, then by index; a point whose record was not read has its index for an id (R201, R203). -/
def WSlot.before (s : WSlot) (i j : Nat) : Prop :=
  let id := fun (k : Nat) => (((s.pt k).id).map BitVec.toNat).getD k
  id i < id j ∨ (id i = id j ∧ i < j)
/-- C is the candidate list of an examination: the forced pending points in ascending order, then the ready ones that are not
forced (R201). -/
def WSlot.Candidates (ready : WPoint → Bool) (s : WSlot) (C : List Nat) : Prop :=
  ∃ F R, C = F ++ R ∧ F.Pairwise s.before ∧ R.Pairwise s.before ∧
    (∀ i, i ∈ F ↔ s.isPending i ∧ (s.pt i).forced = true) ∧
    (∀ i, i ∈ R ↔ s.isPending i ∧ (s.pt i).forced = false ∧ ready (s.pt i) = true)
/-- Every pending point outside C has been deferred once (R201). -/
def WSlot.Deferred (s u : WSlot) (now : Nat) (C : List Nat) : Prop :=
  u = { s with points := u.points, deferrals := u.deferrals } ∧ u.points.length = s.points.length ∧
  u.deferrals = s.deferrals + ((List.range s.points.length).filter (fun i => !(s.pt i).handed && !C.contains i)).length ∧
  ∀ i < s.points.length, u.pt i = if (s.pt i).handed = true ∨ i ∈ C then s.pt i
    else { s.pt i with
      dc := (s.pt i).dc + 1
      t0 := if (s.pt i).dc = 0 then now else (s.pt i).t0
      forced := (s.pt i).forced || (s.pt i).dc + 1 == s.maxDefer }
/-- The points H are handed out (R201). -/
def WSlot.HandsOut (s u : WSlot) (H : List Nat) : Prop :=
  u = { s with points := u.points, handed := s.handed + H.length,
               forced := s.forced + (H.filter (fun i => (s.pt i).forced)).length, waiting := [] } ∧
  u.points.length = s.points.length ∧
  ∀ i < s.points.length, u.pt i = if i ∈ H then { s.pt i with handed := true } else s.pt i
/-- What lanes receive for a point: its id, or its index when its record was not read (R203). -/
def WSlot.idOf (s : WSlot) (i : Nat) : Word := ((s.pt i).id).getD (BitVec.ofNat 32 i)

/-- Registers of a group are as before; its region has ended, and its slices may have been woken from `idle`. -/
def Group.ended (g h : Group) : Prop := g.sameWaking h ∧ h.region = none

/-- A group receives ids in its lowest live lanes, with the predicate and the count, and goes on (R201). -/
def Group.Received (g h : Group) (q : WkReq) (ids : List Word) : Prop :=
  h = { g with v := h.v, vEmpty := h.vEmpty, vBad := h.vBad, s := h.s, sEmpty := h.sEmpty, sBad := h.sBad, p := h.p,
               slices := h.slices, queues := h.queues, region := none } ∧
  h.sAt q.sC.toNat = BitVec.ofNat 64 ids.length ∧ h.sIsEmpty q.sC.toNat = false ∧
  (∀ r ≠ q.sC.toNat, h.sAt r = g.sAt r ∧ h.sIsEmpty r = g.sIsEmpty r) ∧
  (∀ r l, l < 256 → h.vAt r l = if r = q.d.toNat ∧ l ∈ g.liveLanes then (ids[g.liveLanes.idxOf l]?).getD 0xFFFFFFFF else g.vAt r l) ∧
  (∀ i < g.slices.length, h.vIsEmpty q.d.toNat i = false) ∧
  (∀ r i, i < 64 → r ≠ q.d.toNat → h.vIsEmpty r i = g.vIsEmpty r i) ∧
  ∀ p l, p < 7 → l < 256 → h.pAt p l = if p = q.p.toNat ∧ l ∈ g.liveLanes then decide (g.liveLanes.idxOf l < ids.length) else g.pAt p l

/-! L2. -/

/-- Lines of L2 have been written back, invalidated or both (R403, R404), or written back and left as they are for a reader (R414):
those that `hit` names. The private copies of the lines that `gone` names have been recalled: mapped stash entries of them are left unfilled, and
update-only copies of them combined. A line that a `cacheop` writes back is exempt no more (R392). A discarded dirty line's bytes are those that memory held
behind it. -/
def LineEffect (op : LineOp) (hit : L2Line → Prop) (gone : Nat → Prop) (d e : Device) : Prop :=
  let cleaned := fun (f : L2Line → L2Line) => (∀ y, y ∈ e.l2 ↔ (y ∈ d.l2 ∧ ¬ hit y) ∨ ∃ z ∈ d.l2, hit z ∧ y = f z) ∧ e.mem = d.mem
  let unfilled := fun (m m' : StashMap) =>
    let stays := fun (q : Nat × Bool) => ∀ n, m.lines[q.1]? = some n → ¬ gone n
    m' = { m with filled := m'.filled, dirty := m'.dirty } ∧ (∀ q, q ∈ m'.filled ↔ q ∈ m.filled ∧ stays q) ∧
      ∀ q, q ∈ m'.dirty ↔ q ∈ m.dirty ∧ stays q
  e = { d with l2 := e.l2, mem := e.mem, blocks := e.blocks, ulines := e.ulines } ∧ (∀ a, e.view a = d.view a) ∧
  (∀ b, e.block b = { d.block b with maps := (e.block b).maps } ∧ (e.block b).maps.length = (d.block b).maps.length ∧
    ∀ (k : Nat) (m m' : StashMap), (d.block b).maps[k]? = some m → (e.block b).maps[k]? = some m' → unfilled m m') ∧
  (∀ u, u ∈ e.ulines ↔ u ∈ d.ulines ∧ ¬ gone u.line) ∧
  match op with
  | .wb => cleaned (fun z => { z with behind := none, exempt := z.exempt && z.behind.isNone })
  | .clean => cleaned (fun z => { z with behind := none })
  | _ => (∀ y, y ∈ e.l2 ↔ y ∈ d.l2 ∧ ¬ hit y) ∧
      (op = .wbinv → e.mem = d.mem) ∧
      (op = .inv → ∀ pa,
        (∀ y ∈ d.l2, hit y → ∀ bs, y.behind = some bs → pa / 128 = y.line → Fmap.get 0 e.mem pa = (bs[pa % 128]?).getD 0) ∧
        ((∀ y ∈ d.l2, hit y → y.behind ≠ none → pa / 128 ≠ y.line) → Fmap.get 0 e.mem pa = Fmap.get 0 d.mem pa))

/-! Staged contributions (R309). -/

/-- Contribution a comes before b: by address, block, group, lane and sequence. -/
def Contribution.before (a b : Contribution) : Prop :=
  let k := fun (c : Contribution) => [c.ea.toNat, c.blk, c.grp, c.lane, c.seq]
  List.Lex (· < ·) (k a) (k b)
/-- Where a contribution goes. -/
def Contribution.locs (c : Contribution) : List Loc := (List.range (if c.wide then 8 else 4)).map (fun i => Loc.mem (c.addr + i))
/-- Memory once a contribution has been applied to it: its value added modulo 2^w, or as floats rounded to nearest. -/
def Device.afterContribution (d : Device) (M : Loc → Byte) (c : Contribution) : Loc → Byte :=
  let v := littleOf M c.locs
  d.putAt M c.locs (if c.fadd then zext (atomResult 8 false (bitsOf v 0 32) (bitsOf c.x 0 32) 0)
    else if c.wide then v + c.x else zext (bitsOf v 0 32 + bitsOf c.x 0 32))

/-! Stores of the distributor and the Hamada cores. -/

/-- Such a store takes place at once: none waits, no engine owns a line, no part of memory is under test, and a memory answers for its bytes
(R231, R289, R442). -/
def Device.mayStore (d : Device) (ls : List Loc) : Prop :=
  d.ham.stores = [] ∧ (∀ t ∈ d.ham.testing, (∀ i q w, t.1 ≠ .l2way i q w) ∧ ∀ i f, t.1 ≠ .dramFrame i f) ∧ (∀ n, d.owned n = false) ∧
    ∀ l ∈ ls, d.noMemory l = false
/-- n bytes of memory from an address on. -/
def memRun (pa n : Nat) : List Loc := (List.range n).map (fun i => Loc.mem (pa + i))

/-! The end of a context. -/

/-- Everything that belongs to context c has left the device: its blocks have ended and hold nothing, nothing they issued is still
to come, and no handler of it runs (R380, R383). -/
def Device.Left (d e : Device) (c : Nat) : Prop :=
  (∀ b < d.blocks.length, (d.block b).ctx = c → (e.block b).ended = true ∧ (e.block b).groups = [] ∧
    (e.block b).access = none ∧ (e.block b).ridge = none ∧ (e.block b).stash = [] ∧ (e.block b).maps = []) ∧
  (∀ f ∈ e.fills, d.ctxOf f.agent ≠ c) ∧ (∀ f ∈ e.qfills, (d.block f.blk).ctx ≠ c) ∧ (∀ f ∈ e.copies, (d.block f.blk).ctx ≠ c) ∧
  (∀ f ∈ e.prefetches, (d.block f.blk).ctx ≠ c) ∧ (∀ f ∈ e.faults, d.ctxOf f.agent ≠ c) ∧
  (∀ m ∈ e.monitors, d.ctxOf m.agent ≠ c) ∧ (∀ h ∈ e.handlers, h.2.1 ≠ c)
/-- It has stopped, and its staged contributions, its claims and its waiting `drain` words are discarded with it (R383). -/
def Device.Stopped (d e : Device) (c : Nat) : Prop :=
  d.Left e c ∧ (e.ctx c).staged = [] ∧ (e.ctx c).streams = [] ∧ (e.ctx c).drains = []

/-- A launch has failed: its agents have stopped, and its status word holds the failure form with the cause (R383, R402, R406). -/
def Device.Failed (d e : Device) (c : Nat) (cause : Byte) : Prop :=
  (e.ctx c).state = .failed ∧ d.Stopped e c ∧
  ∀ pa, (d.ctx c).statusLoc = some (.mem pa) → (∀ p area, (d.ctx c).preempt = some p → p.save = some area → d.mayStore (memRun area 64)) →
    d.mayStore (memRun pa 8) → ∀ i < 8, e.byteAt (.mem (pa + i)) = if i = 0 then cause else if i = 7 then 0x80 else 0

/-! Pre-emption. -/

/-- Block b of context c lives on a core. -/
def Device.Lives (d : Device) (c b : Nat) : Prop := b < d.blocks.length ∧ (d.block b).ctx = c ∧ (d.block b).ended = false
/-- The report of a pre-emption stands in the save area, when the context has one (R382): the status, the flags, the cycles since its
start, the address of the launch packet, and zeros. -/
def Device.Reported (d e : Device) (c status : Nat) (p : Preempt) : Prop :=
  let flag := fun (b : Bool) (n : Nat) => if b = true then 2 ^ n else 0
  let flags := flag p.pdrainMissed 0 + flag p.psaveMissed 1 + flag p.doubleTrap 2 + flag p.unresolved 3
  let n := status + 2 ^ 32 * flags + 2 ^ 64 * ((d.now - p.start) % 2 ^ 64) + 2 ^ 128 * (d.ctx c).va.toNat
  ∀ area, p.save = some area → d.mayStore (memRun area 64) → ∀ i < 64, e.byteAt (.mem (area + i)) = BitVec.ofNat 8 (n / 256 ^ i)
/-- A write to memory may have woken slices of a group from `idle` (R401); nothing else differs. -/
def Group.wokenTo (g h : Group) : Prop :=
  h = { g with slices := h.slices } ∧ h.slices.length = g.slices.length ∧
  ∀ i, h.slice i = { g.slice i with hold := (h.slice i).hold } ∧
    ((h.slice i).hold = (g.slice i).hold ∨ (h.slice i).hold = (g.slice i).hold.awake)
/-- Block b of context c belongs to a cluster set of which some block lives: its stash is still there (R41, R217). -/
def Device.Kept (d : Device) (c b : Nat) : Prop :=
  b < d.blocks.length ∧ (d.block b).ctx = c ∧ ∃ n ∈ ((d.sets[(d.block b).cset]?).getD default).blocks, (d.block n).ended = false
/-- A group as it is saved: in no active position; one that waits at a `monwait` stands at its packet again, with the word's register full, as the
word has not been performed (R320, R380). -/
def Device.SavedGroup (d : Device) (b k : Nat) (h : Group) : Prop :=
  let g := (d.block b).group k
  let away := fun (g : Group) => ({ g with pos := none, stepping := none } : Group)
  ((∀ m ∈ d.monitors, m.agent ≠ .group b k) → (away g).wokenTo h) ∧
  ∀ m ∈ d.monitors, m.agent = .group b k → (∀ q ∈ d.monitors, q.agent = .group b k → q = m) →
    (away ((g.markS false [m.sreg.toNat]).standAgain m.inst)).wokenTo h
/-- The context has been saved (R380, R381): what its blocks hold is kept for its save area, with their Crest contexts, their
walker slots and its waiting `drain` words; its update-only copies are combined and its contributions forwarded; its agents have
left, and the report says 2. -/
def Device.SavedAway (d e : Device) (c area : Nat) (p : Preempt) : Prop :=
  d.Left e c ∧ d.Reported e c 2 { p with save := some area } ∧
  e.ctx c = { d.ctx c with state := .saved, preempt := none, drains := []
                           staged := (d.ctx c).staged.map (fun k => { k with buffered := false }) } ∧
  ∃ v, e.saved = d.saved.filter (fun q => q.area != area) ++ [v] ∧ v.area = area ∧ v.ctx = c ∧
    (v.blocks.map Prod.fst).Nodup ∧ (∀ b, d.Kept c b ↔ ∃ B, (b, B) ∈ v.blocks) ∧
    (∀ b B, (b, B) ∈ v.blocks →
      let B0 := d.block b
      let ms := B0.maps.map (fun (m : StashMap) => { m with filled := [], dirty := [] })
      B = { B0 with groups := B.groups, maps := ms } ∧ B.groups.length = B0.groups.length ∧
      ∀ k < B0.groups.length, d.SavedGroup b k (B.group k)) ∧
    (∀ b K, (b, K) ∈ v.crests ↔ d.Lives c b ∧ (d.block b).ridge ≠ none ∧ K = d.crest (d.block b).core (d.block b).ridgeCtx) ∧
    (∀ b n w, (b, n, w) ∈ v.walkers ↔ d.Lives c b ∧ n < 4 ∧ w = d.wslot (d.block b).core n ∧ w.holder = some b) ∧
    v.drains = (d.ctx c).drains

/-! The services. -/

/-- Request r makes the call c of a service that is free, comes from a requester that the configuration lists, and has its turn (R409,
R410, R412). -/
def Device.Asks (d : Device) (r : Req) (c : Call) : Prop :=
  d.callOf r = some c ∧ (∀ src bs, r = .datagram src bs → src ∈ d.ham.sources) ∧ (∀ q ∈ d.ham.serving, q.1 ≠ c.service ∧ q.2.1 ≠ r) ∧
  d.blockTurn r = true ∧ d.memWf = true ∧ d.ham.servedSeq.length = d.ham.services.length ∧
  ∀ i, r = .block i → d.mayStore (memRun (((d.ham.services[i]?).getD 0).toNat + 64) 192)
/-- The block whose request was served last (R409). -/
def Device.lastServed (d : Device) (r : Req) : Nat := match r with | .block i => i | .datagram _ _ => d.ham.lastBlock
/-- The device with the call under way (R412). -/
def Device.begun (d : Device) (r : Req) (c : Call) : Device :=
  { d with ham := { d.ham with serving := d.ham.serving ++ [(c.service, r, c.seq)], lastBlock := d.lastServed r } }
/-- The call is answered, and nothing else differs: its service block holds the result, the data and the served sequence, or a datagram
leaves for the sender (R409, R410). -/
def Device.Replied (d e : Device) (r : Req) (c : Call) (result : Byte) (data : List Byte) : Prop :=
  (let h := { d.ham with servedSeq := e.ham.servedSeq, replies := e.ham.replies, lastBlock := d.lastServed r }
   e = { d with mem := e.mem, l2 := e.l2, ulines := e.ulines, poison := e.poison, monitors := e.monitors, blocks := e.blocks,
                handlers := e.handlers, ham := h, fab := { d.fab with hostLines := e.fab.hostLines } }) ∧
  (∀ a, (d.view a).sameWaking (e.view a)) ∧
  match r with
  | .datagram src _ =>
    let y : Reply := { dst := src, seq := c.seq, result := (0 : Byte) ++ result, data := (data ++ List.replicate 176 0).take 176 }
    e.ham.replies = d.ham.replies ++ [y] ∧ e.ham.servedSeq = d.ham.servedSeq ∧ ∀ l, e.byteAt l = d.byteAt l
  | .block i =>
    let base := ((d.ham.services[i]?).getD 0).toNat
    e.ham.replies = d.ham.replies ∧ e.ham.servedSeq = d.ham.servedSeq.set i c.seq ∧
      (∀ n < 8, e.byteAt (.mem (base + 64 + n)) = element 8 c.seq n) ∧
      (∀ n < 8, e.byteAt (.mem (base + 72 + n)) = if n = 0 then result else 0) ∧
      (∀ n < 176, e.byteAt (.mem (base + 80 + n)) = (data[n]?).getD 0) ∧
      ∀ pa, pa < base + 64 ∨ base + 256 ≤ pa → e.byteAt (.mem pa) = d.byteAt (.mem pa)
/-- A launch on the device has its packet at this address, and no launch before it has (R411). -/
def Device.LaunchAt (d : Device) (va k : Nat) : Prop :=
  let at' := fun (j : Nat) => j < d.ctxs.length ∧ (d.ctx j).va.toNat = va ∧ ((d.ctx j).state = .running ∨ (d.ctx j).state = .placing ∨
    (d.ctx j).state = .queued ∨ (d.ctx j).state = .waiting)
  at' k ∧ ∀ j < k, ¬ at' j
/-- A number names group k of block b, of the context that the debug service attached to last (R411, assumption 75). -/
def Device.Names (d : Device) (x b k : Nat) : Prop :=
  x < 2 ^ 40 ∧ x / 16 % 16 = 0 ∧ k = x % 16 ∧ ∃ c, d.ham.attached.head? = some c ∧ d.Lives c b ∧ (d.block b).idx = x / 256 ∧
    (∀ b' < b, d.Lives c b' → (d.block b').idx ≠ x / 256) ∧ k < (d.block b).groups.length ∧ ((d.block b).group k).exited = false
/-- A group's gang that stopped stands where EPC says (R387). -/
def Group.AtEpc (g h : Group) : Prop :=
  h = { g with slices := h.slices, handler := if g.inHandler = true then g.handler else 0 } ∧
  ∀ i < 64, h.slice i = if g.inHandler = false ∧ g.handler.getLsbD i = true ∧ i < g.slices.length
    then { g.slice i with pc := bitsOf g.epc 0 32 } else g.slice i
/-- A thread that a BKPT stopped goes on at EPC (assumption 54). -/
def Thread.resumed (t : Thread) : Thread :=
  if t.stopped = true then { t with stopped := false, pc := bitsOf t.epc 0 32 } else t

/-! The fabric. -/

/-- A fill once a reply has come: one reply fewer is awaited, and g has been applied to the register of each lane that a part of the
request serves (R421). -/
def Fill.Got (f u : Fill) (op : RemoteOp) (g : RemotePart → DWord → DWord) : Prop :=
  let r := op.reg.toNat
  let at' := fun (k : Nat) => ((f.v.find? (fun p => p.1 == k)).map Prod.snd).getD 0
  u = { f with await := f.await - 1, s := u.s, v := u.v } ∧
  (∀ p, op.parts = [p] → p.lane = none → u.v = f.v ∧ u.s = f.s.map (fun q => if q.1 = r then (q.1, g p q.2) else q)) ∧
  ((∀ p ∈ op.parts, ∃ l < 256, p.lane = some l) → (op.parts.map RemotePart.lane).Nodup →
    u.s = f.s ∧ u.v = f.v.map (fun q =>
      match op.parts.find? (fun p => p.lane == some (q.1 % 256)) with
      | none => q
      | some p =>
        let x := g p (at' ((r + 1) * 256 + q.1 % 256) ++ at' (r * 256 + q.1 % 256))
        if q.1 / 256 = r then (q.1, bitsOf x 0 32) else if op.size = 3 ∧ q.1 / 256 = r + 1 then (q.1, bitsOf x 32 32) else q))
/-- What a part of a request takes of a reply: its bytes at their place in the register, extended when they are the highest of a signed
access (R421). -/
def RemoteOp.taken (op : RemoteOp) (p : RemotePart) (bytes : List Byte) : DWord :=
  let w : DWord := BitVec.ofNat 64 (bytesNat ((bytes.drop p.off).take p.cnt) * 2 ^ (8 * p.pos))
  if (op.size = 4 ∨ op.size = 5) ∧ p.pos + p.cnt = sizeBytes op.size then extendVal op.size w else w
/-- Request k is op, and fill j, f, alone carries its tag and awaits a reply. -/
def Device.Awaits (d : Device) (k j : Nat) (op : RemoteOp) (f : Fill) : Prop :=
  ∃ tag, d.fab.remotes[k]? = some op ∧ op.use = .fill tag ∧ op.failed = false ∧ d.fills[j]? = some f ∧ f.tag = tag ∧ f.await ≠ 0 ∧
  (∀ i g, d.fills[i]? = some g → i ≠ j → g.tag ≠ tag) ∧ ∀ q ∈ d.qfills, q.tag ≠ tag
/-- The same with request k gone and fill j replaced. -/
def Device.fillGot (d : Device) (k j : Nat) (u : Fill) : Device :=
  { d with fab := { d.fab with remotes := listDrop d.fab.remotes k }, fills := d.fills.set j u }
/-- Launches that a device shares with this one have counted one request of it as received (R322). -/
def Device.Counted (d e : Device) (src : BitVec 12) : Prop :=
  e.ctxs.length = d.ctxs.length ∧ ∀ c < d.ctxs.length, e.ctx c = { d.ctx c with
    received := (e.ctx c).received, broken := (e.ctx c).broken } ∧
    let shared := src ∈ d.replicas c ∧
      ((d.ctx c).state = .running ∨ (d.ctx c).state = .placing ∨ (d.ctx c).state = .done ∨ (d.ctx c).state = .drained)
    (shared → (e.ctx c).received = (d.ctx c).received + 1) ∧ (¬ shared → (e.ctx c).received = (d.ctx c).received)
/-- A message has left (R420). -/
def Device.Sent (d e : Device) (m : OutMsg) : Prop := e.fab = { d.fab with outbox := d.fab.outbox ++ [m] }
/-- The bytes of a value stand at locations, and every other byte is as it was. -/
def Device.Wrote (d e : Device) (ls : List Loc) (v : DWord) : Prop :=
  (∀ i l, ls[i]? = some l → e.byteAt l = element 8 v i) ∧ ∀ l, d.cell l ∉ ls → e.byteAt l = d.byteAt l

end Sys2Proof.Machine
end

