-- ==== Sys2Proof/Laws/Encode.lean ====
section
/-! SUPPORT. Reading back what the encoder wrote, format by format. -/

namespace Sys2Proof

/-- The words of an instruction, as bytes, read back as the instruction with nothing left. -/
def ReadsBack (i : Instr) : Prop := decodeBytes ((encode i).flatMap bytesOfWord) = .ok (i, [])

theorem wordOfBytes_bytes (w : Word) : wordOfBytes (bitsOf w 0 8) (bitsOf w 8 8) (bitsOf w 16 8) (bitsOf w 24 8) = w := by
  apply BitVec.eq_of_getLsbD_eq
  intro i hi
  simp only [wordOfBytes, bitsOf, BitVec.getLsbD_append, BitVec.getLsbD_extractLsb']
  split
  · next h => simp [h]
  · split
    · next h => simp only [h, decide_true, Bool.true_and]; congr 1; omega
    · split
      · next h => simp only [h, decide_true, Bool.true_and]; congr 1; omega
      · next h => rw [decide_eq_true (by omega), Bool.true_and]; congr 1; omega

theorem opcodeOf_headWord (c : Bool) (op : BitVec 7) (f : BitVec 24) : opcodeOf (headWord c op f) = op := by
  apply BitVec.eq_of_getLsbD_eq
  intro i hi
  simp only [headWord, opcodeOf, ofBit, BitVec.getLsbD_extractLsb', BitVec.getLsbD_append, hi, decide_true, Bool.true_and]
  (repeat' split) <;> first | omega | (congr 1; omega)

theorem chainOf_headWord (c : Bool) (op : BitVec 7) (f : BitVec 24) : chainOf (headWord c op f) = c := by
  simp only [headWord, chainOf, bitOf, ofBit, BitVec.getLsbD_append]
  simp

/-- A field below the opcode is a field of the rest. -/
theorem bitsOf_headWord (c : Bool) (op : BitVec 7) (f : BitVec 24) (lo w : Nat) (h : lo + w ≤ 24) :
    bitsOf (headWord c op f) lo w = bitsOf f lo w := by
  apply BitVec.eq_of_getLsbD_eq
  intro i hi
  simp only [headWord, bitsOf, ofBit, BitVec.getLsbD_extractLsb', BitVec.getLsbD_append, hi, decide_true, Bool.true_and]
  rw [if_pos (by omega)]

theorem bitOf_headWord (c : Bool) (op : BitVec 7) (f : BitVec 24) (n : Nat) (h : n < 24) :
    bitOf (headWord c op f) n = bitOf f n := by
  simp only [headWord, bitOf, ofBit, BitVec.getLsbD_append]
  rw [if_pos h]

theorem bitsOf_whole (f : BitVec 24) : bitsOf f 0 24 = f := by
  apply BitVec.eq_of_getLsbD_eq
  intro i hi
  simp [bitsOf]

theorem extAfter_none (w : Word) : extAfter w none = none := rfl

theorem extAfter_ext (op : BitVec 7) (f : BitVec 24) (c : Bool) (x : Payload) :
    extAfter (headWord true op f) (some (extWord c x)) = some (x, c) := by
  simp only [extAfter, extWord, chainOf_headWord, opcodeOf_headWord, bitsOf_headWord _ _ _ 0 24 (by omega), bitsOf_whole]
  simp

/-- One word reads back. -/
theorem readsBack_one (i : Instr) (w : Word) (he : encode i = [w]) (hs : selectRow w none = .ok i) (hr : rowOk i = true) :
    ReadsBack i := by
  simp only [ReadsBack, he, List.flatMap_cons, List.flatMap_nil, bytesOfWord, List.append_nil, decodeBytes,
    wordOfBytes_bytes, decode, extAfter_none, hs, hr, if_true]

/-- A word and its `ext` read back. -/
theorem readsBack_two (i : Instr) (op : BitVec 7) (f : BitVec 24) (c : Bool) (x : Payload)
    (he : encode i = [headWord true op f, extWord c x]) (hs : selectRow (headWord true op f) (some (x, c)) = .ok i)
    (hr : rowOk i = true) : ReadsBack i := by
  simp only [ReadsBack, he, List.flatMap_cons, List.flatMap_nil, bytesOfWord, List.append_nil, List.cons_append,
    List.nil_append, decodeBytes, wordOfBytes_bytes, decode, extAfter_ext, hs, hr, if_true, Option.isSome_some]

/-! Fields of each format. -/

section fields
variable (d a b : RegNo) (t : BitVec 3) (ea eb u : Bool)

/-- The rest of an A word. -/
abbrev restA : BitVec 24 := d ++ a ++ b ++ t ++ ofBit ea ++ ofBit eb ++ ofBit u

theorem restA_d : bitsOf (restA d a b t ea eb u) 18 6 = d := by
  apply BitVec.eq_of_getLsbD_eq
  intro i hi
  simp only [bitsOf, ofBit, BitVec.getLsbD_extractLsb', BitVec.getLsbD_append, hi, decide_true, Bool.true_and]
  (repeat' split) <;> first | omega | (congr 1; omega)
theorem restA_a : bitsOf (restA d a b t ea eb u) 12 6 = a := by
  apply BitVec.eq_of_getLsbD_eq
  intro i hi
  simp only [bitsOf, ofBit, BitVec.getLsbD_extractLsb', BitVec.getLsbD_append, hi, decide_true, Bool.true_and]
  (repeat' split) <;> first | omega | (congr 1; omega)
theorem restA_b : bitsOf (restA d a b t ea eb u) 6 6 = b := by
  apply BitVec.eq_of_getLsbD_eq
  intro i hi
  simp only [bitsOf, ofBit, BitVec.getLsbD_extractLsb', BitVec.getLsbD_append, hi, decide_true, Bool.true_and]
  (repeat' split) <;> first | omega | (congr 1; omega)
theorem restA_t : bitsOf (restA d a b t ea eb u) 3 3 = t := by
  apply BitVec.eq_of_getLsbD_eq
  intro i hi
  simp only [bitsOf, ofBit, BitVec.getLsbD_extractLsb', BitVec.getLsbD_append, hi, decide_true, Bool.true_and]
  (repeat' split) <;> first | omega | (congr 1; omega)
theorem restA_ea : bitOf (restA d a b t ea eb u) 2 = ea := by simp only [bitOf, ofBit, BitVec.getLsbD_append]; simp
theorem restA_eb : bitOf (restA d a b t ea eb u) 1 = eb := by simp only [bitOf, ofBit, BitVec.getLsbD_append]; simp
theorem restA_u : bitOf (restA d a b t ea eb u) 0 = u := by simp only [bitOf, ofBit, BitVec.getLsbD_append]; simp

variable (p : BitVec 3) (neg cond : Bool) (off : BitVec 19)

/-- The rest of a B word. -/
abbrev restB : BitVec 24 := p ++ ofBit neg ++ ofBit cond ++ off

theorem restB_p : bitsOf (restB p neg cond off) 21 3 = p := by
  apply BitVec.eq_of_getLsbD_eq
  intro i hi
  simp only [bitsOf, ofBit, BitVec.getLsbD_extractLsb', BitVec.getLsbD_append, hi, decide_true, Bool.true_and]
  (repeat' split) <;> first | omega | (congr 1; omega)
theorem restB_neg : bitOf (restB p neg cond off) 20 = neg := by simp only [bitOf, ofBit, BitVec.getLsbD_append]; simp
theorem restB_cond : bitOf (restB p neg cond off) 19 = cond := by simp only [bitOf, ofBit, BitVec.getLsbD_append]; simp
theorem restB_off : bitsOf (restB p neg cond off) 0 19 = off := by
  apply BitVec.eq_of_getLsbD_eq
  intro i hi
  simp only [bitsOf, ofBit, BitVec.getLsbD_extractLsb', BitVec.getLsbD_append, hi, decide_true, Bool.true_and]
  (repeat' split) <;> first | omega | (congr 1; omega)

variable (count : BitVec 2)

/-- The rest of a `guard`. -/
abbrev restG : BitVec 24 := p ++ ofBit neg ++ count ++ (0 : BitVec 18)

theorem restG_p : bitsOf (restG p neg count) 21 3 = p := by
  apply BitVec.eq_of_getLsbD_eq
  intro i hi
  simp only [bitsOf, ofBit, BitVec.getLsbD_extractLsb', BitVec.getLsbD_append, hi, decide_true, Bool.true_and]
  (repeat' split) <;> first | omega | (congr 1; omega)
theorem restG_neg : bitOf (restG p neg count) 20 = neg := by simp only [bitOf, ofBit, BitVec.getLsbD_append]; simp
theorem restG_count : bitsOf (restG p neg count) 18 2 = count := by
  apply BitVec.eq_of_getLsbD_eq
  intro i hi
  simp only [bitsOf, ofBit, BitVec.getLsbD_extractLsb', BitVec.getLsbD_append, hi, decide_true, Bool.true_and]
  (repeat' split) <;> first | omega | (congr 1; omega)
theorem restG_zero : bitsOf (restG p neg count) 0 18 = 0 := by
  apply BitVec.eq_of_getLsbD_eq
  intro i hi
  simp only [bitsOf, ofBit, BitVec.getLsbD_extractLsb', BitVec.getLsbD_append, hi, decide_true, Bool.true_and]
  rw [if_pos (by omega)]; simp

variable (base index func : RegNo)

/-- The rest of a word of four 6-bit fields. -/
abbrev restM : BitVec 24 := d ++ base ++ index ++ func

theorem restM_d : bitsOf (restM d base index func) 18 6 = d := by
  apply BitVec.eq_of_getLsbD_eq
  intro i hi
  simp only [bitsOf, BitVec.getLsbD_extractLsb', BitVec.getLsbD_append, hi, decide_true, Bool.true_and]
  (repeat' split) <;> first | omega | (congr 1; omega)
theorem restM_base : bitsOf (restM d base index func) 12 6 = base := by
  apply BitVec.eq_of_getLsbD_eq
  intro i hi
  simp only [bitsOf, BitVec.getLsbD_extractLsb', BitVec.getLsbD_append, hi, decide_true, Bool.true_and]
  (repeat' split) <;> first | omega | (congr 1; omega)
theorem restM_index : bitsOf (restM d base index func) 6 6 = index := by
  apply BitVec.eq_of_getLsbD_eq
  intro i hi
  simp only [bitsOf, BitVec.getLsbD_extractLsb', BitVec.getLsbD_append, hi, decide_true, Bool.true_and]
  (repeat' split) <;> first | omega | (congr 1; omega)
theorem restM_func : bitsOf (restM d base index func) 0 6 = func := by
  apply BitVec.eq_of_getLsbD_eq
  intro i hi
  simp only [bitsOf, BitVec.getLsbD_extractLsb', BitVec.getLsbD_append, hi, decide_true, Bool.true_and]
  (repeat' split) <;> first | omega | (congr 1; omega)
theorem restM_bit (n : Nat) (h : n < 6) : bitOf (restM d base index func) n = bitOf func n := by
  simp only [bitOf, BitVec.getLsbD_append]
  rw [if_pos h]

variable (size scope : BitVec 3) (order hint : BitVec 2) (off12 : BitVec 12)

/-- An M payload. -/
abbrev payM : BitVec 24 := size ++ scope ++ order ++ hint ++ ofBit ea ++ ofBit u ++ off12

theorem payM_size : bitsOf (payM ea u size scope order hint off12) 21 3 = size := by
  apply BitVec.eq_of_getLsbD_eq
  intro i hi
  simp only [bitsOf, ofBit, BitVec.getLsbD_extractLsb', BitVec.getLsbD_append, hi, decide_true, Bool.true_and]
  (repeat' split) <;> first | omega | (congr 1; omega)
theorem payM_scope : bitsOf (payM ea u size scope order hint off12) 18 3 = scope := by
  apply BitVec.eq_of_getLsbD_eq
  intro i hi
  simp only [bitsOf, ofBit, BitVec.getLsbD_extractLsb', BitVec.getLsbD_append, hi, decide_true, Bool.true_and]
  (repeat' split) <;> first | omega | (congr 1; omega)
theorem payM_order : bitsOf (payM ea u size scope order hint off12) 16 2 = order := by
  apply BitVec.eq_of_getLsbD_eq
  intro i hi
  simp only [bitsOf, ofBit, BitVec.getLsbD_extractLsb', BitVec.getLsbD_append, hi, decide_true, Bool.true_and]
  (repeat' split) <;> first | omega | (congr 1; omega)
theorem payM_hint : bitsOf (payM ea u size scope order hint off12) 14 2 = hint := by
  apply BitVec.eq_of_getLsbD_eq
  intro i hi
  simp only [bitsOf, ofBit, BitVec.getLsbD_extractLsb', BitVec.getLsbD_append, hi, decide_true, Bool.true_and]
  (repeat' split) <;> first | omega | (congr 1; omega)
theorem payM_ea : bitOf (payM ea u size scope order hint off12) 13 = ea := by
  simp only [bitOf, ofBit, BitVec.getLsbD_append]; simp
theorem payM_u : bitOf (payM ea u size scope order hint off12) 12 = u := by
  simp only [bitOf, ofBit, BitVec.getLsbD_append]; simp
theorem payM_off : bitsOf (payM ea u size scope order hint off12) 0 12 = off12 := by
  apply BitVec.eq_of_getLsbD_eq
  intro i hi
  simp only [bitsOf, ofBit, BitVec.getLsbD_extractLsb', BitVec.getLsbD_append, hi, decide_true, Bool.true_and]
  (repeat' split) <;> first | omega | (congr 1; omega)

variable (dims : BitVec 3) (bits : BitVec 5) (kop : BitVec 16)

/-- A K payload. -/
abbrev payK : BitVec 24 := dims ++ bits ++ kop

theorem payK_dims : bitsOf (payK dims bits kop) 21 3 = dims := by
  apply BitVec.eq_of_getLsbD_eq
  intro i hi
  simp only [bitsOf, BitVec.getLsbD_extractLsb', BitVec.getLsbD_append, hi, decide_true, Bool.true_and]
  (repeat' split) <;> first | omega | (congr 1; omega)
theorem payK_bits : bitsOf (payK dims bits kop) 16 5 = bits := by
  apply BitVec.eq_of_getLsbD_eq
  intro i hi
  simp only [bitsOf, BitVec.getLsbD_extractLsb', BitVec.getLsbD_append, hi, decide_true, Bool.true_and]
  (repeat' split) <;> first | omega | (congr 1; omega)
theorem payK_op : bitsOf (payK dims bits kop) 0 16 = kop := by
  apply BitVec.eq_of_getLsbD_eq
  intro i hi
  simp only [bitsOf, BitVec.getLsbD_extractLsb', BitVec.getLsbD_append, hi, decide_true, Bool.true_and]
  (repeat' split) <;> first | omega | (congr 1; omega)

variable (sub : BitVec 4) (n6 : BitVec 6) (m2 : BitVec 2) (fmt : BitVec 4) (core : BitVec 2) (ctx : Bool) (low : BitVec 5)

/-- The rest of a Q word. -/
abbrev restQ : BitVec 24 := sub ++ n6 ++ m2 ++ fmt ++ core ++ ofBit ctx ++ low

theorem restQ_sub : bitsOf (restQ sub n6 m2 fmt core ctx low) 20 4 = sub := by
  apply BitVec.eq_of_getLsbD_eq
  intro i hi
  simp only [bitsOf, ofBit, BitVec.getLsbD_extractLsb', BitVec.getLsbD_append, hi, decide_true, Bool.true_and]
  (repeat' split) <;> first | omega | (congr 1; omega)
theorem restQ_n6 : bitsOf (restQ sub n6 m2 fmt core ctx low) 14 6 = n6 := by
  apply BitVec.eq_of_getLsbD_eq
  intro i hi
  simp only [bitsOf, ofBit, BitVec.getLsbD_extractLsb', BitVec.getLsbD_append, hi, decide_true, Bool.true_and]
  (repeat' split) <;> first | omega | (congr 1; omega)
theorem restQ_m2 : bitsOf (restQ sub n6 m2 fmt core ctx low) 12 2 = m2 := by
  apply BitVec.eq_of_getLsbD_eq
  intro i hi
  simp only [bitsOf, ofBit, BitVec.getLsbD_extractLsb', BitVec.getLsbD_append, hi, decide_true, Bool.true_and]
  (repeat' split) <;> first | omega | (congr 1; omega)
theorem restQ_fmt : bitsOf (restQ sub n6 m2 fmt core ctx low) 8 4 = fmt := by
  apply BitVec.eq_of_getLsbD_eq
  intro i hi
  simp only [bitsOf, ofBit, BitVec.getLsbD_extractLsb', BitVec.getLsbD_append, hi, decide_true, Bool.true_and]
  (repeat' split) <;> first | omega | (congr 1; omega)
theorem restQ_core : bitsOf (restQ sub n6 m2 fmt core ctx low) 6 2 = core := by
  apply BitVec.eq_of_getLsbD_eq
  intro i hi
  simp only [bitsOf, ofBit, BitVec.getLsbD_extractLsb', BitVec.getLsbD_append, hi, decide_true, Bool.true_and]
  (repeat' split) <;> first | omega | (congr 1; omega)
theorem restQ_ctx : bitOf (restQ sub n6 m2 fmt core ctx low) 5 = ctx := by
  simp only [bitOf, ofBit, BitVec.getLsbD_append]; simp
theorem restQ_low : bitsOf (restQ sub n6 m2 fmt core ctx low) 0 5 = low := by
  apply BitVec.eq_of_getLsbD_eq
  intro i hi
  simp only [bitsOf, ofBit, BitVec.getLsbD_extractLsb', BitVec.getLsbD_append, hi, decide_true, Bool.true_and]
  (repeat' split) <;> first | omega | (congr 1; omega)

variable (imm : BitVec 8)

/-- The rest of a Y word. -/
abbrev restY : BitVec 24 := sub ++ d ++ a ++ imm

theorem restY_sub : bitsOf (restY d a sub imm) 20 4 = sub := by
  apply BitVec.eq_of_getLsbD_eq
  intro i hi
  simp only [bitsOf, BitVec.getLsbD_extractLsb', BitVec.getLsbD_append, hi, decide_true, Bool.true_and]
  (repeat' split) <;> first | omega | (congr 1; omega)
theorem restY_d : bitsOf (restY d a sub imm) 14 6 = d := by
  apply BitVec.eq_of_getLsbD_eq
  intro i hi
  simp only [bitsOf, BitVec.getLsbD_extractLsb', BitVec.getLsbD_append, hi, decide_true, Bool.true_and]
  (repeat' split) <;> first | omega | (congr 1; omega)
theorem restY_a : bitsOf (restY d a sub imm) 8 6 = a := by
  apply BitVec.eq_of_getLsbD_eq
  intro i hi
  simp only [bitsOf, BitVec.getLsbD_extractLsb', BitVec.getLsbD_append, hi, decide_true, Bool.true_and]
  (repeat' split) <;> first | omega | (congr 1; omega)
theorem restY_imm : bitsOf (restY d a sub imm) 0 8 = imm := by
  apply BitVec.eq_of_getLsbD_eq
  intro i hi
  simp only [bitsOf, BitVec.getLsbD_extractLsb', BitVec.getLsbD_append, hi, decide_true, Bool.true_and]
  (repeat' split) <;> first | omega | (congr 1; omega)

end fields

/-! Formats. -/

/-- The use of an `ext` allows the word's. -/
def extFits (use : ExtUse) (x : Option Payload) : Bool :=
  match use with | .never => x.isNone | .opt => true | .req => x.isSome

theorem fieldsA (k c : Bool) (op : BitVec 7) (d a b : RegNo) (t : BitVec 3) (ea eb u : Bool) (x : Option Payload) :
    (⟨c, bitsOf (headWord k op (restA d a b t ea eb u)) 18 6, bitsOf (headWord k op (restA d a b t ea eb u)) 12 6,
      bitsOf (headWord k op (restA d a b t ea eb u)) 6 6, bitsOf (headWord k op (restA d a b t ea eb u)) 3 3,
      bitOf (headWord k op (restA d a b t ea eb u)) 2, bitOf (headWord k op (restA d a b t ea eb u)) 1,
      bitOf (headWord k op (restA d a b t ea eb u)) 0, x⟩ : AWord) = ⟨c, d, a, b, t, ea, eb, u, x⟩ := by
  rw [bitsOf_headWord _ _ _ 18 6 (by omega), bitsOf_headWord _ _ _ 12 6 (by omega),
    bitsOf_headWord _ _ _ 6 6 (by omega), bitsOf_headWord _ _ _ 3 3 (by omega), bitOf_headWord _ _ _ 2 (by omega),
    bitOf_headWord _ _ _ 1 (by omega), bitOf_headWord _ _ _ 0 (by omega), restA_d, restA_a, restA_b, restA_t, restA_ea,
    restA_eb, restA_u]

theorem decodeA_plain (use : ExtUse) (mk : AWord → Instr) (op : BitVec 7) (c : Bool) (d a b : RegNo) (t : BitVec 3)
    (ea eb u : Bool) (h : use ≠ .req) :
    decodeA use mk (headWord c op (restA d a b t ea eb u)) none = .ok (mk ⟨c, d, a, b, t, ea, eb, u, none⟩) := by
  have k := chainOf_headWord c op (restA d a b t ea eb u)
  have e := (fieldsA c (chainOf (headWord c op (restA d a b t ea eb u))) op d a b t ea eb u none).trans
    (congrArg (fun q => (⟨q, d, a, b, t, ea, eb, u, none⟩ : AWord)) k)
  cases use with
  | never => exact congrArg (fun q => Except.ok (mk q)) e
  | opt => exact congrArg (fun q => Except.ok (mk q)) e
  | req => exact absurd rfl h

theorem decodeA_imm (use : ExtUse) (mk : AWord → Instr) (op : BitVec 7) (c : Bool) (d a b : RegNo) (t : BitVec 3)
    (ea eb u : Bool) (x : Payload) (h : use ≠ .never) :
    decodeA use mk (headWord true op (restA d a b t ea eb u)) (some (x, c)) = .ok (mk ⟨c, d, a, b, t, ea, eb, u, some x⟩) := by
  have e := fieldsA true c op d a b t ea eb u (some x)
  cases use with
  | never => exact absurd rfl h
  | opt => exact congrArg (fun q => Except.ok (mk q)) e
  | req => exact congrArg (fun q => Except.ok (mk q)) e

theorem readsBack_A (use : ExtUse) (op : BitVec 7) (mk : AWord → Instr) (w : AWord)
    (hs : ∀ v x, opcodeOf v = op → selectRow v x = decodeA use mk v x) (he : encode (mk w) = encodeA op w)
    (hr : rowOk (mk w) = true) (hx : extFits use w.ext = true) : ReadsBack (mk w) := by
  obtain ⟨c, d, a, b, t, ea, eb, u, ext⟩ := w
  cases ext with
  | none =>
    have hu : use ≠ .req := by rintro rfl; exact Bool.noConfusion hx
    refine readsBack_one _ (headWord c op (restA d a b t ea eb u)) he ?_ hr
    rw [hs _ _ (opcodeOf_headWord _ _ _), decodeA_plain use mk op c d a b t ea eb u hu]
  | some x =>
    have hu : use ≠ .never := by rintro rfl; exact Bool.noConfusion hx
    refine readsBack_two _ op (restA d a b t ea eb u) c x he ?_ hr
    rw [hs _ _ (opcodeOf_headWord _ _ _), decodeA_imm use mk op c d a b t ea eb u x hu]

theorem readsBack_B (op : BitVec 7) (mk : BWord → Instr) (w : BWord)
    (hs : ∀ v x, opcodeOf v = op → selectRow v x = decodeB mk v x) (he : encode (mk w) = encodeB op w)
    (hr : rowOk (mk w) = true) : ReadsBack (mk w) := by
  obtain ⟨c, p, neg, cond, off⟩ := w
  refine readsBack_one _ (headWord c op (restB p neg cond off)) he ?_ hr
  rw [hs _ _ (opcodeOf_headWord _ _ _)]
  simp only [decodeB, chainOf_headWord, bitsOf_headWord _ _ _ 21 3 (by omega), bitOf_headWord _ _ _ 20 (by omega),
    bitOf_headWord _ _ _ 19 (by omega), bitsOf_headWord _ _ _ 0 19 (by omega), restB_p, restB_neg, restB_cond, restB_off]

/-- For a word whose row its func bits also select. -/
theorem readsBack_M (op : BitVec 7) (mk : MWord → Instr) (w : MWord)
    (hs : ∀ v x, opcodeOf v = op → (∀ n < 6, bitOf v n = bitOf w.func n) → selectRow v x = decodeM mk v x)
    (he : encode (mk w) = encodeM op w) (hr : rowOk (mk w) = true) : ReadsBack (mk w) := by
  obtain ⟨c, d, base, index, func, size, scope, order, hint, ea, u, off⟩ := w
  refine readsBack_two _ op (restM d base index func) c (payM ea u size scope order hint off) he ?_ hr
  rw [hs _ _ (opcodeOf_headWord _ _ _)
    (fun n hn => by rw [bitOf_headWord _ _ _ n (by omega)]; exact restM_bit d base index func n hn)]
  simp only [decodeM, bitsOf_headWord _ _ _ 18 6 (by omega), bitsOf_headWord _ _ _ 12 6 (by omega),
    bitsOf_headWord _ _ _ 6 6 (by omega), bitsOf_headWord _ _ _ 0 6 (by omega), restM_d, restM_base, restM_index, restM_func,
    payM_size, payM_scope, payM_order, payM_hint, payM_ea, payM_u, payM_off]

theorem readsBack_K (op : BitVec 7) (mk : KWord → Instr) (w : KWord)
    (hs : ∀ v x, opcodeOf v = op → selectRow v x = decodeK mk v x) (he : encode (mk w) = encodeK op w)
    (hr : rowOk (mk w) = true) : ReadsBack (mk w) := by
  obtain ⟨c, d, a, b, func, dims, bits, kop⟩ := w
  refine readsBack_two _ op (restM d a b func) c (payK dims bits kop) he ?_ hr
  rw [hs _ _ (opcodeOf_headWord _ _ _)]
  simp only [decodeK, bitsOf_headWord _ _ _ 18 6 (by omega), bitsOf_headWord _ _ _ 12 6 (by omega),
    bitsOf_headWord _ _ _ 6 6 (by omega), bitsOf_headWord _ _ _ 0 6 (by omega), restM_d, restM_base, restM_index, restM_func,
    payK_dims, payK_bits, payK_op]

theorem readsBack_Q (sub : BitVec 4) (mk : QWord → Instr) (w : QWord)
    (hs : ∀ v x, opcodeOf v = 0x78 → bitsOf v 20 4 = sub → selectRow v x = decodeQ mk v x) (he : encode (mk w) = encodeQ sub w)
    (hr : rowOk (mk w) = true) : ReadsBack (mk w) := by
  obtain ⟨c, n6, m2, fmt, core, ctx, low, pay⟩ := w
  refine readsBack_two _ 0x78 (restQ sub n6 m2 fmt core ctx low) c pay he ?_ hr
  rw [hs _ _ (opcodeOf_headWord _ _ _) (by rw [bitsOf_headWord _ _ _ 20 4 (by omega), restQ_sub])]
  simp only [decodeQ, bitsOf_headWord _ _ _ 14 6 (by omega), bitsOf_headWord _ _ _ 12 2 (by omega),
    bitsOf_headWord _ _ _ 8 4 (by omega), bitsOf_headWord _ _ _ 6 2 (by omega), bitOf_headWord _ _ _ 5 (by omega),
    bitsOf_headWord _ _ _ 0 5 (by omega), restQ_n6, restQ_m2, restQ_fmt, restQ_core, restQ_ctx, restQ_low]

theorem readsBack_Y (sub : BitVec 4) (mk : YWord → Instr) (w : YWord)
    (hs : ∀ v x, opcodeOf v = 0x7F → bitsOf v 20 4 = sub → bitsOf v 0 8 = w.imm → selectRow v x = decodeY mk v x)
    (he : encode (mk w) = encodeY sub w) (hr : rowOk (mk w) = true) : ReadsBack (mk w) := by
  obtain ⟨c, d, a, imm⟩ := w
  refine readsBack_one _ (headWord c 0x7F (restY d a sub imm)) he ?_ hr
  rw [hs _ _ (opcodeOf_headWord _ _ _) (by rw [bitsOf_headWord _ _ _ 20 4 (by omega), restY_sub])
    (by rw [bitsOf_headWord _ _ _ 0 8 (by omega), restY_imm])]
  simp only [decodeY, chainOf_headWord, bitsOf_headWord _ _ _ 14 6 (by omega), bitsOf_headWord _ _ _ 8 6 (by omega),
    bitsOf_headWord _ _ _ 0 8 (by omega), restY_d, restY_a, restY_imm]

theorem readsBack_nop (c : Bool) : ReadsBack (.nop c) := by
  refine readsBack_one _ (headWord c 1 0) rfl ?_ rfl
  have h : selectRow (headWord c 1 0) none = decodeNop (headWord c 1 0) none := by
    simp only [selectRow, opcodeOf_headWord]; rfl
  rw [h]
  simp only [decodeNop, chainOf_headWord, bitsOf_headWord _ _ _ 0 24 (by omega), bitsOf_whole]
  rfl

theorem readsBack_guard (w : GWord) : ReadsBack (.guard w) := by
  obtain ⟨p, neg, count⟩ := w
  refine readsBack_one _ (headWord true 2 (restG p neg count)) (by simp only [encode]) ?_ rfl
  have h : selectRow (headWord true 2 (restG p neg count)) none = decodeGuard (headWord true 2 (restG p neg count)) none := by
    simp only [selectRow, opcodeOf_headWord]; rfl
  rw [h]
  simp only [decodeGuard, chainOf_headWord, bitsOf_headWord _ _ _ 0 18 (by omega), bitsOf_headWord _ _ _ 21 3 (by omega),
    bitOf_headWord _ _ _ 20 (by omega), bitsOf_headWord _ _ _ 18 2 (by omega), restG_p, restG_neg, restG_count, restG_zero]
  rfl

theorem readsBack_ext (c : Bool) (x : Payload) : ReadsBack (.ext c x) := by
  refine readsBack_one _ (headWord c 3 x) (by simp only [encode, extWord]) ?_ rfl
  have h : selectRow (headWord c 3 x) none = .ok (.ext (chainOf (headWord c 3 x)) (bitsOf (headWord c 3 x) 0 24)) := by
    simp only [selectRow, opcodeOf_headWord]; rfl
  rw [h, chainOf_headWord, bitsOf_headWord _ _ _ 0 24 (by omega), bitsOf_whole]

end Sys2Proof
end

