-- ==== Sys2Proof/Laws/PerInstr.lean ====
section
/-! SUPPORT. For every instruction: the words the encoder writes for it, read back by the decoder, are the instruction. -/

namespace Sys2Proof.Laws.RoundTrip

/-- A well-formed instruction that has words reads back from them, with every operand as it was. -/
def Statement (i : Instr) : Prop := i.WellFormed → encode i ≠ [] → ReadsBack i

theorem and_l {a b : Bool} (h : (a && b) = true) : a = true := by cases a <;> simp_all
theorem and_r {a b : Bool} (h : (a && b) = true) : b = true := by cases a <;> simp_all
theorem beq_of {w : Nat} {a b : BitVec w} (h : (a == b) = true) : a = b := by simpa using h

/-- The lowest bit of a field is the bit it starts at. -/
theorem bit_of_bits {f : BitVec 6} {lo w : Nat} {v : BitVec w} (h : bitsOf f lo w = v) (hw : 0 < w) :
    bitOf f lo = v.getLsbD 0 := by
  subst h; simp [bitOf, bitsOf, hw]

theorem rowOk_of {i : Instr} (h : i.WellFormed) : rowOk i = true := and_l h

/-! The row of a word, by its opcode, its sub-opcode and its form. -/

theorem op_row {v : Word} {x : Option (Payload × Bool)} {op : BitVec 7} (h : opcodeOf v = op) :
    selectRow v x = rowOf op.toNat v x := by rw [← h]; rfl
theorem q_row {v : Word} {x : Option (Payload × Bool)} {sub : BitVec 4} (h : opcodeOf v = 0x78) (h2 : bitsOf v 20 4 = sub) :
    selectRow v x = rowQ sub.toNat v x := by rw [op_row h, ← h2]; rfl
theorem y_row {v : Word} {x : Option (Payload × Bool)} {sub : BitVec 4} (h : opcodeOf v = 0x7F) (h2 : bitsOf v 20 4 = sub) :
    selectRow v x = rowY sub.toNat v x := by rw [op_row h, ← h2]; rfl
theorem c_row {v : Word} {x : Option (Payload × Bool)} {imm : BitVec 8} (h : opcodeOf v = 0x7F) (h2 : bitsOf v 20 4 = 4)
    (h3 : bitsOf v 0 8 = imm) : selectRow v x = rowCache imm.toNat v x := by rw [y_row h h2, ← h3]; rfl

/-- An instruction without words. -/
theorem noWords {i : Instr} (h : encode i = []) : Statement i := fun _ hn => absurd h hn

theorem nop (c : Bool) : Statement (.nop c) := fun _ _ => readsBack_nop c
theorem guard (w : GWord) : Statement (.guard w) := fun _ _ => readsBack_guard w
theorem ext (c : Bool) (x : Payload) : Statement (.ext c x) := fun _ _ => readsBack_ext c x
theorem br (w : BWord) : Statement (.br w) :=
  fun h _ => readsBack_B 0x04 .br w (fun _ _ => op_row) rfl (rowOk_of h)
theorem brs (w : BWord) : Statement (.brs w) :=
  fun h _ => readsBack_B 0x05 .brs w (fun _ _ => op_row) rfl (rowOk_of h)
theorem bri (w : BWord) : Statement (.bri w) :=
  fun h _ => readsBack_B 0x06 .bri w (fun _ _ => op_row) rfl (rowOk_of h)
theorem call (w : BWord) : Statement (.call w) :=
  fun h _ => readsBack_B 0x07 .call w (fun _ _ => op_row) rfl (rowOk_of h)
theorem ret (w : BWord) : Statement (.ret w) :=
  fun h _ => readsBack_B 0x08 .ret w (fun _ _ => op_row) rfl (rowOk_of h)
theorem join (w : BWord) : Statement (.join w) :=
  fun h _ => readsBack_B 0x09 .join w (fun _ _ => op_row) rfl (rowOk_of h)
theorem regang (w : BWord) : Statement (.regang w) :=
  fun h _ => readsBack_B 0x0A .regang w (fun _ _ => op_row) rfl (rowOk_of h)
theorem exit (w : BWord) : Statement (.exit w) :=
  fun h _ => readsBack_B 0x0B .exit w (fun _ _ => op_row) rfl (rowOk_of h)
theorem yield (w : BWord) : Statement (.yield w) :=
  fun h _ => readsBack_B 0x0C .yield w (fun _ _ => op_row) rfl (rowOk_of h)
theorem region (w : BWord) : Statement (.region w) :=
  fun h _ => readsBack_B 0x0D .region w (fun _ _ => op_row) rfl (rowOk_of h)
theorem bkpt (w : BWord) : Statement (.bkpt w) :=
  fun h _ => readsBack_B 0x0E .bkpt w (fun _ _ => op_row) rfl (rowOk_of h)
theorem trapi (w : BWord) : Statement (.trapi w) :=
  fun h _ => readsBack_B 0x0F .trapi w (fun _ _ => op_row) rfl (rowOk_of h)
theorem add (w : AWord) : Statement (.add w) :=
  fun h _ => readsBack_A .opt 0x10 .add w (fun _ _ => op_row) rfl (rowOk_of h) rfl
theorem sub (w : AWord) : Statement (.sub w) :=
  fun h _ => readsBack_A .opt 0x11 .sub w (fun _ _ => op_row) rfl (rowOk_of h) rfl
theorem mul (w : AWord) : Statement (.mul w) :=
  fun h _ => readsBack_A .opt 0x12 .mul w (fun _ _ => op_row) rfl (rowOk_of h) rfl
theorem mulhi (w : AWord) : Statement (.mulhi w) :=
  fun h _ => readsBack_A .opt 0x13 .mulhi w (fun _ _ => op_row) rfl (rowOk_of h) rfl
theorem mad (w : AWord) : Statement (.mad w) :=
  fun h _ => readsBack_A .opt 0x14 .mad w (fun _ _ => op_row) rfl (rowOk_of h) rfl
theorem min (w : AWord) : Statement (.min w) :=
  fun h _ => readsBack_A .opt 0x15 .min w (fun _ _ => op_row) rfl (rowOk_of h) rfl
theorem max (w : AWord) : Statement (.max w) :=
  fun h _ => readsBack_A .opt 0x16 .max w (fun _ _ => op_row) rfl (rowOk_of h) rfl
theorem abs (w : AWord) : Statement (.abs w) :=
  fun h _ => readsBack_A .never 0x17 .abs w (fun _ _ => op_row) rfl (rowOk_of h) (and_r (rowOk_of h :))
theorem neg (w : AWord) : Statement (.neg w) :=
  fun h _ => readsBack_A .never 0x18 .neg w (fun _ _ => op_row) rfl (rowOk_of h) (and_r (rowOk_of h :))
theorem and (w : AWord) : Statement (.and w) :=
  fun h _ => readsBack_A .opt 0x19 .and w (fun _ _ => op_row) rfl (rowOk_of h) rfl
theorem or (w : AWord) : Statement (.or w) :=
  fun h _ => readsBack_A .opt 0x1A .or w (fun _ _ => op_row) rfl (rowOk_of h) rfl
theorem xor (w : AWord) : Statement (.xor w) :=
  fun h _ => readsBack_A .opt 0x1B .xor w (fun _ _ => op_row) rfl (rowOk_of h) rfl
theorem not (w : AWord) : Statement (.not w) :=
  fun h _ => readsBack_A .never 0x1C .not w (fun _ _ => op_row) rfl (rowOk_of h) (and_r (rowOk_of h :))
theorem shl (w : AWord) : Statement (.shl w) :=
  fun h _ => readsBack_A .opt 0x1D .shl w (fun _ _ => op_row) rfl (rowOk_of h) rfl
theorem shr (w : AWord) : Statement (.shr w) :=
  fun h _ => readsBack_A .opt 0x1E .shr w (fun _ _ => op_row) rfl (rowOk_of h) rfl
theorem sra (w : AWord) : Statement (.sra w) :=
  fun h _ => readsBack_A .opt 0x1F .sra w (fun _ _ => op_row) rfl (rowOk_of h) rfl
theorem rot (w : AWord) : Statement (.rot w) :=
  fun h _ => readsBack_A .opt 0x20 .rot w (fun _ _ => op_row) rfl (rowOk_of h) rfl
theorem bfx (w : AWord) : Statement (.bfx w) :=
  fun h _ => readsBack_A .opt 0x21 .bfx w (fun _ _ => op_row) rfl (rowOk_of h) rfl
theorem bfi (w : AWord) : Statement (.bfi w) :=
  fun h _ => readsBack_A .opt 0x22 .bfi w (fun _ _ => op_row) rfl (rowOk_of h) rfl
theorem popc (w : AWord) : Statement (.popc w) :=
  fun h _ => readsBack_A .never 0x23 .popc w (fun _ _ => op_row) rfl (rowOk_of h) (and_r (rowOk_of h :))
theorem clz (w : AWord) : Statement (.clz w) :=
  fun h _ => readsBack_A .never 0x24 .clz w (fun _ _ => op_row) rfl (rowOk_of h) (and_r (rowOk_of h :))
theorem ctz (w : AWord) : Statement (.ctz w) :=
  fun h _ => readsBack_A .never 0x25 .ctz w (fun _ _ => op_row) rfl (rowOk_of h) (and_r (rowOk_of h :))
theorem cmp (w : AWord) : Statement (.cmp w) :=
  fun h _ => readsBack_A .opt 0x26 .cmp w (fun _ _ => op_row) rfl (rowOk_of h) rfl
theorem sel (w : AWord) : Statement (.sel w) :=
  fun h _ => readsBack_A .opt 0x27 .sel w (fun _ _ => op_row) rfl (rowOk_of h) rfl
theorem fadd (w : AWord) : Statement (.fadd w) :=
  fun h _ => readsBack_A .opt 0x28 .fadd w (fun _ _ => op_row) rfl (rowOk_of h) rfl
theorem fsub (w : AWord) : Statement (.fsub w) :=
  fun h _ => readsBack_A .opt 0x29 .fsub w (fun _ _ => op_row) rfl (rowOk_of h) rfl
theorem fmul (w : AWord) : Statement (.fmul w) :=
  fun h _ => readsBack_A .opt 0x2A .fmul w (fun _ _ => op_row) rfl (rowOk_of h) rfl
theorem fma (w : AWord) : Statement (.fma w) :=
  fun h _ => readsBack_A .opt 0x2B .fma w (fun _ _ => op_row) rfl (rowOk_of h) rfl
theorem fmin (w : AWord) : Statement (.fmin w) :=
  fun h _ => readsBack_A .opt 0x2C .fmin w (fun _ _ => op_row) rfl (rowOk_of h) rfl
theorem fmax (w : AWord) : Statement (.fmax w) :=
  fun h _ => readsBack_A .opt 0x2D .fmax w (fun _ _ => op_row) rfl (rowOk_of h) rfl
theorem fneg (w : AWord) : Statement (.fneg w) :=
  fun h _ => readsBack_A .never 0x2E .fneg w (fun _ _ => op_row) rfl (rowOk_of h) (and_r (rowOk_of h :))
theorem fabs (w : AWord) : Statement (.fabs w) :=
  fun h _ => readsBack_A .never 0x2F .fabs w (fun _ _ => op_row) rfl (rowOk_of h) (and_r (rowOk_of h :))
theorem fcmp (w : AWord) : Statement (.fcmp w) :=
  fun h _ => readsBack_A .opt 0x30 .fcmp w (fun _ _ => op_row) rfl (rowOk_of h) rfl
theorem fclass (w : AWord) : Statement (.fclass w) :=
  fun h _ => readsBack_A .never 0x31 .fclass w (fun _ _ => op_row) rfl (rowOk_of h) (and_r (rowOk_of h :))
theorem fscale (w : AWord) : Statement (.fscale w) :=
  fun h _ => readsBack_A .opt 0x32 .fscale w (fun _ _ => op_row) rfl (rowOk_of h) rfl
theorem frnd (w : AWord) : Statement (.frnd w) :=
  fun h _ => readsBack_A .never 0x33 .frnd w (fun _ _ => op_row) rfl (rowOk_of h) (and_r (rowOk_of h :))
theorem fdot2 (w : AWord) : Statement (.fdot2 w) :=
  fun h _ => readsBack_A .opt 0x34 .fdot2 w (fun _ _ => op_row) rfl (rowOk_of h) rfl
theorem fpack (w : AWord) : Statement (.fpack w) :=
  fun h _ => readsBack_A .opt 0x35 .fpack w (fun _ _ => op_row) rfl (rowOk_of h) rfl
theorem funpk (w : AWord) : Statement (.funpk w) :=
  fun h _ => readsBack_A .never 0x36 .funpk w (fun _ _ => op_row) rfl (rowOk_of h) (and_r (rowOk_of h :))
theorem frcp (w : AWord) : Statement (.frcp w) :=
  fun h _ => readsBack_A .never 0x37 .frcp w (fun _ _ => op_row) rfl (rowOk_of h) (and_r (and_l (and_l (rowOk_of h :))))
theorem frsq (w : AWord) : Statement (.frsq w) :=
  fun h _ => readsBack_A .never 0x38 .frsq w (fun _ _ => op_row) rfl (rowOk_of h) (and_r (and_l (and_l (rowOk_of h :))))
theorem fsqrt (w : AWord) : Statement (.fsqrt w) :=
  fun h _ => readsBack_A .never 0x39 .fsqrt w (fun _ _ => op_row) rfl (rowOk_of h) (and_r (and_l (and_l (rowOk_of h :))))
theorem fexp2 (w : AWord) : Statement (.fexp2 w) :=
  fun h _ => readsBack_A .never 0x3A .fexp2 w (fun _ _ => op_row) rfl (rowOk_of h) (and_r (and_l (and_l (rowOk_of h :))))
theorem flog2 (w : AWord) : Statement (.flog2 w) :=
  fun h _ => readsBack_A .never 0x3B .flog2 w (fun _ _ => op_row) rfl (rowOk_of h) (and_r (and_l (and_l (rowOk_of h :))))
theorem cvt (w : AWord) : Statement (.cvt w) :=
  fun h _ => readsBack_A .never 0x3C .cvt w (fun _ _ => op_row) rfl (rowOk_of h) (and_r (rowOk_of h :))
theorem cvtbfp (w : AWord) : Statement (.cvtbfp w) :=
  fun h _ => readsBack_A .never 0x3D .cvtbfp w (fun _ _ => op_row) rfl (rowOk_of h) (and_r (rowOk_of h :))
theorem fmtset (w : AWord) : Statement (.fmtset w) :=
  fun h _ => readsBack_A .opt 0x3E .fmtset w (fun _ _ => op_row) rfl (rowOk_of h) rfl
theorem fmtget (w : AWord) : Statement (.fmtget w) :=
  fun h _ => readsBack_A .never 0x3F .fmtget w (fun _ _ => op_row) rfl (rowOk_of h) (and_r (rowOk_of h :))
theorem mov (w : AWord) : Statement (.mov w) :=
  fun h _ => readsBack_A .never 0x40 .mov w (fun _ _ => op_row) rfl (rowOk_of h) (and_r (rowOk_of h :))
theorem movi (w : AWord) : Statement (.movi w) :=
  fun h _ => readsBack_A .req 0x41 .movi w (fun _ _ => op_row) rfl (rowOk_of h) (and_l (and_l (and_l (and_l (rowOk_of h :)))))
theorem lmov (w : AWord) : Statement (.lmov w) :=
  fun h _ => readsBack_A .opt 0x42 .lmov w (fun _ _ => op_row) rfl (rowOk_of h) rfl
theorem bcast (w : AWord) : Statement (.bcast w) :=
  fun h _ => readsBack_A .opt 0x43 .bcast w (fun _ _ => op_row) rfl (rowOk_of h) rfl
theorem vred (w : AWord) : Statement (.vred w) :=
  fun h _ => readsBack_A .never 0x44 .vred w (fun _ _ => op_row) rfl (rowOk_of h) (and_r (rowOk_of h :))
theorem vscan (w : AWord) : Statement (.vscan w) :=
  fun h _ => readsBack_A .never 0x45 .vscan w (fun _ _ => op_row) rfl (rowOk_of h) (and_r (rowOk_of h :))
theorem vote (w : AWord) : Statement (.vote w) :=
  fun h _ => readsBack_A .never 0x46 .vote w (fun _ _ => op_row) rfl (rowOk_of h) (and_r (rowOk_of h :))
theorem sample (w : AWord) : Statement (.sample w) :=
  fun h _ => readsBack_A .never 0x47 .sample w (fun _ _ => op_row) rfl (rowOk_of h) (and_r (rowOk_of h :))
theorem getsv (w : AWord) : Statement (.getsv w) :=
  fun h _ => readsBack_A .never 0x66 .getsv w (fun _ _ => op_row) rfl (rowOk_of h) (and_r (rowOk_of h :))
theorem ld (w : MWord) : Statement (.ld w) :=
  fun h _ => readsBack_M 0x48 .ld w (fun _ _ h _ => op_row h) rfl (rowOk_of h)
theorem st (w : MWord) : Statement (.st w) :=
  fun h _ => readsBack_M 0x49 .st w (fun _ _ h _ => op_row h) rfl (rowOk_of h)
theorem ldc (w : MWord) : Statement (.ldc w) :=
  fun h _ => readsBack_M 0x4A .ldc w (fun _ _ h _ => op_row h) rfl (rowOk_of h)
theorem ldl (w : MWord) : Statement (.ldl w) :=
  fun h _ => readsBack_M 0x4B .ldl w (fun _ _ h _ => op_row h) rfl (rowOk_of h)
theorem stl (w : MWord) : Statement (.stl w) :=
  fun h _ => readsBack_M 0x4C .stl w (fun _ _ h _ => op_row h) rfl (rowOk_of h)
theorem cp (w : MWord) : Statement (.cp w) :=
  fun h _ => readsBack_M 0x4D .cp w (fun _ _ h _ => op_row h) rfl (rowOk_of h)
theorem cpclose (w : MWord) : Statement (.cpclose w) :=
  fun h _ => readsBack_M 0x4E .cpclose w (fun _ _ h _ => op_row h) rfl (rowOk_of h)
theorem cpwait (w : MWord) : Statement (.cpwait w) :=
  fun h _ => readsBack_M 0x4F .cpwait w (fun _ _ h _ => op_row h) rfl (rowOk_of h)
theorem qld (w : MWord) : Statement (.qld w) :=
  fun h _ => readsBack_M 0x50 .qld w (fun _ _ h _ => op_row h) rfl (rowOk_of h)
theorem stmap (w : MWord) : Statement (.stmap w) :=
  fun h _ => readsBack_M 0x51 .stmap w (fun _ _ h _ => op_row h) rfl (rowOk_of h)
theorem stunmap (w : MWord) : Statement (.stunmap w) :=
  fun h _ => readsBack_M 0x52 .stunmap w (fun _ _ h _ => op_row h) rfl (rowOk_of h)
theorem stfl (w : MWord) : Statement (.stfl w) :=
  fun h _ => readsBack_M 0x53 .stfl w (fun _ _ h _ => op_row h) rfl (rowOk_of h)
theorem pref (w : MWord) : Statement (.pref w) :=
  fun h _ => readsBack_M 0x54 .pref w (fun _ _ h _ => op_row h) rfl (rowOk_of h)
theorem kvx (w : MWord) : Statement (.kvx w) :=
  fun h _ => readsBack_M 0x55 .kvx w (fun _ _ h _ => op_row h) rfl (rowOk_of h)
theorem atom (w : MWord) : Statement (.atom w) :=
  fun h _ => readsBack_M 0x56 .atom w (fun _ _ h1 h2 => by
    have hr : (bitOf w.func 5 == false) = true := rowOk_of h
    exact (op_row h1).trans (if_neg (by rw [(h2 5 (by omega)).trans (show bitOf w.func 5 = false from (by simpa using hr))]; exact Bool.false_ne_true))) rfl (rowOk_of h)
theorem atomOrdAdd (w : MWord) : Statement (.atomOrdAdd w) :=
  fun h _ => readsBack_M 0x56 .atomOrdAdd w (fun _ _ h1 h2 => by
    have hr : (w.func == 0x20) = true := rowOk_of h
    exact (op_row h1).trans (if_pos ((h2 5 (by omega)).trans (show bitOf w.func 5 = true from (by rw [beq_of (hr)]; decide))))) rfl (rowOk_of h)
theorem red (w : MWord) : Statement (.red w) :=
  fun h _ => readsBack_M 0x57 .red w (fun _ _ h1 h2 => by
    have hr : (bitOf w.func 5 == false) = true := rowOk_of h
    exact (op_row h1).trans (if_neg (by rw [(h2 5 (by omega)).trans (show bitOf w.func 5 = false from (by simpa using hr))]; exact Bool.false_ne_true))) rfl (rowOk_of h)
theorem redOrd (w : MWord) : Statement (.redOrd w) :=
  fun h _ => readsBack_M 0x57 .redOrd w (fun _ _ h1 h2 => by
    have hr : (bitOf w.func 5 && bitOf w.func 4 == false && bitsOf w.func 0 3 == 0) = true := rowOk_of h
    exact (op_row h1).trans (if_pos ((h2 5 (by omega)).trans (show bitOf w.func 5 = true from (and_l (and_l hr)))))) rfl (rowOk_of h)
theorem append (w : MWord) : Statement (.append w) :=
  fun h _ => readsBack_M 0x58 .append w (fun _ _ h1 h2 => by
    have hr : (w.func == 0) = true := rowOk_of h
    exact (op_row h1).trans (if_neg (by rw [(h2 0 (by omega)).trans (show bitOf w.func 0 = false from (by rw [beq_of (hr)]; decide))]; exact Bool.false_ne_true))) rfl (rowOk_of h)
theorem appendDecl (w : MWord) : Statement (.appendDecl w) :=
  fun h _ => readsBack_M 0x58 .appendDecl w (fun _ _ h1 h2 => by
    have hr : (w.d == 0 && w.func == 1) = true := rowOk_of h
    exact (op_row h1).trans (if_pos ((h2 0 (by omega)).trans (show bitOf w.func 0 = true from (by rw [beq_of (and_r hr)]; decide))))) rfl (rowOk_of h)
theorem eflush (w : MWord) : Statement (.eflush w) :=
  fun h _ => readsBack_M 0x59 .eflush w (fun _ _ h _ => op_row h) rfl (rowOk_of h)
theorem fence (w : MWord) : Statement (.fence w) :=
  fun h _ => readsBack_M 0x5A .fence w (fun _ _ h _ => op_row h) rfl (rowOk_of h)
theorem barSync (w : MWord) : Statement (.barSync w) :=
  fun h _ => readsBack_M 0x5B .barSync w (fun _ _ h1 h2 => by
    have hr : (w.base == 0 && w.func == 0) = true := rowOk_of h
    exact (op_row h1).trans ((if_neg (by rw [(h2 1 (by omega)).trans (show bitOf w.func 1 = false from (by rw [beq_of (and_r hr)]; decide))]; exact Bool.false_ne_true)).trans (if_neg (by rw [(h2 0 (by omega)).trans (show bitOf w.func 0 = false from (by rw [beq_of (and_r hr)]; decide))]; exact Bool.false_ne_true)))) rfl (rowOk_of h)
theorem barArrive (w : MWord) : Statement (.barArrive w) :=
  fun h _ => readsBack_M 0x5B .barArrive w (fun _ _ h1 h2 => by
    have hr : (w.base == 0 && w.func == 1) = true := rowOk_of h
    exact (op_row h1).trans ((if_neg (by rw [(h2 1 (by omega)).trans (show bitOf w.func 1 = false from (by rw [beq_of (and_r hr)]; decide))]; exact Bool.false_ne_true)).trans (if_pos ((h2 0 (by omega)).trans (show bitOf w.func 0 = true from (by rw [beq_of (and_r hr)]; decide)))))) rfl (rowOk_of h)
theorem barWait (w : MWord) : Statement (.barWait w) :=
  fun h _ => readsBack_M 0x5B .barWait w (fun _ _ h1 h2 => by
    have hr : (w.base == 0 && w.index == 0 && w.func == 2) = true := rowOk_of h
    exact (op_row h1).trans (if_pos ((h2 1 (by omega)).trans (show bitOf w.func 1 = true from (by rw [beq_of (and_r hr)]; decide))))) rfl (rowOk_of h)
theorem pbarArrive (w : MWord) : Statement (.pbarArrive w) :=
  fun h _ => readsBack_M 0x5C .pbarArrive w (fun _ _ h1 h2 => by
    have hr : (w.index == 0 && w.func == 0) = true := rowOk_of h
    exact (op_row h1).trans (if_neg (by rw [(h2 1 (by omega)).trans (show bitOf w.func 1 = false from (by rw [beq_of (and_r hr)]; decide))]; exact Bool.false_ne_true))) rfl (rowOk_of h)
theorem pbarWait (w : MWord) : Statement (.pbarWait w) :=
  fun h _ => readsBack_M 0x5C .pbarWait w (fun _ _ h1 h2 => by
    have hr : (w.index == 0 && bitsOf w.func 1 5 == 1) = true := rowOk_of h
    exact (op_row h1).trans (if_pos ((h2 1 (by omega)).trans (show bitOf w.func 1 = true from ((bit_of_bits (beq_of (and_r hr)) (by decide)).trans rfl))))) rfl (rowOk_of h)
theorem monwait (w : MWord) : Statement (.monwait w) :=
  fun h _ => readsBack_M 0x5D .monwait w (fun _ _ h _ => op_row h) rfl (rowOk_of h)
theorem monwake (w : MWord) : Statement (.monwake w) :=
  fun h _ => readsBack_M 0x5E .monwake w (fun _ _ h _ => op_row h) rfl (rowOk_of h)
theorem drain (w : MWord) : Statement (.drain w) :=
  fun h _ => readsBack_M 0x5F .drain w (fun _ _ h _ => op_row h) rfl (rowOk_of h)
theorem bcmp (w : AWord) : Statement (.bcmp w) :=
  fun h _ => readsBack_A .opt 0x60 .bcmp w (fun _ _ => op_row) rfl (rowOk_of h) rfl
theorem bfind (w : AWord) : Statement (.bfind w) :=
  fun h _ => readsBack_A .opt 0x61 .bfind w (fun _ _ => op_row) rfl (rowOk_of h) rfl
theorem bperm (w : AWord) : Statement (.bperm w) :=
  fun h _ => readsBack_A .opt 0x62 .bperm w (fun _ _ => op_row) rfl (rowOk_of h) rfl
theorem hcrc (w : AWord) : Statement (.hcrc w) :=
  fun h _ => readsBack_A .opt 0x63 .hcrc w (fun _ _ => op_row) rfl (rowOk_of h) rfl
theorem hmix (w : AWord) : Statement (.hmix w) :=
  fun h _ => readsBack_A .never 0x64 .hmix w (fun _ _ => op_row) rfl (rowOk_of h) (and_r (rowOk_of h :))
theorem acstep (w : AWord) : Statement (.acstep w) :=
  fun h _ => readsBack_A .opt 0x65 .acstep w (fun _ _ => op_row) rfl (rowOk_of h) rfl
theorem ckpack (w : KWord) : Statement (.ckpack w) :=
  fun h _ => readsBack_K 0x67 .ckpack w (fun _ _ => op_row) rfl (rowOk_of h)
theorem ckunpk (w : KWord) : Statement (.ckunpk w) :=
  fun h _ => readsBack_K 0x68 .ckunpk w (fun _ _ => op_row) rfl (rowOk_of h)
theorem ckadd (w : KWord) : Statement (.ckadd w) :=
  fun h _ => readsBack_K 0x69 .ckadd w (fun _ _ => op_row) rfl (rowOk_of h)
theorem cksub (w : KWord) : Statement (.cksub w) :=
  fun h _ => readsBack_K 0x6A .cksub w (fun _ _ => op_row) rfl (rowOk_of h)
theorem ckcmp (w : KWord) : Statement (.ckcmp w) :=
  fun h _ => readsBack_K 0x6B .ckcmp w (fun _ _ => op_row) rfl (rowOk_of h)
theorem ckbox (w : KWord) : Statement (.ckbox w) :=
  fun h _ => readsBack_K 0x6C .ckbox w (fun _ _ => op_row) rfl (rowOk_of h)
theorem cknext (w : KWord) : Statement (.cknext w) :=
  fun h _ => readsBack_K 0x6D .cknext w (fun _ _ => op_row) rfl (rowOk_of h)
theorem ckprev (w : KWord) : Statement (.ckprev w) :=
  fun h _ => readsBack_K 0x6E .ckprev w (fun _ _ => op_row) rfl (rowOk_of h)
theorem cksplit (w : KWord) : Statement (.cksplit w) :=
  fun h _ => readsBack_K 0x6F .cksplit w (fun _ _ => op_row) rfl (rowOk_of h)
theorem cklvl (w : KWord) : Statement (.cklvl w) :=
  fun h _ => readsBack_K 0x70 .cklvl w (fun _ _ => op_row) rfl (rowOk_of h)
theorem wkset (w : MWord) : Statement (.wkset w) :=
  fun h _ => readsBack_M 0x71 .wkset w (fun _ _ h1 h2 => by
    have hr : (w.d == 0 && bitsOf w.func 2 4 == 0) = true := rowOk_of h
    exact (op_row h1).trans (if_neg (by rw [(h2 2 (by omega)).trans (show bitOf w.func 2 = false from ((bit_of_bits (beq_of (and_r hr)) (by decide)).trans rfl))]; exact Bool.false_ne_true))) rfl (rowOk_of h)
theorem wksetImg (w : MWord) : Statement (.wksetImg w) :=
  fun h _ => readsBack_M 0x71 .wksetImg w (fun _ _ h1 h2 => by
    have hr : (bitsOf w.func 2 4 == 1) = true := rowOk_of h
    exact (op_row h1).trans (if_pos ((h2 2 (by omega)).trans (show bitOf w.func 2 = true from ((bit_of_bits (beq_of (hr)) (by decide)).trans rfl))))) rfl (rowOk_of h)
theorem wkadd (w : MWord) : Statement (.wkadd w) :=
  fun h _ => readsBack_M 0x72 .wkadd w (fun _ _ h _ => op_row h) rfl (rowOk_of h)
theorem wknext (w : MWord) : Statement (.wknext w) :=
  fun h _ => readsBack_M 0x73 .wknext w (fun _ _ h _ => op_row h) rfl (rowOk_of h)
theorem wkdone (w : MWord) : Statement (.wkdone w) :=
  fun h _ => readsBack_M 0x74 .wkdone w (fun _ _ h _ => op_row h) rfl (rowOk_of h)
theorem wkres (w : MWord) : Statement (.wkres w) :=
  fun h _ => readsBack_M 0x75 .wkres w (fun _ _ h _ => op_row h) rfl (rowOk_of h)
theorem wkmap (w : MWord) : Statement (.wkmap w) :=
  fun h _ => readsBack_M 0x76 .wkmap w (fun _ _ h _ => op_row h) rfl (rowOk_of h)
theorem wkstat (w : MWord) : Statement (.wkstat w) :=
  fun h _ => readsBack_M 0x77 .wkstat w (fun _ _ h1 h2 => by
    have hr : (w.d == 0 && bitsOf w.func 2 4 == 0) = true := rowOk_of h
    exact (op_row h1).trans (if_neg (by rw [(h2 2 (by omega)).trans (show bitOf w.func 2 = false from ((bit_of_bits (beq_of (and_r hr)) (by decide)).trans rfl))]; exact Bool.false_ne_true))) rfl (rowOk_of h)
theorem wkstatImg (w : MWord) : Statement (.wkstatImg w) :=
  fun h _ => readsBack_M 0x77 .wkstatImg w (fun _ _ h1 h2 => by
    have hr : (bitsOf w.func 2 4 == 1) = true := rowOk_of h
    exact (op_row h1).trans (if_pos ((h2 2 (by omega)).trans (show bitOf w.func 2 = true from ((bit_of_bits (beq_of (hr)) (by decide)).trans rfl))))) rfl (rowOk_of h)
theorem minit (w : QWord) : Statement (.minit w) :=
  fun h _ => readsBack_Q 0 .minit w (fun _ _ => q_row) rfl (rowOk_of h)
theorem mtile (w : QWord) : Statement (.mtile w) :=
  fun h _ => readsBack_Q 1 .mtile w (fun _ _ => q_row) rfl (rowOk_of h)
theorem mma (w : QWord) : Statement (.mma w) :=
  fun h _ => readsBack_Q 2 .mma w (fun _ _ => q_row) rfl (rowOk_of h)
theorem crmm (w : QWord) : Statement (.crmm w) :=
  fun h _ => readsBack_Q 3 .crmm w (fun _ _ => q_row) rfl (rowOk_of h)
theorem mwait (w : QWord) : Statement (.mwait w) :=
  fun h _ => readsBack_Q 4 .mwait w (fun _ _ => q_row) rfl (rowOk_of h)
theorem mdrain (w : QWord) : Statement (.mdrain w) :=
  fun h _ => readsBack_Q 5 .mdrain w (fun _ _ => q_row) rfl (rowOk_of h)
theorem mload (w : QWord) : Statement (.mload w) :=
  fun h _ => readsBack_Q 6 .mload w (fun _ _ => q_row) rfl (rowOk_of h)
theorem crdrain (w : QWord) : Statement (.crdrain w) :=
  fun h _ => readsBack_Q 7 .crdrain w (fun _ _ => q_row) rfl (rowOk_of h)
theorem crload (w : QWord) : Statement (.crload w) :=
  fun h _ => readsBack_Q 8 .crload w (fun _ _ => q_row) rfl (rowOk_of h)
theorem crmerge (w : QWord) : Statement (.crmerge w) :=
  fun h _ => readsBack_Q 9 .crmerge w (fun _ _ => q_row) rfl (rowOk_of h)
theorem crstat (w : QWord) : Statement (.crstat w) :=
  fun h _ => readsBack_Q 10 .crstat w (fun _ _ => q_row) rfl (rowOk_of h)
theorem csrr (w : YWord) : Statement (.csrr w) :=
  fun h _ => readsBack_Y 0 .csrr w (fun _ _ h1 h2 _ => y_row h1 h2) rfl (rowOk_of h)
/-- Code 0 is WAYPART, whose row is `csrwWaypart`. -/
theorem csrw (w : YWord) : Statement (.csrw w) :=
  fun h _ => readsBack_Y 1 .csrw w (fun _ _ h1 h2 h3 => (y_row h1 h2).trans (if_neg (by
    have hl : 1 ≤ w.imm.toNat := of_decide_eq_true (and_l (and_r h :))
    rw [h3]; intro hz; rw [beq_of hz] at hl; exact absurd hl (by decide)))) rfl (rowOk_of h)
theorem csrwWaypart (w : YWord) : Statement (.csrwWaypart w) :=
  fun h _ => readsBack_Y 1 .csrwWaypart w (fun _ _ h1 h2 h3 => (y_row h1 h2).trans (if_pos (by rw [h3]; exact (rowOk_of h :)))) rfl (rowOk_of h)
theorem tret (w : YWord) : Statement (.tret w) :=
  fun h _ => readsBack_Y 2 .tret w (fun _ _ h1 h2 _ => y_row h1 h2) rfl (rowOk_of h)
theorem tlbinv (w : YWord) : Statement (.tlbinv w) :=
  fun h _ => readsBack_Y 3 .tlbinv w (fun _ _ h1 h2 _ => y_row h1 h2) rfl (rowOk_of h)
theorem cacheopAlloc (w : YWord) : Statement (.cacheopAlloc w) :=
  fun h _ => readsBack_Y 4 .cacheopAlloc w (fun _ _ h1 h2 h3 => c_row h1 h2 (h3.trans (beq_of (rowOk_of h :)))) rfl (rowOk_of h)
theorem cacheopWb (w : YWord) : Statement (.cacheopWb w) :=
  fun h _ => readsBack_Y 4 .cacheopWb w (fun _ _ h1 h2 h3 => c_row h1 h2 (h3.trans (beq_of (rowOk_of h :)))) rfl (rowOk_of h)
theorem cacheopInv (w : YWord) : Statement (.cacheopInv w) :=
  fun h _ => readsBack_Y 4 .cacheopInv w (fun _ _ h1 h2 h3 => c_row h1 h2 (h3.trans (beq_of (rowOk_of h :)))) rfl (rowOk_of h)
theorem cacheopWbinv (w : YWord) : Statement (.cacheopWbinv w) :=
  fun h _ => readsBack_Y 4 .cacheopWbinv w (fun _ _ h1 h2 h3 => c_row h1 h2 (h3.trans (beq_of (rowOk_of h :)))) rfl (rowOk_of h)
theorem cacheopWbWay (w : YWord) : Statement (.cacheopWbWay w) :=
  fun h _ => readsBack_Y 4 .cacheopWbWay w (fun _ _ h1 h2 h3 => c_row h1 h2 (h3.trans (beq_of (rowOk_of h :)))) rfl (rowOk_of h)
theorem cacheopInvWay (w : YWord) : Statement (.cacheopInvWay w) :=
  fun h _ => readsBack_Y 4 .cacheopInvWay w (fun _ _ h1 h2 h3 => c_row h1 h2 (h3.trans (beq_of (rowOk_of h :)))) rfl (rowOk_of h)
theorem cacheopWbinvWay (w : YWord) : Statement (.cacheopWbinvWay w) :=
  fun h _ => readsBack_Y 4 .cacheopWbinvWay w (fun _ _ h1 h2 h3 => c_row h1 h2 (h3.trans (beq_of (rowOk_of h :)))) rfl (rowOk_of h)
theorem launch (w : YWord) : Statement (.launch w) :=
  fun h _ => readsBack_Y 5 .launch w (fun _ _ h1 h2 _ => y_row h1 h2) rfl (rowOk_of h)
theorem idle (w : YWord) : Statement (.idle w) :=
  fun h _ => readsBack_Y 6 .idle w (fun _ _ h1 h2 _ => y_row h1 h2) rfl (rowOk_of h)
theorem halt (w : YWord) : Statement (.halt w) :=
  fun h _ => readsBack_Y 7 .halt w (fun _ _ h1 h2 _ => y_row h1 h2) rfl (rowOk_of h)
theorem mfreeze (w : YWord) : Statement (.mfreeze w) :=
  fun h _ => readsBack_Y 8 .mfreeze w (fun _ _ h1 h2 _ => y_row h1 h2) rfl (rowOk_of h)
theorem mthaw (w : YWord) : Statement (.mthaw w) :=
  fun h _ => readsBack_Y 9 .mthaw w (fun _ _ h1 h2 _ => y_row h1 h2) rfl (rowOk_of h)
theorem registerFill (k : Nat) : Statement (.registerFill k) := noWords rfl
theorem queueEntryFill (k : Nat) : Statement (.queueEntryFill k) := noWords rfl
theorem faultResolved (k : Nat) (cells : List Host.Cell) : Statement (.faultResolved k cells) := noWords rfl
theorem faultRefused (k : Nat) : Statement (.faultRefused k) := noWords rfl
theorem swap (core pos : Nat) : Statement (.swap core pos) := noWords rfl
theorem swapTransferDone (core : Nat) : Statement (.swapTransferDone core) := noWords rfl
theorem admission (die : Nat) : Statement (.admission die) := noWords rfl
theorem dependencyMet (ctx : Nat) : Statement (.dependencyMet ctx) := noWords rfl
theorem blockPlacement (ctx : Nat) : Statement (.blockPlacement ctx) := noWords rfl
theorem yelmFormerPlace (blk : Nat) : Statement (.yelmFormerPlace blk) := noWords rfl
theorem formtoFlush (blk i : Nat) : Statement (.formtoFlush blk i) := noWords rfl
theorem crestReadsComplete (core x : Nat) : Statement (.crestReadsComplete core x) := noWords rfl
theorem crestTile (core x : Nat) : Statement (.crestTile core x) := noWords rfl
theorem crestComplete (core x : Nat) : Statement (.crestComplete core x) := noWords rfl
theorem drainTakesEffect (core x : Nat) : Statement (.drainTakesEffect core x) := noWords rfl
theorem freezeStop (core x : Nat) : Statement (.freezeStop core x) := noWords rfl
theorem walkerWaitEnd (core slot : Nat) : Statement (.walkerWaitEnd core slot) := noWords rfl
theorem prefetchComplete (k : Nat) (failed : Bool) : Statement (.prefetchComplete k failed) := noWords rfl
theorem pointForcedByTime (core slot i : Nat) : Statement (.pointForcedByTime core slot i) := noWords rfl
theorem copyComplete (k : Nat) (ecc : Bool) : Statement (.copyComplete k ecc) := noWords rfl
theorem monitorWake (k : Nat) : Statement (.monitorWake k) := noWords rfl
theorem monwaitPollTimeout (k : Nat) : Statement (.monwaitPollTimeout k) := noWords rfl
theorem idleTimeout (k : Nat) : Statement (.idleTimeout k) := noWords rfl
theorem flush (ctx : Nat) : Statement (.flush ctx) := noWords rfl
theorem turn (ctx i : Nat) : Statement (.turn ctx i) := noWords rfl
theorem launchComplete (ctx : Nat) : Statement (.launchComplete ctx) := noWords rfl
theorem sliceExpiry (ctx : Nat) : Statement (.sliceExpiry ctx) := noWords rfl
theorem pdrainExpiry (ctx : Nat) : Statement (.pdrainExpiry ctx) := noWords rfl
theorem coreImageDone (ctx core : Nat) : Statement (.coreImageDone ctx core) := noWords rfl
theorem psaveExpiry (ctx : Nat) : Statement (.psaveExpiry ctx) := noWords rfl
theorem maintAdmit (r : Req) : Statement (.maintAdmit r) := noWords rfl
theorem maintReadLog (r : Req) : Statement (.maintReadLog r) := noWords rfl
theorem maintFenceMap (r : Req) : Statement (.maintFenceMap r) := noWords rfl
theorem mgmtSetCap (r : Req) : Statement (.mgmtSetCap r) := noWords rfl
theorem mgmtReadPower (r : Req) : Statement (.mgmtReadPower r) := noWords rfl
theorem mgmtPreempt (r : Req) : Statement (.mgmtPreempt r) := noWords rfl
theorem mgmtRestore (r : Req) : Statement (.mgmtRestore r) := noWords rfl
theorem debugAttach (r : Req) : Statement (.debugAttach r) := noWords rfl
theorem debugDetach (r : Req) : Statement (.debugDetach r) := noWords rfl
theorem debugStopRequest (r : Req) : Statement (.debugStopRequest r) := noWords rfl
theorem debugStep (r : Req) : Statement (.debugStep r) := noWords rfl
theorem debugResume (r : Req) : Statement (.debugResume r) := noWords rfl
theorem debugRead (r : Req) : Statement (.debugRead r) := noWords rfl
theorem debugWrite (r : Req) : Statement (.debugWrite r) := noWords rfl
theorem debugCoreStop (r : Req) : Statement (.debugCoreStop r) := noWords rfl
theorem frontRequest (i : Nat) : Statement (.frontRequest i) := noWords rfl
theorem attestationRequest (nonce : BitVec 256) : Statement (.attestationRequest nonce) := noWords rfl
theorem powerGood (mgmt heotte : Option BootImage) (failed : List Piece) : Statement (.powerGood mgmt heotte failed) := noWords rfl
theorem errorDetected (u : Piece) (e : ErrorFound) : Statement (.errorDetected u e) := noWords rfl
theorem selfTestDone (u : Piece) (passed : Bool) : Statement (.selfTestDone u passed) := noWords rfl
theorem powerOverCap : Statement .powerOverCap := noWords rfl
theorem junction100c (die : Nat) : Statement (.junction100c die) := noWords rfl
theorem junction110c (die : Nat) : Statement (.junction110c die) := noWords rfl
theorem dram85c (die : Nat) : Statement (.dram85c die) := noWords rfl
theorem dramBelow80c (die : Nat) : Statement (.dramBelow80c die) := noWords rfl
theorem remoteLoadRequest (m : RemoteReq) : Statement (.remoteLoadRequest m) := noWords rfl
theorem loadReply (k : Nat) (bytes : List Byte) : Statement (.loadReply k bytes) := noWords rfl
theorem remoteStore (m : RemoteReq) : Statement (.remoteStore m) := noWords rfl
theorem storeAcknowledgement (k : Nat) : Statement (.storeAcknowledgement k) := noWords rfl
theorem remoteAtomic (m : RemoteReq) : Statement (.remoteAtomic m) := noWords rfl
theorem atomicReply (k : Nat) (data : Option DWord) : Statement (.atomicReply k data) := noWords rfl
theorem copyData (m : CopyFlit) (addr size : Nat) (bytes : List Byte) : Statement (.copyData m addr size bytes) := noWords rfl
theorem startBarrier (src : BitVec 12) (gen : DWord) : Statement (.startBarrier src gen) := noWords rfl
theorem reductionLoadRequest (m : RemoteReq) : Statement (.reductionLoadRequest m) := noWords rfl
theorem reductionReply (k : Nat) (src : BitVec 12) (data : Option DWord) : Statement (.reductionReply k src data) := noWords rfl
theorem drainSweep (ctx : Nat) (src : BitVec 12) (phase sweep sent received : DWord) (op : BitVec 2) : Statement (.drainSweep ctx src phase sweep sent received op) := noWords rfl
theorem launchPacketReplication (src : BitVec 12) (x : ReplicaOf) (va : DWord) (packet : List Byte) :
    Statement (.launchPacketReplication src x va packet) := noWords rfl
theorem linkControl (port : Nat) : Statement (.linkControl port) := noWords rfl
theorem reservedFlit (port : Nat) (cls : BitVec 4) : Statement (.reservedFlit port cls) := noWords rfl
theorem messageFailure (k : Nat) : Statement (.messageFailure k) := noWords rfl
theorem replicationTimeout (ctx : Nat) : Statement (.replicationTimeout ctx) := noWords rfl
theorem hostDeviceAccess (write : Bool) (addr size : Nat) (bytes : List Byte) : Statement (.hostDeviceAccess write addr size bytes) := noWords rfl
theorem backInvalidateResponse (line : Nat) : Statement (.backInvalidateResponse line) := noWords rfl
theorem hostSnoop (line : Nat) (write : Bool) : Statement (.hostSnoop line write) := noWords rfl
theorem pageMigration (src dst size : Nat) (cells : List Host.Cell) : Statement (.pageMigration src dst size cells) := noWords rfl
theorem memoryFormComplete (core x : Nat) : Statement (.memoryFormComplete core x) := noWords rfl
theorem neighbourLinkTraining (port : Nat) (n : Neighbour) : Statement (.neighbourLinkTraining port n) := noWords rfl
theorem serviceBlockAddressWrite (i : Nat) (addr : DWord) : Statement (.serviceBlockAddressWrite i addr) := noWords rfl
theorem powerOff : Statement .powerOff := noWords rfl

end Sys2Proof.Laws.RoundTrip
end

