-- ==== Sys2Proof/Certificates/Slice0/Obligations.lean ====
section
/-! DEFINITION. The statements of this model. -/

section

open Sys2Proof Sys2Proof.Machine

/-- R141: sums, differences, products, their high halves, extremes, absolute values and negations, modulo 2^w in each
element, signed for the signed types where that matters; `mad` adds d. -/
def Obligations.IntegerArithmeticWritesEachElement : Prop :=
  IntegerWord .add (fun _ _ a b _ => a + b) ∧
  IntegerWord .sub (fun _ _ a b _ => a - b) ∧
  IntegerWord .mul (fun _ _ a b _ => a * b) ∧
  IntegerWord .mulhi (fun t n a b _ =>
    (if signedT t then a.signExtend (2 * n) * b.signExtend (2 * n) else a.setWidth (2 * n) * b.setWidth (2 * n)).extractLsb' n n) ∧
  IntegerWord .mad (fun _ _ a b d => a * b + d) ∧
  IntegerWord .min (fun t _ a b _ => if below (signedT t) b a then b else a) ∧
  IntegerWord .max (fun t _ a b _ => if below (signedT t) a b then b else a) ∧
  IntegerWord .abs (fun _ _ a _ _ => if a.msb then -a else a) ∧
  IntegerWord .neg (fun _ _ a _ _ => -a)

/-- R141 and R142: the bitwise words; shifts by the unsigned count of the element, of which a count of the width or more
leaves zeros, or the sign; rotation by the count modulo the width. -/
def Obligations.LogicalAndShiftWordsWriteEachElement : Prop :=
  IntegerWord .and (fun _ _ a b _ => a &&& b) ∧
  IntegerWord .or (fun _ _ a b _ => a ||| b) ∧
  IntegerWord .xor (fun _ _ a b _ => a ^^^ b) ∧
  IntegerWord .not (fun _ _ a _ _ => ~~~a) ∧
  IntegerWord .shl (fun _ _ a b _ => a <<< b.toNat) ∧
  IntegerWord .shr (fun _ _ a b _ => a >>> b.toNat) ∧
  IntegerWord .sra (fun _ _ a b _ => a.sshiftRight b.toNat) ∧
  IntegerWord .rot (fun _ _ a b _ => a.rotateLeft b.toNat)

/-- R142: `bfx` takes the field of b's low byte as position and b's second byte as length, limited to the width, with its sign
for the signed types; `bfi` replaces that field of d by the low bits of a; `popc`, `clz` and `ctz` count bits. -/
def Obligations.BitFieldWordsWriteEachElement : Prop :=
  IntegerWord .bfx (fun t n a b _ =>
    let f := (a >>> (b.toNat % 256)).extractLsb' 0 (min (b.toNat / 256 % 256) n)
    if signedT t then f.signExtend n else f.setWidth n) ∧
  IntegerWord .bfi (fun _ n a b d =>
    let m := (BitVec.allOnes (min (b.toNat / 256 % 256) n)).setWidth n <<< (b.toNat % 256)
    (d &&& ~~~m) ||| (a <<< (b.toNat % 256) &&& m)) ∧
  IntegerWord .popc (fun _ n a _ _ => BitVec.ofNat n ((List.range n).countP (fun i => a.getLsbD i))) ∧
  IntegerWord .clz (fun _ _ a _ _ => a.clz) ∧
  IntegerWord .ctz (fun _ _ a _ _ => a.ctz)

/-- R143 and R144: `cmp` writes the comparison of the elements 0 to a predicate; `sel` writes a or b, as predicate t of the
lane says, as 32 bits in each lane or 64 bits in the uniform form. A packed type, and a condition code of 6 or 7,
raise ILLEGAL in `cmp`. -/
def Obligations.CompareAndSelectWriteTheirResults : Prop :=
  (∀ (s : State) (x : Issue) (w : AWord), s.iss = some x → (2 ≤ w.t.toNat ∧ w.t.toNat ≤ 5) ∨ 6 ≤ w.cnd.toNat →
    exec (.cmp w) s = .next (s.trapped x .illegal none 0)) ∧
  (∀ (s : State) (x : Issue) (w : AWord), Ready s x (.cmp w) → GangOk s x → (s.dev.view x.agent).regsWf = true →
    let n := elemWidth w.t
    let a := w.aVal x.view (s.dev.view x.agent) (wideT w.t)
    let b := w.bVal (intImm w.t) x.view (s.dev.view x.agent) (wideT w.t)
    ∃ t, exec (.cmp w) s = .next t ∧
      WroteP s t x w.pDst.toNat (fun l =>
        let l := if w.u then x.lead else l
        compares w.cnd (signedT w.t) (element n (a l) 0) (element n (b l) 0)) 0) ∧
  (∀ (s : State) (x : Issue) (w : AWord), Ready s x (.sel w) → GangOk s x → (s.dev.view x.agent).regsWf = true →
    let v := fun l => if x.view.pAt w.t.toNat l then w.aVal x.view (s.dev.view x.agent) false l
      else w.bVal zext x.view (s.dev.view x.agent) false l
    ∃ t, exec (.sel w) s = .next t ∧
      (w.u = false → WroteLanes s t x w.d.toNat false v 0) ∧
      (w.u = true → WroteS s t x w.d.toNat (v x.lead) 0))

/-- R262: the rounding helper, for every format and mode and every exact value. A NaN gives the canonical NaN without a flag;
an infinity gives itself, or the largest finite value with overflow and inexact where there are no infinities; a zero gives the
zero of its sign; any other value gives the grid point that the mode chooses, or what an overflow gives, with its flags. -/
def Obligations.RoundingHelperFollowsItsRule : Prop :=
  ∀ f ∈ [FFmt.f32, FFmt.f16, FFmt.bf16, FFmt.e5m2, FFmt.e4m3], ∀ (mode : RMode) (x : FVal),
    match x with
    | .nan _ => f.rnd mode x = (f.nan, 0)
    | .inf neg => f.rnd mode x = if f.noInf then (f.maxFin neg, fOverflow ||| fInexact) else (f.inf neg, 0)
    | .fin neg m e =>
      if m = 0 then f.rnd mode x = (f.zero neg, 0) else f.Rounded mode neg ((m * 2 ^ e : ℚ) : ℝ) (f.rnd mode x)

/-- R146, R147 and R153: sums, products, fused products and dot products are formed exactly and rounded once, with NaNs,
infinities, signed zeros, invalid operations and flags as R146 says; in each element of each lane, or once for the gang. -/
def Obligations.FloatSumsAndProductsAreRoundedOnce : Prop :=
  FloatWord .fadd floatImm false (fun t m => PerFloat t (fun f a b _ =>
    f.SumOf m [f.decode a, f.decode b] [f.decode a, f.decode b])) ∧
  FloatWord .fsub floatImm false (fun t m => PerFloat t (fun f a b _ =>
    f.SumOf m [f.decode a, f.decode b] [f.decode a, (f.decode b).neg])) ∧
  FloatWord .fmul floatImm false (fun t m => PerFloat t (fun f a b _ => f.DotOf m [(f.decode a, f.decode b)] [])) ∧
  FloatWord .fma floatImm false (fun t m => PerFloat t (fun f a b d =>
    f.DotOf m [(f.decode a, f.decode b)] [f.decode d])) ∧
  FloatWord .fdot2 floatImm false (fun t m a b d r =>
    let x := fun (v : DWord) i => (floatFmt t).decode (element 16 v i).toNat
    FFmt.f32.DotOf m [(x a 0, x b 0), (x a 1, x b 1)] [FFmt.f32.decode (element 32 d 0).toNat]
      ((element 32 r.1 0).toNat, r.2) ∧ bitsOf r.1 32 32 = 0)

/-- R147 to R150: `fmin` and `fmax` give an operand, with -0 below +0 and a number before a NaN; `fneg` and `fabs` invert and
clear the sign bit; `fclass` sets the one bit of the operand's class. Invalid is set by a signalling NaN in `fmin` and `fmax`,
and no other flag is. -/
def Obligations.FloatSelectionsSignsAndClasses : Prop :=
  FloatWord .fmin floatImm false (fun t _ => PerFloat t (fun f a b _ r =>
    let x := f.decode a
    let y := f.decode b
    r.2 = (if x = .nan true ∨ y = .nan true then fInvalid else 0) ∧
    if x.isNan ∧ y.isNan then r.1 = f.nan
    else if x.isNan then r.1 = b
    else if y.isNan then r.1 = a
    else (y.Less x ∨ (¬ x.Less y ∧ y.isNeg = true ∧ x.isNeg = false) → r.1 = b) ∧
      (¬ (y.Less x ∨ (¬ x.Less y ∧ y.isNeg = true ∧ x.isNeg = false)) → r.1 = a))) ∧
  FloatWord .fmax floatImm false (fun t _ => PerFloat t (fun f a b _ r =>
    let x := f.decode a
    let y := f.decode b
    r.2 = (if x = .nan true ∨ y = .nan true then fInvalid else 0) ∧
    if x.isNan ∧ y.isNan then r.1 = f.nan
    else if x.isNan then r.1 = b
    else if y.isNan then r.1 = a
    else (x.Less y ∨ (¬ y.Less x ∧ x.isNeg = true ∧ y.isNeg = false) → r.1 = b) ∧
      (¬ (x.Less y ∨ (¬ y.Less x ∧ x.isNeg = true ∧ y.isNeg = false)) → r.1 = a))) ∧
  FloatWord .fneg floatImm false (fun t _ => PerFloat t (fun f a _ _ r =>
    r.2 = 0 ∧ ∀ i, r.1.testBit i = if i = f.ebits + f.fbits then !a.testBit i else a.testBit i)) ∧
  FloatWord .fabs floatImm false (fun t _ => PerFloat t (fun f a _ _ r =>
    r.2 = 0 ∧ ∀ i, r.1.testBit i = if i = f.ebits + f.fbits then false else a.testBit i)) ∧
  FloatWord .fclass floatImm false (fun t _ => PerFloat t (fun f a _ _ r =>
    r.2 = 0 ∧ r.1 = match f.decode a with
      | .nan true => 2 ^ 0
      | .nan false => 2 ^ 1
      | .inf true => 2 ^ 2
      | .inf false => 2 ^ 9
      | .fin true m _ => if m = 0 then 2 ^ 5 else if m < 2 ^ f.fbits then 2 ^ 4 else 2 ^ 3
      | .fin false m _ => if m = 0 then 2 ^ 6 else if m < 2 ^ f.fbits then 2 ^ 7 else 2 ^ 8))

/-- R149: `fcmp` writes whether the condition holds, with -0 equal to +0, only `ne` and `un` holding with a NaN. A signalling
NaN sets invalid under every condition, a quiet one under `lt`, `le`, `gt` and `ge`. A type other
than f32 raises ILLEGAL. -/
def Obligations.FloatComparisonFollowsItsTable : Prop :=
  (∀ (s : State) (x : Issue) (w : AWord), s.iss = some x → w.t ≠ 0 → exec (.fcmp w) s = .next (s.trapped x .illegal none 0)) ∧
  ∀ (s : State) (x : Issue) (w : AWord), Ready s x (.fcmp w) → GangOk s x → (s.dev.view x.agent).regsWf = true →
    let at' := fun l => if w.u then x.lead else l
    let a := fun l => FFmt.f32.decode (element 32 (w.aVal x.view (s.dev.view x.agent) false (at' l)) 0).toNat
    let b := fun l => FFmt.f32.decode (element 32 (w.bVal (floatImm w.t) x.view (s.dev.view x.agent) false (at' l)) 0).toNat
    ∃ t, ∃ v : Nat → Bool × Flags, exec (.fcmp w) s = .next t ∧
      WroteP s t x w.pDst.toNat (fun l => (v l).1) (x.act.foldl (fun m l => m ||| (v l).2) 0) ∧
      ∀ l ∈ x.act,
        let un := (a l).isNan = true ∨ (b l).isNan = true
        ((v l).1 = true ↔ match w.cnd.toNat with
          | 0 => ¬ un ∧ ¬ (a l).Less (b l) ∧ ¬ (b l).Less (a l)
          | 1 => un ∨ (a l).Less (b l) ∨ (b l).Less (a l)
          | 2 => (a l).Less (b l)
          | 3 => ¬ un ∧ ¬ (b l).Less (a l)
          | 4 => (b l).Less (a l)
          | 5 => ¬ un ∧ ¬ (a l).Less (b l)
          | _ => un) ∧
        (v l).2 = if a l = .nan true ∨ b l = .nan true ∨ (un ∧ 2 ≤ w.cnd.toNat ∧ w.cnd.toNat ≤ 5) then fInvalid else 0

/-- R151, R152 and R154: `fscale` multiplies by a power of two with one rounding; `frnd` gives an integral value of the format
and never sets inexact; `fpack` rounds two f32 values to halves, and `funpk` widens two halves exactly. -/
def Obligations.FloatScalingAndPackingWords : Prop :=
  FloatWord .fscale scaleImm false (fun t m => PerFloat t (fun f a b _ r =>
    let c : Int := if t = 1 ∨ t = 2 then (BitVec.ofNat 16 b).toInt else (BitVec.ofNat 32 b).toInt
    match f.decode a with
    | .nan g => r = (f.nan, if g then fInvalid else 0)
    | .inf _ => r = (a, 0)
    | .fin neg n e => if n = 0 then r = (a, 0) else f.Rounded m neg ((n * 2 ^ (e + c) : ℚ) : ℝ) r)) ∧
  FloatWord .frnd floatImm false (fun t m => PerFloat t (fun f a _ _ r =>
    match f.decode a with
    | .nan g => r = (f.nan, if g then fInvalid else 0)
    | .inf _ => r = (a, 0)
    | .fin neg n e =>
      if n = 0 then r = (a, 0)
      else r.2 = 0 ∧ ∃ k g j, RoundsToInt m neg (n * 2 ^ e) k ∧ f.decode r.1 = .fin neg g j ∧ (g * 2 ^ j : ℚ) = k)) ∧
  FloatWord .fpack (fun _ => floatImm 0) false (fun t m a b _ r =>
    let f := floatFmt t
    let x := fun (v : DWord) => FFmt.f32.decode (element 32 v 0).toNat
    ∃ lo hi, f.SumOf m [x a] [x a] ((element 16 r.1 0).toNat, lo) ∧ f.SumOf m [x b] [x b] ((element 16 r.1 1).toNat, hi) ∧
      r.2 = lo ||| hi ∧ bitsOf r.1 32 32 = 0) ∧
  FloatWord .funpk floatImm true (fun t _ a _ _ r =>
    ∀ i < 2, let x := (floatFmt t).decode (element 16 a i).toNat
      (x.isNan = true → (element 32 r.1 i).toNat = FFmt.f32.nan) ∧
      (∀ neg, x = .inf neg → (element 32 r.1 i).toNat = FFmt.f32.inf neg) ∧
      (∀ neg n e, x = .fin neg n e → ∃ g j, FFmt.f32.decode (element 32 r.1 i).toNat = .fin neg g j ∧
        (g * 2 ^ j : ℚ) = n * 2 ^ e) ∧
      r.2 = if (floatFmt t).decode (element 16 a 0).toNat = .nan true ∨ (floatFmt t).decode (element 16 a 1).toNat = .nan true
        then fInvalid else 0)

/-- R156, R157, R263 and R264: `cvt` between every two classes, in the mode that the word or `fmt` names. -/
def Obligations.ConversionsFollowTheirTable : Prop :=
  ∀ (s : State) (x : Issue) (w : AWord), Ready s x (.cvt w) → GangOk s x → (s.dev.view x.agent).regsWf = true →
    let mode := fun l => if w.cvtMode = 0 then RMode.ofCode (x.fmtAt l).toNat else RMode.ofCode w.cvtMode.toNat
    let a := w.aVal x.view (s.dev.view x.agent) (w.cvtSrc == 6)
    ∃ t, ∃ v : Nat → LaneVal, exec (.cvt w) s = .next t ∧
      (w.u = false → WroteLanes s t x w.d.toNat (w.cvtDst == 6) (fun l => (v l).1) (orFlags (x.lanesWith v)) ∧
        ∀ l ∈ x.act, CvtOf w.cvtDst w.cvtSrc w.cvtUns (mode l) (a l) (v l)) ∧
      (w.u = true → WroteS s t x w.d.toNat
          (if w.cvtDst = 5 ∧ w.cvtUns = false then sext (bitsOf (v x.lead).1 0 32) else (v x.lead).1) (v x.lead).2 ∧
        CvtOf w.cvtDst w.cvtSrc w.cvtUns (mode x.lead) (a x.lead) (v x.lead))

/-- R252 and R279: `frcp`, `fsqrt` and `frsq` are correctly rounded to nearest even for every operand. -/
def Obligations.RootsAndReciprocalsAreCorrectlyRounded : Prop :=
  LaterFloatWord .frcp (fun a r =>
    match FFmt.f32.decode a with
    | .nan sig => r = (FFmt.f32.nan, if sig then fInvalid else 0)
    | .inf neg => r = (FFmt.f32.zero neg, 0)
    | .fin neg n e =>
      if n = 0 then r = (FFmt.f32.inf neg, fDivide) else FFmt.f32.Rounded .rne neg (1 / (n * 2 ^ e)) r) ∧
  LaterFloatWord .fsqrt (fun a r =>
    match FFmt.f32.decode a with
    | .nan sig => r = (FFmt.f32.nan, if sig then fInvalid else 0)
    | .inf neg => r = if neg then (FFmt.f32.nan, fInvalid) else (a, 0)
    | .fin neg n e =>
      if n = 0 then r = (a, 0)
      else if neg then r = (FFmt.f32.nan, fInvalid)
      else FFmt.f32.Rounded .rne false (Real.sqrt (n * 2 ^ e)) r) ∧
  LaterFloatWord .frsq (fun a r =>
    match FFmt.f32.decode a with
    | .nan sig => r = (FFmt.f32.nan, if sig then fInvalid else 0)
    | .inf neg => r = if neg then (FFmt.f32.nan, fInvalid) else (0, 0)
    | .fin neg n e =>
      if n = 0 then r = (FFmt.f32.inf neg, fDivide)
      else if neg then r = (FFmt.f32.nan, fInvalid)
      else FFmt.f32.Rounded .rne false (1 / Real.sqrt (n * 2 ^ e)) r)

/-- R252: `flog2` and `fexp2` at their limits and where they are exact, powers of two and integers; elsewhere the word
completes with the value that the model computes, whose precision is assumption 20 and no rule of the spec. -/
def Obligations.LogarithmAndPowerOfTwoAtLimitsAndExactPoints : Prop :=
  LaterFloatWord .flog2 (fun a r => r = log2f32 a ∧
    match FFmt.f32.decode a with
    | .nan sig => r = (FFmt.f32.nan, if sig then fInvalid else 0)
    | .inf neg => r = if neg then (FFmt.f32.nan, fInvalid) else (a, 0)
    | .fin neg n e =>
      if n = 0 then r = (FFmt.f32.inf true, fDivide)
      else if neg then r = (FFmt.f32.nan, fInvalid)
      else ∀ k : Int, (n * 2 ^ e : ℚ) = 2 ^ k → r.2 = 0 ∧ ∃ g j, FFmt.f32.decode r.1 = .fin (decide (k < 0)) g j ∧
        (g * 2 ^ j : ℚ) = |(k : ℚ)|) ∧
  LaterFloatWord .fexp2 (fun a r => r = exp2f32 a ∧
    match FFmt.f32.decode a with
    | .nan sig => r = (FFmt.f32.nan, if sig then fInvalid else 0)
    | .inf neg => r = if neg then (0, 0) else (a, 0)
    | .fin neg n e => ∀ k : Int, (FVal.fin neg n e).rat = k → FFmt.f32.Rounded .rne false ((2 : ℝ) ^ k) r)

/-- R158 and R257 to R259: `cvtbfp` encodes each block of sixteen lanes at one scale, lanes outside act counting as +0, and
decodes each lane exactly. -/
def Obligations.BlockFloatConversionFollowsItsRule : Prop :=
  ∀ (s : State) (x : Issue) (w : AWord), Ready s x (.cvtbfp w) → GangOk s x → (s.dev.view x.agent).regsWf = true →
    let m := w.t.toNat + 2
    let a := fun l => w.aVal x.view (s.dev.view x.agent) false l
    let X := fun (l i : Nat) =>
      if l / 16 * 16 + i ∈ x.act then FFmt.f32.decode (element 32 (a (l / 16 * 16 + i)) 0).toNat else .fin false 0 0
    ∃ t, ∃ v : Nat → LaneVal, exec (.cvtbfp w) s = .next t ∧
      MarkedLanes s t x w.d.toNat false (fun l => (v l).1) (orFlags (x.lanesWith v)) ∧
      (w.b = 0 → ∀ l ∈ x.act, ∃ E M, BfpOf m (X l) E M (v l).2 ∧
        (v l).1 = BitVec.ofNat 64 (E * 256 + (BitVec.ofInt 8 (M (l % 16))).toNat)) ∧
      (w.b = 1 → ∀ l ∈ x.act,
        let E := (bitsOf (a l) 8 8).toNat
        let M := (bitsOf (a l) 0 m).toInt
        (v l).2 = 0 ∧
        if E = 0xFF then (v l).1 = BitVec.ofNat 64 FFmt.f32.nan
        else (v l).1.toNat < 2 ^ 32 ∧ ∃ g j, FFmt.f32.decode (v l).1.toNat = .fin (decide (M < 0)) g j ∧
          (FVal.fin (decide (M < 0)) g j).rat = M * 2 ^ ((E : Int) - 127 - ((m : Int) - 1)))

/-- R161 and R162: `mov` from a register of the same kind, from a queue, whose value comes by a fill, or from an s register into
every lane of act; `movi` from its payload. -/
def Obligations.MovesWriteTheirSource : Prop :=
  (∀ (s : State) (x : Issue) (w : AWord), Ready s x (.mov w) → GangOk s x → (s.dev.view x.agent).regsWf = true →
    let wide := wideT w.t
    ∃ t, exec (.mov w) s = .next t ∧
      (w.b = 1 → WroteLanes s t x w.d.toNat wide
        (fun _ => if wide then x.view.sAt w.a.toNat else zext (bitsOf (x.view.sAt w.a.toNat) 0 32)) 0) ∧
      (w.b = 0 → w.u = false → w.a.toNat < 56 → WroteLanes s t x w.d.toNat wide (fun l => x.view.laneVal wide w.a.toNat l) 0) ∧
      (w.b = 0 → w.u = false → 56 ≤ w.a.toNat → MarkedLanes s t x w.d.toNat wide
        (fun l => zext ((s.dev.view x.agent).qWord (w.a.toNat - 56) l 0)) 0) ∧
      (w.u = true → WroteS s t x w.d.toNat
        (if wide then x.view.sAt w.a.toNat
          else if w.t = 0 then sext (bitsOf (x.view.sAt w.a.toNat) 0 32) else zext (bitsOf (x.view.sAt w.a.toNat) 0 32)) 0)) ∧
  (∀ (s : State) (x : Issue) (w : AWord), Ready s x (.movi w) → GangOk s x → (s.dev.view x.agent).regsWf = true →
    ∃ t p v, exec (.movi w) s = .next t ∧ w.ext = some p ∧ ImmediateOf (w.a == 1) w.t p v ∧
      (w.u = false → WroteLanes s t x w.d.toNat (w.a == 0 && wideT w.t) (fun _ => v) 0) ∧
      (w.u = true → WroteS s t x w.d.toNat (if w.a = 0 ∧ w.t = 0 then sext (bitsOf v 0 32) else v) 0))

/-- R159 and R160: `fmtset` stores its value, reserved bits as 0, as the `fmt` of the slices that perform it and changes nothing
else; `fmtget` reads it. -/
def Obligations.FormatWordsSetAndReadFmt : Prop :=
  (∀ (s : State) (x : Issue) (w : AWord) (b : Nat), s.iss = some x → x.agent = .ridge b →
    exec (.fmtset w) s = .next (s.trapped x .illegal none 0) ∧ exec (.fmtget w) s = .next (s.trapped x .illegal none 0)) ∧
  (∀ (s : State) (x : Issue) (w : AWord), s.iss = some x → w.a ≠ 0 ∨ w.b ≠ 0 ∨ w.t ≠ 0 ∨ w.ea = true ∨ w.eb = true →
    exec (.fmtget w) s = .next (s.trapped x .illegal none 0)) ∧
  (∀ (s : State) (x : Issue) (w : AWord), Ready s x (.fmtset w) → GangOk s x →
    let v : Word := match w.ext with | some p => p.setWidth 32 | none => bitsOf (x.view.sAt w.a.toNat) 0 32
    ∃ t, exec (.fmtset w) s = .next t ∧
      let g := s.dev.view x.agent
      let h := t.dev.view x.agent
      h = { g with slices := h.slices } ∧
      (∀ i, h.slice i = if i ∈ x.actSlices then { g.slice i with fmt := v &&& 3 } else g.slice i) ∧
      s.sameBeside t x.agent ∧ t.dev.fills = s.dev.fills) ∧
  (∀ (s : State) (x : Issue) (w : AWord), Ready s x (.fmtget w) → GangOk s x → (s.dev.view x.agent).regsWf = true →
    ∃ t, exec (.fmtget w) s = .next t ∧
      (w.u = false → WroteLanes s t x w.d.toNat false (fun l => zext (x.view.slice (l / 4)).fmt) 0) ∧
      (w.u = true → WroteS s t x w.d.toNat (zext (x.view.slice (x.lead / 4)).fmt) 0))

/-- R163 and R164: `getsv` reads the value of its code, 32 bits in each lane or all of it into an s register; codes 11 and 12 clear
what they read; codes 10 and 11 wait while a word that the gang's slices issued and that can set a flag has still to write its results, an
instance of a group-wide lane word among them, and codes 9 and 12 while a curve-key word has. -/
def Obligations.SystemValuesAreReadAndCleared : Prop :=
  ∀ (s : State) (x : Issue) (w : AWord), Ready s x (.getsv w) → GangOk s x → (s.dev.view x.agent).regsWf = true →
    let code := w.a.toNat
    let comes := fun (k : Sets) (is : List Nat) => ∃ f ∈ x.rd.fills, f.agent = x.agent ∧ f.sets = k ∧ ∃ i ∈ f.issued, i ∈ is
    let forms := ∃ y ∈ (x.rd.view x.agent).laneInsts, laneFlags y.word = true ∧ ∃ i ∈ x.slices, bitOf y.issued i = true
    if ((code = 10 ∨ code = 11) ∧ (comes .flags x.slices ∨ forms)) ∨ ((code = 9 ∨ code = 12) ∧ comes .ckf x.actSlices) then
      exec (.getsv w) s = .next (s.waitNow x)
    else ∃ t, ∃ v : Nat → DWord, exec (.getsv w) s = .next t ∧
      (w.u = false → WroteLanes (s.cleared x code) t x w.d.toNat false (fun l => zext (bitsOf (v l) 0 32)) 0 ∧
        ∀ l ∈ x.act, SystemValue x code l (v l)) ∧
      (w.u = true → WroteS (s.cleared x code) t x w.d.toNat (v x.lead) 0 ∧ SystemValue x code x.lead (v x.lead))

/-- R265 and R266: a fixed tree of one value is that value, with no flag; a tree of twice a power of two of values is the operation on the
trees of its halves, with the flags of both and of the node. -/
def Obligations.FixedTreesCombineTheirHalves : Prop :=
  (∀ (f : Nat → Nat → Nat × Flags) (x : Nat), tree f 9 [x] = (x, 0)) ∧
  ∀ (f : Nat → Nat → Nat × Flags) (k : Nat) (xs ys : List Nat), k < 9 → xs.length = 2 ^ k → ys.length = 2 ^ k →
    tree f 9 (xs ++ ys) =
      ((f (tree f 9 xs).1 (tree f 9 ys).1).1,
        (f (tree f 9 xs).1 (tree f 9 ys).1).2 ||| ((tree f 9 xs).2 ||| (tree f 9 ys).2))

/-- R271 and R272: `lmov` gives each lane the value that its selector's source lane read, its own value past the group's ends
in the up and down modes, and 0 from a slice that is dead or had no lane in act; `bcast` copies one lane to an s register, and
leaves it empty when no lane passed. Each acts with the gang that issues last, from what every slice read (R269). -/
def Obligations.LaneMovesAndBroadcasts : Prop :=
  LaneWord .lmov wideT (fun w v g l => w.aVal v g (wideT w.t) l) (fun w v g l => w.bVal zext v g false l) (fun _ g J l v =>
    let k : Int := (bitsOf (J.b l) 0 8).toNat
    let src : Int := match (bitsOf (J.b l) 8 2).toNat with
      | 0 => k
      | 1 => ((l ^^^ (bitsOf (J.b l) 0 8).toNat : Nat) : Int)
      | 2 => l - k
      | _ => l + k
    let reads := fun n => n / 4 ∈ J.actSlices ∧ (g.slice (n / 4)).live ≠ 0
    v.2 = 0 ∧ (src < 0 ∨ 255 < src → v.1 = J.a l) ∧
      (0 ≤ src → src ≤ 255 → reads src.toNat → v.1 = J.a src.toNat) ∧
      (0 ≤ src → src ≤ 255 → ¬ reads src.toNat → v.1 = 0)) ∧
  (∀ (s : State) (x : Issue) (w : AWord) (k : Nat), Cleared s x (.bcast w) → JoinsLane s x (.bcast w) k → LastOfLane s x k →
    (s.dev.view x.agent).regsWf = true →
    let g := s.dev.view x.agent
    let J := s.joinedLane x k (fun l => w.aVal x.view g (wideT w.t) l) (fun _ => 0) (fun _ => false)
      (match w.ext with | some p => zext p | none => x.view.sAt w.b.toNat)
    let n := (bitsOf J.uni 0 8).toNat
    let a := if n / 4 ∈ J.actSlices ∧ (g.slice (n / 4)).live ≠ 0 then J.a n else 0
    ∃ t, exec (.bcast w) s = .next t ∧
      (J.act ≠ [] → MarkedSFor (s.counted x k) t x J.slices w.d.toNat
        (if wideT w.t then a else if w.t = 0 then sext (bitsOf a 0 32) else zext (bitsOf a 0 32)) 0) ∧
      (J.act = [] → s.sameBeside t x.agent ∧ t.dev.fills = s.dev.fills ∧
        let h := t.dev.view x.agent
        ((s.counted x k).dev.view x.agent).sameControl h ∧ h.sIsEmpty w.d.toNat = true ∧
        (∀ q ≠ w.d.toNat, h.sIsEmpty q = g.sIsEmpty q) ∧ h.s = g.s ∧ h.sBad = g.sBad ∧ h.v = g.v ∧ h.vEmpty = g.vEmpty ∧ h.vBad = g.vBad ∧
        h.p = g.p ∧ h.flags = g.flags))

/-- R251, R265, R266, R273, R275 and R276: reductions and scans by the fixed trees over each segment, selections of a position, and
votes, for every lane in act of a segment; each acts with the gang that issues last, from what every slice read (R269). -/
def Obligations.ReductionsScansAndVotes : Prop :=
  let a := fun (w : AWord) (v g : Group) l => w.aVal v g false l
  let none' := fun (_ : AWord) (_ _ : Group) (_ : Nat) => (0 : DWord)
  LaneWord .vred (fun _ => false) a none' (fun w _ J l v =>
    let n := 2 ^ (w.width.toNat + 2)
    match w.laneOp.toNat with
    | 0 => v = (BitVec.ofNat 64 (tree add32 9 (J.seg n l 0)).1, (tree add32 9 (J.seg n l 0)).2)
    | 1 => v = (BitVec.ofNat 64 (tree larger32 9 (noNans negInf32 (J.seg n l negInf32))).1, sigOf (J.seg n l negInf32))
    | 2 => v = (BitVec.ofNat 64 (tree smaller32 9 (noNans posInf32 (J.seg n l posInf32))).1, sigOf (J.seg n l posInf32))
    | 3 => ∃ p, v = (BitVec.ofNat 64 p, sigOf (J.seg n l 0)) ∧ FirstRanked true J n l p
    | _ => ∃ p, v = (BitVec.ofNat 64 p, sigOf (J.seg n l 0)) ∧ FirstRanked false J n l p) ∧
  LaneWord .vscan (fun _ => false) a none' (fun w _ J l v =>
    let n := 2 ^ (w.width.toNat + 2)
    let op := (bitsOf w.b 0 2).toNat
    let o := scanOp (w.t == 0) op
    let raw := J.seg n l o.2
    let xs := if w.t = 0 ∧ op ≠ 0 then noNans o.2 raw else raw
    let r := if bitOf w.b 2 then (if l % n = 0 then (o.2, 0) else prefixOf o.1 xs (l % n - 1)) else prefixOf o.1 xs (l % n)
    v = (BitVec.ofNat 64 r.1, if w.t = 0 ∧ op ≠ 0 then r.2 ||| sigOf raw else r.2)) ∧
  LaneWord .vote (fun _ => false) none' none' (fun w _ J l v =>
    let n := 2 ^ (w.width.toNat + 2)
    let A := (List.range n).filter (fun i => decide (l / n * n + i ∈ J.act))
    let Q := A.filter (fun i => J.pred (l / n * n + i))
    v.2 = 0 ∧ match w.laneOp.toNat with
      | 0 => v.1 = if Q = [] then 0 else 1
      | 1 => v.1 = if Q = A then 1 else 0
      | 2 => ∀ i, v.1.getLsbD i = decide (i < 32 ∧ 32 * (l % n % ((n + 31) / 32)) + i ∈ Q)
      | _ => v.1 = BitVec.ofNat 64 Q.length)

/-- R277 and R278: `sample` picks, in each segment, the first position with a weight whose prefix exceeds the scaled uniform, and
flags bad inputs in its predicate; it acts with the gang that issues last, from what every slice read (R269). That the flags of every
prefix are raised, also of those past the result, is the model's reading (assumption 31). -/
def Obligations.SamplingPicksByPrefix : Prop :=
  ∀ (s : State) (x : Issue) (w : AWord) (k : Nat), Cleared s x (.sample w) → JoinsLane s x (.sample w) k → LastOfLane s x k →
    (s.dev.view x.agent).regsWf = true →
    let g := s.dev.view x.agent
    let J := s.joinedLane x k (fun l => w.aVal x.view g false l) (fun _ => 0) (fun _ => false) (x.view.sAt w.b.toNat)
    let u := (bitsOf J.uni 0 32).toNat
    let c := (bitsOf J.uni 32 3).toNat
    let n := 2 ^ ((if c = 7 then 6 else c) + 2)
    ∃ m t, ∃ v : Nat → LaneVal, ∃ flag : Nat → Bool, exec (.sample w) s = .next t ∧
      WrotePIn (s.counted x k) m x J.act w.t.toNat flag 0 ∧
      MarkedFor m t x { issued := J.slices, full := J.actSlices, act := J.act } w.d.toNat false (fun l => (v l).1)
        (orFlags (J.act.map (fun l => (l, v l)))) ∧
      ∀ l ∈ J.act,
        let raw := J.seg n l 0
        let bad := fun a => (FFmt.f32.decode a).isNan || (FFmt.f32.decode a).lt (.fin false 0 0)
        let xs := raw.map (fun a => if bad a || a == 0x80000000 then 0 else a)
        let u' := if (FFmt.f32.decode u).lt (.fin false 0 0) || u == 0x80000000 then 0
          else if (FFmt.f32.decode u).lt (.fin false 1 0) then u else 0x3F7FFFFF
        let total := tree add32 9 xs
        let t := FFmt.f32.mul .rne u' total.1
        let pre := fun i => prefixOf add32 xs i
        if (FFmt.f32.decode u).isNan then v l = (0xFFFFFFFF, sigOf [u]) ∧ flag l = true
        else if posInf32 ∈ xs then
          (∃ i, i < n ∧ v l = (BitVec.ofNat 64 i, sigOf raw) ∧ xs[i]? = some posInf32 ∧ ∀ j < i, xs[j]? ≠ some posInf32) ∧
            flag l = raw.any bad
        else if total.1 = 0 ∨ total.1 = posInf32 then v l = (0xFFFFFFFF, sigOf raw ||| total.2) ∧ flag l = true
        else
          flag l = raw.any bad ∧ ∃ i < n, (v l).1 = BitVec.ofNat 64 i ∧
            (v l).2 = (List.range n).foldl (fun m i => m ||| (pre i).2) (sigOf raw ||| total.2 ||| t.2) ∧
            let hit := fun i => (xs[i]?).getD 0 ≠ 0 ∧ (FFmt.f32.decode t.1).lt (FFmt.f32.decode (pre i).1) = true
            ((∃ j < n, hit j) → hit i ∧ ∀ j < i, ¬ hit j) ∧
            ((∀ j < n, ¬ hit j) → (xs[i]?).getD 0 ≠ 0 ∧ ∀ j < n, i < j → (xs[j]?).getD 0 = 0)

/-- R269: a group-wide lane word that some live slice has still to issue joins the slices that issue it, with what they read and their lanes
in act, into the instance of its count, or begins that instance; other instances stay, and nothing is written yet but the marks of its
destinations. -/
def Obligations.LaneWordsWaitForEverySlice : Prop :=
  ∀ (s : State) (x : Issue) (i : Instr) (k : Nat), groupWide i = true → Cleared s x i → JoinsLane s x i k → ¬ LastOfLane s x k →
    (s.dev.view x.agent).regsWf = true →
    let g := s.dev.view x.agent
    ∃ t inst, exec i s = .next t ∧ s.sameBeside t x.agent ∧ t.dev.fills = s.dev.fills ∧
      let h := t.dev.view x.agent
      let y := g.waitingLane k
      h.waitingLane k = some inst ∧ (∀ m ≠ k, h.waitingLane m = g.waitingLane m) ∧ sameWords inst.word i = true ∧
      (∀ j < 64, bitOf inst.issued j = true ↔ j ∈ x.slices ∨ ∃ o ∈ y, bitOf o.issued j = true) ∧
      (∀ l < 256, bitOf inst.acts l = true ↔ l ∈ x.act ∨ ∃ o ∈ y, bitOf o.acts l = true) ∧
      (∀ o ∈ y, ∀ l, l / 4 ∉ x.actSlices → Fmap.get 0 inst.a l = Fmap.get 0 o.a l ∧ Fmap.get 0 inst.b l = Fmap.get 0 o.b l) ∧
      ((s.counted x k).dev.view x.agent).sameControl { h with laneInsts := g.laneInsts.filter (fun y => y.k != k) } ∧
      h.v = g.v ∧ h.vBad = g.vBad ∧ h.s = g.s ∧ h.sBad = g.sBad ∧ h.p = g.p ∧ h.flags = g.flags ∧
      (∀ q j, j < 64 → (h.vIsEmpty q j = true ↔ g.vIsEmpty q j = true ∨ (q ∈ (operands i).vd ∧ j ∈ x.actSlices))) ∧
      ∀ q, h.sIsEmpty q = true ↔ g.sIsEmpty q = true ∨ q ∈ (operands i).sd

/-- R345 to R348: `bcmp`, `bfind`, `bperm` and `hcrc`, in each lane of act. -/
def Obligations.ByteStringWordsFollowTheirTables : Prop :=
  let small := fun (v : BitVec 8) => if 0x41 ≤ v.toNat ∧ v.toNat ≤ 0x5A then v.toNat + 0x20 else v.toNat
  ByteWord .bcmp (fun w a b _ v =>
    let same := fun (k : Nat) => element 8 a k = element 8 b k
    match w.t.toNat with
    | 0 => ∀ k, v.getLsbD k = decide (k < 4 ∧ same k)
    | 1 => ∀ k, v.getLsbD k = decide (k < 4 ∧ (element 8 a k).toNat < (element 8 b k).toNat)
    | 2 => ∀ k, v.getLsbD k = decide (k < 4 ∧ small (element 8 a k) = small (element 8 b k))
    | _ => v.toNat ≤ 4 ∧ (∀ k < v.toNat, same k) ∧ (v.toNat < 4 → ¬ same v.toNat)) ∧
  ByteWord .bfind (fun w a b _ v =>
    let hit := fun (k : Nat) => match w.t.toNat with
      | 0 => element 8 a k = element 8 b 0
      | 1 => ∃ i < 4, element 8 a k = element 8 b i
      | _ => (element 8 b 0).toNat ≤ (element 8 a k).toNat ∧ (element 8 a k).toNat ≤ (element 8 b 1).toNat
    ∃ mask first : Nat, v = BitVec.ofNat 64 (mask * 256 + first) ∧ mask < 16 ∧ (∀ k < 4, mask.testBit k = true ↔ hit k) ∧
      first ≤ 4 ∧ (∀ k < first, ¬ hit k) ∧ (first < 4 → hit first)) ∧
  ByteWord .bperm (fun _ a b d v => v.toNat < 2 ^ 32 ∧ ∀ k < 4,
    let s := (element 4 b k).toNat
    element 8 v k = if s < 4 then element 8 a s else if s < 8 then element 8 d (s - 4) else 0) ∧
  ByteWord .hcrc (fun w a b _ v => v = zext ((List.range (w.t.toNat + 1)).foldl (fun c k =>
    Nat.repeat crcShift 8 (c ^^^ (element 8 a k).setWidth 32)) (element 32 b 0)))

/-- R349: `hmix` mixes a pair in each lane, or an s register for the gang, by the two multiplications given; the value it computes
maps 0 to 0 and is a bijection on 64-bit values. A nonzero b, t or Eb raises ILLEGAL, and an odd register of a pair MISALIGN. -/
def Obligations.HashMixFollowsItsFormulaAndIsABijection : Prop :=
  (let w : AWord := { c := false, d := 4, a := 2, b := 0, t := 0, ea := false, eb := false, u := false, ext := none }
   decode 0x64102000 none = .ok (.hmix w) ∧ decode 0x64102001 none = .ok (.hmix { w with u := true })) ∧
  (∀ (s : State) (x : Issue) (w : AWord), s.iss = some x → w.b ≠ 0 ∨ w.t ≠ 0 ∨ w.eb = true →
    exec (.hmix w) s = .next (s.trapped x .illegal none 0)) ∧
  (∀ (s : State) (x : Issue) (w : AWord), s.iss = some x → w.u = false → w.d.toNat % 2 = 1 ∨ (w.a.toNat < 56 ∧ w.a.toNat % 2 = 1) →
    x.staticCause s.dev (.hmix w) ≠ some .illegal → exec (.hmix w) s = .next (s.trapped x .misalign none 0)) ∧
  hmixVal 0 = 0 ∧ Function.Bijective hmixVal ∧
  ∀ (s : State) (x : Issue) (w : AWord), Ready s x (.hmix w) → GangOk s x → (s.dev.view x.agent).regsWf = true →
    let mix := fun (a : DWord) =>
      let x := (a ^^^ a >>> 31) * 0x8F3C5A29D14E6B73
      let y := (x ^^^ x >>> 29) * 0x6C1BE4F093A72D45
      y ^^^ y >>> 32
    let a := w.aVal x.view (s.dev.view x.agent) true
    ∃ t, exec (.hmix w) s = .next t ∧
      (w.u = false → MarkedLanes s t x w.d.toNat true (fun l => mix (a l)) 0) ∧
      (w.u = true → MarkedS s t x w.d.toNat (mix (a x.lead)) 0)

/-- R171 and R326: a step of an automaton whose table lies in the constant window: a byte of a at a time gives the class, the entry of
state and class gives the next state and a bit of the match mask. With no classes the word traps with ILLEGAL. The table is read as `ldc`
reads the window: each byte of it as stored last or as memory held it at the launch's admission, which of the two for each lane is open
(assumption 21). -/
def Obligations.AutomatonStepReadsItsTable : Prop :=
  ∀ (s : State) (x : Issue) (w : AWord), Ready s x (.acstep w) → GangOk s x → (s.dev.view x.agent).regsWf = true →
    ∀ loc : Nat → Loc,
    let c := s.dev.ctx (s.dev.ctxOf x.agent)
    let p := c.packet
    let a := w.aVal x.view (s.dev.view x.agent) false
    let b := w.bVal zext x.view (s.dev.view x.agent) false
    let B := fun l => 256 * (bitsOf (b l) 24 8).toNat
    let n := fun l => (bitsOf (b l) 20 2).toNat + 1
    let Reads := fun (byte : Nat → Nat → Nat) => ∀ l ∈ x.act, ∀ o < p.cwinLen, byte l o = (s.dev.byteAt (loc o)).toNat ∨
      ∃ pa, loc o = .mem pa ∧ byte l o = (Fmap.get 0 c.constMem pa).toNat
    let half := fun (byte : Nat → Nat → Nat) l o => byte l o + 256 * byte l (o + 1)
    let Table := fun (byte : Nat → Nat → Nat) => ∀ l ∈ x.act, 1 ≤ byte l (B l + 256) ∧ byte l (B l + 256) ≤ 64 ∧ byte l (B l + 257) = 0 ∧
      1 ≤ half byte l (B l + 258) ∧ half byte l (B l + 258) ≤ 32768 ∧ (∀ i < 12, byte l (B l + 260 + i) = 0) ∧
      B l + 272 + 2 * (half byte l (B l + 258) * byte l (B l + 256)) ≤ p.cwinLen ∧
      (bitsOf (b l) 0 15).toNat < half byte l (B l + 258) ∧ ∀ k, (k < 256 → byte l (B l + k) < byte l (B l + 256)) ∧
        (k < half byte l (B l + 258) * byte l (B l + 256) → half byte l (B l + 272 + 2 * k) % 32768 < half byte l (B l + 258))
    (∀ o k, 0 < k → k ≤ 8 → o + k ≤ p.cwinLen →
      s.dev.reach x.agent x.view.priv .load (p.cwinBase + BitVec.ofNat 64 o) k = .ok ((List.range k).map (fun i => loc (o + i)))) →
    (∀ os : List Nat, s.dev.held (os.map loc) = false) → (∀ o < p.cwinLen, s.dev.answers (loc o)) →
    (∀ l ∈ x.act, B l + 272 ≤ p.cwinLen) →
    ((∀ byte, Reads byte → Table byte) →
      ∃ byte ls t v, Reads byte ∧ exec (.acstep w) s = .next t ∧ MarkedLanes (s.touched ls) t x w.d.toNat false v 0 ∧ SameBytes s t ∧
        ∀ l ∈ x.act, ∃ state entry : Nat → Nat, ∃ mask : Nat, state 0 = (bitsOf (b l) 0 15).toNat ∧
          (∀ k < n l, entry k =
              half byte l (B l + 272 + 2 * (state k * byte l (B l + 256) + byte l (B l + (element 8 (a l) k).toNat))) ∧
            state (k + 1) = entry k % 32768 ∧ mask.testBit k = (entry k).testBit 15) ∧ mask < 2 ^ n l ∧
          v l = BitVec.ofNat 64 ((bitsOf (b l) 20 12).toNat * 2 ^ 20 + mask * 2 ^ 16 + entry (n l - 1))) ∧
    (∀ l rest, x.act = l :: rest → (∀ byte, Reads byte → byte l (B l + 256) = 0) → exec (.acstep w) s = .next (s.trapped x .illegal (some l) 0))

/-- R182, R184, R187 to R190: `ckpack` packs D registers into a key; `ckadd` and `cksub` move each axis of a key by its offset, wrap
or clamp it within the axis, and raise the flag of an axis that overflows; `ckunpk` writes the axes of a key. A descriptor of more
than 128 bits makes any curve-key word that some lane performs raise CKDESC, with none of its effect (R183, R186). -/
def Obligations.CurveKeysPackAndMoveEachAxis : Prop :=
  KeyWord .ckpack (fun w g l k f =>
    let X := fun j => (g.vAt (w.a.toNat + j) l).toNat
    IsKey w.dim w.nbits X k ∧ ∀ j, f.getLsbD j = decide (j < w.dim ∧ 2 ^ w.nbits ≤ X j)) ∧
  (∀ minus : Bool, KeyWord (if minus then .cksub else .ckadd) (fun w g l k f =>
    let y := fun (j : Nat) =>
      let o := (g.vAt (w.b.toNat + j) l).toInt
      (axisOf w.dim w.nbits (g.keyAt (w.dim * w.nbits) w.a.toNat l) j : Int) + (if minus then -o else o)
    let out := fun j => y j < 0 ∨ 2 ^ w.nbits - 1 < y j
    IsKey w.dim w.nbits (fun j =>
      if bitOf w.op 0 = true ∧ out j then (if y j < 0 then 0 else 2 ^ w.nbits - 1) else (y j % 2 ^ w.nbits).toNat) k ∧
    ∀ j, f.getLsbD j = true ↔ j < w.dim ∧ out j)) ∧
  (∀ (s : State) (x : Issue) (w : KWord), KeyReady s x w (.ckunpk w) →
    ∃ t, exec (.ckunpk w) s = .next t ∧ MarkedRun s t x w.d.toNat w.dim (fun j l =>
      BitVec.ofNat 32 (axisOf w.dim w.nbits (x.view.keyAt (w.dim * w.nbits) w.a.toNat l) j))) ∧
  (∀ (s : State) (x : Issue) (w : KWord),
    ∀ i ∈ [Instr.ckpack w, .ckunpk w, .ckadd w, .cksub w, .ckcmp w, .ckbox w, .cknext w, .ckprev w, .cksplit w, .cklvl w],
      Ready s x i → 128 < w.dim * w.nbits → exec i s = .next (s.trapped x .ckDesc none 0))

/-- R191 to R194: `ckcmp` compares keys as numbers; `cklvl` gives the smallest level of a cell that holds both keys; `ckbox` tells
whether a key lies in a box; `cknext` and `ckprev` find the nearest key of the box after or before a key, or none. -/
def Obligations.CurveKeysCompareAndFindTheirNeighbours : Prop :=
  (∀ (s : State) (x : Issue) (w : KWord), KeyReady s x w (.ckcmp w) →
    let key := x.view.keyAt (w.dim * w.nbits)
    ∃ t, exec (.ckcmp w) s = .next t ∧
      WroteP s t x w.pCmp.toNat (fun l => compares (bitsOf w.op 0 3) false
        (BitVec.ofNat 128 (key w.a.toNat l)) (BitVec.ofNat 128 (key w.b.toNat l))) 0) ∧
  (∀ (s : State) (x : Issue) (w : KWord), KeyReady s x w (.cklvl w) →
    ∃ t, ∃ L : Nat → Nat, exec (.cklvl w) s = .next t ∧ MarkedLanes s t x w.d.toNat false (fun l => BitVec.ofNat 64 (L l)) 0 ∧
      ∀ l ∈ x.act,
        let a := x.view.keyAt (w.dim * w.nbits) w.a.toNat l
        let b := x.view.keyAt (w.dim * w.nbits) w.b.toNat l
        L l ≤ w.nbits ∧ ∀ n, L l ≤ n ↔ a / 2 ^ (n * w.dim) = b / 2 ^ (n * w.dim)) ∧
  (∀ (s : State) (x : Issue) (w : KWord), KeyReady s x w (.ckbox w) →
    let key := x.view.keyAt (w.dim * w.nbits)
    ∃ t, ∃ v : Nat → DWord, exec (.ckbox w) s = .next t ∧ MarkedLanes s t x w.d.toNat false v 0 ∧
      ∀ l ∈ x.act, (v l = 0 ∨ v l = 1) ∧
        (v l = 1 ↔ InBox w.dim w.nbits (key w.b.toNat l) (key (w.b.toNat + 4) l) (key w.a.toNat l))) ∧
  (∀ (prev : Bool) (s : State) (x : Issue) (w : KWord),
    let i : Instr := if prev then .ckprev w else .cknext w
    KeyReady s x w i →
    let key := x.view.keyAt (w.dim * w.nbits)
    ∃ m t, ∃ k : Nat → Nat, ∃ found : Nat → Bool, exec i s = .next t ∧ WroteP s m x w.pNext.toNat found 0 ∧
      MarkedRun m t x w.d.toNat 4 (fun i l => BitVec.ofNat 32 (k l / 2 ^ (32 * i))) ∧
      ∀ l ∈ x.act,
        let C := fun c => c < 2 ^ (w.dim * w.nbits) ∧ InBox w.dim w.nbits (key w.b.toNat l) (key (w.b.toNat + 4) l) c ∧
          ((if prev then c < key w.a.toNat l else key w.a.toNat l < c) ∨ (bitOf w.op 3 = true ∧ c = key w.a.toNat l))
        if found l then C (k l) ∧ ∀ c, C c → if prev then c ≤ k l else k l ≤ c else k l = 0 ∧ ∀ c, ¬ C c)

/-- R195 and R196: `cksplit` stores the cover of the box of the gang's lowest lane, runs of its keys merged to at most 16, into the
block's stash, and each lane of act receives the count and whether ranges were merged. -/
def Obligations.SplitStoresTheCoverOfTheBox : Prop :=
  ∀ (s : State) (x : Issue) (w : KWord) (b k : Nat), KeyReady s x w (.cksplit w) → x.agent = .group b k → s.dev.filesWf = true →
    let off := w.op.toNat * 32
    let locs := (List.range 512).map (fun i => Loc.stash b (off + i))
    let key := fun r => x.view.keyAt (w.dim * w.nbits) r x.lead
    (∀ i < 8, x.view.vIsEmpty (w.b.toNat + i) (x.lead / 4) = false) → off + 512 ≤ (s.dev.block b).stashBytes →
    s.dev.held locs = false → s.dev.memWf = true →
    ∃ R S bytes m t, RunsOf w.dim w.nbits (key w.b.toNat) (key (w.b.toNat + 4)) R ∧
      Relation.ReflTransGen Merges R S ∧ S.length ≤ 16 ∧
      bytes.length = 512 ∧
      (∀ e < 16, ∀ i < 16,
        let r := (S[e]?).getD (0, 0)
        bytes[32 * e + i]? = some (BitVec.ofNat 8 (r.1 / 256 ^ i)) ∧ bytes[32 * e + 16 + i]? = some (BitVec.ofNat 8 (r.2 / 256 ^ i))) ∧
      exec (.cksplit w) s = .next t ∧ Stored s m x (locs.zip bytes) ∧ (m.dev.view x.agent).region = (s.dev.view x.agent).region ∧
      MarkedLanes m t x w.d.toNat false (fun _ => BitVec.ofNat 64 (S.length + if 16 < R.length then 256 else 0)) 0

/-- R166, R167, R171, R172 and R235: `ld`, `ldc` and `ldl` read the bytes at each lane's address, the lowest first, extend them as
the size says, and fill d with them; no byte changes. An offset of `ldc` past the constant window traps with PERM; an
address of `ldl` that is no multiple of 4 with MISALIGN. `pref` completes whatever its addresses are, writes no register and no byte, and
changes at most which lines L2 and mapped entries hold. `ld` and `ldl` of scope `rmt` with order acq promote first: every update-only copy is
combined (R288, assumption 49). `ldc` reads each byte as stored last or as memory held it at the launch's admission, which of the two is open
(assumption 21). `pref.own` leaves the entries of the lines that it may take unfilled (R220, R247); that it always takes a line that no engine
owns and no host caches is the model's choice (assumption 48). -/
def Obligations.LoadsFillTheirDestination : Prop :=
  let extends' := fun (sz : BitVec 3) (raw v : DWord) => match sz.toNat with
    | 4 => v = sext (bitsOf raw 0 8)
    | 5 => v = sext (bitsOf raw 0 16)
    | _ => v = raw
  let plain := fun (s : State) (ls : List Loc) (raw : DWord) => s.dev.little ls raw
  let constant := fun (s : State) (x : Issue) (ls : List Loc) (raw : DWord) =>
    ls.length ≤ 8 ∧ raw.toNat < 256 ^ ls.length ∧ ∀ i l, ls[i]? = some l → element 8 raw i = s.dev.byteAt l ∨
      ∃ pa, l = .mem pa ∧ element 8 raw i = Fmap.get 0 (s.dev.ctx (s.dev.ctxOf x.agent)).constMem pa
  let promoted := fun (w : MWord) (s : State) =>
    if w.scope = 7 ∧ bitOf w.order 0 = true then { s with dev := { s.dev with ulines := [] } } else s
  let fills := fun (reads : List Loc → DWord → Prop) (i : Instr) (u : Bool) (r : Nat) (sz : BitVec 3) (s : State) (p : State) (x : Issue)
      (ls : Nat → List Loc) =>
    ∃ t, ∃ raw v : Nat → DWord, exec i s = .next t ∧ SameBytes s t ∧
      (∀ l ∈ x.accessing u, reads (ls l) (raw l) ∧ extends' sz (raw l) (v l)) ∧
      (u = false → MarkedLanes (p.loaded (x.act.flatMap ls)) t x r (sz == 3) v 0) ∧
      (u = true → MarkedS (p.loaded (ls x.lead)) t x r (v x.lead) 0)
  (∀ (s : State) (x : Issue) (w : MWord) (ls : Nat → List Loc), Ready s x (.ld w) → GangOk s x →
    (s.dev.view x.agent).regsWf = true →
    Reaches s x (if w.size = 2 ∨ w.size = 3 then .sum else .load) (sizeBytes w.size) (x.accessing w.u) (w.address s x) ls →
    fills (plain s) (.ld w) w.u w.d.toNat w.size s (promoted w s) x ls) ∧
  (∀ (s : State) (x : Issue) (w : MWord) (ls : Nat → List Loc), Ready s x (.ldc w) → GangOk s x →
    (s.dev.view x.agent).regsWf = true →
    let p := (s.dev.ctx (s.dev.ctxOf x.agent)).packet
    (∀ l ∈ x.accessing w.u, (w.address s x l).toNat + sizeBytes w.size ≤ p.cwinLen) →
    Reaches s x .load (sizeBytes w.size) (x.accessing w.u) (fun l => p.cwinBase + w.address s x l) ls →
    fills (constant s x) (.ldc w) w.u w.d.toNat w.size s s x ls) ∧
  (∀ (s : State) (x : Issue) (w : MWord) (l : Nat) (rest : List Nat), Ready s x (.ldc w) → x.accessing w.u = l :: rest →
    (s.dev.ctx (s.dev.ctxOf x.agent)).packet.cwinLen < (w.address s x l).toNat + sizeBytes w.size →
    exec (.ldc w) s = .next (s.trapped x .perm (if w.u then none else some l) 0)) ∧
  (∀ (s : State) (x : Issue) (w : MWord) (ls : Nat → List Loc), Ready s x (.ldl w) → GangOk s x →
    (s.dev.view x.agent).regsWf = true → (∀ l ∈ x.act, (w.address s x l).toNat % 4 = 0) →
    Reaches s x .load 4 x.act (w.address s x) ls → fills (plain s) (.ldl w) false w.d.toNat 2 s (promoted w s) x ls) ∧
  (∀ (s : State) (x : Issue) (w : MWord) (l : Nat) (before after : List Nat), Ready s x (.ldl w) →
    x.act = before ++ l :: after → (∀ k ∈ before, (w.address s x k).toNat % 4 = 0) → (w.address s x l).toNat % 4 ≠ 0 →
    exec (.ldl w) s = .next (s.trapped x .misalign (some l) 0)) ∧
  (∀ (s : State) (x : Issue) (w : MWord), Ready s x (.pref w) → GangOk s x →
    ∃ t, exec (.pref w) s = .next t ∧ SameBytes s t ∧ t.agenda = s.agenda ∧ t.turn = s.turn ∧ t.iss = s.iss ∧
      (let B := s.dev.blocks.mapIdx (fun b (k : Block) => { k with maps := (t.dev.block b).maps })
       Device.sameBeside { s.dev with l2 := t.dev.l2, ulines := t.dev.ulines, blocks := B } t.dev x.agent) ∧
      (∀ b, (t.dev.block b).maps.map (fun m => (m.off, m.len, m.lines)) = (s.dev.block b).maps.map (fun m => (m.off, m.len, m.lines))) ∧
      (w.func.getLsbD 1 = true → ∀ p ∈ x.laneEAs s.dev w, ∀ n, s.dev.prefLine x.agent p.2 = some n → s.dev.held [.mem (n * 128)] = false →
        ∀ b < s.dev.blocks.length, ∀ m ∈ (t.dev.block b).maps, ∀ e ∈ m.filled, m.lines[e.1]? ≠ some n) ∧
      t.dev.fills = s.dev.fills ∧
      (s.dev.view x.agent).sameControl (t.dev.view x.agent) ∧ (t.dev.view x.agent).v = (s.dev.view x.agent).v ∧
      (t.dev.view x.agent).s = (s.dev.view x.agent).s ∧ (t.dev.view x.agent).p = (s.dev.view x.agent).p)

/-- R166, R168, R172 and R235: `st` and `stl` store the low bytes of d at each lane's address, where lanes meet the highest lane's;
every other byte, and every register, is as it was. `stl` ends the region (R342). A word of `stl` at no multiple of 4
traps with MISALIGN, and a release at `sys` after a message of the gang failed with ECC (R423). -/
def Obligations.StoresWriteTheirBytes : Prop :=
  let bytes := fun (w : MWord) (n : Nat) (s : State) (x : Issue) (ls : Nat → List Loc) =>
    (x.accessing w.u).flatMap (fun l => (ls l).zip ((List.range n).map (fun i =>
      element 8 (w.dataVal x.view (s.dev.view x.agent) l) i)))
  (∀ (s : State) (x : Issue) (w : MWord) (ls : Nat → List Loc), Ready s x (.st w) → GangOk s x →
    s.dev.memWf = true → s.dev.filesWf = true → MayRelease w s x →
    Reaches s x .store (sizeBytes w.size) (x.accessing w.u) (w.address s x) ls →
    ∃ t, exec (.st w) s = .next t ∧ Stored s t x (bytes w (sizeBytes w.size) s x ls) ∧
      (t.dev.view x.agent).region = (s.dev.view x.agent).region) ∧
  (∀ (s : State) (x : Issue) (w : MWord) (ls : Nat → List Loc), Ready s x (.stl w) → GangOk s x →
    s.dev.memWf = true → s.dev.filesWf = true → MayRelease w s x → (∀ l ∈ x.act, (w.address s x l).toNat % 4 = 0) →
    Reaches s x .store 4 x.act (w.address s x) ls →
    ∃ t, exec (.stl w) s = .next t ∧ Stored s t x (bytes w 4 s x ls) ∧ (t.dev.view x.agent).region = none) ∧
  (∀ (s : State) (x : Issue) (w : MWord) (l : Nat) (before after : List Nat), Ready s x (.stl w) →
    x.act = before ++ l :: after → (∀ k ∈ before, (w.address s x k).toNat % 4 = 0) → (w.address s x l).toNat % 4 ≠ 0 →
    exec (.stl w) s = .next (s.trapped x .misalign (some l) 0)) ∧
  (∀ (s : State) (x : Issue) (w : MWord) (ls : Nat → List Loc), Ready s x (.st w) → ¬ MayRelease w s x →
    Reaches s x .store (sizeBytes w.size) (x.accessing w.u) (w.address s x) ls → exec (.st w) s = .next (s.releaseFails x))

/-- R232 and R248: `kvx` finds the lowest extent that holds each lane's position and writes its address and 1, or 0 and 0; with
more than 16 extents none holds any. -/
def Obligations.TokenPositionsFollowTheExtents : Prop :=
  ∀ (s : State) (x : Issue) (w : MWord) (b off : Nat), Ready s x (.kvx w) → GangOk s x → (s.dev.view x.agent).regsWf = true →
    let val := fun o n => bytesNat ((List.range n).map (fun i => s.dev.byteAt (.stash b (off + o + i))))
    let n := if val 0 1 % 32 ≤ 16 then val 0 1 % 32 else 0
    let locs := (List.range (16 + 32 * n)).map (fun i => Loc.stash b (off + i))
    let pos := fun l => (bitsOf (w.indexVal x.view (s.dev.view x.agent) l) 0 32).toNat
    let holds := fun e p => val (16 + 32 * e) 4 ≤ p ∧ p < val (16 + 32 * e) 4 + val (20 + 32 * e) 4
    x.agent.blk? = some b →
    x.view.sAt w.base.toNat + w.off.signExtend 64 * 8 = BitVec.ofNat 64 (0xFE * 2 ^ 56 + off) → off < 2 ^ 20 → off % 16 = 0 →
    off + 16 + 32 * n ≤ (s.dev.block b).stashBytes → s.dev.held locs = false →
    ∃ m t, ∃ found : Nat → Bool, ∃ v : Nat → DWord, exec (.kvx w) s = .next t ∧ SameBytes s t ∧
      WroteP (s.touched locs) m x (bitsOf w.func 0 3).toNat (fun l => if w.u then found x.lead else found l) 0 ∧
      (w.u = false → MarkedLanes m t x w.d.toNat true v 0) ∧ (w.u = true → MarkedS m t x w.d.toNat (v x.lead) 0) ∧
      ∀ l ∈ x.accessing w.u,
        if found l then ∃ e < n, holds e (pos l) ∧ (∀ f < e, ¬ holds f (pos l)) ∧
          v l = BitVec.ofNat 64 (val (32 + 32 * e) 8 + (pos l - val (16 + 32 * e) 4) * val (24 + 32 * e) 4)
        else v l = 0 ∧ ∀ e < n, ¬ holds e (pos l)

/-- R304 to R307 and R311: `atom` and `red` perform one read-modify-write for each lane in ascending order, or one for the gang; `atom`
fills d with what each found. A `red` that gathers in the update-only state leaves the same bytes when its operation is no `fadd`; a
`fadd` does where its word has no copy and no other lane of the gang names it, or where contributions are staged for its line, on which no
`red` gathers. Both end the region (R342) and break the promise of a
launch whose staged contributions lie on the line. An address that is no multiple of the size traps with MISALIGN. In a launch whose promise was granted `atom` and `red.fadd` trap
with DETERM when they issue (R316, R317). -/
def Obligations.AtomicsReadModifyWriteInLaneOrder : Prop :=
  let operands := fun (w : MWord) (x : Issue) (s : State) (l : Nat) =>
    let r := w.d.toNat
    let g := x.view
    if bitsOf w.func 0 4 = 7 then
      if w.u then (g.sAt r, g.sAt (r + 1))
      else if w.size = 3 then (g.laneVal true r l, g.laneVal true (r + 2) l)
      else (g.laneVal false r l, g.laneVal false (r + 1) l)
    else (w.dataVal g (s.dev.view x.agent) l, 0)
  let new := fun (w : MWord) (x : Issue) (s : State) (l : Nat) (m : DWord) =>
    let n := if w.size = 3 then 64 else 32
    zext (atomResult (bitsOf w.func 0 4).toNat (bitOf w.func 4) (element n m 0) (element n (operands w x s l).1 0)
      (element n (operands w x s l).2 0))
  let frame := fun (w : MWord) (s : State) (x : Issue) (ls : Nat → List Loc) (m : State) =>
    m.agenda = s.agenda ∧ m.turn = s.turn ∧ m.iss = s.iss ∧ s.dev.sameBesideMemory m.dev x.agent ∧ m.dev.fills = s.dev.fills ∧
    (m.dev.view x.agent).region = none ∧
    m.dev.ctxs = s.dev.ctxs.map (fun c => c.afterAtomic (s.dev.linesOf ((x.accessing w.u).flatMap ls)))
  let performs := fun (w : MWord) (s : State) (x : Issue) (ls : Nat → List Loc) (m : State) =>
    (∀ l, m.dev.byteAt l = s.dev.rmw ls (new w x s) (x.accessing w.u) s.dev.byteAt l) ∧ frame w s x ls m
  let may := fun (w : MWord) (s : State) (x : Issue) (ls : Nat → List Loc) =>
    GangOk s x ∧ (s.dev.view x.agent).regsWf = true ∧ s.dev.memWf = true ∧ s.dev.filesWf = true ∧
    MayRelease w s x ∧ Reaches s x .atomic (sizeBytes w.size) (x.accessing w.u) (w.address s x) ls
  (∀ (s : State) (x : Issue) (w : MWord) (ls : Nat → List Loc), Ready s x (.atom w) → may w s x ls →
    (∀ l ∈ x.accessing w.u, (w.address s x l).toNat % sizeBytes w.size = 0) →
    let old := fun l => littleOf (s.dev.rmw ls (new w x s) ((x.accessing w.u).takeWhile (fun k => k != l)) s.dev.byteAt) (ls l)
    ∃ m t, exec (.atom w) s = .next t ∧ performs w s x ls m ∧ m.dev.fab.tags = s.dev.fab.tags + 1 ∧
      (w.u = false → MarkedLanes m t x w.d.toNat (w.size == 3) old 0) ∧
      (w.u = true → MarkedS m t x w.d.toNat (old x.lead) 0)) ∧
  (∀ (s : State) (x : Issue) (w : MWord) (ls : Nat → List Loc), Ready s x (.red w) → may w s x ls →
    (∀ l ∈ x.accessing w.u, (w.address s x l).toNat % sizeBytes w.size = 0) →
    (∀ l ∈ x.accessing w.u, ∀ pa rest, ls l = .mem pa :: rest → pa % sizeBytes w.size = 0) →
    ∃ t, exec (.red w) s = .next t ∧ frame w s x ls t ∧ t.dev.fab = s.dev.fab ∧
      (w.order ≠ 0 ∨ w.scope = 5 ∨ (∀ l ∈ x.accessing w.u, ∀ pa, Loc.mem pa ∉ ls l) ∨
        (∀ l ∈ x.accessing w.u, ∃ c ∈ s.dev.ctxs, ∃ k ∈ c.staged, k.addr / 128 ∈ s.dev.linesOf (ls l)) ∨ (bitsOf w.func 0 4 ≠ 8 ∧ s.dev.copiesShown) →
        performs w s x ls t) ∧
      (∀ l, s.dev.cell l ∉ ((x.accessing w.u).flatMap ls).map s.dev.cell → t.dev.byteAt l = s.dev.byteAt l) ∧
      (∀ l ∈ x.accessing w.u, (∀ k ∈ x.accessing w.u, k ≠ l → ∀ a ∈ ls k, s.dev.cell a ∉ (ls l).map s.dev.cell) →
        (∀ pa, Loc.mem pa ∈ ls l → ∀ u ∈ s.dev.ulines, ∀ p ∈ u.parts, p.2.1 ≠ pa) →
        ∀ i a, (ls l)[i]? = some a → t.dev.byteAt a = element 8 (new w x s l (littleOf s.dev.byteAt (ls l))) i)) ∧
  (∀ (s : State) (x : Issue) (w : MWord) (ls : Nat → List Loc), ∀ i ∈ [Instr.atom w, .red w], Ready s x i → ¬ MayRelease w s x →
    Reaches s x .atomic (sizeBytes w.size) (x.accessing w.u) (w.address s x) ls →
    (∀ l ∈ x.accessing w.u, (w.address s x l).toNat % sizeBytes w.size = 0) → exec i s = .next (s.releaseFails x)) ∧
  (∀ (s : State) (x : Issue) (w : MWord) (ls : Nat → List Loc), ∀ i ∈ [Instr.atom w, .red w], Ready s x i → may w s x ls →
    ∀ l before after, x.accessing w.u = before ++ l :: after →
    (∀ k ∈ before, (w.address s x k).toNat % sizeBytes w.size = 0) → (w.address s x l).toNat % sizeBytes w.size ≠ 0 →
    exec i s = .next (s.trapped x .misalign (if w.u then none else some l) 0)) ∧
  (∀ (s : State) (x : Issue) (w : MWord), ∀ i ∈ [Instr.atom w, .red w], s.iss = some x → x.staticCause s.dev i = none →
    x.dynVerdict s.dev i = .go → (s.dev.ctx (s.dev.ctxOf x.agent)).promise = true →
    (i = .red w → bitsOf w.func 0 4 = 8) → exec i s = .next (s.trapped x .determ none 0))

/-- R308, R310 and R313 to R315: a lane of `red.ord` stages a contribution with its key, and memory stays; it waits while its core's
buffer has no room, and a contribution or a turn position for which no spill page can be had traps with CAPACITY; `eflush` closes the group's
epoch, and with `.wait` holds it until the flush; `append` and `atom.ord.add` claim a stream and wait for their turn, and
`append.decl` declines one; a group that has claimed or declined a stream, or claims one of the other kind, traps with ILLEGAL. -/
def Obligations.OrderedFormsStageAndClaim : Prop :=
  let ordinary := fun (s : State) (x : Issue) (ea : DWord) (n pa : Nat) =>
    bitsOf ea 56 8 = 0 ∧ (s.dev.ctx (s.dev.ctxOf x.agent)).inScratch ea.toNat = false ∧ ea.toNat % n = 0 ∧
    s.dev.reach x.agent (s.dev.view x.agent).priv .atomic ea n = .ok ((List.range n).map (fun i => .mem (pa + i)))
  let positions := fun (s : State) (c : Nat) (ea : DWord) => (s.dev.modCtx c (fun k => k.modStream ea id)).spillOver
  let kept := fun (g h : Group) =>
    h = { g with slices := h.slices, queues := h.queues, region := h.region, vEmpty := h.vEmpty, ordSeq := h.ordSeq, eflushes := h.eflushes }
  let unregioned := fun (g h : Group) => kept g h ∧ h.region = none
  (∀ (s : State) (x : Issue) (w : MWord) (b k : Nat) (pa : Nat → Nat), Ready s x (.redOrd w) → GangOk s x → x.agent = .group b k →
    (∀ l ∈ x.act, ordinary s x (w.address s x l) (sizeBytes w.size) (pa l)) →
    let g := s.dev.view x.agent
    Fmap.wf 0 g.ordSeq = true → (∀ l ∈ x.act, Fmap.get 0 g.ordSeq l + 1 < 2 ^ 32) →
    let c := s.dev.ctxOf x.agent
    let staged := (s.dev.ctx c).staged ++ x.act.map (fun l =>
      { addr := pa l, ea := w.address s x l, blk := ((s.dev.block b).idx * 16 + k) / 16, grp := ((s.dev.block b).idx * 16 + k) % 16,
        lane := l, seq := Fmap.get 0 g.ordSeq l, epoch := g.eflushes, fadd := bitOf w.func 3, wide := w.size == 3,
        x := w.dataVal x.view g l, core := (s.dev.block b).core, buffered := true })
    c < s.dev.ctxs.length →
    if 4096 < s.dev.eaveUse (s.dev.block b).core + x.act.length then exec (.redOrd w) s = .next (s.waitNow x)
    else if (s.dev.modCtx c (fun k => { k with staged := staged })).spillOver = true then
      exec (.redOrd w) s = .next (s.trapped x .capacity none 0)
    else ∃ t, exec (.redOrd w) s = .next t ∧ (t.dev.ctx c) = { s.dev.ctx c with staged := staged } ∧
      (∀ q ≠ c, t.dev.ctx q = s.dev.ctx q) ∧ SameBytes s t ∧ s.sameBut t x.agent { s.dev with ctxs := t.dev.ctxs } ∧
      t.dev.fills = s.dev.fills ∧
      let h := t.dev.view x.agent
      unregioned g h ∧ h.vEmpty = g.vEmpty ∧ h.eflushes = g.eflushes ∧
      (∀ i, h.slice i = { g.slice i with qpos := (h.slice i).qpos }) ∧
      ∀ l, Fmap.get 0 h.ordSeq l = if l ∈ x.act then Fmap.get 0 g.ordSeq l + 1 else Fmap.get 0 g.ordSeq l) ∧
  (∀ (s : State) (x : Issue) (w : MWord) (b k : Nat), Cleared s x (.eflush w) → ActsNow s x (.eflush w) → x.agent = .group b k →
    let g := s.dev.view x.agent
    let n := g.eflushes + 1
    ∃ t, exec (.eflush w) s = .next t ∧ s.sameBeside t x.agent ∧ t.dev.fills = s.dev.fills ∧
      let h := t.dev.view x.agent
      let waits := bitOf w.func 0 = true ∧ (s.dev.ctx (s.dev.ctxOf x.agent)).flushes < n
      kept (x.joined g) h ∧ h.region = (if waits then g.region else none) ∧ h.vEmpty = g.vEmpty ∧ h.ordSeq = g.ordSeq ∧ h.eflushes = n ∧
      (x.joined g).heldAs h (if waits then .flush n else .free)) ∧
  (∀ (s : State) (x : Issue) (w : MWord) (b k pa : Nat) (isAppend : Bool),
    let i : Instr := if isAppend then .append w else .atomOrdAdd w
    let ea := w.addrFull (x.view.sAt w.base.toNat) (x.view.sAt w.index.toNat)
    let n := if isAppend then 16 else sizeBytes w.size
    let c := s.dev.ctxOf x.agent
    let key := (s.dev.block b).idx * 16 + k
    let st := (s.dev.ctx c).stream ea
    Cleared s x i → ActsNow s x i → x.agent = .group b k → ordinary s x ea n pa → (s.dev.view x.agent).regsWf = true →
    c < s.dev.ctxs.length →
    if key ∈ st.past ∨ st.isAppend = some (!isAppend) then exec i s = .next (s.trapped x .illegal none 0)
    else if positions s c ea = true then exec i s = .next (s.trapped x .capacity none 0)
    else ∃ t q, exec i s = .next t ∧
      (t.dev.ctx c).stream ea = { st with isAppend := some isAppend, past := st.past ++ [key], waiting := st.waiting ++ [q] } ∧
      q.blk = b ∧ q.slot = k ∧ q.word = i ∧ q.locs = (List.range n).map (fun i => .mem (pa + i)) ∧
      (∀ j < 64, bitOf q.issued j = true ↔ j ∈ x.allJoined (s.dev.view x.agent)) ∧
      (∀ l < 256, bitOf q.lanes l = true ↔ l ∈ x.allLanes (s.dev.view x.agent)) ∧
      (∀ l, Fmap.get 0 q.vals l = x.laneRead (s.dev.view x.agent) (w.dataVal x.view x.view) l) ∧
      (∀ e ≠ ea, (t.dev.ctx c).stream e = (s.dev.ctx c).stream e) ∧ (∀ q ≠ c, t.dev.ctx q = s.dev.ctx q) ∧ SameBytes s t ∧
      s.sameBut t x.agent { s.dev with ctxs := t.dev.ctxs } ∧ t.dev.fills = s.dev.fills ∧
      let g := s.dev.view x.agent
      let h := t.dev.view x.agent
      kept (x.joined g) h ∧ h.region = g.region ∧ h.ordSeq = g.ordSeq ∧ h.eflushes = g.eflushes ∧ (x.joined g).heldAs h .unit ∧
      ∀ r j, j < 64 → (h.vIsEmpty r j = true ↔ g.vIsEmpty r j = true ∨ (j ∈ x.slices ∧ inRegs w.d.toNat (!isAppend && w.size == 3) r))) ∧
  (∀ (s : State) (x : Issue) (w : MWord) (b k pa : Nat),
    let ea := w.addrFull (x.view.sAt w.base.toNat) (x.view.sAt w.index.toNat)
    let c := s.dev.ctxOf x.agent
    let key := (s.dev.block b).idx * 16 + k
    let st := (s.dev.ctx c).stream ea
    Cleared s x (.appendDecl w) → ActsNow s x (.appendDecl w) → x.agent = .group b k → ordinary s x ea 16 pa → c < s.dev.ctxs.length →
    if key ∈ st.past then exec (.appendDecl w) s = .next (s.trapped x .illegal none 0)
    else if positions s c ea = true then exec (.appendDecl w) s = .next (s.trapped x .capacity none 0)
    else ∃ t, exec (.appendDecl w) s = .next t ∧ (t.dev.ctx c).stream ea = { st with past := st.past ++ [key] } ∧
      (∀ e ≠ ea, (t.dev.ctx c).stream e = (s.dev.ctx c).stream e) ∧ (∀ q ≠ c, t.dev.ctx q = s.dev.ctx q) ∧ SameBytes s t ∧
      s.sameBut t x.agent { s.dev with ctxs := t.dev.ctxs } ∧ t.dev.fills = s.dev.fills ∧
      let g := s.dev.view x.agent
      let h := t.dev.view x.agent
      unregioned (x.joined g) h ∧ h.vEmpty = g.vEmpty ∧ h.ordSeq = g.ordSeq ∧ h.eflushes = g.eflushes ∧ (x.joined g).heldAs h .free)

/-- R220, R227, R228, R230, R237 to R240 and R243: `cp` hands the engine a copy of each byte of each row and owns the lines it writes, whose
mapped entries become unfilled; `cpclose`
makes the pending copies a batch and gives its number; `cpwait` waits for the batches up to a number, and traps with ECC when an
error met one; `qld` allocates an entry at the tail of a queue with its lanes' loads to come, or waits while it holds two; for a group that has exited,
or a spawned group, it pushes nothing. The number of the batch that `cpwait` reports is the model's reading (assumption 64). -/
def Obligations.CopiesAndQueueLoadsAreHandedToTheirEngines : Prop :=
  (∀ (s : State) (x : Issue) (w : MWord) (b k : Nat) (loc : Nat → Nat → Loc), Cleared s x (.cp w) → ActsNow s x (.cp w) →
    x.agent = .group b k →
    let g := s.dev.view x.agent
    let a := fun i => x.view.sAt (w.d.toNat + i)
    let off := (bitsOf (a 0) 0 32).toNat
    let L := (bitsOf (a 1) 0 32).toNat
    let H := (bitsOf (a 1) 32 32).toNat
    let T := (bitsOf (a 2) 32 32).toNat
    let out := bitOf w.func 0
    let va := fun (r i : Nat) => w.addrFull (x.view.sAt w.base.toNat) (x.view.sAt w.index.toNat) +
      BitVec.ofNat 64 r * sext (bitsOf (a 2) 0 32) + BitVec.ofNat 64 i
    if bitsOf (a 0) 32 32 ≠ 0 ∨ L = 0 ∨ H = 0 ∨ 65536 < L * H then exec (.cp w) s = .next (s.trapped x .illegal none 0)
    else
      (∀ r < H, ∀ i < L, bitsOf (va r i) 56 8 = 0 ∧ isRemote (loc r i) = false ∧ 128 ≤ off + r * T + i ∧
        off + r * T + i < (s.dev.block b).stashBytes ∧
        s.dev.reach x.agent g.priv (if out then .store else .load) (va r i) 1 = .ok [loc r i]) →
      s.dev.copies.length < 256 → (∀ n, s.dev.owned n = false) →
      let pairs := (List.range H).flatMap (fun r => (List.range L).map (fun i => (loc r i, Loc.stash b (off + r * T + i))))
      ∃ t op, exec (.cp w) s = .next t ∧ op.blk = b ∧ op.slot = k ∧ op.id = s.dev.copyId + 1 ∧ op.out = out ∧
        op.pieces.flatMap (pieceLocs b) = pairs ∧ op.lines = s.dev.linesOf (pairs.map (if out then Prod.fst else Prod.snd)) ∧
        op.bytes = [] ∧ op.sent = false ∧ op.bad = false ∧
        (let B := s.dev.blocks.mapIdx (fun n (k : Block) => { k with maps := (t.dev.block n).maps })
         s.sameBut t x.agent { s.dev with copies := s.dev.copies ++ [op], copyId := s.dev.copyId + 1, blocks := B }) ∧
        (∀ n, (t.dev.block n).maps.map (fun m => (m.off, m.len, m.lines)) = (s.dev.block n).maps.map (fun m => (m.off, m.len, m.lines))) ∧
        (out = true → ∀ n < s.dev.blocks.length, ∀ m ∈ (t.dev.block n).maps, ∀ e ∈ m.filled, ∀ line ∈ op.lines, m.lines[e.1]? ≠ some line) ∧
        t.dev.fills = s.dev.fills ∧ SameBytes s t ∧
        let h := t.dev.view x.agent
        h = { (x.joined g) with slices := h.slices, openCopies := g.openCopies ++ [op.id] } ∧ (x.joined g).heldAs h .free) ∧
  (∀ (s : State) (x : Issue) (w : MWord) (b k : Nat), Cleared s x (.cpclose w) → ActsNow s x (.cpclose w) → x.agent = .group b k →
    (s.dev.view x.agent).regsWf = true →
    let g := s.dev.view x.agent
    let n := g.copySeq + 1
    let ids := g.openCopies.filter (fun i => s.dev.copies.any (fun c => c.id == i))
    ∃ t, exec (.cpclose w) s = .next t ∧ s.sameBeside t x.agent ∧ t.dev.fills = s.dev.fills ∧
      let h := t.dev.view x.agent
      h = { (x.joined g) with s := h.s, sEmpty := h.sEmpty, sBad := h.sBad, slices := h.slices, queues := h.queues, region := none, copySeq := n,
                              openCopies := [], openBad := false, batches := h.batches, badBatches := h.badBatches } ∧
      h.batches = (if ids = [] then g.batches else g.batches ++ [(n, ids)]) ∧
      h.badBatches = (if g.openBad = true then g.badBatches ++ [n] else g.badBatches) ∧
      h.sAt w.d.toNat = BitVec.ofNat 64 n ∧ h.sIsEmpty w.d.toNat = false ∧
      (∀ q ≠ w.d.toNat, h.sAt q = g.sAt q ∧ h.sIsEmpty q = g.sIsEmpty q) ∧ (x.joined g).heldAs h .free) ∧
  (∀ (s : State) (x : Issue) (w : MWord), Cleared s x (.cpwait w) →
    let n := (x.view.sAt w.index.toNat).toNat
    let g := s.dev.view x.agent
    exec (.cpwait w) s = .next (if ∃ b ∈ g.batches, b.1 ≤ n then s.waitNow x
      else match g.badBatches.find? (fun b => b ≤ n) with
        | some b => s.trapped x .ecc none (BitVec.ofNat 16 b)
        | none => s)) ∧
  (∀ (s : State) (x : Issue) (w : MWord) (b : Nat) (ls : Nat → List Loc), Ready s x (.qld w) → GangOk s x → x.agent = .access b →
    let slot := (bitsOf w.func 0 4).toNat
    let q := (bitsOf w.d 0 3).toNat
    let g := (s.dev.block b).group slot
    let u := (g.queues[q]?).getD default
    if (s.dev.ctx (s.dev.block b).ctx).packet.groups ≤ slot then exec (.qld w) s = .next (s.trapped x .illegal none 0)
    else
      (∀ l < 256, s.dev.reach x.agent x.view.priv .load (x.view.sAt w.base.toNat + BitVec.ofNat 64 l * x.view.sAt w.index.toNat +
        w.off.signExtend 64 * BitVec.ofNat 64 (sizeBytes w.size)) (sizeBytes w.size) = .ok (ls l) ∧ ∀ m ∈ ls l, s.dev.answers m) →
      exec (.qld w) s = .next (if g.exited = true ∨ g.spawned = true then s else if 2 ≤ u.entries.length then s.waitNow x
        else { s with dev :=
          ({ s.dev with
              fab := { s.dev.fab with tags := s.dev.fab.tags + 1 }
              qfills := s.dev.qfills ++
                [{ blk := b, slot := slot, q := q, entry := u.base + u.entries.length, locs := (List.range 256).map ls, size := w.size,
                   await := 0, tag := s.dev.fab.tags + 1, words := [], err := [], acq := bitOf w.order 0 }] } : Device).modGroup b slot (fun g =>
            { g with queues := g.queues.mapIdx (fun n (u : Queue) =>
                if n = q then { u with entries := u.entries ++ [({ words := [], filled := false, err := [] } : QEntry)] } else u) }) }))

/-- R220, R244 to R246: `stmap` makes a run of stash bytes stand for lines of memory, with nothing filled, and ends the region; `stfl`
leaves the entries that its range holds whole clean; `stunmap` removes a mapping, whose filled entries keep their bytes while the others
read as the scratch that `stmap` cleared. No other byte changes, and each stops as its rule says. -/
def Obligations.StashMappingsStandForMemory : Prop :=
  let others := fun (b : Nat) (s t : State) (x : Issue) =>
    s.sameBut t x.agent (s.dev.modBlock b (fun k => { k with maps := (t.dev.block b).maps, stash := (t.dev.block b).stash })) ∧
    t.dev.fills = s.dev.fills ∧
    let g := x.joined (s.dev.view x.agent)
    let h := t.dev.view x.agent
    h = { g with slices := h.slices, queues := h.queues, region := h.region } ∧ g.heldAs h .free
  let releases := fun (w : MWord) (s : State) (x : Issue) => w.scope = 5 → w.order.getLsbD 1 = true → s.dev.noneFailed x.agent (List.range 64)
  (∀ (s : State) (x : Issue) (w : MWord) (b k : Nat) (line : Nat → Nat), Cleared s x (.stmap w) → ActsNow s x (.stmap w) → x.agent = .group b k →
    s.dev.filesWf = true →
    let g := s.dev.view x.agent
    let B := s.dev.block b
    let ea := w.addrFull (x.view.sAt w.base.toNat) (x.view.sAt w.index.toNat)
    let off := (bitsOf (x.view.sAt w.d.toNat) 0 32).toNat
    let len := (bitsOf (x.view.sAt w.d.toNat) 32 32).toNat
    let va := fun (i : Nat) => ea + BitVec.ofNat 64 (i * 128)
    let stops := fun c => exec (.stmap w) s = .next (s.trapped x c none 0)
    if ea.toNat % 128 ≠ 0 then stops .misalign
    else if off % 128 ≠ 0 ∨ len % 128 ≠ 0 ∨ len = 0 then stops .illegal
    else
      (len ≤ 2 ^ 20 ∧ ∀ i < len / 128, bitsOf (va i) 56 8 = 0 ∧ (s.dev.ctx B.ctx).inScratch (va i).toNat = false ∧
        s.dev.held [.mem (line i * 128)] = false ∧ s.dev.reach x.agent g.priv .atomic (va i) 1 = .ok [.mem (line i * 128)]) →
      if B.stashBytes < off + len ∨ off < 128 ∨ (∃ m ∈ B.maps, m.off < off + len ∧ off < m.off + m.len) then stops .perm
      else if 8 ≤ B.maps.length then stops .capacity
      else ∃ t, exec (.stmap w) s = .next t ∧ others b s t x ∧ (t.dev.view x.agent).region = none ∧
        (t.dev.block b).maps = B.maps ++ [{ off := off, len := len, lines := (List.range (len / 128)).map line, filled := [], dirty := [] }] ∧
        (∀ j < len, t.dev.byteAt (.stash b (off + j)) = s.dev.byteAt (.mem (line (j / 128) * 128 + j % 128)) ∧
          Fmap.get 0 (t.dev.block b).stash (off + j) = 0) ∧
        ∀ l, (∀ j < len, l ≠ .stash b (off + j)) → t.dev.byteAt l = s.dev.byteAt l) ∧
  (∀ (s : State) (x : Issue) (w : MWord) (b k : Nat), Cleared s x (.stfl w) → ActsNow s x (.stfl w) → x.agent = .group b k →
    let B := s.dev.block b
    let off := (bitsOf (x.view.sAt w.d.toNat) 0 32).toNat
    let len := (bitsOf (x.view.sAt w.d.toNat) 32 32).toNat
    if B.stashBytes < off + len then exec (.stfl w) s = .next (s.trapped x .perm none 0)
    else releases w s x → ∃ t, exec (.stfl w) s = .next t ∧ others b s t x ∧ SameBytes s t ∧
      (t.dev.view x.agent).region = (s.dev.view x.agent).region ∧
      (t.dev.block b).maps = B.maps.map (fun m =>
        { m with dirty := m.dirty.filter (fun e => ¬ (off ≤ m.off + 128 * e.1 ∧ m.off + 128 * e.1 + 128 ≤ off + len)) })) ∧
  (∀ (s : State) (x : Issue) (w : MWord) (b k : Nat), Cleared s x (.stunmap w) → ActsNow s x (.stunmap w) → x.agent = .group b k →
    s.dev.filesWf = true →
    let B := s.dev.block b
    let off := (bitsOf (x.view.sAt w.d.toNat) 0 32).toNat
    let stops := fun c => exec (.stunmap w) s = .next (s.trapped x c none 0)
    if bitsOf (x.view.sAt w.d.toNat) 32 32 ≠ 0 then stops .illegal
    else if ∀ m ∈ B.maps, m.off ≠ off then stops .perm
    else ∀ pre m post, B.maps = pre ++ m :: post → m.off = off → (∀ n ∈ pre ++ post, n.off + n.len ≤ off ∨ off + m.len ≤ n.off) →
      off % 128 = 0 → 0 < m.len → m.len % 128 = 0 → (∀ n ∈ pre ++ post, 0 < n.len) → releases w s x →
      ∃ t, exec (.stunmap w) s = .next t ∧ others b s t x ∧ (t.dev.view x.agent).region = none ∧
        (t.dev.block b).maps = pre ++ post ∧
        (∀ j < m.len, t.dev.byteAt (.stash b (off + j)) =
          if Fmap.get false m.filled (j / 128) = true then s.dev.byteAt (.stash b (off + j)) else Fmap.get 0 B.stash (off + j)) ∧
        ∀ l, (∀ j < m.len, l ≠ .stash b (off + j)) → t.dev.byteAt l = s.dev.byteAt l)

/-- R136, R137 and R373: `bar.sync` and `bar.arrive` complete: each slice of the gang arrives, one after the other. A replay joins the phase of
its first time; a second arrival in a phase waits for it and is counted in the next; any other is counted, and the group arrives with its last
live slice, in the form of the arrival, completes the phase when the arrivals reach the count, and releases all who wait for it. `bar.sync`
holds its slices until then; `bar.wait` holds for the phase of a slice's last arrival, or the current one. A count out of range, and
an arrival with another form than the phase's, trap with ILLEGAL. That a group's form is that of the slice that issued last, and that a
second arrival is held and arrives by itself once its phase is complete, is the model's choice (assumption 62). -/
def Obligations.NamedBarriersCountGroupsAndReleaseWaiters : Prop :=
  (∀ (s : State) (x : Issue) (w : MWord) (b k : Nat), x.agent = .group b k → GangOk s x →
    let id := w.d.toNat
    let X := s.dev.bar b id
    let g := s.dev.view x.agent
    let bits := Fmap.get 0 X.issued (b * 16 + k)
    s.dev.barOk b id →
    (∀ sync : Bool,
      let i : Instr := if sync then .barSync w else .barArrive w
      let n := (x.view.sAt w.index.toNat).toNat
      let form := if w.u then some n else none
      let whole := ∀ j ∈ g.liveSlices, bitOf bits j = true ∨ (j ∈ x.slices ∧ s.dev.counts b k id j)
      let other := whole ∧ ∃ f, X.form = some f ∧ f ≠ form
      Cleared s x i →
      if w.u = true ∧ (n < 1 ∨ (if id < 24 then 16 else 64) < n) then exec i s = .next (s.trapped x .illegal none 0)
      else
        (∀ j ∈ x.slices, j ∈ g.liveSlices) →
        (other → (∃ j ∈ x.slices, s.dev.counts b k id j) → exec i s = .next (s.trapped x .illegal none 0)) ∧
        (¬ other → ∃ D : Nat → Device, D 0 = s.dev ∧
          (∀ m j, x.slices[m]? = some j → (D m).Arrives (D (m + 1)) b k id j { form := form, pc := x.pc, idx := x.word } sync) ∧
          exec i s = .next { s with dev := (D x.slices.length).barLates b id })) ∧
    (Cleared s x (.barWait w) → ∃ t, exec (.barWait w) s = .next t ∧ s.sameBeside t x.agent ∧ t.dev.fills = s.dev.fills ∧
      let h := t.dev.view x.agent
      h = { g with slices := h.slices } ∧ ∀ j, h.slice j = { g.slice j with hold :=
        if j ∈ x.slices then
          (match Fmap.get 0 (g.slice j).barPhase id with
            | 0 => .bar id X.phases
            | p + 1 => if X.phases ≤ p then .bar id p else (g.slice j).hold)
        else (g.slice j).hold })) ∧
  ∀ (d : Device) (b id : Nat), d.barOk b id →
    let slice := fun (q : Nat × Nat × Nat) => ((d.block q.1).group q.2.1).slice q.2.2
    let again := fun (q : Nat × Nat × Nat) => Fmap.get 0 (slice q).barPhase id ≠ (d.bar b id).phases + 1
    ((∀ q ∈ d.lates b id, ¬ again q) → d.barLates b id = d) ∧
    ∀ pre q post want sync, d.lates b id = pre ++ q :: post → (∀ r ∈ pre, ¬ again r) → again q → (slice q).hold = .late id want sync →
      (∀ r f, (d.bar b id).form = some f → f ≠ want.form → ¬ ∀ j ∈ ((d.block q.1).group q.2.1).liveSlices,
        j = r ∨ bitOf (Fmap.get 0 (d.bar b id).issued (q.1 * 16 + q.2.1)) j = true) →
      ∃ e, (d.modGroup q.1 q.2.1 (fun g => g.modSlice q.2.2 (fun s => { s with hold := .free }))).Arrives e q.1 q.2.1 id q.2.2 want sync ∧
        d.barLates b id = e.barLates b id

/-- R132 to R134: an arrival on a slot counts one, or flips its phase bit and clears the count when the count is full; a group arrives
when the last of its live slices has issued, a thread each time; `pbar.wait` passes once the phase bit differs from its operand. -/
def Obligations.PhaseBarriersCountInTheStash : Prop :=
  ∀ (s : State) (x : Issue) (w : MWord) (b p : Nat), GangOk s x → x.agent.blk? = some b → s.dev.memWf = true → s.dev.filesWf = true →
    let v := x.view.sAt w.base.toNat
    (if w.scope = 1 then p = b else v.toNat < 4 ∧ s.dev.peerBlock b v.toNat = some p) → (s.dev.block p).stashBytes ≠ 0 →
    let n := w.d.toNat
    let byte := fun i => s.dev.byteAt (.stash p (8 * n + i))
    let c := (byte 0).toNat + 256 * (byte 1).toNat + 1
    let full := (byte 2).toNat + 256 * (byte 3).toNat + 1 ≤ c
    let stored := [(Loc.stash p (8 * n), if full then 0 else BitVec.ofNat 8 c),
      (.stash p (8 * n + 1), if full then 0 else BitVec.ofNat 8 (c / 256)), (.stash p (8 * n + 2), byte 2), (.stash p (8 * n + 3), byte 3),
      (.stash p (8 * n + 4), if full then byte 4 ^^^ 1 else byte 4), (.stash p (8 * n + 5), byte 5), (.stash p (8 * n + 6), byte 6),
      (.stash p (8 * n + 7), byte 7)]
    (Cleared s x (.pbarArrive w) →
      (x.agent.isGroup = false → ∃ t, exec (.pbarArrive w) s = .next t ∧ Stored s t x stored) ∧
      (∀ k, x.agent = .group b k →
        let g := s.dev.view x.agent
        let key := p * 16 + n
        let cnt := fun i => Fmap.get 0 (g.slice i).pbarCnt key
        (∀ j ∈ x.slices, j ∈ g.liveSlices) → (∀ j ∈ g.liveSlices, Fmap.get 0 g.pbarDone key ≤ cnt j) →
        (∃ j ∈ g.liveSlices, cnt j = Fmap.get 0 g.pbarDone key) → Fmap.wf 0 g.pbarDone = true →
        (∀ j, Fmap.wf 0 (g.slice j).pbarCnt = true) →
        let last := ∀ j ∈ g.liveSlices, Fmap.get 0 g.pbarDone key < cnt j + if j ∈ x.slices then 1 else 0
        ∃ m t, exec (.pbarArrive w) s = .next t ∧ s.sameBeside m x.agent ∧ m.dev.fills = s.dev.fills ∧
          let h := m.dev.view x.agent
          h = { g with slices := h.slices, pbarDone := h.pbarDone } ∧
          (∀ q, Fmap.get 0 h.pbarDone q = if q = key ∧ last then Fmap.get 0 g.pbarDone key + 1 else Fmap.get 0 g.pbarDone q) ∧
          (∀ j, h.slice j = { g.slice j with pbarCnt := (h.slice j).pbarCnt } ∧
            ∀ q, Fmap.get 0 (h.slice j).pbarCnt q = Fmap.get 0 (g.slice j).pbarCnt q + if q = key ∧ j ∈ x.slices then 1 else 0) ∧
          (last → Stored m t x stored) ∧ (¬ last → t = m))) ∧
    (Cleared s x (.pbarWait w) →
      exec (.pbarWait w) s = .next (if bitOf (byte 4) 0 ≠ bitOf w.func 0 then s else s.waitNow x))

/-- R319 to R322: `fence` completes once the release it may be can; `monwait` ends at once on a value that meets its condition, and else
arms an entry and holds its agent; `monwake` calls the armed entries of the line whose owners share its scope, and wakes what
polls; `drain` joins the open phase and holds its group, or traps with ECC after a message failed. What `monwake.sys` sends to other devices
(assumption 51), the cores that a `monwake` reaches among pollers (assumption 29), and that a `drain` after a failed message ends the phase on
the other devices too (assumption 61) are the model's choice. -/
def Obligations.FencesMonitorsAndDrains : Prop :=
  (∀ (s : State) (x : Issue) (w : MWord), Cleared s x (.fence w) →
    (MayRelease w s x → exec (.fence w) s = .next s) ∧ (¬ MayRelease w s x → exec (.fence w) s = .next (s.releaseFails x))) ∧
  (∀ (s : State) (x : Issue) (it : Item) (w : MWord), it.instr = some (.fence w) → s.iss = some x → x.status = .run →
    w.order.getLsbD 1 = true → (∃ r ∈ s.dev.fab.remotes, r.agent = some x.agent ∧ r.failed = false ∧
      (r.parts = [] ∨ ∃ p ∈ r.parts, ∀ l, p.lane = some l → l / 4 ∈ x.slices) ∧
      ((∃ n, r.use = .fill n) ∨ ((r.kind = 2 ∨ r.kind = 4) ∧ r.use = .done))) →
    s.perform x it s.dev = s.waitNow { x.at it s.dev with moved := x.moved }) ∧
  (∀ (s : State) (x : Issue) (w : MWord) (ls : List Loc), Cleared s x (.monwait w) → ActsNow s x (.monwait w) →
    (s.dev.view x.agent).regsWf = true →
    let ea := w.addrFull (x.view.sAt w.base.toNat) (x.view.sAt w.index.toNat)
    let n := sizeBytes w.size
    let g := s.dev.view x.agent
    let r := w.d.toNat
    let v := littleOf s.dev.byteAt ls
    let old := if w.size = 3 then x.view.sAt r else zext (bitsOf (x.view.sAt r) 0 32)
    let met := if bitOf w.func 0 then old ≤ v else v ≠ old
    s.dev.reach x.agent g.priv .load ea n = .ok ls → (∀ m ∈ ls, s.dev.answers m) → s.dev.held ls = false →
    if ea.toNat % n ≠ 0 then exec (.monwait w) s = .next (s.trapped x .misalign none 0)
    else ∃ t, exec (.monwait w) s = .next t ∧ SameBytes s t ∧ t.dev.fills = s.dev.fills ∧
      let h := t.dev.view x.agent
      h = { (x.joined g) with s := h.s, sEmpty := h.sEmpty, sBad := h.sBad, slices := h.slices, queues := h.queues, region := h.region } ∧
      (∀ q ≠ r, h.sAt q = g.sAt q ∧ h.sIsEmpty q = g.sIsEmpty q) ∧
      (met → (s.touched ls).sameBeside t x.agent ∧ h.region = none ∧ h.sAt r = v ∧ h.sIsEmpty r = false ∧ (x.joined g).heldAs h .free) ∧
      (¬ met → h.region = g.region ∧ h.sAt r = g.sAt r ∧ h.sIsEmpty r = true ∧ (x.joined g).heldAs h .unit ∧
        ∃ m, s.sameBut t x.agent { s.dev.touchLoads ls with monitors := s.dev.monitors ++ [m] } ∧ m.agent = x.agent ∧ m.ea = ea ∧
          m.geu = bitOf w.func 0 ∧ m.wide = (w.size == 3) ∧ m.sreg = w.d ∧ m.val = x.view.sAt r ∧ m.called = false ∧
          m.core = s.dev.coreOf x.agent ∧
          m.far = false ∧ sameWords m.inst.word (.monwait w) = true ∧
          (x.agent.isGroup = true → ∀ j < 64, bitOf m.inst.issued j = true ↔ j ∈ x.allJoined g) ∧ m.win = (s.dev.ctx (s.dev.ctxOf x.agent)).spwin ∧ m.lim = (s.dev.ctx (s.dev.ctxOf x.agent)).splim ∧
          let used := (s.dev.monitors.filter (fun m => m.core == s.dev.coreOf x.agent && m.line.isSome)).length +
            s.dev.frontEntries (s.dev.coreOf x.agent)
          (used < 64 → m.line = ls.head?.map (fun l => lineKey (s.dev.settle l))) ∧ (64 ≤ used → m.line = none))) ∧
  (∀ (s : State) (x : Issue) (w : MWord) (l : Loc), Ready s x (.monwake w) → GangOk s x →
    s.dev.reach x.agent x.view.priv .load (w.addrFull (x.view.sAt w.base.toNat) (x.view.sAt w.index.toNat)) 1 = .ok [l] →
    MayRelease w s x →
    ∃ t, exec (.monwake w) s = .next t ∧ SameBytes s t ∧
      s.dev.sameBesideMemory { t.dev with monitors := s.dev.monitors, fab := s.dev.fab } x.agent ∧ (w.scope ≠ 5 → t.dev.fab = s.dev.fab) ∧
      (∀ pa, s.dev.settle l = .mem pa → pa < 2 ^ 38 ∨ 2 ^ 50 ≤ pa → w.scope = 5 → s.dev.ham.listed = true → ∀ n ∈ s.dev.peers, ∃ m ∈ t.dev.fab.outbox,
        m.dst = n ∧ m.cls = 2 ∧ m.addr = pa ∧ m.data = zext s.dev.ham.devNum ∧ m.cells = [] ∧ m.counted = false) ∧
      t.dev.monitors = s.dev.monitors.map (fun m =>
        if m.line = some (lineKey (s.dev.settle l)) ∧ s.dev.shares w.scope x.agent m.agent = true then { m with called := true }
        else if m.line = none ∧ s.dev.wakesCore w.scope x.agent m.core = true then { m with woken := true }
        else m)) ∧
  (∀ (s : State) (x : Issue) (w : MWord) (b k : Nat), Cleared s x (.drain w) → ActsNow s x (.drain w) → x.agent = .group b k →
    (s.dev.view x.agent).regsWf = true →
    let c := s.dev.ctxOf x.agent
    let g := s.dev.view x.agent
    let fails := (s.dev.ctx c).failedMsg = true ∨ ¬ s.dev.noneFailed x.agent (List.range 64)
    (fails → ∃ t, exec (.drain w) s = .next t ∧
        t.dev = ((((x.base.failOthers c).failPhase c).modCtx c (fun k => { k with failedMsg := false })).clearFailed x.agent (List.range 64)).trapEntry
          x.agent x.slices x.pc x.word Cause.ecc.code none 0 false false) ∧
    (¬ fails → c < s.dev.ctxs.length → ∃ t, ∃ q0 : DrainReq, exec (.drain w) s = .next t ∧ SameBytes s t ∧ t.dev.fills = s.dev.fills ∧
      (∀ q, t.dev.ctx q = if q = c then { s.dev.ctx c with drains := (s.dev.ctx c).drains ++ [q0] } else s.dev.ctx q) ∧
      q0.blk = b ∧ q0.slot = k ∧ q0.sreg = w.d ∧ sameWords q0.inst.word (.drain w) = true ∧ (∀ j < 64, bitOf q0.inst.issued j = true ↔ j ∈ x.allJoined g) ∧
      s.sameBut t x.agent { s.dev with ctxs := t.dev.ctxs } ∧
      let h := t.dev.view x.agent
      h = { (x.joined g) with sEmpty := h.sEmpty, slices := h.slices } ∧ h.sIsEmpty w.d.toNat = true ∧
      (∀ q ≠ w.d.toNat, h.sIsEmpty q = g.sIsEmpty q) ∧ (x.joined g).heldAs h .unit))

/-- R42, R43, R72 to R74, R333 to R335: `nop`, `guard` and an `ext` that a word takes change nothing, and a stray `ext` traps with ILLEGAL;
`br`, `bri`, `call` and `ret` move each slice of the gang, with its path entry in the conditional form, or a thread by its own
predicate; `join` pops an entry. A conditional form at depth 16 traps with STACKFULL, `join` on an empty stack with ILLEGAL. -/
def Obligations.ControlWordsMoveEachSlice : Prop :=
  let moves := fun (s : State) (x : Issue) (i : Instr) (P : Nat → Slice → Slice → Prop) =>
    ∃ t, exec i s = .next t ∧ s.sameBeside { t with iss := s.iss } x.agent ∧ t.iss = some { x with moved := true } ∧
      t.dev.fills = s.dev.fills ∧
      let g := s.dev.view x.agent
      let h := t.dev.view x.agent
      h = { g with slices := h.slices } ∧ h.slices.length = g.slices.length ∧ (∀ j, j ∉ x.slices → h.slice j = g.slice j) ∧
      (∀ j ∈ x.slices, P j (g.slice j) { h.slice j with parted := (g.slice j).parted, former := (g.slice j).former }) ∧
      let apart := x.agent.isGroup = true ∧ ∃ i ∈ x.slices, ∃ j ∈ x.slices, (h.slice i).pc ≠ (h.slice j).pc
      (apart → ∀ j ∈ x.slices, (h.slice j).parted = true ∧ ∀ n < 64, bitOf (h.slice j).former n = decide (n ∈ x.slices)) ∧
      (¬ apart → ∀ j ∈ x.slices, (h.slice j).parted = (g.slice j).parted ∧ (h.slice j).former = (g.slice j).former)
  let branch := fun (s : State) (x : Issue) (w : BWord) (link : Bool) (i : Instr) (target : Slice → Word) =>
    Cleared s x i → GangOk s x →
    let holds := fun (l : Nat) => x.view.pAt w.p.toNat l != w.neg
    if x.agent.isGroup = true ∧ w.cond = true ∧ ∃ j ∈ x.slices, 16 ≤ (x.view.slice j).stack.length then
      exec i s = .next (s.trapped x .stackFull none 0)
    else moves s x i (fun j u v =>
      if x.agent.isGroup = false then
        v = { u with pc := if w.cond = false ∨ holds 0 = true then target u else x.pc + 1,
                     lk := if link = true ∧ (w.cond = false ∨ holds 0 = true) then x.pc + 1 else u.lk }
      else if w.cond = false then v = { u with pc := target u, lk := if link then x.pc + 1 else u.lk }
      else ∃ T : BitVec 4, (∀ n < 4, T.getLsbD n = (u.mask.getLsbD n && holds (4 * j + n))) ∧
        if T = 0 then v = { u with pc := x.pc + 1, stack := { path := true, pc := target u, mask := 0, fmt := u.fmt } :: u.stack }
        else v = { u with
          pc := target u
          stack := { path := true, pc := x.pc + 1, mask := u.mask &&& ~~~T, fmt := u.fmt } :: u.stack
          mask := T
          lk := if link then x.pc + 1 else u.lk })
  (∀ (s : State) (x : Issue) (c : Bool), Cleared s x (.nop c) → exec (.nop c) s = .next s) ∧
  (∀ (s : State) (x : Issue) (w : GWord), Cleared s x (.guard w) → exec (.guard w) s = .next s) ∧
  (∀ (s : State) (x : Issue) (c : Bool) (p : Payload), Cleared s x (.ext c p) →
    exec (.ext c p) s = .next (if x.extOk then s else s.trapped x .illegal none 0)) ∧
  (∀ (s : State) (x : Issue) (w : BWord), branch s x w false (.br w) (fun _ => x.pc + w.off.signExtend 32)) ∧
  (∀ (s : State) (x : Issue) (w : BWord), branch s x w true (.call w) (fun _ => x.pc + w.off.signExtend 32)) ∧
  (∀ (s : State) (x : Issue) (w : BWord), branch s x w false (.ret w) (fun u => u.lk)) ∧
  (∀ (s : State) (x : Issue) (w : BWord), bitsOf (x.view.sAt w.sReg.toNat) 32 32 = 0 →
    branch s x w false (.bri w) (fun _ => bitsOf (x.view.sAt w.sReg.toNat) 0 32)) ∧
  (∀ (s : State) (x : Issue) (w : BWord), Cleared s x (.bri w) → bitsOf (x.view.sAt w.sReg.toNat) 32 32 ≠ 0 →
    exec (.bri w) s = .next (s.trapped x .illegal none 0)) ∧
  (∀ (s : State) (x : Issue) (w : BWord), Cleared s x (.join w) → GangOk s x →
    if ∃ j ∈ x.slices, (x.view.slice j).stack = [] then exec (.join w) s = .next (s.trapped x .illegal none 0)
    else (∀ j ∈ x.slices, ((s.dev.view x.agent).slice j).stack ≠ []) → x.agent.isGroup = true → moves s x (.join w) (fun _ u v =>
      ∃ e rest, u.stack = e :: rest ∧
        if e.path = true ∧ e.mask ≠ 0 then
          v = { u with stack := { path := false, pc := 0, mask := u.mask ||| e.mask, fmt := e.fmt } :: rest, mask := e.mask, fmt := e.fmt, pc := e.pc }
        else v = { u with stack := rest, mask := u.mask ||| e.mask, fmt := e.fmt, pc := x.pc + 1 }))

/-- R38, R44, R327, R336, R341 and R342: `regang` ends the parting of the gang's slices; `regang.all` does once the live slices of their
former mask all wait there, for all whose masks do at once; `region` of the whole group raises REC and records the entry, and a part of the
group waits, at one packet; `yield` stops every gang that is not already held while the core has a pending group, and is a no-op otherwise. That a
`yield` acts at the first gang's word of its count is assumption 16, and that gangs stop while any group is pending, ready or not, is
assumption 26. -/
def Obligations.RegangRegionAndYieldActOnTheirGroup : Prop :=
  let slices := fun (s t : State) (x : Issue) (f : Nat → Slice → Slice) =>
    s.sameBeside t x.agent ∧ t.dev.fills = s.dev.fills ∧
    (t.dev.view x.agent).slices.length = (s.dev.view x.agent).slices.length ∧
    ∀ j, (t.dev.view x.agent).slice j = f j ((s.dev.view x.agent).slice j)
  (∀ (s : State) (x : Issue) (w : BWord), Cleared s x (.regang w) → GangOk s x →
    let g := s.dev.view x.agent
    let held := fun j => (g.slice j).hold = .regang ∨ (j ∈ x.slices ∧ (g.slice j).parted = true)
    let former := fun i j => j < g.slices.length ∧ bitOf (g.slice i).former j = true ∧ (g.slice j).live ≠ 0
    let met := fun i => held i ∧ (g.slice i).live ≠ 0 ∧ ∀ j < g.slices.length, former i j → held j
    let goes := fun j => ∃ i < g.slices.length, met i ∧ (j = i ∨ former i j)
    ∃ t, exec (.regang w) s = .next t ∧ (t.dev.view x.agent) = { g with slices := (t.dev.view x.agent).slices } ∧
      (bitOf w.off 0 = false → slices s t x (fun j u => if j ∈ x.slices then { u with parted := false } else u)) ∧
      (bitOf w.off 0 = true → slices s t x (fun j u =>
        if goes j then { u with parted := false, hold := .free }
        else if j ∈ x.slices ∧ u.parted = true then { u with hold := .regang } else u))) ∧
  (∀ (s : State) (x : Issue) (w : BWord) (k : Nat), Cleared s x (.region w) → GangOk s x →
    let g := s.dev.view x.agent
    let waiting := fun (l : List GrpInst) => l.find? (fun y => y.k == k)
    let y := waiting g.regInsts
    let others := fun (l : List GrpInst) => l.filter (fun y => y.k != k)
    x.agent.isGroup = true → (∀ j ∈ x.slices, j ∈ g.liveSlices ∧ (g.slice j).regCnt = k) → (g.regInsts.map GrpInst.k).Nodup →
    (∀ o ∈ g.regInsts, o.k ≠ k → ∃ j ∈ g.liveSlices, bitOf o.issued j = false) →
    (∀ o ∈ y, o.pc ≠ x.pc → exec (.region w) s = .next (s.trapped x .illegal none 0)) ∧
    ((∀ o ∈ y, o.pc = x.pc) → ∃ t, exec (.region w) s = .next t ∧ s.sameBeside t x.agent ∧ t.dev.fills = s.dev.fills ∧
      let h := t.dev.view x.agent
      let issued := fun j => j ∈ x.slices ∨ ∃ o ∈ y, bitOf o.issued j = true
      h = { g with recCnt := h.recCnt, region := h.region, regionLanes := h.regionLanes, regInsts := h.regInsts, slices := h.slices,
                   queues := h.queues } ∧
      ((∀ j ∈ g.liveSlices, issued j) → h.recCnt = g.recCnt + 1 ∧ h.regInsts = others g.regInsts ∧ h.regionLanes = g.laneInsts ∧
        (∀ j, h.slice j = if j ∈ g.liveSlices then
          { g.slice j with
            regCnt := if j ∈ x.slices then k + 1 else (g.slice j).regCnt
            hold := if j ∈ x.slices ∨ (g.slice j).hold = .region k then .free else (g.slice j).hold
            barLog := [] }
          else g.slice j) ∧
        ∃ entry, h.region = some entry ∧ entry.length = g.slices.length ∧ ∀ j ∈ g.liveSlices, (entry[j]?).getD default =
          { h.slice j with pc := x.pc + 1 }) ∧
      ((∃ j ∈ g.liveSlices, ¬ issued j) → h.recCnt = g.recCnt ∧ h.region = g.region ∧ h.regionLanes = g.regionLanes ∧
        others h.regInsts = others g.regInsts ∧
        (∃ inst, waiting h.regInsts = some inst ∧ inst.pc = x.pc ∧ ∀ j < 64, bitOf inst.issued j = true ↔ issued j) ∧
        ∀ j, h.slice j = if j ∈ x.slices then { g.slice j with regCnt := k + 1, hold := .region k } else g.slice j))) ∧
  (∀ (s : State) (x : Issue) (w : BWord), Cleared s x (.yield w) → GangOk s x → x.agent.isGroup = true →
    let g := s.dev.view x.agent
    let first := ∃ j ∈ x.slices, g.yields ≤ (g.slice j).yieldCnt
    let stops := first ∧ s.dev.pending (s.dev.coreOf x.agent) ≠ []
    ∃ t, exec (.yield w) s = .next t ∧
      (t.dev.view x.agent) = { g with slices := (t.dev.view x.agent).slices, yields := (t.dev.view x.agent).yields } ∧
      (first → (t.dev.view x.agent).yields = g.yields + 1) ∧ (¬ first → (t.dev.view x.agent).yields = g.yields) ∧
      (stops → slices s t x (fun j u =>
        let v := if j ∈ x.slices then { u with yieldCnt := u.yieldCnt + 1 } else u
        if j ∈ g.liveSlices ∧ u.hold = .free then { v with hold := .yield } else v)) ∧
      (¬ stops → slices s t x (fun j u => if j ∈ x.slices then { u with yieldCnt := u.yieldCnt + 1 } else u)))

/-- R41, R45, R48, R338 and R340: `exit` ends the lanes of the gang's masks, or those that meet its condition, in masks, stacks and live
lanes, and the region; the group that has no lane left exits once its copies and the reads of its registers are done, and its
registers go. `brs` ends the lanes of the minority value and hands a record of each to the yelm former; without room for
them it traps with CAPACITY. A thread exits as a whole. (Stated where no barrier and no instance waits for the lanes.) -/
def Obligations.ExitAndSpawnEndLanes : Prop :=
  let alone := fun (s : State) (b k : Nat) =>
    let g := (s.dev.block b).group k
    g.exited = false ∧ g.laneInsts = [] ∧ g.grpInsts = [] ∧ g.regInsts = [] ∧
    (∀ id < 32, Fmap.get 0 (s.dev.bar b id).issued (b * 16 + k) = 0 ∧ s.dev.lates b id = []) ∧ ∀ j, (g.slice j).hold ≠ .regang ∧ (g.slice j).pbarCnt = []
  let cut := fun (ls : List Nat) (j : Nat) (m n : BitVec 4) => ∀ i < 4, n.getLsbD i = (m.getLsbD i && !decide (4 * j + i ∈ ls))
  let ended := fun (s t : State) (x : Issue) (ls : List Nat) =>
    let g : Group := s.dev.view x.agent
    let h : Group := t.dev.view x.agent
    t.dev.fills = s.dev.fills ∧ h = { g with slices := h.slices, queues := h.queues, region := none } ∧
    h.slices.length = g.slices.length ∧ ∀ j, let u : Slice := g.slice j
      let v : Slice := h.slice j
      v = { u with mask := v.mask, live := v.live, stack := v.stack } ∧ cut ls j u.mask v.mask ∧ cut ls j u.live v.live ∧
      v.stack.length = u.stack.length ∧ ∀ (n : Nat) (e f : StackEntry), (g.slice j).stack[n]? = some e → (h.slice j).stack[n]? = some f →
        f = { e with mask := f.mask } ∧ cut ls j e.mask f.mask
  let survives := fun (s : State) (x : Issue) (ls : List Nat) =>
    ∃ j < (s.dev.view x.agent).slices.length, ∃ i < 4, ((s.dev.view x.agent).slice j).live.getLsbD i = true ∧ 4 * j + i ∉ ls
  (∀ (s : State) (x : Issue) (w : BWord) (b k : Nat), Cleared s x (.exit w) → GangOk s x → x.agent = .group b k → alone s b k →
    let ls := x.gangLanes.filter (fun l => !w.cond || (x.view.pAt w.p.toNat l != w.neg))
    (survives s x ls → ∃ t, exec (.exit w) s = .next t ∧ s.sameBeside t x.agent ∧ ended s t x ls) ∧
    (¬ survives s x ls → s.dev.copying b k = true ∨ s.dev.feeding b k = true → exec (.exit w) s = .next (s.waitNow x)) ∧
    (¬ survives s x ls → s.dev.copying b k = false → s.dev.feeding b k = false → ∃ t, exec (.exit w) s = .next t ∧ SameBytes s t ∧
      let g := (t.dev.block b).group k
      g.exited = true ∧ g.pos = none ∧ g.v = [] ∧ g.s = [] ∧ g.p = [] ∧ g.slices = [] ∧ (∀ f ∈ t.dev.fills, f.agent ≠ x.agent) ∧
      ((t.dev.block b).ended = true ↔ (s.dev.block b).ended = true ∨
        ((∀ q < (s.dev.block b).groups.length, q ≠ k → ((s.dev.block b).group q).exited = true) ∧
          (∀ a, (s.dev.block b).access = some a → a.exited = true) ∧ (∀ a, (s.dev.block b).ridge = some a → a.exited = true) ∧
          (s.dev.block b).built = [] ∧ (s.dev.block b).formers = [])))) ∧
  (∀ (s : State) (x : Issue) (w : BWord), Cleared s x (.exit w) → GangOk s x → x.agent.isGroup = false →
    let leaves := w.cond = false ∨ (x.view.pAt w.p.toNat 0 != w.neg) = true
    (¬ leaves → exec (.exit w) s = .next s) ∧
    let busy := fun b => (s.dev.crest (s.dev.block b).core (s.dev.block b).ridgeCtx).ops ≠ [] ∨
      s.dev.imageAway (s.dev.block b).core (s.dev.block b).ridgeCtx = true
    (leaves → (∀ b, x.agent = .ridge b → ¬ busy b) →
      ∃ t, exec (.exit w) s = .next t ∧ (t.dev.view x.agent).exited = true ∧ (∀ f ∈ t.dev.fills, f.agent ≠ x.agent) ∧ SameBytes s t) ∧
    (leaves → ∀ b, x.agent = .ridge b → busy b →
      exec (.exit w) s = .next (s.waitNow x))) ∧
  (∀ (s : State) (x : Issue) (w : BWord) (b k : Nat), Cleared s x (.brs w) → GangOk s x → x.agent = .group b k → alone s b k →
    let T := x.view.sAt w.sReg.toNat
    let names := (List.range 16).filter (fun i => bitOf T (32 + i))
    let ones := x.gangLanes.filter (fun l => x.view.pAt w.p.toNat l != w.neg)
    let zeros := x.gangLanes.filter (fun l => !(x.view.pAt w.p.toNat l != w.neg))
    let X := if ones.length ≤ zeros.length then ones else zeros
    let B := s.dev.block b
    let recs := fun (q : Block) => q.formers.flatMap Former.recs ++ q.built.flatMap Former.recs
    if bitsOf T 48 16 ≠ 0 ∨ (∃ i ∈ names, s.dev.nregs x.agent ≤ i) then exec (.brs w) s = .next (s.trapped x .illegal none 0)
    else if X = [] then ∃ t, exec (.brs w) s = .next t ∧ s.sameBeside t x.agent ∧ t.dev.fills = s.dev.fills ∧
      (t.dev.view x.agent) = { s.dev.view x.agent with region := none, queues := (t.dev.view x.agent).queues }
    else if ∃ i ∈ names, ∃ l ∈ X, x.view.vIsEmpty i (l / 4) = true then exec (.brs w) s = .next (s.waitNow x)
    else if B.spawnCap < B.spawnUsed + X.length then exec (.brs w) s = .next (s.trapped x .capacity none 0)
    else survives s x X → ∃ t, exec (.brs w) s = .next t ∧ ended s t x X ∧
      s.sameBut t x.agent (s.dev.modBlock b (fun q =>
        { q with spawnUsed := q.spawnUsed + X.length, formers := (t.dev.block b).formers, built := (t.dev.block b).built })) ∧
      ∀ r, r ∈ recs (t.dev.block b) ↔ r ∈ recs B ∨ ∃ l ∈ X, r =
        { tid := s.dev.tidOf x.agent l % 2 ^ 32, target := bitsOf T 0 32, fmt := ((s.dev.view x.agent).slice (l / 4)).fmt,
          liveRegs := bitsOf T 32 16, regs := (List.range 16).map (fun i => if bitOf T (32 + i) then (s.dev.view x.agent).vAt i l else 0) })

/-- R90 to R92, R107, R109 to R129: what each Q word does to the Crest context it names, when it stands still or, for `mma` and `crmm`,
has room: `minit` and `mtile` configure it; `mma` and `crmm` queue where R93, R95, R117 and R120 allow them; `mwait` passes once no word
is left; drains and `crstat` check their destination and wait in the context, or act at once for the cluster handler's memory forms and on a frozen
context; `mload`, `crload` and `crmerge` take an image. On a frozen context the save forms act whatever work is pending, `mdrain.ops` writes the
operand image, and `mload.ops` gives back the buffers that such an image holds; the other words trap with MATRIXOP in the handler and wait in
the bound thread. What breaks a rule traps with MATRIXOP; that `crload.ctl` does on every bit marked zero that is set is the model's choice
(assumption 14). The images have the layouts of R123, R125 and R127. -/
def Obligations.MatrixWordsActOnTheirContext : Prop :=
  let at' := fun (s : State) (x : Issue) (w : QWord) (core n : Nat) =>
    (∀ b, x.agent = .ridge b → w.core = 0 ∧ w.ctx = false ∧ core = (s.dev.block b).core ∧ n = (s.dev.block b).ridgeCtx) ∧
    (∀ c, x.agent = .handler c → core = 4 * c + w.core.toNat ∧ n = if w.ctx then 1 else 0) ∧
    core < s.dev.cores.length ∧ n < (s.dev.core core).crest.length
  let still := fun (s : State) (x : Issue) (w : QWord) (i : Instr) (core n : Nat) =>
    Ready s x i ∧ at' s x w core n ∧ (s.dev.crest core n).ops = [] ∧ (s.dev.crest core n).frozen = false ∧ s.dev.imageAway core n = false
  let acts := fun (s : State) (x : Issue) (w : QWord) (i : Instr) (core n : Nat) =>
    Ready s x i ∧ at' s x w core n ∧ s.dev.imageAway core n = false ∧
      ((s.dev.crest core n).ops = [] ∨ ((s.dev.crest core n).frozen = true ∧ ∃ c, x.agent = .handler c))
  let bad := fun (s : State) (x : Issue) (i : Instr) => exec i s = .next (s.trapped x .matrixOp none 0)
  let becomes := fun (s : State) (i : Instr) (core n : Nat) (f : Crest → Crest) =>
    exec i s = .next { s with dev := s.dev.modCrest core n f }
  let stores := fun (s : State) (x : Issue) (w : QWord) (i : Instr) (core n bytes al : Nat) =>
    ∀ ps, s.dev.barrierBad (s.dev.crest core n) w.bar = false →
      x.image s.dev core (s.dev.crest core n) .store (x.view.sAt w.sA.toNat) bytes al = .ok ps →
      s.dev.linesHeld (s.dev.imageLines ps) = false →
      let o := { CrestOp.fresh i w with pieces := ps, lines := s.dev.imageLines ps }
      let d := s.dev.takeOwned (imageSpots ps) (s.dev.imageLines ps)
      let k := s.dev.crest core n
      let now := k.frozen = true ∨ ∃ c, x.agent = .handler c
      let e := d.putBytesFor (.image core n w.bar) (some x.agent) (s.dev.ctxOf x.agent) (imageLocs ps) (k.formBytes o)
      (¬ now → exec i s = .next { s with dev := d.modCrest core n (fun k => { k with ops := k.ops ++ [o] }) }) ∧
      (now → ps ≠ [] → (∀ p ∈ ps, isRemote p.1 = false) → exec i s = .next { s with dev := e.crestArrive k w.bar }) ∧
      (now → (∃ p ∈ ps, isRemote p.1 = true) → exec i s = .next { s with dev := e })
  let fills := fun (s : State) (x : Issue) (w : QWord) (i : Instr) (core n words : Nat) =>
    let k := s.dev.crest core n
    let regs := (List.range ((words + 255) / 256)).map (fun j => w.aBase.toNat + j)
    if s.dev.boundGroup k w.aSlot.toNat = false ∨ s.dev.boundRegs k < w.aBase.toNat + regs.length ∨ s.dev.barrierBad k w.bar = true then bad s x i
    else
      let o := { CrestOp.fresh i w with dst := some (w.aSlot.toNat, regs) }
      let b := k.blk.getD 0
      (k.frozen = false → exec i s = .next { s with dev :=
        (s.dev.modGroup b w.aSlot.toNat (fun g => g.markV true regs (List.range g.slices.length))).modCrest core n (fun k =>
          { k with ops := k.ops ++ [o] }) }) ∧
      (k.frozen = true → s.dev.drainBehind k w.aSlot.toNat regs = true → exec i s = .next (s.waitNow x)) ∧
      (k.frozen = true → s.dev.drainBehind k w.aSlot.toNat regs = false → ((s.dev.block b).group w.aSlot.toNat).regsWf = true →
        let g := (s.dev.block b).group w.aSlot.toNat
        ∃ h, exec i s = .next { s with dev := (s.dev.modGroup b w.aSlot.toNat (fun _ => h)).crestArrive k w.bar } ∧
          h = { g with v := h.v, vEmpty := h.vEmpty, vBad := h.vBad } ∧
          (∀ r l, l < 256 → h.vAt r l = if r ∈ regs then ((k.formWords o)[256 * (r - w.aBase.toNat) + l]?).getD 0 else g.vAt r l) ∧
          ∀ r j, j < 64 → h.vIsEmpty r j = if r ∈ regs ∧ j < g.slices.length then false else g.vIsEmpty r j)
  let loads := fun (s : State) (x : Issue) (w : QWord) (core n bytes al : Nat) (P : List Byte → Prop) =>
    ∀ ps, x.image s.dev core (s.dev.crest core n) .load (x.view.sAt w.sA.toNat) bytes al = .ok ps →
      s.dev.linesHeld (s.dev.imageLines ps) = false → (∀ l ∈ imageLocs ps, s.dev.answers l) → P ((imageLocs ps).map s.dev.byteAt)
  ∀ (s : State) (x : Issue) (w : QWord) (core n : Nat),
    let k := s.dev.crest core n
    let a := x.view.sAt w.sA.toNat
    (still s x w (.minit w) core n → k.mode ≠ 3 →
      if bitOf w.low 4 = true then
        (if a = 0 ∨ 2 ^ 20 < a.toNat then bad s x (.minit w)
         else becomes s (.minit w) core n (fun k =>
          { Crest.reset with mode := 2, k1 := bitsOf w.low 0 4, steps := bitsOf a 0 32, blk := k.blk }))
      else becomes s (.minit w) core n (fun k => { Crest.reset with mode := 1, blk := k.blk })) ∧
    (still s x w (.mtile w) core n → k.mode = 1 ∨ k.mode = 2 →
      if k.mode = 2 ∧ k.step ≠ 0 then bad s x (.mtile w)
      else becomes s (.mtile w) core n (fun k =>
        { k with
          colBase := bitsOf a 0 32
          vRows := BitVec.ofNat 16 (min (bitsOf (x.view.sAt w.sB.toNat) 16 16).toNat (16 * 2 ^ w.m2.toNat))
          vCols := BitVec.ofNat 16 (min (bitsOf (x.view.sAt w.sB.toNat) 0 16).toNat (16 * (w.n6.toNat + 1))) })) ∧
    (∀ crest : Bool, let i : Instr := if crest then .crmm w else .mma w
      Ready s x i → at' s x w core n → k.frozen = false →
      let steps := k.afterOps.1 + opSteps w
      let fits := fun (base rows : Nat) => base + fragRegs rows w.fmt + (if crest then (rows + 255) / 256 else 0) ≤ s.dev.boundRegs k
      let allowed := k.mode = (if crest then 2 else 1) ∧ s.dev.boundGroup k w.aSlot.toNat = true ∧ s.dev.boundGroup k w.bSlot.toNat = true ∧
        fits w.aBase.toNat w.rows ∧ fits w.bBase.toNat w.cols ∧ s.dev.barrierBad k w.bar = false ∧
        (crest = true → (if bitOf w.low 0 = true then steps = k.steps.toNat else steps < k.steps.toNat) ∧
          k.colBase.toNat + w.cols - 1 ≤ 0xFFFFFFFE ∧ ∀ p, k.afterOps.2 = some p → p = (w.rows, w.cols))
      (2 ≤ (k.ops.filter (fun o => isMul o.word)).length → exec i s = .next (s.waitNow x)) ∧
      ((k.ops.filter (fun o => isMul o.word)).length < 2 → (allowed → becomes s i core n (fun k => { k with ops := k.ops ++ [CrestOp.fresh i w] })) ∧
        (¬ allowed → bad s x i))) ∧
    (Ready s x (.mwait w) → at' s x w core n → exec (.mwait w) s = .next (if k.ops = [] then (if s.dev.imageAway core n = true then s.waitNow x else s)
      else if k.frozen = true ∧ x.byHandler = true then s.trapped x .matrixOp none 0 else s.waitNow x)) ∧
    (acts s x w (.mdrain w) core n → k.mode = 1 ∨ k.mode = 2 →
      if bitOf w.low 0 = false then
        (if 1024 < 16 * w.col.toNat + w.cols then bad s x (.mdrain w) else fills s x w (.mdrain w) core n (w.rows * w.cols))
      else if bitOf w.low 1 = true then (if k.frozen = false then bad s x (.mdrain w) else stores s x w (.mdrain w) core n 92160 128)
      else stores s x w (.mdrain w) core n 270336 128) ∧
    (acts s x w (.crdrain w) core n → k.mode = 2 →
      if bitOf w.low 0 = false then fills s x w (.crdrain w) core n (w.rows * (k.k1.toNat + 1) * 2)
      else stores s x w (.crdrain w) core n (w.rows * (k.k1.toNat + 1) * 8) 8) ∧
    (acts s x w (.crstat w) core n → k.mode ≠ 3 → stores s x w (.crstat w) core n 256 128) ∧
    (acts s x w (.mload w) core n → k.mode = 1 ∨ k.mode = 2 →
      if bitOf w.low 1 = true then
        (if k.frozen = false then bad s x (.mload w)
        else loads s x w core n 92160 128 (fun bs =>
          let bare := fun (o : CrestOp) => { o with bufA := [], bufB := [] }
          let restores := fun (ops : List CrestOp) => ∃ k', becomes s (.mload w) core n (fun _ => k') ∧ k' = { k with ops := k'.ops } ∧
            k'.ops.map bare = ops.map bare ∧
            ∀ (k0 : Crest) (q : QWord), bs = k0.formBytes (CrestOp.fresh (.mdrain q) q) → bitOf q.low 1 = true → k0.buffered ≤ bufferWords →
              k0.muls.map bare = ops.map bare → ∀ (j : Nat) (o o0 : CrestOp), k'.ops[j]? = some o → k0.muls[j]? = some o0 → o.readsDone = true →
              (∀ i ∈ fragKeys (isCrmm o.word) o.q.rows o.q.fmt, Fmap.get 0 o.bufA i = Fmap.get 0 o0.bufA i) ∧
              ∀ i ∈ fragKeys (isCrmm o.word) o.q.cols o.q.fmt, Fmap.get 0 o.bufB i = Fmap.get 0 o0.bufB i
          if k.mode = 2 then (if bs.take 64 = (k.formBytes (CrestOp.fresh (.crstat w) w)).take 64 then restores k.ops else bad s x (.mload w))
          else (imageOps bs 1 = none → bad s x (.mload w)) ∧ ∀ ops, imageOps bs 1 = some ops → restores ops))
      else loads s x w core n 270336 128 (fun bs => ∃ k', becomes s (.mload w) core n (fun _ => k') ∧
        k' = { k with bank := k'.bank, abandon := k'.abandon } ∧
        ∀ i < 65536, Fmap.get 0 k'.bank i = imageWord bs (4 * i) ∧
          Fmap.get false k'.abandon i = (imageNum bs (262144 + i / 8) 1).testBit (i % 8))) ∧
    (acts s x w (.crload w) core n → k.mode = 2 →
      if bitOf w.low 1 = false then loads s x w core n (w.rows * (k.k1.toNat + 1) * 8) 8 (fun bs =>
        let row := imageRow bs (k.k1.toNat + 1)
        if (List.range w.rows).all (fun m => rowOkFor (row m)) = false then bad s x (.crload w)
        else ∃ k', becomes s (.crload w) core n (fun _ => k') ∧ k' = { k with lists := k'.lists } ∧ (Fmap.wf [] k.lists = true → ∀ m,
          k'.list m = if m < w.rows then (row m).filter (fun e => e != emptyEntry) else k.list m))
      else loads s x w core n 256 128 (fun bs =>
        (imageOps bs 2 = none → bad s x (.crload w)) ∧
        ∀ ops, imageOps bs 2 = some ops →
          let zero := fun (off n : Nat) => ∀ j < n, (bs.drop off)[j]? = some 0
          let good := imageNum bs 0 1 % 4 = 2 ∧ imageNum bs 0 1 / 8 = 0 ∧ imageNum bs 1 1 < 16 ∧ imageNum bs 40 1 < 16 ∧ zero 2 2 ∧
            zero 23 1 ∧ zero 41 3 ∧ zero 48 16 ∧ zero 192 64 ∧ 1 ≤ imageNum bs 4 4 ∧ imageNum bs 4 4 ≤ 2 ^ 20 ∧ imageNum bs 8 4 < imageNum bs 4 4 ∧
            ((imageNum bs 40 1).testBit 0 = false → (imageNum bs 40 1).testBit 1 = false ∧ zero 20 12) ∧
            ((imageNum bs 40 1).testBit 2 = false → (imageNum bs 40 1).testBit 3 = false ∧ zero 32 8) ∧ (imageNum bs 8 4 = 0 → zero 44 4)
          (¬ good → bad s x (.crload w)) ∧
          (good → ∃ k', becomes s (.crload w) core n (fun _ => k') ∧
            k' = { k with k1 := BitVec.ofNat 4 (imageNum bs 1 1), steps := imageWord bs 4, step := imageWord bs 8, colBase := imageWord bs 12,
                          vCols := BitVec.ofNat 16 (imageNum bs 16 2), vRows := BitVec.ofNat 16 (imageNum bs 18 2),
                          shapeN := imageNum bs 44 2, shapeM := imageNum bs 46 2, ops := ops, nans := k'.nans } ∧
            ∀ m < 64, (Fmap.get 0 k'.nans m).toNat = imageNum bs (64 + 2 * m) 2))) ∧
    (still s x w (.crmerge w) core n → k.mode = 2 → loads s x w core n (w.rows * (k.k1.toNat + 1) * 8) 8 (fun bs =>
      becomes s (.crmerge w) core n (fun k =>
        ((List.range w.rows).flatMap (fun m => ((imageRow bs k.kLen m).filter (fun e => e != emptyEntry)).map (fun e => (m, e)))).foldl
          (fun k p => k.offer p.1 p.2) k))) ∧
    (∀ i ∈ [Instr.minit w, .mtile w, .mma w, .crmm w, .crmerge w], Ready s x i → at' s x w core n → k.frozen = true →
      (∀ c, x.agent = .handler c → bad s x i) ∧ (∀ b, x.agent = .ridge b → exec i s = .next (s.waitNow x))) ∧
    (∀ i ∈ [Instr.minit w, .mtile w, .mdrain w, .mload w, .crdrain w, .crload w, .crmerge w, .crstat w], Ready s x i → at' s x w core n →
      k.ops ≠ [] → k.frozen = false ∨ (∃ b, x.agent = .ridge b) → exec i s = .next (s.waitNow x)) ∧
    (let bytes := fun (i : Instr) => k.formBytes (CrestOp.fresh i w)
     let words := fun (i : Instr) => k.formWords (CrestOp.fresh i w)
     let entry := fun (m i : Nat) => ((k.list m)[i]?).getD emptyEntry
     let K := k.k1.toNat + 1
     let bank := bytes (.mdrain w)
     let control := bytes (.crstat w)
     (bitOf w.low 1 = false → bank.length = 270336 ∧
       (∀ m < 64, ∀ c < 1024, imageWord bank (4 * (1024 * m + c)) = k.cell m c ∧
         (imageNum bank (262144 + (1024 * m + c) / 8) 1).testBit (c % 8) = k.isAbandoned m c)) ∧
     (bitOf w.low 1 = true → bank.length = 92160 ∧ bank.take 64 = control.take 64) ∧
     ((words (.mdrain w)).length = w.rows * w.cols ∧ ∀ m < w.rows, ∀ c < w.cols, (words (.mdrain w))[m * w.cols + c]? = some
       (if m < k.vRows.toNat ∧ 16 * w.col.toNat + c < k.vCols.toNat then k.cell m (16 * w.col.toNat + c) else 0)) ∧
     ((bytes (.crdrain w)).length = w.rows * K * 8 ∧ ∀ m < w.rows, ∀ i < K,
       imageWord (bytes (.crdrain w)) (8 * (m * K + i)) = (entry m i).1 ∧ imageWord (bytes (.crdrain w)) (8 * (m * K + i) + 4) = (entry m i).2 ∧
       (words (.crdrain w))[2 * (m * K + i)]? = some (entry m i).1 ∧ (words (.crdrain w))[2 * (m * K + i) + 1]? = some (entry m i).2) ∧
     let num := imageNum control
     let flags := num 40 1
     control.length = 256 ∧ num 0 1 = k.mode.toNat + (if k.frozen = true then 4 else 0) ∧ num 1 1 = k.k1.toNat ∧ num 2 2 = 0 ∧
     imageWord control 4 = k.steps ∧ imageWord control 8 = k.step ∧ imageWord control 12 = k.colBase ∧ num 16 2 = k.vCols.toNat ∧
     num 18 2 = k.vRows.toNat ∧ num 41 3 = 0 ∧ flags < 16 ∧ num 48 16 = 0 ∧ (∀ m < 64, num (64 + 2 * m) 2 = (Fmap.get 0 k.nans m).toNat) ∧
     (∀ i < 64, num (192 + i) 1 = 0) ∧ (k.step = 0 → num 44 4 = 0) ∧
     (k.step ≠ 0 → k.shapeM < 2 ^ 16 → k.shapeN < 2 ^ 16 → num 46 2 = k.shapeM ∧ num 44 2 = k.shapeN) ∧
     ∀ i < 2,
       let place := 24 + 8 * i
       let o? := (k.ops.filter (fun o => isMul o.word))[i]?
       (o? = none → num place 8 = 0 ∧ flags.testBit (2 * i) = false ∧ flags.testBit (2 * i + 1) = false ∧ (i = 0 → num 20 4 = 0)) ∧
       ∀ o, o? = some o → flags.testBit (2 * i) = true ∧ flags.testBit (2 * i + 1) = o.readsDone ∧
         (∀ u v rest, encode o.word = u :: v :: rest → imageWord control place = u ∧ imageWord control (place + 4) = v) ∧
         (i = 0 → o.step < 256 → o.tile < opTiles o.q → num 22 2 = o.step ∧ num 21 1 = o.tile / colTiles o.q ∧ num 20 1 = o.tile % colTiles o.q))

/-- R14, R15, R96 to R98, R100 to R105, R108, R116, R117, R120 and R408: the engine's steps. The reads of an instruction complete once its words
are full, and give it their copies; a tile adds to each valid cell the sum of 16 exact products rounded once; the tile that ends a step of a `crmm`
counts the step, and abandons each valid cell whose bound, by the tail norms after the step, lies below its row's k-th entry; an offer keeps the k
best of a row; the end of a reduction clears step and bank; a drain or a memory form has its effect and leaves, but waits in a frozen
context until it is thawed (assumption 28); two contexts with a tile ready alternate. `mfreeze` freezes a context, completes an instruction whose last tile is done, and
holds the handler until the engine has stopped, and `mthaw` frees it. -/
def Obligations.TheMatrixEngineSumsOffersAndStops : Prop :=
  (∀ (s : State) (core n i : Nat) (o : CrestOp), core < s.dev.cores.length → n < (s.dev.core core).crest.length →
    let k := s.dev.crest core n
    s.dev.readable k = some i → k.ops[i]? = some o →
    let A := (s.dev.block (k.blk.getD 0)).group o.q.aSlot.toNat
    let B := (s.dev.block (k.blk.getD 0)).group o.q.bSlot.toNat
    ∃ o', exec (.crestReadsComplete core n) s = .next { s with dev :=
        (s.dev.modCrest core n (fun k => { k with ops := listSet k.ops i o' })).crestArrive k o.q.bar } ∧
      o' = { o with readsDone := true, bufA := o'.bufA, bufB := o'.bufB } ∧
      (∀ j ∈ fragKeys (isCrmm o.word) o.q.rows o.q.fmt, Fmap.get 0 o'.bufA j = A.vAt (o.q.aBase.toNat + j / 256) (j % 256)) ∧
      ∀ j ∈ fragKeys (isCrmm o.word) o.q.cols o.q.fmt, Fmap.get 0 o'.bufB j = B.vAt (o.q.bBase.toNat + j / 256) (j % 256)) ∧
  (∀ (s : State) (core n : Nat) (o : CrestOp) (rest : List CrestOp), core < s.dev.cores.length → n < (s.dev.core core).crest.length →
    let k := s.dev.crest core n
    k.tileReady = true → k.ops = o :: rest → Fmap.wf 0 k.bank = true → Fmap.wf false k.abandon = true → k.step.toNat + 1 < 2 ^ 32 →
    let cells := k.tileCells o.q o.tile
    let skipped := isCrmm o.word = true ∧ ∀ c ∈ cells, k.isAbandoned c.1 c.2
    let pairs := fun (c : Nat × Nat) => (fragRow o.q.fmt o.q.rows o.bufA c.1 (16 * o.step) 16).zip (fragRow o.q.fmt o.q.cols o.bufB c.2 (16 * o.step) 16)
    let twin := (s.dev.crest core (1 - n)).tileReady
    let more := o.tile + 1 < opTiles o.q
    let r := k.steps.toNat - (k.step.toNat + 1)
    let left := fragK o.q.fmt - 16 * (o.step + 1)
    let beyond := fun (rows : Nat) (buf : Fmap Word) (i : Nat) => Fmap.get 0 buf (fragRegs rows o.q.fmt * 256 + i)
    (twin = true → (s.dev.core core).lastCrest = n → exec (.crestTile core n) s = .next s) ∧
    ((twin = true → (s.dev.core core).lastCrest ≠ n) →
    ∃ k', exec (.crestTile core n) s =
        .next { s with dev := (s.dev.modCrest core n (fun _ => k')).modCore core (fun c => { c with lastCrest := n }) } ∧
      (∀ m q, q < 1024 → if (m, q) ∈ cells ∧ ¬ skipped
        then ∃ sum fl gl, FFmt.f32.DotOf .rne (pairs (m, q)) [] (sum, fl) ∧
          FFmt.f32.SumOf .rne [FFmt.f32.decode (k.cell m q).toNat, FFmt.f32.decode sum] [FFmt.f32.decode (k.cell m q).toNat, FFmt.f32.decode sum]
            ((k'.cell m q).toNat, gl)
        else k'.cell m q = k.cell m q) ∧
      (more → k' = { k with bank := k'.bank, ops := { o with tile := o.tile + 1 } :: rest }) ∧
      (¬ more → isCrmm o.word = false → k' = { k with bank := k'.bank, ops := { o with tile := 0, step := o.step + 1 } :: rest }) ∧
      (¬ more → isCrmm o.word = true →
        k' = { k with bank := k'.bank, abandon := k'.abandon, step := k.step + 1, shapeM := o.q.rows, shapeN := o.q.cols,
                      ops := { o with tile := 0, step := o.step + 1 } :: rest } ∧
        (r = 0 → k'.abandon = k.abandon) ∧
        (r ≠ 0 → ∃ tA tB : Nat → FVal,
          (∀ m < o.q.rows, TailNorm (fragRow o.q.fmt o.q.rows o.bufA m (16 * (o.step + 1)) left) (beyond o.q.rows o.bufA m) (tA m)) ∧
          (∀ q < o.q.cols, TailNorm (fragRow o.q.fmt o.q.cols o.bufB q (16 * (o.step + 1)) left) (beyond o.q.cols o.bufB q) (tB q)) ∧
          ∀ m q, q < 1024 →
            let P := FFmt.f32.decode (k'.cell m q).toNat
            (k'.isAbandoned m q = true ↔ k.isAbandoned m q = true ∨ (m < min k.vRows.toNat o.q.rows ∧ q < min k.vCols.toNat o.q.cols ∧
              P.Fin ∧ (tA m).Fin ∧ (tB q).Fin ∧ ∃ v u, (k.list m)[k.k1.toNat]? = some v ∧ BoundOf P (tA m) (tB q) r u ∧
                u.Less (FFmt.f32.decode v.1.toNat)))))) ) ∧
  (∀ (k : Crest) (m : Nat) (v : Winner), Fmap.wf [] k.lists = true → Fmap.wf 0 k.nans = true →
    let k' := k.offer m v
    if (FFmt.f32.decode v.1.toNat).isNan = true then k' = { k with nans := k'.nans } ∧
      ∀ j, (Fmap.get 0 k'.nans j).toNat = if j = m then min ((Fmap.get 0 k.nans m).toNat + 1) 0xFFFF else (Fmap.get 0 k.nans j).toNat
    else k' = { k with lists := k'.lists } ∧ (∀ j ≠ m, k'.list j = k.list j) ∧ ∃ pre post, k.list m = pre ++ post ∧
      k'.list m = (pre ++ v :: post).take (k.k1.toNat + 1) ∧ (∀ e ∈ pre, v.above e = false) ∧ ∀ e, post.head? = some e → v.above e = true) ∧
  (∀ (s : State) (core n : Nat) (o : CrestOp) (rest : List CrestOp), core < s.dev.cores.length → n < (s.dev.core core).crest.length →
    let k := s.dev.crest core n
    k.mulDone = true → k.ops = o :: rest →
    let last := isCrmm o.word = true ∧ bitOf o.q.low 0 = true
    (¬ last → exec (.crestComplete core n) s = .next { s with dev := s.dev.modCrest core n (fun k => { k with ops := rest }) }) ∧
    (last → ∃ k', exec (.crestComplete core n) s = .next { s with dev := s.dev.modCrest core n (fun _ => k') } ∧
      k'.step = 0 ∧ k'.bank = [] ∧ k'.abandon = [] ∧ k'.ops = rest ∧
      let finals := (k.validCells o.q (List.range o.q.rows) (List.range o.q.cols)).filter (fun c => !k.isAbandoned c.1 c.2)
      let offered := finals.foldl (fun k' c => k'.offer c.1 (k.cell c.1 c.2, k.colBase + BitVec.ofNat 32 c.2)) k
      k'.lists = offered.lists ∧ k'.nans = offered.nans)) ∧
  (∀ (s : State) (core n slot : Nat) (o : CrestOp) (rest : List CrestOp) (regs : List Nat), core < s.dev.cores.length →
    n < (s.dev.core core).crest.length →
    let k := s.dev.crest core n
    let b := k.blk.getD 0
    s.dev.drainReady k = true → k.ops = o :: rest → o.dst = some (slot, regs) → o.sent = false → o.pieces = [] → regs.Nodup →
    b < s.dev.blocks.length → slot < (s.dev.block b).groups.length → ((s.dev.block b).group slot).regsWf = true → o.q.bar = 15 →
    ∃ t, exec (.drainTakesEffect core n) s = .next t ∧ t.dev.crest core n = { k with ops := rest } ∧
      let h := (t.dev.block b).group slot
      ∀ (i r l : Nat), regs[i]? = some r → l < 256 → h.vAt r l = ((k.formWords o)[256 * i + l]?).getD 0 ∧
        (l < ((s.dev.block b).group slot).slices.length → h.vIsEmpty r l = false)) ∧
  (∀ (s : State) (core n : Nat) (o : CrestOp) (rest : List CrestOp), core < s.dev.cores.length → n < (s.dev.core core).crest.length →
    let k := s.dev.crest core n
    k.ops = o :: rest → isMul o.word = false → isRegForm o.word = false → o.dst = none → o.q.bar = 15 →
    let away := ∃ r ∈ s.dev.fab.remotes, r.failed = false ∧ ∃ bar, r.use = .image core n bar
    let leaves := fun (d : Device) => exec (.memoryFormComplete core n) s = .next { s with dev := d.modCrest core n (fun k => { k with ops := rest }) }
    (k.frozen = true → exec (.memoryFormComplete core n) s = .next s ∧ exec (.drainTakesEffect core n) s = .next s) ∧
    (k.frozen = false → o.sent = true → (away → exec (.memoryFormComplete core n) s = .next s) ∧ (¬ away → leaves s.dev)) ∧
    (k.frozen = false → o.sent = false → (∀ p ∈ o.pieces, isRemote p.1 = false) → (∀ l ∈ imageLocs o.pieces, s.dev.noMemory l = false) →
      let bytes := ({ k with ops := [] } : Crest).formBytes o
      leaves (if o.pieces = [] then s.dev else s.dev.storeAll ((imageLocs o.pieces).zip bytes))) ∧
    (k.frozen = false → o.sent = false → (∃ p ∈ o.pieces, isRemote p.1 = true) → ∃ t, exec (.memoryFormComplete core n) s = .next t ∧
      t.dev.crest core n = { k with ops := { o with sent := true, lines := [] } :: rest })) ∧
  (∀ (s : State) (x : Issue) (w : YWord) (c : Nat), x.agent = .handler c →
    let core := 4 * c + (bitsOf w.imm 6 2).toNat
    let n := (bitsOf w.imm 5 1).toNat
    (Cleared s x (.mfreeze w) → if (s.dev.crest core n).frozen = true then exec (.mfreeze w) s = .next s
      else ∃ t, exec (.mfreeze w) s = .next t ∧
        s.sameBut t x.agent (s.dev.modCrest core n (fun k => { k.complete with frozen := true, freezing := true })) ∧ t.dev.fills = s.dev.fills ∧
        ∀ j ∈ x.slices, j < (s.dev.view x.agent).slices.length → (s.dev.handlerOf c).isSome = true → ((t.dev.view x.agent).slice j).hold = .unit) ∧
    (Cleared s x (.mthaw w) → exec (.mthaw w) s = .next { s with dev := s.dev.modCrest core n (fun k => { k with frozen := false, freezing := false }) })) ∧
  (∀ (s : State) (core n : Nat), exec (.freezeStop core n) s = .next { s with dev :=
    if (s.dev.crest core n).freezing = true
    then (s.dev.modCrest core n (fun k => { k with freezing := false })).letGo (.handler (core / 4)) else s.dev })

/-- R176, R197 to R199, R206, R208, R210, R211, R213 and R214: `wkset` checks hold, alignment, descriptor and ranges, and then makes its
block the holder of a set whose points are pending, with the map and the counts cleared; `wkadd` appends pending points; `wkdone` counts;
`wkmap` reads a point's state; `wkstat` and the image forms store the counts and restore them, with the points whose bit of the
map is clear pending again. (Stated where the map lies on this device and no engine owns its lines. The model's choices here: records are
read as a set is declared, assumption 27; the order among `wkadd`'s traps, 66; bytes 56 to 63 of an image are not looked at, 69; the map's
range must permit an atomic, restored points of a set with S = 0 are forced, and a handler's image names a block of its own context, 83.) -/
def Obligations.WalkerSetsAreDeclaredAndCounted : Prop :=
  let here := fun (s : State) (x : Issue) (w : MWord) (i : Instr) (b core n : Nat) =>
    Cleared s x i ∧ s.dev.memWf = true ∧ s.dev.filesWf = true ∧ (∀ c k, x.agent = .group c k → c = b ∧ core = (s.dev.block b).core) ∧
    (∀ c, x.agent = .handler c → core = 4 * c + (bitsOf w.d 0 2).toNat) ∧ n = (bitsOf w.func 0 2).toNat ∧
    core < s.dev.cores.length ∧ n < (s.dev.core core).walker.length
  let addr := fun (x : Issue) (w : MWord) => w.addrFull (x.view.sAt w.base.toNat) (x.view.sAt w.index.toNat)
  let bad := fun (s : State) (x : Issue) (i : Instr) (c : Cause) => exec i s = .next (s.trapped x c none 0)
  let others := fun (s t : State) (core n : Nat) =>
    ∀ c m, c < s.dev.cores.length → ¬ (c = core ∧ m = n) → t.dev.wslot c m = s.dev.wslot c m
  let num := fun (bs : List Byte) (o n : Nat) => bytesNat ((bs.drop o).take n)
  let reads := fun (s : State) (x : Issue) (ea : DWord) (ls : List Loc) =>
    ea.toNat % 64 = 0 ∧ s.dev.reach x.agent x.view.priv .load ea 64 = .ok ls ∧ (∀ l ∈ ls, s.dev.answers l) ∧ s.dev.held ls = false
  let malformed := fun (bs : List Byte) => num bs 0 4 = 0 ∨ 65536 < num bs 0 4 ∨ 16 ≤ num bs 4 1 ∨ num bs 5 3 ≠ 0 ∨ num bs 12 4 ≠ 0
  let skewed := fun (bs : List Byte) => num bs 16 8 % 32 ≠ 0 ∨ num bs 24 8 % 8 ≠ 0
  let ranges := fun (s : State) (a : Agent) (priv : Bool) (bs : List Byte) =>
    (∀ i < 32 * num bs 0 4, ∃ ls, s.dev.reach a priv .load (BitVec.ofNat 64 (num bs 16 8 + i)) 1 = .ok ls) ∧
    ∀ i < 8 * ((num bs 0 4 + 63) / 64), ∃ ls, s.dev.reach a priv .atomic (BitVec.ofNat 64 (num bs 24 8 + i)) 1 = .ok ls
  let fresh := fun (u : WSlot) (count : Nat) (visited : Nat → Bool) => u.points.length = count ∧ u.waiting = [] ∧
    ∀ i < count, (u.pt i).handed = visited i ∧ (u.pt i).dc = 0 ∧ (u.pt i).forced = ((u.pt i).fault || u.maxDefer == 0)
  let wrote := fun (s t : State) (x : Issue) (ls : List Loc) (bs : List Byte) =>
    (∀ l, t.dev.byteAt l = (s.dev.lastTo (ls.zip bs) l).getD (s.dev.byteAt l)) ∧ t.dev.cores = s.dev.cores ∧
    (x.joined (s.dev.view x.agent)).sameWaking (t.dev.view x.agent)
  let mapAt := fun (s : State) (b : Nat) (map : DWord) (i : Nat) (m : Loc) =>
    ∃ ms, s.dev.reachBlk b .store (map + BitVec.ofNat 64 (8 * (i / 64))) 8 = .ok ms ∧ (∀ l ∈ ms, s.dev.answers l) ∧ ms[i % 64 / 8]? = some m
  let counts := fun (u : WSlot) => [u.handed, u.deferrals, u.forced, u.completions].flatMap (fun n => bytesOf 4 (BitVec.ofNat 64 n))
  (∀ (s : State) (x : Issue) (w : MWord) (b core n : Nat) (ls : List Loc), here s x w (.wkset w) b core n → ActsNow s x (.wkset w) → x.agent.isGroup = true →
    let old := s.dev.wslot core n
    let bs := ls.map s.dev.byteAt
    if ∃ q, old.holder = some q ∧ q ≠ b ∧ (s.dev.block q).ended = false then bad s x (.wkset w) .capacity
    else if (addr x w).toNat % 64 ≠ 0 then bad s x (.wkset w) .misalign
    else reads s x (addr x w) ls →
      if malformed bs ∨ (∃ y ∈ bs.drop 32, y ≠ 0) then bad s x (.wkset w) .illegal
      else if skewed bs then bad s x (.wkset w) .misalign
      else ranges s x.agent x.view.priv bs → (∀ q ∈ old.waiting, Agent.group q.blk q.slot ≠ x.agent ∧ q.ids = none) →
        s.dev.mapAway core n = false → s.dev.held (s.dev.mapLocs b (BitVec.ofNat 64 (num bs 24 8)) (num bs 0 4)) = false →
        ∃ t, exec (.wkset w) s = .next t ∧ (x.joined (s.dev.view x.agent)).ended (t.dev.view x.agent) ∧ others s t core n ∧
        let u := t.dev.wslot core n
        u.holder = some b ∧ u.desc = bs ∧ u.serial = old.serial + 1 ∧ counts u = counts WSlot.reset ∧ fresh u (num bs 0 4) (fun _ => false) ∧
        (∀ i < (num bs 0 4 + 63) / 64, ∀ ms, s.dev.reachBlk b .store (BitVec.ofNat 64 (num bs 24 8) + BitVec.ofNat 64 (8 * i)) 8 = .ok ms →
          ∀ m ∈ ms, s.dev.answers m → t.dev.byteAt m = 0) ∧
        ∀ q ∈ old.waiting, let a := Agent.group q.blk q.slot
          s.dev.has a = true → (s.dev.view a).regsWf = true → (t.dev.view a).sAt q.sC.toNat = 0) ∧
  (∀ (s : State) (x : Issue) (w : MWord) (b core n : Nat), here s x w (.wkadd w) b core n → ActsNow s x (.wkadd w) → x.agent.isGroup = true →
    let old := s.dev.wslot core n
    let more := (x.view.sAt w.d.toNat).toNat
    let total := old.points.length + more
    if old.holder ≠ some b then bad s x (.wkadd w) .perm
    else if more = 0 then bad s x (.wkadd w) .illegal
    else if (addr x w).toNat % 32 ≠ 0 then bad s x (.wkadd w) .misalign
    else if 65536 < total then bad s x (.wkadd w) .capacity
    else old.waiting = [] → (∀ p ∈ old.points, p.unread = false) →
      s.dev.mapHeld core n ((List.range more).map (fun i => old.points.length + i)) = false →
      (∀ i < 32 * more, ∃ ls, s.dev.reach x.agent x.view.priv .load (addr x w + BitVec.ofNat 64 i) 1 = .ok ls) →
      ∃ t, exec (.wkadd w) s = .next t ∧ (x.joined (s.dev.view x.agent)).ended (t.dev.view x.agent) ∧ others s t core n ∧
        let u := t.dev.wslot core n
        u = { old with desc := bytesOf 4 (BitVec.ofNat 64 total) ++ old.desc.drop 4, points := u.points } ∧
        (∃ new, u.points = old.points ++ new ∧ new.length = more ∧
          ∀ p ∈ new, p.handed = false ∧ p.dc = 0 ∧ p.forced = (p.fault || old.maxDefer == 0)) ∧
        ∀ i < more, ∀ m, mapAt s b old.map (old.points.length + i) m → (t.dev.byteAt m).getLsbD ((old.points.length + i) % 8) = false) ∧
  (∀ (s : State) (x : Issue) (w : MWord) (b core n : Nat), here s x w (.wkdone w) b core n → Ready s x (.wkdone w) → GangOk s x → x.agent.isGroup = true →
    if (s.dev.wslot core n).holder ≠ some b then bad s x (.wkdone w) .perm
    else ∃ t, exec (.wkdone w) s = .next t ∧ (s.dev.view x.agent).ended (t.dev.view x.agent) ∧
      s.sameBut t x.agent (s.dev.modWslot core n (fun u => { u with completions := min (u.completions + x.act.length) 0xFFFFFFFF })) ∧
      t.dev.fills = s.dev.fills) ∧
  (∀ (s : State) (x : Issue) (w : MWord) (b core n : Nat), here s x w (.wkmap w) b core n → Ready s x (.wkmap w) → GangOk s x → x.agent.isGroup = true →
    (s.dev.view x.agent).regsWf = true →
    let u := s.dev.wslot core n
    if u.holder ≠ some b then bad s x (.wkmap w) .perm
    else ∃ t v, exec (.wkmap w) s = .next t ∧ MarkedLanes s t x w.d.toNat false v 0 ∧ ∀ l ∈ x.act,
      let i := (bitsOf (vOperand x.view (s.dev.view x.agent) w.index false 0 l) 0 32).toNat
      let bit := fun (c : Bool) (k : Nat) => if c then 2 ^ k else 0
      (v l).toNat = if u.points.length ≤ i then 0xFFFFFFFF
        else bit (u.pt i).handed 0 + bit (u.pt i).forced 1 + bit (u.pt i).fault 2 + (u.pt i).dc % 16 * 16) ∧
  (∀ (s : State) (x : Issue) (w : MWord) (b core n : Nat) (ls : List Loc), here s x w (.wkstat w) b core n → ActsNow s x (.wkstat w) → x.agent.isGroup = true →
    if (s.dev.wslot core n).holder ≠ some b then bad s x (.wkstat w) .perm
    else if (addr x w).toNat % 4 ≠ 0 then bad s x (.wkstat w) .misalign
    else s.dev.reach x.agent x.view.priv .store (addr x w) 16 = .ok ls → (∀ l ∈ ls, s.dev.answers l) → s.dev.held ls = false →
      ∃ t, exec (.wkstat w) s = .next t ∧ wrote s t x ls (counts (s.dev.wslot core n))) ∧
  (∀ (s : State) (x : Issue) (w : MWord) (b core n : Nat) (ls : List Loc), here s x w (.wkstatImg w) b core n → ActsNow s x (.wkstatImg w) →
    x.agent.isGroup = true ∨ x.byHandler = true →
    let u := s.dev.wslot core n
    if (x.agent.isGroup = true ∧ u.holder ≠ some b) ∨ u.holder = none then bad s x (.wkstatImg w) .perm
    else if (addr x w).toNat % 64 ≠ 0 then bad s x (.wkstatImg w) .misalign
    else s.dev.reach x.agent x.view.priv .store (addr x w) 64 = .ok ls → (∀ l ∈ ls, s.dev.answers l) → s.dev.held ls = false →
      u.desc.length = 64 → ∀ q, u.holder = some q → ∃ t, exec (.wkstatImg w) s = .next t ∧
        wrote s t x ls (u.desc.take 32 ++ counts u ++ bytesOf 8 (BitVec.ofNat 64 (s.dev.block q).idx) ++ List.replicate 8 0)) ∧
  (∀ (s : State) (x : Issue) (w : MWord) (b core n : Nat) (ls : List Loc), here s x w (.wksetImg w) b core n → ActsNow s x (.wksetImg w) →
    x.agent.isGroup = true ∨ x.byHandler = true →
    let old := s.dev.wslot core n
    let taken := ∃ q, old.holder = some q ∧ q ≠ b ∧ (s.dev.block q).ended = false
    (x.agent.isGroup = true → taken → bad s x (.wksetImg w) .capacity) ∧
    ((x.agent.isGroup = true → ¬ taken) → (addr x w).toNat % 64 ≠ 0 → bad s x (.wksetImg w) .misalign) ∧
    ((x.agent.isGroup = true → ¬ taken) → reads s x (addr x w) ls →
    let bs := ls.map s.dev.byteAt
    let names := fun (q : Nat) => q < s.dev.blocks.length ∧ (s.dev.block q).core = core ∧ (s.dev.block q).ended = false ∧
      (s.dev.block q).idx = num bs 48 8 ∧ (s.dev.block q).ctx = s.dev.ctxOf x.agent
    (x.byHandler = true → (∀ q, ¬ names q) → bad s x (.wksetImg w) .illegal) ∧
    ((x.agent.isGroup = true ∨ (names b ∧ ∀ q, names q → q = b)) →
      let who := if x.agent.isGroup then (x.agent, x.view.priv) else (.access b, (s.dev.ctx (s.dev.block b).ctx).privLaunch)
      if taken then bad s x (.wksetImg w) .capacity
      else if malformed bs then bad s x (.wksetImg w) .illegal
      else if skewed bs then bad s x (.wksetImg w) .misalign
      else
        let L := s.dev.mapLocs b (BitVec.ofNat 64 (num bs 24 8)) (num bs 0 4)
        ranges s who.1 who.2 bs → old.waiting = [] → s.dev.mapAway core n = false → s.dev.held L = false → (∀ l ∈ L, s.dev.answers l) →
        ∃ t, exec (.wksetImg w) s = .next t ∧
        (x.joined (s.dev.view x.agent)).ended (t.dev.view x.agent) ∧ others s t core n ∧
        let u := t.dev.wslot core n
        u.holder = some b ∧ u.desc = bs.take 32 ++ List.replicate 32 0 ∧ u.serial = old.serial + 1 ∧
        u.handed = num bs 32 4 ∧ u.deferrals = num bs 36 4 ∧ u.forced = num bs 40 4 ∧ u.completions = num bs 44 4 ∧
        fresh u (num bs 0 4) (fun i => (((L[i / 8]?).map s.dev.byteAt).getD 0).getLsbD (i % 8)))))

/-- R177, R200 to R203, R207 and R209: `wknext` examines its slot: it defers each pending point that is no candidate, with its
prefetches, and hands the first candidates to the live lanes with their map bits set; it waits while there is none, and gives
count 0 once every point has been handed. `wkres` reads a line's residency. The walker's events hand out to a waiting word,
end a prefetch, and force a point by its clock. (The model's choices here: a waiting word defers no more points, assumption 67; bit 3 of
`wkres` for denied rights, 68; a line of another device is ready once it has been brought to its home, and bit 0 of `wkres` reads 0 for it, 70.) -/
def Obligations.WalkerExaminesAndHandsOut : Prop :=
  let wordOf := fun (s : State) (b : Nat) (map : DWord) (i : Nat) (ms : List Loc) =>
    s.dev.reachBlk b .store (map + BitVec.ofNat 64 (8 * (i / 64))) 8 = .ok ms
  let mapOk := fun (s : State) (b : Nat) (map : DWord) (i : Nat) (m : Loc) =>
    ∃ ms, wordOf s b map i ms ∧ (∀ l ∈ ms, s.dev.answers l) ∧ ms[i % 64 / 8]? = some m
  -- a line of another device is on its way to its home for the core's walker
  let bringing := fun (d : Device) (core b : Nat) (va : DWord) => ∃ r ∈ d.fab.remotes, ∃ slot serial i, r.use = .bring core slot serial i ∧
    d.lineAt b va = some (lineKey (.remote r.dev r.addr))
  -- a line of a point that an examination asks for
  let absent := fun (d : Device) (core b : Nat) (p : WPoint) (va : DWord) =>
    d.lineResident core b va = false ∧ ∀ m ∈ p.brought, d.lineAt b va ≠ some m
  let sameLine := fun (d : Device) (b : Nat) (va : DWord) (f : Prefetch) =>
    (∃ m, d.lineAt f.blk f.va = some m ∧ d.lineAt b va = some m) ∨ (f.blk = b ∧ f.va.toNat / 128 = va.toNat / 128)
  -- every record is read, no save has begun, and the map is on this device and free to be written
  let open' := fun (s : State) (core n b : Nat) => let u := s.dev.wslot core n
    (∀ p ∈ u.points, p.unread = false) ∧ (∀ p, (s.dev.ctx (s.dev.block b).ctx).preempt = some p → p.level < 2) ∧
    s.dev.mapAway core n = false ∧ s.dev.mapHeld core n (List.range u.points.length) = false ∧
    ∀ i < u.points.length, ∀ ms, wordOf s b u.map i ms → ∀ l ∈ ms, isRemote l = false
  (∀ (d : Device) (core b : Nat) (p : WPoint), d.pointReady core b p = true ↔ p.fault = false ∧ p.unread = false ∧ ∀ tile ∈ p.tiles, ∀ i < (tile.2 + 127) / 128,
    ∃ l rest, d.reachBlk b .load (tile.1 + BitVec.ofNat 64 (128 * i)) 1 = .ok (l :: rest) ∧
      ((∃ pa, l = .mem pa ∧ ((∃ y ∈ d.l2, y.line = pa / 128) ∨ ∃ k ∈ d.blocks, k.core = core ∧ k.ended = false ∧ ∃ m ∈ k.maps, ∃ f ∈ m.filled,
        m.lines[f.1]? = some (pa / 128))) ∨ (∃ c o, l = .stash c o) ∨ (∃ o, l = .scratch o) ∨ lineKey (d.settle l) ∈ p.brought)) ∧
  (∀ (s : State) (x : Issue) (w : MWord) (b k n : Nat), Cleared s x (.wknext w) → ActsNow s x (.wknext w) → x.agent = .group b k →
    s.dev.memWf = true → s.dev.filesWf = true → (s.dev.view x.agent).slices.length ≤ 64 → n = (bitsOf w.func 0 2).toNat →
    let core := (s.dev.block b).core
    let old := s.dev.wslot core n
    if old.holder ≠ some b then exec (.wknext w) s = .next (s.trapped x .perm none 0)
    else old.waiting = [] → old.points.length ≤ 65536 → open' s core n b →
      let g := x.joined (s.dev.view x.agent)
      let s0 := old.clock s.dev.now
      let q : WkReq := { blk := b, slot := k, d := w.d, p := bitsOf w.func 3 3, sC := w.index, examined := false, ids := none }
      let ready := s.dev.pointReady core b
      ∃ t, exec (.wknext w) s = .next t ∧ (∀ c m, ¬ (c = core ∧ m = n) → t.dev.wslot c m = s.dev.wslot c m) ∧
        (∀ l, (∀ i < old.points.length, ∀ ms m, wordOf s b old.map i ms → ms[i % 64 / 8]? = some m → s.dev.cell m ≠ s.dev.cell l) →
          t.dev.byteAt l = s.dev.byteAt l) ∧
        let u := t.dev.wslot core n
        let h := t.dev.view x.agent
        let gives := fun (v : WSlot) (C : List Nat) =>
          let H := C.take g.liveLanes.length
          v.HandsOut u H ∧ g.Received h q (H.map v.idOf) ∧ (∀ i ∈ g.liveSlices, h.slice i = { g.slice i with hold := .free }) ∧
          ∀ i ∈ H, ∀ m, mapOk s b old.map i m → (t.dev.byteAt m).getLsbD (i % 8) = true
        ((∀ i < old.points.length, (old.pt i).handed = true) →
          u = { s0 with waiting := [] } ∧ g.Received h q [] ∧ ∀ i ∈ g.liveSlices, h.slice i = { g.slice i with hold := .free }) ∧
        ((∃ i, old.isPending i) → ∀ C, s0.Candidates ready C → ∃ v, s0.Deferred v s.dev.now C ∧
          (C ≠ [] → gives v C) ∧
          (C = [] → ∀ C', v.Candidates ready C' →
            (C' ≠ [] → gives v C') ∧
            (C' = [] → u = { v with waiting := [{ q with examined := true }] } ∧ SameBytes s t ∧
              h = { g with vEmpty := h.vEmpty, sEmpty := h.sEmpty, slices := h.slices } ∧ h.sIsEmpty w.index.toNat = true ∧
              (∀ i ∈ g.liveSlices, h.slice i = { g.slice i with hold := .unit }) ∧
              ∀ r i, i < 64 → h.vIsEmpty r i = if r = w.d.toNat ∧ i ∈ x.slices then true else g.vIsEmpty r i)) ∧
          (∀ i, s0.isPending i → i ∉ C → (s0.pt i).fault = false → ∀ va ∈ (s0.pt i).tiles.flatMap tileLines, absent s.dev core b (s0.pt i) va →
            bringing s.dev core b va ∨ ∃ f ∈ t.dev.prefetches, f.core = core ∧ sameLine s.dev b va f) ∧
          ∀ f ∈ t.dev.prefetches, f ∈ s.dev.prefetches ∨ (f.core = core ∧ f.slot = n ∧ f.blk = b ∧ f.serial = old.serial ∧
            s0.isPending f.point ∧ f.point ∉ C ∧ f.va ∈ (s0.pt f.point).tiles.flatMap tileLines ∧ absent s.dev core b (s0.pt f.point) f.va ∧
            ¬ bringing s.dev core b f.va ∧ ∀ f' ∈ s.dev.prefetches, f'.core = core → ∀ m, s.dev.lineAt f'.blk f'.va = some m → s.dev.lineAt b f.va ≠ some m))) ∧
  (∀ (s : State) (x : Issue) (w : MWord) (b : Nat), Ready s x (.wkres w) → GangOk s x → x.agent.blk? = some b →
    (s.dev.view x.agent).regsWf = true →
    let core := (s.dev.block b).core
    ∃ t v, exec (.wkres w) s = .next t ∧ (w.u = false → MarkedLanes s t x w.d.toNat false v 0) ∧
      (w.u = true → MarkedS s t x w.d.toNat (v x.lead) 0) ∧ ∀ l ∈ x.accessing w.u,
        let ea := w.address s x l
        match s.dev.reach x.agent (s.dev.view x.agent).priv .load ea 1 with
        | .error _ => v l = 8
        | .ok ls => (v l).toNat < 8 ∧
          ((v l).getLsbD 0 = true ↔ (∃ pa, ls.head? = some (.mem pa) ∧ ∃ y ∈ s.dev.l2, y.line = pa / 128) ∨
            (∃ c o, ls.head? = some (.stash c o)) ∨ ∃ o, ls.head? = some (.scratch o)) ∧
          ((v l).getLsbD 1 = true ↔ ∃ pa, ls.head?.map s.dev.settle = some (.mem pa) ∧ ∃ k ∈ s.dev.blocks, k.core = core ∧ k.ended = false ∧
            ∃ m ∈ k.maps, ∃ f ∈ m.filled, m.lines[f.1]? = some (pa / 128)) ∧
          ((v l).getLsbD 2 = true ↔ bringing s.dev core b ea ∨ ∃ f ∈ s.dev.prefetches, f.core = core ∧ s.dev.lineAt f.blk f.va = s.dev.lineAt b ea ∧
            (s.dev.lineAt b ea = none → f.blk = b ∧ f.va.toNat / 128 = ea.toNat / 128))) ∧
  (∀ (s : State) (core n b : Nat) (q : WkReq) (C : List Nat),
    let old := s.dev.wslot core n
    let s0 := old.clock s.dev.now
    let a := Agent.group q.blk q.slot
    let g := s.dev.view a
    old.holder = some b → old.waiting = [q] → q.ids = none → q.examined = true → open' s core n b → s.dev.has a = true → s.dev.memWf = true → s.dev.filesWf = true → g.slices.length ≤ 64 →
    (∃ i, old.isPending i) →
    old.points.length ≤ 65536 → s0.Candidates (s.dev.pointReady core b) C →
    ∃ t, exec (.walkerWaitEnd core n) s = .next t ∧
      let H := C.take g.liveLanes.length
      (C ≠ [] → s0.HandsOut (t.dev.wslot core n) H ∧ g.Received (t.dev.view a) q (H.map s0.idOf) ∧
        (∀ i ∈ H, ∀ m, mapOk s b old.map i m → (t.dev.byteAt m).getLsbD (i % 8) = true) ∧
        ∀ i, (g.slice i).hold = .unit → (t.dev.view a).slice i = { g.slice i with hold := .free }) ∧
      (C = [] → t.dev.wslot core n = old ∧ t.dev.view a = g ∧ SameBytes s t)) ∧
  (∀ (s : State) (core n b : Nat) (q : WkReq) (p : Preempt), let u := s.dev.wslot core n
    u.holder = some b → u.waiting = [q] → q.ids = none → (∀ p ∈ u.points, p.unread = false) →
    (s.dev.ctx (s.dev.block b).ctx).preempt = some p → 2 ≤ p.level →
    exec (.walkerWaitEnd core n) s = .next { s with dev := s.dev.modWslot core n (fun u => u.clock s.dev.now) }) ∧
  (∀ (s : State) (k : Nat) (failed : Bool) (q : Prefetch), s.dev.prefetches[k]? = some q → (s.dev.wslot q.core q.slot).waiting = [] →
    (∀ p ∈ (s.dev.wslot q.core q.slot).points, p.unread = false) →
    let d : Device := { s.dev with prefetches := listDrop s.dev.prefetches k }
    let marks := exec (.prefetchComplete k failed) s = .next { s with dev :=
      if (s.dev.wslot q.core q.slot).serial = q.serial then d.modWslot q.core q.slot (fun u =>
        { u with points := listModify (fun p => { p with unread := false, fault := true, forced := true }) u.points q.point }) else d }
    match s.dev.reachBlk q.blk .load q.va 1 with
    | .error _ => marks
    | .ok ls =>
      if s.dev.held ls = true then exec (.prefetchComplete k failed) s = .next s
      else if failed = true ∨ ∃ l ∈ ls, s.dev.lostByte l = true then marks
      else (∀ m off rest, ls = .remote m off :: rest → s.dev.ham.listed = true → ∃ t op, exec (.prefetchComplete k failed) s = .next t ∧
          op = { plainOp none (s.dev.block q.blk).ctx m 0 (off / 128 * 128) 128 with use := .bring q.core q.slot q.serial q.point, tag := op.tag } ∧
          t.dev.prefetches = d.prefetches ∧ t.dev.fab.remotes = s.dev.fab.remotes ++ [op] ∧ t.dev.cores = s.dev.cores ∧ SameBytes s t ∧
          t.dev.fab.outbox = s.dev.fab.outbox ++ [{ OutMsg.empty m 0 with tag := op.tag, addr := off / 128 * 128, size := 128, counted := true }]) ∧
        ((∀ l ∈ ls, isRemote l = false) → exec (.prefetchComplete k failed) s = .next { s with dev := d.touchLoads ls })) ∧
  (∀ (s : State) (k : Nat) (op : RemoteOp) (core n serial i : Nat) (bytes : List Byte), s.dev.fab.remotes[k]? = some op →
    op.use = .bring core n serial i → op.kind = 0 → op.failed = false → s.dev.ham.listed = true → bytes ≠ [] → core < s.dev.cores.length →
    (s.dev.wslot core n).waiting = [] → (∀ p ∈ (s.dev.wslot core n).points, p.unread = false) →
    ∃ t, exec (.loadReply k bytes) s = .next t ∧ t.dev.fab.remotes = listDrop s.dev.fab.remotes k ∧ SameBytes s t ∧
      (∀ c m, c ≠ core → t.dev.wslot c m = s.dev.wslot c m) ∧ ∀ m, m < (s.dev.core core).walker.length →
        t.dev.wslot core m = { s.dev.wslot core m with points := (s.dev.wslot core m).points.map (fun p =>
          if p.handed = true then p else { p with brought := p.brought ++ [lineKey (.remote op.dev op.addr)] }) }) ∧
  (∀ (s : State) (core n i : Nat), let u := s.dev.wslot core n
    u.waiting = [] → (∀ p ∈ u.points, p.unread = false) → u.isPending i → (u.pt i).forced = false → u.timeBound ≠ 0 → (u.pt i).dc ≠ 0 → u.timeBound ≤ s.dev.now - (u.pt i).t0 →
    exec (.pointForcedByTime core n i) s = .next { s with dev := s.dev.modWslot core n (fun u =>
      { u with points := listModify (fun p => { p with forced := true }) u.points i }) })

/-- R224, R225, R391, R396 to R402: `csrr` reads each register by its code; `csrw` puts a value within its register's limits in force and
raises ILLEGAL for any other; a write of WAYPART also takes lines out of the ways it surrenders and zeroes the ways that turn.
`tret` returns to user mode at EPC, or where a rollback left each slice; `tlbinv` lets translations see the tables as memory
holds them; `idle` holds the gang; `halt` fails the launch with the cause in CAUSE. (The model's choices here: what `csrw` and `tlbinv` wait
for, assumption 74; `tret` outside a handler moves its own gang, 17; `tlbinv` copies the tables, 12.) -/
def Obligations.ControlRegistersAndTheWordsThatEndOrHold : Prop :=
  let bad := fun (s : State) (x : Issue) (i : Instr) => exec i s = .next (s.trapped x .illegal none 0)
  -- the accesses of the context that were issued before the packet and are still to be performed
  let left := fun (s : State) (x : Issue) =>
    let d := x.base
    let mine := fun (b : Nat) => (d.block b).ctx = s.dev.ctxOf x.agent
    let own := fun (gang : Option Nat) => match gang with | some n => n ∈ x.slices | none => True
    let accesses := fun (r : RemoteOp) => r.failed = false ∧ match r.use with
      | .dep | .wake | .firm => False
      | .fetch gang => ¬ (r.agent = some x.agent ∧ own gang)
      | _ => True
    (∃ r ∈ d.fab.remotes, r.ctx = s.dev.ctxOf x.agent ∧ accesses r) ∨ (∃ q ∈ (d.ctx (s.dev.ctxOf x.agent)).streams, q.waiting ≠ []) ∨
      (∃ k ∈ d.cores, ∃ u ∈ k.walker, ∃ b, u.holder = some b ∧ mine b ∧ ∃ p ∈ u.points, p.unread = true ∧ p.handed = false) ∨
      (∃ q ∈ d.qfills, mine q.blk) ∨ (∃ q ∈ d.copies, mine q.blk) ∨ (∃ q ∈ d.prefetches, mine q.blk) ∨
      ∃ k ∈ d.cores, ∃ y ∈ k.crest, ∃ b, y.blk = some b ∧ mine b ∧ ∃ op ∈ y.ops, op.pieces ≠ []
  (∀ (s : State) (x : Issue) (w : YWord), Cleared s x (.csrr w) → GangOk s x → (s.dev.view x.agent).regsWf = true →
    let c := s.dev.ctx (s.dev.ctxOf x.agent)
    let die := s.dev.dieOf x.agent
    let dom := (x.view.sAt w.a.toNat).toNat
    let g := s.dev.view x.agent
    let v : DWord := match w.imm.toNat with
      | 0 => zext (Fmap.get 0xFFFF s.dev.waypart (die * 32 + dom))
      | 1 => c.spwin
      | 2 => zext c.splim
      | 3 => zext (Fmap.get 24 s.dev.swapth die)
      | 4 => zext c.formto
      | 5 => c.tslice
      | 6 => zext c.pdrain
      | 7 => zext c.psave
      | 8 => if c.promise then 1 else 0
      | 9 => c.trapvec
      | 10 => g.cause
      | 11 => g.epc
      | _ => zext g.recCnt
    if w.imm = 0 ∧ 31 < dom then bad s x (.csrr w) else ∃ t, exec (.csrr w) s = .next t ∧ WroteS s t x w.d.toNat v 0) ∧
  (∀ (s : State) (x : Issue) (w : YWord), Cleared s x (.csrw w) →
    let v := x.view.sAt w.a.toNat
    let n := v.toNat
    let c := s.dev.ctxOf x.agent
    let writes := fun (ok : Prop) (d : Device) => (ok → exec (.csrw w) s = .next { s with dev := d }) ∧ (¬ ok → bad s x (.csrw w))
    let ctx := fun (f : Ctx → Ctx) => s.dev.modCtx c f
    let once := fun (ok : Prop) (d : Device) =>
      (ok → ¬ left s x → exec (.csrw w) s = .next { s with dev := d }) ∧ (ok → left s x → exec (.csrw w) s = .next (s.waitNow x)) ∧
        (¬ ok → bad s x (.csrw w))
    let u := bitsOf v 0 32
    match w.imm.toNat with
    | 1 => once (bitsOf v 56 8 = 0 ∧ bitsOf v 2 27 = 0) (ctx (fun k => { k with spwin := v }))
    | 2 => once (n ≤ 2 ^ 29 ∧ n % 2 ^ 20 = 0) (ctx (fun k => { k with splim := u }))
    | 3 => writes (n ≤ 4095) { s.dev with swapth := Fmap.set 24 s.dev.swapth (s.dev.dieOf x.agent) (bitsOf v 0 16) }
    | 4 => writes (0 < n ∧ n < 2 ^ 32) (ctx (fun k => { k with formto := u }))
    | 5 => writes True (ctx (fun k => { k with tslice := v }))
    | 6 => writes (0 < n ∧ n < 2 ^ 32) (ctx (fun k => { k with pdrain := u }))
    | 7 => writes (0 < n ∧ n < 2 ^ 32) (ctx (fun k => { k with psave := u }))
    | 9 => writes (n % 128 = 0 ∧ n < 2 ^ 56) (ctx (fun k => { k with trapvec := v, trapDefault := false }))
    | 10 => writes True (s.dev.modView x.agent (fun g => { g with cause := v }))
    | 11 => writes (n < 2 ^ 32) (s.dev.modView x.agent (fun g => { g with epc := v }))
    | _ => bad s x (.csrw w)) ∧
  (∀ (s : State) (x : Issue) (w : YWord), Cleared s x (.csrwWaypart w) →
    let v := x.view.sAt w.a.toNat
    let dom := (x.view.sAt w.d.toNat).toNat
    let die := s.dev.dieOf x.agent
    let old := s.dev.wayPart die dom
    let ok := dom ≤ 31 ∧ v.toNat < 2 ^ 16 ∧ v.getLsbD 0 = true ∧
      ∀ i < 16, ∃ k < 16, v.getLsbD k = true ∧ s.dev.ham.fenced.contains (.l2way die (16 * dom + i) k) = false
    let out := fun (y : L2Line) => y.die = die ∧ y.slice / 16 = dom ∧ y.way < 16 ∧ old.getLsbD y.way = true ∧ v.getLsbD y.way = false
    let turned := fun (o : Nat) => o / 2 ^ 29 = die ∧ o % 2 ^ 29 / 2 ^ 24 = dom ∧ old.getLsbD (o / 2 ^ 20 % 16) ≠ v.getLsbD (o / 2 ^ 20 % 16)
    let busy := (∃ c ∈ s.dev.copies, ∃ p ∈ c.pieces, ∃ o, p.1 = .scratch o ∧ turned o) ∨
      (∃ q ∈ s.dev.qfills, ∃ ls ∈ q.locs, ∃ o, .scratch o ∈ ls ∧ turned o) ∨
      ∃ k ∈ s.dev.cores, ∃ y ∈ k.crest, ∃ op ∈ y.ops, ∃ p ∈ op.pieces, ∃ o, p.1 = .scratch o ∧ turned o
    (¬ ok → bad s x (.csrwWaypart w)) ∧ (ok → busy → exec (.csrwWaypart w) s = .next (s.waitNow x)) ∧
    (ok → ¬ busy → (∀ y ∈ s.dev.l2, s.dev.busyWhere (fun n => n == y.line) = false) → (∀ y ∈ s.dev.l2, y.way < 16) → s.dev.memWf = true →
      Fmap.wf 0xFFFF s.dev.waypart = true → ∃ t, exec (.csrwWaypart w) s = .next t ∧
      (∀ d j, t.dev.wayPart d j = if d * 32 + j = die * 32 + dom then bitsOf v 0 16 else s.dev.wayPart d j) ∧
      (∀ y, y ∈ t.dev.l2 ↔ y ∈ s.dev.l2 ∧ ¬ out y) ∧
      (∀ o, turned o → t.dev.byteAt (.scratch o) = 0) ∧
      (∀ l, (∀ o, turned o → l ≠ .scratch o) → t.dev.byteAt l = s.dev.byteAt l) ∧
      (∀ b, (t.dev.view b) = s.dev.view b) ∧
      ∃ e N, t.dev.ham = { s.dev.ham with log := s.dev.ham.log ++ [e] } ∧
        (∀ f : L2Line → Bool, (∀ y, f y = true ↔ out y ∧ y.behind ≠ none) → N = (s.dev.l2.filter f).length) ∧
        e = { cycles := s.dev.now, kind := 5, die := die, unit := 0, detail := BitVec.ofNat 64 (N * 2 ^ 32 + dom * 256) })) ∧
  (∀ (s : State) (x : Issue) (w : YWord), Cleared s x (.tret w) → GangOk s x → (∀ c, x.agent ≠ .handler c) →
    let g := s.dev.view x.agent
    let who := fun (i : Nat) => if g.inHandler = true ∧ x.agent.isGroup = true then i < 64 ∧ g.handler.getLsbD i = true else i ∈ x.slices
    ∃ t, exec (.tret w) s = .next t ∧ s.sameBeside { t with iss := s.iss } x.agent ∧ t.iss = some { x with moved := true } ∧
      t.dev.fills = s.dev.fills ∧
      let h := t.dev.view x.agent
      h = { g with inHandler := false, priv := false, handler := 0, rolledPc := [], slices := h.slices } ∧ h.slices.length = g.slices.length ∧
      ∀ i < g.slices.length, (¬ who i → h.slice i = g.slice i) ∧
        (who i → h.slice i = { g.slice i with
          pc := if g.cause.getLsbD 10 then (g.rolledPc[i]?).getD (bitsOf g.epc 0 32) else bitsOf g.epc 0 32 })) ∧
  (∀ (s : State) (x : Issue) (w : YWord) (k : Nat), Cleared s x (.tret w) → x.agent = .handler k →
    let c := s.dev.ctxOf x.agent
    let rest : Device := { s.dev with handlers := s.dev.handlers.filter (fun h => h.1 != k) }
    exec (.tret w) s = .next { s with
      dev := if (∃ h ∈ s.dev.handlers, h.1 ≠ k ∧ h.2.1 = c) ∨ ¬ ∃ p, (s.dev.ctx c).preempt = some p ∧ p.level = 2 ∧ p.cores = [] then rest
        else rest.finishSave c
      iss := some { x with moved := true } }) ∧
  (∀ (s : State) (x : Issue) (w : YWord), Cleared s x (.tlbinv w) →
    let c := s.dev.ctxOf x.agent
    let va := x.view.sAt w.a.toNat
    let root := (s.dev.ctx c).root
    (w.imm.getLsbD 0 = true → bitsOf va 56 8 ≠ 0 → bad s x (.tlbinv w)) ∧
    (w.imm.getLsbD 0 = false ∨ bitsOf va 56 8 = 0 → left s x → exec (.tlbinv w) s = .next (s.waitNow x)) ∧
    (w.imm.getLsbD 0 = false → ¬ left s x →
      exec (.tlbinv w) s = .next { s with dev := s.dev.modCtx c (fun k => { k with tables := s.dev.mem }) }) ∧
    (w.imm.getLsbD 0 = true → bitsOf va 56 8 = 0 → ¬ left s x → c < s.dev.ctxs.length → Fmap.wf 0 (s.dev.ctx c).tables = true →
      ∃ T, exec (.tlbinv w) s = .next { s with dev := s.dev.modCtx c (fun k => { k with tables := T }) } ∧
        let seen := fun (i : Nat) => i ∈ walkEntries s.dev.mem va.toNat 4 root ∨
          ∃ t ∈ tablesMoved (s.dev.ctx c).tables s.dev.mem va.toNat 4 root, t ≤ i ∧ i < t + 4096
        ∀ i, (seen i → Fmap.get 0 T i = Fmap.get 0 s.dev.mem i) ∧ (¬ seen i → Fmap.get 0 T i = Fmap.get 0 (s.dev.ctx c).tables i))) ∧
  (∀ (s : State) (x : Issue) (w : YWord), Cleared s x (.idle w) → GangOk s x → ∃ t, exec (.idle w) s = .next t ∧
    s.sameBeside t x.agent ∧ t.dev.fills = s.dev.fills ∧
    let g := s.dev.view x.agent
    let h := t.dev.view x.agent
    h = { g with slices := h.slices } ∧
    ∀ i, h.slice i = if i ∈ x.slices then { g.slice i with hold := .idle s.dev.now w.imm.toNat } else g.slice i) ∧
  (∀ (s : State) (x : Issue) (w : YWord), Cleared s x (.halt w) →
    let c := s.dev.ctxOf x.agent
    c < s.dev.ctxs.length → s.dev.memWf = true → (s.dev.ctx c).requester = none →
    ∃ t, exec (.halt w) s = .next t ∧ s.dev.Failed t.dev c (bitsOf x.view.cause 0 8))

/-- R391 to R393, R403 and R404: `cacheop.alloc` places a line in a way of its slice, exempt from replacement; a range form writes back or
invalidates the lines of a range and recalls every private copy of them, a way form those of a way, whose dirty lines it counts. Operands outside
their limits raise ILLEGAL or MISALIGN, windows PERM, surrendered ways SPWINDOW; a fenced way takes no line. (That a range form looks for
ILLEGAL before MISALIGN is the model's choice, assumption 14.) -/
def Obligations.CacheWordsActOnLines : Prop :=
  let window := fun (s : State) (x : Issue) (va : DWord) =>
    bitsOf va 56 8 = 0xFD ∨ bitsOf va 56 8 = 0xFE ∨
      (bitsOf va 56 8 = 0 ∧ (s.dev.ctx (s.dev.ctxOf x.agent)).spwin.getLsbD 0 = true ∧
        va.toNat / 2 ^ 29 = (bitsOf (s.dev.ctx (s.dev.ctxOf x.agent)).spwin 29 27).toNat)
  (∀ (s : State) (x : Issue) (w : YWord), Cleared s x (.cacheopAlloc w) →
    let va := x.view.sAt w.a.toNat
    let way := (x.view.sAt w.d.toNat).toNat
    let bad := fun (c : Cause) => exec (.cacheopAlloc w) s = .next (s.trapped x c none 0)
    if 16 ≤ way then bad .illegal
    else if window s x va then bad .perm
    else ∀ l, s.dev.reach x.agent x.view.priv .store (va - BitVec.ofNat 64 (va.toNat % 128)) 1 = .ok [l] →
      ((∀ pa, l ≠ .mem pa) → exec (.cacheopAlloc w) s = .next s) ∧
      ∀ pa, l = .mem pa →
        let n := pa / 128
        let die := homeDieOf n
        let slice := homeSliceOf n
        let place := fun (y : L2Line) => y.die = die ∧ y.slice = slice ∧ y.set = lineSetOf n ∧ y.way = way
        if (s.dev.wayPart die (slice / 16)).getLsbD way = false then bad .spWindow
        else if Piece.l2way die slice way ∈ s.dev.ham.fenced then exec (.cacheopAlloc w) s = .next s
        else s.dev.busyWhere (fun k => k == n) = false → ∃ L, exec (.cacheopAlloc w) s = .next { s with dev := { s.dev with l2 := L } } ∧
          ∀ y, y ∈ L ↔ (y ∈ s.dev.l2 ∧ y.line ≠ n ∧ ¬ place y) ∨
            (∃ z ∈ s.dev.l2, z.line = n ∧ y = { z with way := way, exempt := true }) ∨
            ((∀ z ∈ s.dev.l2, z.line ≠ n) ∧
              y = { line := n, die := die, slice := slice, set := lineSetOf n, way := way, exempt := true, behind := none })) ∧
  (∀ (s : State) (x : Issue) (w : YWord) (op : LineOp),
    let i : Instr := match op with | .inv => .cacheopInv w | .wbinv => .cacheopWbinv w | _ => .cacheopWb w
    op ≠ .clean → Cleared s x i →
    let va := x.view.sAt w.a.toNat
    let len := (x.view.sAt w.d.toNat).toNat
    let bad := fun (c : Cause) => exec i s = .next (s.trapped x c none 0)
    if len = 0 ∨ len % 128 ≠ 0 ∨ 2 ^ 30 < len then bad .illegal
    else if va.toNat % 128 ≠ 0 then bad .misalign
    else
      (window s x va → bad .perm) ∧
      ∀ runs, s.dev.rangeRuns x.agent x.view.priv (len / 4096 + 2) va len = .ok runs →
        let hit := fun (n : Nat) => ∃ r ∈ runs, r.1 ≤ n ∧ n < r.1 + r.2
        (∀ p : Nat → Bool, (∀ n, p n = true ↔ hit n) → s.dev.busyWhere p = false) → s.dev.memWf = true →
        (s.dev.l2.map L2Line.line).Nodup → (∀ y ∈ s.dev.l2, ∀ bs, y.behind = some bs → bs.length = 128) →
        ∃ d, exec i s = .next { s with dev := d } ∧ LineEffect op (fun y => hit y.line) hit s.dev d) ∧
  (∀ (s : State) (x : Issue) (w : YWord) (op : LineOp),
    let i : Instr := match op with | .inv => .cacheopInvWay w | .wbinv => .cacheopWbinvWay w | _ => .cacheopWbWay w
    op ≠ .clean → Cleared s x i → GangOk s x →
    let j := x.view.sAt w.a.toNat
    let dom := (bitsOf j 8 5).toNat
    let way := (bitsOf j 0 4).toNat
    let die := s.dev.dieOf x.agent
    let bad := fun (c : Cause) => exec i s = .next (s.trapped x c none 0)
    if j &&& 0xFFFFFFFFFFFFE0F0 ≠ 0 then bad .illegal
    else if (s.dev.wayPart die dom).getLsbD way = false then bad .spWindow
    else
      let hit := fun (y : L2Line) => y.die = die ∧ y.slice / 16 = dom ∧ y.way = way
      (∀ y ∈ s.dev.l2, hit y → s.dev.busyWhere (fun n => n == y.line) = false) → s.dev.memWf = true → s.dev.filesWf = true →
      (s.dev.l2.map L2Line.line).Nodup → (∀ y ∈ s.dev.l2, ∀ bs, y.behind = some bs → bs.length = 128) →
      ∃ d t N, exec i s = .next t ∧ LineEffect op hit (fun n => op ≠ .wb ∧ ∃ y ∈ s.dev.l2, hit y ∧ y.line = n) s.dev d ∧
        WroteS { s with dev := d } t x w.d.toNat (BitVec.ofNat 64 N) 0 ∧
        ∀ f : L2Line → Bool, (∀ y, f y = true ↔ hit y ∧ y.behind ≠ none) → N = (s.dev.l2.filter f).length)

/-- R56, R75, R343, R364 to R368, R385 and R390: a word whose checks name a cause traps with it, and one that cannot issue waits; a
privileged word traps with PRIV in user mode. Taking a trap writes CAUSE and EPC, enters privileged mode and starts the gang at
packet 0 of the handler that TRAPVEC names then, with registers as they are; the default handler fails the launch, a trap in a handler
resets the context, and a BKPT stops the agent for the debug service that is attached. `bkpt` and `trapi` trap with their code. (The model's
choices here: the default handler fails the launch at once, assumption 8; a trap of the cluster handler fails the launch with that trap's
cause and resets at once, 17; a BKPT stops access slices and ridge threads as well, 54.) -/
def Obligations.TrapsSaveTheirCauseAndEnterTheHandler : Prop :=
  (∀ (s : State) (x : Issue) (i : Instr), s.iss = some x → encode i ≠ [] →
    (∀ c l, x.verdict s.dev i = .trap c l → exec i s = .next (s.trapped x c l 0)) ∧
    (x.verdict s.dev i = .wait → exec i s = .next (s.waitNow x))) ∧
  (∀ (s : State) (x : Issue) (w : YWord) (i : Instr),
    i ∈ [.csrr w, .csrw w, .csrwWaypart w, .tret w, .tlbinv w, .cacheopAlloc w, .cacheopWb w, .cacheopInv w, .cacheopWbinv w,
      .cacheopWbWay w, .cacheopInvWay w, .cacheopWbinvWay w, .halt w, .mfreeze w, .mthaw w] →
    s.iss = some x → (s.dev.view x.agent).priv = false → x.staticCause s.dev i ≠ some .illegal → x.staticCause s.dev i ≠ some .misalign →
    exec i s = .next (s.trapped x .priv none 0)) ∧
  (∀ (s : State) (x : Issue) (w : BWord), Cleared s x (.bkpt w) → exec (.bkpt w) s = .next (s.trapped x .bkpt none (bitsOf w.off 0 16))) ∧
  (∀ (s : State) (x : Issue) (w : BWord), Cleared s x (.trapi w) →
    exec (.trapi w) s = .next (if w.cond = false ∨ ∃ l ∈ x.gangLanes, (x.view.pAt w.p.toNat l != w.neg) = true
      then s.trapped x .soft none (bitsOf w.off 0 16) else s)) ∧
  ∀ (d : Device) (a : Agent) (slices : List Nat) (pc : Word) (word : Nat) (cause : Byte) (lane : Option Nat) (code : BitVec 16)
      (rolled escalated : Bool), d.has a = true → word < 4 → (∀ l, lane = some l → l < 256) → (∀ i ∈ slices, i < 64) →
    let e := d.trapEntry a slices pc word cause lane code rolled escalated
    let c := d.ctxOf a
    let g := d.view a
    let h := e.view a
    let handler := ∃ k, a = .handler k
    let stops := cause = Cause.bkpt.code ∧ c ∈ d.ham.attached
    let tells := fun (u : DWord) => bitsOf u 0 8 = cause ∧ (bitsOf u 8 2).toNat = word ∧ u.getLsbD 10 = rolled ∧ u.getLsbD 11 = escalated ∧
      bitsOf u 12 4 = 0 ∧ bitsOf u 16 16 = code ∧ bitsOf u 41 23 = 0 ∧
      match lane with | some l => u.getLsbD 40 = true ∧ (bitsOf u 32 8).toNat = l | none => bitsOf u 32 9 = 0
    (handler ∨ g.inHandler = true → c < d.ctxs.length → d.memWf = true → (d.ctx c).requester = none → d.Failed e c cause ∧
      ∃ p, (e.ctx c).preempt = some p ∧ p.level = 3 ∧ (¬ handler → p.doubleTrap = true)) ∧
    (¬ handler → g.inHandler = false → ¬ stops → (d.ctx c).trapDefault = true → c < d.ctxs.length → d.memWf = true →
      (d.ctx c).requester = none → d.Failed e c cause) ∧
    (¬ handler → g.inHandler = false → stops → e = d.putView a h ∧ tells h.cause ∧
      (a.isGroup = true → ∀ i < 64, h.handler.getLsbD i = decide (i ∈ slices)) ∧
      h = { g with cause := h.cause, epc := zext pc, stopped := true, stepping := none, handler := h.handler }) ∧
    (¬ handler → g.inHandler = false → ¬ stops → (d.ctx c).trapDefault = false → e = d.putView a h ∧ tells h.cause ∧
      h = { g with cause := h.cause, epc := zext pc, inHandler := true, vec := (d.ctx c).trapvec, priv := true, handler := h.handler,
                   stopped := false, stepping := none, rolledPc := h.rolledPc, slices := h.slices } ∧
      (a.isGroup = true → (∀ i < 64, h.handler.getLsbD i = decide (i ∈ slices)) ∧
        h.rolledPc = (if rolled then g.slices.map Slice.pc else [])) ∧
      h.slices.length = g.slices.length ∧ ∀ i < g.slices.length,
        h.slice i = if i ∈ slices then { g.slice i with pc := 0, hold := .free } else g.slice i)

/-- R46, R350 to R355, R360, R405 to R407: `launch` reads its packet as one snapshot and hands it to the distributor of its die; admission
takes the head of the highest priority, fails it with the first cause or reports 1; a met dependency queues a launch; blocks are
placed in increasing index, die after die, on the core with the fewest groups; a finished launch increments its counter; the
yelm former flushes a partial group and places a built one. (The model's choices here: a launch inherits its launcher's root and status
place, assumption 18; a remote counter's message says that bit 63 goes with it, 51; the context's registers come from the firmware, 56; a
record's spawn memory is free at the placement of its group, 72.) -/
def Obligations.LaunchesAreAdmittedPlacedAndCompleted : Prop :=
  let num := fun (bs : List Byte) (o n : Nat) => bytesNat ((bs.drop o).take n)
  let status := fun (d e : Device) (c : Nat) => ∀ pa, (d.ctx c).statusLoc = some (.mem pa) → d.mayStore (memRun pa 8) → ∀ i < 8, e.byteAt (.mem (pa + i)) = if i = 0 then 1 else 0
  (∀ (bs : List Byte), let p := parsePacket bs
    p.codeBase.toNat = num bs 0 8 ∧ p.entry.toNat = num bs 8 4 ∧ p.accessEntry.toNat = num bs 12 4 ∧ p.ridgeEntry.toNat = num bs 16 4 ∧
    p.groups = num bs 20 1 ∧ p.regs8 = num bs 21 1 ∧ p.csetCode.toNat = num bs 22 1 % 4 ∧ p.cls.toNat = num bs 22 1 / 4 % 4 ∧
    (p.promise = true ↔ num bs 22 1 / 16 % 2 = 1) ∧ p.prio = num bs 22 1 / 32 % 4 ∧ (p.ridgeBind = true ↔ num bs 22 1 / 128 = 1) ∧
    p.stash4k = num bs 24 2 ∧ p.spawn = num bs 28 4 ∧ p.grid = num bs 32 4 ∧ p.params.toNat = num bs 40 8 ∧ p.done.toNat = num bs 48 8 ∧
    p.depAddr.toNat = num bs 56 8 ∧ p.depVal.toNat = num bs 64 8 ∧ p.cwinBase.toNat = num bs 72 8 ∧ p.cwinLen = num bs 80 4 ∧
    p.replicate.toNat = num bs 88 8 ∧ p.gen.toNat = num bs 96 8 ∧
    (p.fieldsOk = true ↔ p.codeBase.toNat % 128 = 0 ∧ p.codeBase.toNat < 2 ^ 56 ∧ 1 ≤ p.groups ∧ p.groups ≤ 16 ∧ 1 ≤ p.regs8 ∧ p.regs8 ≤ 7 ∧
      p.csetCode ≠ 3 ∧ p.cls ≠ 3 ∧ (p.ridgeBind = true → p.ridgeEntry ≠ 0xFFFFFFFF) ∧ p.stash4k ≤ 192 ∧ 1 ≤ p.grid ∧
      p.grid % 2 ^ p.csetCode.toNat = 0 ∧ p.done.toNat % 8 = 0 ∧ num bs 23 1 = 0 ∧ num bs 26 2 = 0 ∧ num bs 36 4 = 0 ∧ num bs 84 4 = 0 ∧
      num bs 104 16 = 0 ∧ num bs 120 8 = 0) ∧
    let G := p.groups + (if p.spawn = 0 then 0 else 1)
    let A := if p.accessEntry = 0xFFFFFFFF then 0 else 1
    (p.need.le Room.core = true ↔ G ≤ 128 ∧ G * (8 * p.regs8) ≤ 4096 ∧ (p.stash4k * 4096 + 131071) / 131072 * 131072 ≤ 768 * 1024 ∧ 16 * p.groups * A ≤ 256)) ∧
  (∀ (s : State) (x : Issue) (w : YWord) (ls : List Loc), Cleared s x (.launch w) → GangOk s x →
    let va := x.view.sAt w.a.toNat
    let die := s.dev.dieOf x.agent
    if va.toNat % 128 ≠ 0 then exec (.launch w) s = .next (s.trapped x .misalign none 0)
    else s.dev.reach x.agent x.view.priv .load va 128 = .ok ls → (∀ l ∈ ls, s.dev.answers l) → s.dev.held ls = false →
      (∀ r ∈ s.dev.fab.remotes, r.agent ≠ some x.agent) →
      let p := parsePacket (ls.map s.dev.byteAt)
      let full := 1024 ≤ (s.dev.ctxs.filter (fun k => k.die == die &&
        (k.state == .read || k.state == .waiting || k.state == .queued || k.state == .placing))).length
      (full → exec (.launch w) s = .next (s.waitNow x)) ∧
      (¬ full → p.replicate = 0 → ∃ t k, exec (.launch w) s = .next t ∧ t.dev.ctxs = s.dev.ctxs ++ [k] ∧ SameBytes s t ∧
        t.dev.fills = s.dev.fills ∧ (s.dev.view x.agent).ended (t.dev.view x.agent) ∧
        k.packet = p ∧ k.va = va ∧ k.die = die ∧ k.state = .read ∧ k.privLaunch = false ∧ k.root = (s.dev.ctx (s.dev.ctxOf x.agent)).root ∧
        k.tables = s.dev.mem ∧ k.placed = 0 ∧ (let r := s.dev.ham.regs
          k.spwin = r.spwin ∧ k.splim = r.splim ∧ k.formto = r.formto ∧ k.tslice = r.tslice ∧ k.pdrain = r.pdrain ∧ k.psave = r.psave) ∧
        k.promise = false ∧ k.trapDefault = true ∧ k.preempt = none ∧ k.staged = [])) ∧
  (∀ (s : State) (die c : Nat), c < s.dev.ctxs.length → s.dev.memWf = true →
    let k := s.dev.ctx c
    let p := k.packet
    k.die = die → k.state = .read → (∀ j < s.dev.ctxs.length, (s.dev.ctx j).die = die → (s.dev.ctx j).state = .read →
      (s.dev.ctx j).packet.prio < p.prio ∨ ((s.dev.ctx j).packet.prio = p.prio ∧ c ≤ j)) →
    p.replicate = 0 → k.requester = none →
    let counter := if p.done = 0 then none else s.dev.wordCause k .store p.done
    let dep := if p.depAddr = 0 then none else if p.depAddr.toNat % 8 ≠ 0 then some Cause.misalign else s.dev.wordCause k .load p.depAddr
    let cause : Option Cause := if p.fieldsOk = false then some .illegal
      else (counter.or dep).or (if s.dev.promiseRefused p = true then some .determ
        else if (p.spawn ≠ 0 ∧ p.groups = 16) ∨ p.need.le Room.core = false ∨ (p.cls = 0 ∧ s.dev.gridRoom p < p.grid) then some .capacity else none)
    ∃ t, exec (.admission die) s = .next t ∧ match cause with
      | some e => s.dev.Failed t.dev c e.code
      | none => t.dev.ctx c = { k with state := (t.dev.ctx c).state, promise := p.promise, constMem := s.dev.mem, sent := (t.dev.ctx c).sent } ∧
          status s.dev t.dev c ∧
          (t.dev.ctx c).state = if p.depAddr = 0 ∨ ∃ ls, s.dev.depLocs k = some ls ∧ ls.any isRemote = false ∧ s.dev.held ls = false ∧
            p.depVal.toNat % 2 ^ 63 ≤ (s.dev.valueAt ls).toNat % 2 ^ 63 then .queued else .waiting) ∧
  (∀ (s : State) (c : Nat) (ls : List Loc), let k := s.dev.ctx c
    k.state = .waiting → k.packet.depAddr ≠ 0 → s.dev.depLocs k = some ls →
    (ls.any isRemote = false → exec (.dependencyMet c) s = .next
      (if s.dev.held ls = false ∧ k.packet.depVal.toNat % 2 ^ 63 ≤ (s.dev.valueAt ls).toNat % 2 ^ 63
       then { s with dev := s.dev.modCtx c (fun k => { k with state := .queued }) } else s)) ∧
    (∀ n off, ls = (List.range 8).map (fun i => .remote n (off + i)) → off % 8 = 0 → (∀ r ∈ s.dev.fab.remotes, r.ctx = c → r.use ≠ .dep) →
      ∃ t r, exec (.dependencyMet c) s = .next t ∧ t.dev.fab.remotes = s.dev.fab.remotes ++ [r] ∧ r.ctx = c ∧ r.use = .dep ∧ r.kind = 0 ∧
        r.dev = n ∧ r.addr = off ∧ r.cnt = 8 ∧ (t.dev.ctx c).state = .waiting ∧ SameBytes s t)) ∧
  (∀ (d : Device) (k : Ctx) (die : Nat) (ks : List Nat), d.dieFor k = some (die, ks) →
    let n := k.packet.setSize
    (∃ i < 4, die = (k.nextDie + i) % 4 ∧ (∀ j < i, d.coresFor ((k.nextDie + j) % 4) n k.packet.need = none)) ∧
    (n = 1 → ∃ q, ks = [q] ∧ q / 32 = die ∧ d.hasRoom q k.packet.need = true ∧ ∀ r, r / 32 = die → d.hasRoom r k.packet.need = true →
      (d.residents q).length < (d.residents r).length ∨ ((d.residents q).length = (d.residents r).length ∧ q ≤ r)) ∧
    (n = 2 ∨ n = 4 → ∃ cl < 8, ks.length = n ∧ ks.Nodup ∧ (∀ q ∈ ks, q / 4 = die * 8 + cl ∧ d.hasRoom q k.packet.need = true) ∧
      ∀ m < cl, ((List.range 4).filter (fun i => d.hasRoom (die * 32 + m * 4 + i) k.packet.need)).length < n)) ∧
  (∀ (s : State) (c die : Nat) (ks : List Nat), c < s.dev.ctxs.length → let k := s.dev.ctx c
    let p := k.packet
    s.dev.served k.die = some c → p.concurrent = false → p.replicate = 0 → s.dev.dieFor k = some (die, ks) →
    ∃ t, exec (.blockPlacement c) s = .next t ∧ t.dev.blocks.length = s.dev.blocks.length + ks.length ∧
      (t.dev.ctx c).placed = k.placed + ks.length ∧ (t.dev.ctx c).nextDie = (die + 1) % 4 ∧
      (t.dev.ctx c).state = (if p.grid ≤ k.placed + ks.length then .running else .placing) ∧
      ∀ i q, ks[i]? = some q → let B := t.dev.block (s.dev.blocks.length + i)
        (q < s.dev.cores.length → ks.Nodup → (t.dev.core q).stash = ((t.dev.coreUse q).stash + 131071) / 131072 * 131072) ∧
        B.ctx = c ∧ B.idx = k.placed + i ∧ B.core = q ∧ B.ended = false ∧ B.stashBytes = p.stash4k * 4096 ∧ B.stash = [] ∧
        B.spawnCap = p.spawn ∧ B.groups.length = p.groups ∧
        (∀ a, B.access = some a → p.accessEntry ≠ 0xFFFFFFFF ∧ a.pc = p.accessEntry ∧ a.priv = k.privLaunch ∧ Fmap.get 0 a.s 0 = p.params) ∧
        (B.access = none → p.accessEntry = 0xFFFFFFFF) ∧
        (∀ a, B.ridge = some a → p.ridgeBind = true ∧ a.pc = p.ridgeEntry ∧ a.priv = k.privLaunch ∧ Fmap.get 0 a.s 0 = p.params) ∧
        (B.ridge = none → p.ridgeBind = false) ∧
        ∀ j < p.groups, let g := B.group j
          g.slot = j ∧ g.spawned = false ∧ g.exited = false ∧ g.priv = k.privLaunch ∧ g.inHandler = false ∧ g.v = [] ∧ g.vEmpty = [] ∧
          g.p = [] ∧ g.sEmpty = [] ∧ (∀ r, g.sAt r = if r = 0 then p.params else 0) ∧ g.slices.length = 64 ∧
          ∀ m < 64, g.slice m = { Slice.fresh p.entry 15 with pc := p.entry, mask := 15, live := 15, stack := [], fmt := 0, lk := 0, hold := .free }) ∧
  (∀ (s : State) (c : Nat), let k := s.dev.ctx c
    s.dev.served k.die = some c → k.packet.concurrent = true → k.packet.replicate = 0 → k.placed = 0 →
    match Device.placeAll c (k.packet.grid / k.packet.setSize) s.dev with
    | none => exec (.blockPlacement c) s = .next s
    | some d =>
      let st := if k.packet.grid ≤ (d.ctx c).placed then LaunchState.running else .placing
      exec (.blockPlacement c) s = .next { s with dev := d.modCtx c (fun u => { u with state := st }) }) ∧
  (∀ (s : State) (c : Nat) (ls : List Loc), c < s.dev.ctxs.length → s.dev.memWf = true → s.dev.filesWf = true → let k := s.dev.ctx c
    let ended := { k with state := LaunchState.done, preempt := none, doneFault := none }
    k.state = .running → k.staged = [] → k.doneFault = none → k.preempt = none → (∀ b ∈ s.dev.blocks, b.ctx = c → b.ended = true) →
    s.dev.workLeft c = false →
    let at' := s.dev.decodeRange k none k.die k.privLaunch .store k.packet.done 8
    let new := (s.dev.valueAt ls + 1) ||| (if k.broken = true then 0x8000000000000000 else 0)
    (k.packet.done = 0 → exec (.launchComplete c) s = .next { s with dev := s.dev.modCtx c (fun _ => ended) }) ∧
    (k.packet.done ≠ 0 → at' = .ok ls → (∀ l ∈ ls, s.dev.answers l) → ls.length = 8 → (ls.map s.dev.cell).Nodup → s.dev.held ls = false →
      ∃ t, exec (.launchComplete c) s = .next t ∧ t.dev.ctx c = ended ∧ (∀ i l, ls[i]? = some l → t.dev.byteAt l = element 8 new i) ∧
        ∀ l, s.dev.cell l ∉ ls.map s.dev.cell → t.dev.byteAt l = s.dev.byteAt l) ∧
    (k.packet.done ≠ 0 → ∀ n off, at' = .ok ls → ls = (List.range 8).map (fun i => .remote n (off + i)) → s.dev.held ls = false →
      s.dev.ham.listed = true → ∃ t r m, exec (.launchComplete c) s = .next t ∧ t.dev.ctx c = ended ∧ SameBytes s t ∧
        t.dev.fab.remotes = s.dev.fab.remotes ++ [r] ∧ r.kind = 4 ∧ r.dev = n ∧ r.addr = off ∧ r.cnt = 8 ∧ r.use = .firm ∧
        t.dev.fab.outbox = s.dev.fab.outbox ++ [m] ∧ m.dst = n ∧ m.cls = 4 ∧ m.tag = r.tag ∧ m.addr = off ∧ m.size = 8 ∧ m.op = 0 ∧
        m.data = 1 ∧ m.counted = false ∧ m.aux = if k.broken = true then 1 else 0) ∧
    (k.packet.done ≠ 0 → ∀ e, at' = .error (.fault e) ∨ at' = .error (.trap e) →
      exec (.launchComplete c) s = .next { s with dev := s.dev.modCtx c (fun k => { k with doneFault := some e }) })) ∧
  (∀ (s : State) (b k : Nat) (f : Former) (rest : List Former), b < s.dev.blocks.length → let B := s.dev.block b
    let c := s.dev.ctx B.ctx
    B.built = f :: rest → B.ended = false → c.preempt = none → f.recs.length ≤ 256 → (∀ r ∈ f.recs, r.regs.length = 16) →
    (B.groups.filter (fun g => !g.exited)).length < c.packet.groups + 1 →
    (∀ j < k, j < B.groups.length ∧ (B.group j).exited = false) → (k < B.groups.length → (B.group k).exited = true) → k < 16 →
    k ≤ B.groups.length → ∃ t, exec (.yelmFormerPlace b) s = .next t ∧
      let B' := t.dev.block b
      let g := B'.group k
      B'.built = rest ∧ B'.spawnUsed = B.spawnUsed - f.recs.length ∧ B'.groups.length = max B.groups.length (k + 1) ∧ g.spawned = true ∧
      g.exited = false ∧ g.priv = c.privLaunch ∧ g.slices.length = 64 ∧ (∀ r, g.sAt r = if r = 0 then c.packet.params else 0) ∧
      (∀ i < 64, (g.slice i).pc = f.target ∧ (g.slice i).fmt = f.fmt ∧ (g.slice i).mask = (g.slice i).live ∧
        ∀ j < 4, (g.slice i).live.getLsbD j = decide (4 * i + j < f.recs.length)) ∧
      ∀ l r, f.recs[l]? = some r → Fmap.get 0 g.tids l = r.tid ∧ ∀ i < 16, g.vAt i l = (r.regs[i]?).getD 0) ∧
  (∀ (s : State) (b i : Nat) (f : Former), let B := s.dev.block b
    B.ended = false → B.formers[i]? = some f →
    ((s.dev.ctx B.ctx).formto.toNat ≤ s.dev.now - f.last ∨ ∀ k < B.groups.length, (B.group k).exited = true ∨ s.dev.groupBlocked b k = true) →
    exec (.formtoFlush b i) s = .next { s with dev := s.dev.modBlock b (fun q =>
      { q with formers := listDrop q.formers i, built := q.built ++ [f] }) })

/-- R31, R38, R39, R228, R239, R243, R309, R313 to R315, R320, R358, R371, R375, R401 and R407: the events by which the core's units end
what waits for them. A fill writes its registers; a queue entry and a copy take their bytes, a copy to another device once its flits
are acknowledged (R290); a monitor's waiter or an `idle` slice goes on; a flush applies contributions in key order; a turn is taken; a
swap exchanges groups; a translation fault is resolved or refused. (The model's choices here: the table bytes that a resolved fault writes are
read at once, assumptions 12 and 19; what counts as blocked under SWAPTH, 26; a refused fault ends a step, 41; an error that meets a copy is
logged with its batch's number in the unit field, 64; a copy's reads wait for the lines that an engine owned before it, 65.) -/
def Obligations.UnitEventsCompleteWhatWaits : Prop :=
  (∀ (s : State) (k : Nat) (f : Fill), s.dev.fills[k]? = some f → f.await = 0 → s.dev.has f.agent = true →
    f.agent.isGroup = true ∨ (f.v = [] ∧ f.vFull = [] ∧ f.vErr = []) → (s.dev.view f.agent).regsWf = true →
    (f.v.map Prod.fst).Nodup → (f.s.map Prod.fst).Nodup → (∀ q ∈ f.vErr, q ∈ f.v.map Prod.fst) → ∃ t, exec (.registerFill k) s = .next t ∧
      t.dev.fills = listDrop s.dev.fills k ∧ s.sameBeside t f.agent ∧
      let g := s.dev.view f.agent
      let h := t.dev.view f.agent
      h = { g with v := h.v, vBad := h.vBad, s := h.s, sBad := h.sBad, vEmpty := h.vEmpty, sEmpty := h.sEmpty, flags := g.flags ||| f.flags } ∧
      (∀ q, (∀ v, (q, v) ∈ f.v → Fmap.get 0 h.v q = v ∧ Fmap.get false h.vBad q = decide (q ∈ f.vErr)) ∧
        (q ∉ f.v.map Prod.fst → Fmap.get 0 h.v q = Fmap.get 0 g.v q ∧ Fmap.get false h.vBad q = Fmap.get false g.vBad q)) ∧
      (let drained := fun (r : Nat) => ∃ b k, f.agent = .group b k ∧ ∃ y ∈ (s.dev.core (s.dev.block b).core).crest, y.blk = some b ∧
         ∃ o ∈ y.ops, ∃ rs, o.dst = some (k, rs) ∧ r ∈ rs
       ∀ q, Fmap.get false h.vEmpty q = true ↔ Fmap.get false g.vEmpty q = true ∧ (q ∈ f.vFull → drained (q / 64))) ∧
      (∀ r, (∀ v, (r, v) ∈ f.s → h.sAt r = v ∧ Fmap.get false h.sBad r = f.sErr) ∧
        (r ∉ f.s.map Prod.fst → h.sAt r = g.sAt r ∧ Fmap.get false h.sBad r = Fmap.get false g.sBad r)) ∧
      ∀ r, h.sIsEmpty r = if r ∈ f.sFull then false else g.sIsEmpty r) ∧
  (∀ (s : State) (k : Nat) (f : QFill), s.dev.qfills[k]? = some f → f.await = 0 → s.dev.has (.group f.blk f.slot) = true →
    (∀ l < 256, ∃ ls, f.locs[l]? = some ls ∧ ∀ m ∈ ls, s.dev.answers m) → s.dev.held f.locs.flatten = false → f.locs.length = 256 →
    let g := (s.dev.block f.blk).group f.slot
    ∀ u : Queue, g.queues[f.q]? = some u → u.base ≤ f.entry → f.entry - u.base < u.entries.length →
    ∃ t e, exec (.queueEntryFill k) s = .next t ∧ t.dev.qfills = listDrop s.dev.qfills k ∧ SameBytes s t ∧
      (t.dev.block f.blk).group f.slot = { g with queues := g.queues.mapIdx (fun n v =>
        if n = f.q then { v with entries := listSet v.entries (f.entry - v.base) e } else v) } ∧
      e.filled = true ∧ e.err = f.err ∧
      ∀ l ls, f.locs[l]? = some ls → Fmap.get 0 e.words l = Fmap.get 0 f.words l ||| bitsOf (extendVal f.size (s.dev.valueAt ls)) 0 32) ∧
  (∀ (s : State) (k : Nat) (ecc : Bool) (c : CopyOp), s.dev.copies[k]? = some c → s.dev.has (.group c.blk c.slot) = true →
    c.sent = false → (∀ p ∈ c.pieces, isRemote p.1 = false) → s.dev.memWf = true → s.dev.filesWf = true →
    (∀ r ∈ s.dev.fab.remotes, ∀ n, r.use ≠ .copy c.id n) → (∀ n ∈ c.lines, n ∉ s.dev.fab.hostLines) →
    let pairs := c.pieces.flatMap (pieceLocs c.blk)
    let src := fun (p : Loc × Loc) => if c.out then p.2 else p.1
    let dst := fun (p : Loc × Loc) => if c.out then p.1 else p.2
    let reads := s.dev.linesOf (pairs.map src)
    ((∃ n ∈ reads, s.dev.ownedBefore c.id n = true) → exec (.copyComplete k ecc) s = .next s) ∧
    ((∀ n ∈ reads, s.dev.ownedBefore c.id n = false ∧ n ∉ s.dev.fab.hostLines) →
      (∀ p ∈ pairs, s.dev.answers p.1 ∧ s.dev.answers p.2) →
      (pairs.map (fun p => s.dev.cell (dst p))).Nodup → ∃ t, exec (.copyComplete k ecc) s = .next t ∧ t.dev.copies = listDrop s.dev.copies k ∧
        (∀ p ∈ pairs, t.dev.byteAt (dst p) = s.dev.byteAt (src p)) ∧
        (∀ l, s.dev.cell l ∉ pairs.map (fun p => s.dev.cell (dst p)) → t.dev.byteAt l = s.dev.byteAt l) ∧
        let g := (s.dev.block c.blk).group c.slot
        let h := (t.dev.block c.blk).group c.slot
        let bad := c.bad = true ∨ ecc = true
        let mine := g.batches.find? (fun b => b.2.contains c.id)
        h = { g with slices := h.slices, openBad := h.openBad, batches := h.batches, badBatches := h.badBatches } ∧
        (h.openBad = true ↔ g.openBad = true ∨ (bad ∧ c.id ∈ g.openCopies)) ∧
        (∀ n, n ∈ h.badBatches ↔ n ∈ g.badBatches ∨ (bad ∧ ∃ b, mine = some b ∧ b.1 = n)) ∧
        (∀ b, b ∈ h.batches ↔ b.2 ≠ [] ∧ ∃ b' ∈ g.batches, b = (b'.1, b'.2.filter (fun i => i != c.id))) ∧
        (¬ bad → t.dev.ham = s.dev.ham) ∧
        (bad → let core := (s.dev.block c.blk).core
          let e : LogEntry := { cycles := s.dev.now, kind := 2, die := core / 32, detail := 0
                                unit := BitVec.ofNat 64 ((mine.map Prod.fst).getD (g.copySeq + 1) * 256 + core % 32) }
          t.dev.ham = { s.dev.ham with log := s.dev.ham.log ++ [e] }))) ∧
  (∀ (s : State) (k : Nat) (ecc : Bool) (c : CopyOp) (n : BitVec 12) (off o len : Nat), s.dev.copies[k]? = some c →
    c.out = true → c.pieces = [(.remote n off, o, len)] → 0 < len → (off + len - 1) / 240 = off / 240 → off + len ≤ 2 ^ 38 →
    let src := (List.range len).map (fun i => Loc.stash c.blk (o + i))
    let away := ∃ r ∈ s.dev.fab.remotes, ∃ p, r.use = .copy c.id p
    (away → exec (.copyComplete k ecc) s = .next s) ∧
    (¬ away → c.sent = true → ∃ t, exec (.copyComplete k ecc) s = .next t ∧ t.dev.copies = listDrop s.dev.copies k ∧ SameBytes s t) ∧
    (¬ away → c.sent = false → (∀ m ∈ c.lines, m ∉ s.dev.fab.hostLines) →
      (∀ m ∈ s.dev.linesOf src, s.dev.ownedBefore c.id m = false ∧ m ∉ s.dev.fab.hostLines) → s.dev.ham.listed = true →
      (∀ l ∈ src, s.dev.answers l) → ∃ t c' r m, exec (.copyComplete k ecc) s = .next t ∧ SameBytes s t ∧ t.dev.copies[k]? = some c' ∧ c'.id = c.id ∧ c'.sent = true ∧
        c'.lines = [] ∧ t.dev.fab.remotes = s.dev.fab.remotes ++ [r] ∧ r.use = .copy c.id 0 ∧ r.kind = 6 ∧ r.dev = n ∧ r.addr = off ∧
        r.cnt = len ∧ t.dev.fab.outbox = s.dev.fab.outbox ++ [m] ∧ m.dst = n ∧ m.cls = 6 ∧ m.tag = r.tag ∧ m.addr = off ∧ m.size = len ∧
        m.counted = true ∧ m.cells = src.mapIdx (fun i l => (i, s.dev.byteAt l)))) ∧
  (∀ (s : State) (k : Nat) (poll : Bool) (m : Monitor) (ls : List Loc), s.dev.monitors[k]? = some m → s.dev.live m.agent = true →
    s.dev.has m.agent = true → (s.dev.view m.agent).regsWf = true →
    (poll = false → m.woken = true ∨ m.called = true) →
    (poll = true → (m.line = none ∨ m.far = true) ∧ 1024 ≤ s.dev.now - m.since) →
    (let x := { s.dev.ctx (s.dev.ctxOf m.agent) with spwin := m.win, splim := m.lim }
     s.dev.decodeRange x m.agent.blk? (s.dev.dieOf m.agent) (s.dev.view m.agent).priv .load m.ea (if m.wide then 8 else 4) = .ok ls) → (∀ l ∈ ls, s.dev.answers l) →
    s.dev.held ls = false →
    let i : Instr := if poll then .monwaitPollTimeout k else .monitorWake k
    let v := s.dev.valueAt ls
    let cut := fun (y : DWord) => if m.wide then y else zext (bitsOf y 0 32)
    let met := if m.geu then (cut m.val).toNat ≤ (cut v).toNat else cut v ≠ cut m.val
    let g := s.dev.view m.agent
    if m.called = true ∨ met then ∃ t, exec i s = .next t ∧ SameBytes s t ∧ t.dev.monitors = listDrop s.dev.monitors k ∧
      let h := t.dev.view m.agent
      h = { g with s := h.s, sBad := h.sBad, sEmpty := h.sEmpty, slices := h.slices, queues := h.queues, region := none } ∧
      h.sAt m.sreg.toNat = cut v ∧ h.sIsEmpty m.sreg.toNat = false ∧ (∀ r ≠ m.sreg.toNat, h.sAt r = g.sAt r ∧ h.sIsEmpty r = g.sIsEmpty r) ∧
      ∀ j, h.slice j = { g.slice j with hold := if (g.slice j).hold = .unit then .free else (g.slice j).hold }
    else
      let ms := listModify (fun (x : Monitor) => { x with woken := false, since := s.dev.now }) s.dev.monitors k
      exec i s = .next { s with dev := { s.dev.touchLoads ls with monitors := ms } }) ∧
  (∀ (s : State) (k i since n : Nat) (a : Agent), s.dev.idlers[k]? = some (a, i, since, n) → n ≠ 0 → 64 * n ≤ s.dev.now - since →
    let d := s.dev.modView a (fun g => g.modSlice i (fun u => { u with hold := .free }))
    exec (.idleTimeout k) s = .next { s with dev := d }) ∧
  (∀ (s : State) (c : Nat), c < s.dev.ctxs.length → s.dev.memWf = true → s.dev.filesWf = true → let x := s.dev.ctx c
    let n := x.flushes + 1
    let grps := s.dev.launchGroupsOf c
    let ready := (∀ g ∈ grps, g.1 = true ∨ n ≤ g.2) ∧ ((∃ g ∈ grps, n ≤ g.2) ∨ ∃ y ∈ x.staged, y.epoch < n)
    x.state = .running → (∀ y ∈ x.staged, s.dev.held [.mem y.addr] = false) →
    (∀ y ∈ x.staged, y.blk < 2 ^ 32 ∧ y.grp < 16 ∧ y.lane < 256 ∧ y.seq < 2 ^ 32 ∧ (y.fadd = true → y.wide = false)) →
    x.staged.Pairwise (fun y z => y.before z ∨ z.before y) →
    let applies := fun (t : State) (due : Contribution → Bool) => (t.dev.ctx c).staged = x.staged.filter (fun y => !due y) ∧
      ∃ L : List Contribution, L.Perm (x.staged.filter due) ∧ L.Pairwise Contribution.before ∧ ∀ l, t.dev.byteAt l = (L.foldl s.dev.afterContribution s.dev.byteAt) l
    (ready → ∃ t, exec (.flush c) s = .next t ∧ (t.dev.ctx c).flushes = n ∧ applies t (fun y => decide (y.epoch < n)) ∧
      ∀ b k j, (s.dev.block b).ctx = c → (((s.dev.block b).group k).slice j).hold = .flush n → (((t.dev.block b).group k).slice j).hold = .free) ∧
    (¬ ready → (∀ b ∈ s.dev.blocks, b.ctx = c → b.ended = true) → x.staged ≠ [] → ∃ t, exec (.flush c) s = .next t ∧ applies t (fun _ => true))) ∧
  (∀ (s : State) (c i : Nat) (st : Stream) (q : TurnReq) (w : MWord), let x := s.dev.ctx c
    let a := Agent.group q.blk q.slot
    c < s.dev.ctxs.length → x.state = .running → x.streams[i]? = some st → st.waiting = [q] → s.dev.has a = true → s.dev.live a = true →
    s.dev.turnReady c st ((s.dev.block q.blk).idx * 16 + q.slot) = true → s.dev.held q.locs = false → (∀ l ∈ q.locs, s.dev.answers l) →
    (q.locs.map s.dev.cell).Nodup → s.dev.memWf = true → s.dev.filesWf = true →
    let lanes := maskList q.lanes
    let takes := fun (r : List (Nat × DWord) × Nat) (at' : List Loc) (wide : Bool) => ∃ t f, exec (.turn c i) s = .next t ∧
      t.dev.fills = s.dev.fills ++ [f] ∧ f.agent = a ∧ f.v = laneWords w.d.toNat wide r.1 ∧ f.await = 0 ∧
      (∀ n, n ∈ f.vFull ↔ ∃ j < 64, q.issued.getLsbD j = true ∧ (n = w.d.toNat * 64 + j ∨ (wide = true ∧ n = (w.d.toNat + 1) * 64 + j))) ∧
      (∀ n l, at'[n]? = some l → t.dev.byteAt l = element 8 (BitVec.ofNat 64 r.2) n) ∧
      (∀ l, s.dev.cell l ∉ at'.map s.dev.cell → t.dev.byteAt l = s.dev.byteAt l) ∧
      ∀ j ∈ (s.dev.view a).liveSlices, ((t.dev.view a).slice j).hold = .free
    (q.word = .append w → q.locs.length = 16 →
      takes (appendTurn (min (s.dev.valueAt (q.locs.drop 8)).toNat 0xFFFFFFFE) q.vals (s.dev.valueAt (q.locs.take 8)).toNat lanes) (q.locs.take 8) false) ∧
    (q.word = .atomOrdAdd w → q.locs.length = sizeBytes w.size → sizeBytes w.size = 4 ∨ sizeBytes w.size = 8 →
      takes (addTurn (8 * sizeBytes w.size) q.vals (s.dev.valueAt q.locs).toNat lanes) q.locs w.is64)) ∧
  (∀ (s : State) (core pos b k : Nat), s.dev.inPos core pos = some (b, k) → (s.dev.core core).transfer = none →
    let wants := fun (p : Nat) => ∃ q, s.dev.inPos core p = some q ∧ let g := s.dev.groupAt q
      g.yielding = true ∨ ((g.stopped = true ∨ s.dev.groupBlocked q.1 q.2 = true) ∧ (Fmap.get 24 s.dev.swapth (core / 32)).toNat < s.dev.now - g.since)
    wants pos → (∀ q, s.dev.incoming core = some q → (∀ p < pos, ¬ wants p) →
      let d1 := s.dev.modGroup b k (fun g => { g.endYield with pos := none, since := s.dev.now })
      let d2 := d1.modGroup q.1 q.2 (fun g => { g with pos := some pos, since := s.dev.now })
      exec (.swap core pos) s = .next { s with dev := d2.modCore core (fun c => { c with transfer := some q }) }) ∧
    (s.dev.incoming core = none → (s.dev.groupAt (b, k)).yielding = true →
      exec (.swap core pos) s = .next { s with dev := s.dev.modGroup b k Group.endYield })) ∧
  (∀ (s : State) (core : Nat), exec (.swapTransferDone core) s = .next { s with dev := s.dev.modCore core (fun c => { c with transfer := none }) }) ∧
  (∀ (s : State) (k : Nat) (cells : List Host.Cell) (f : FaultRec), s.dev.faults[k]? = some f → s.dev.memWf = true →
    (∀ c ∈ s.dev.ctxs, Fmap.wf 0 c.tables = true) → (cells.map Prod.fst).Nodup → s.dev.ctxOf f.agent < s.dev.ctxs.length →
    (s.dev.mayStore (cells.map (fun p => .mem p.1)) → ∃ t, exec (.faultResolved k cells) s = .next t ∧ t.dev.faults = listDrop s.dev.faults k ∧
      (∀ p ∈ cells, t.dev.byteAt (.mem p.1) = p.2 ∧ Fmap.get 0 (t.dev.ctx (s.dev.ctxOf f.agent)).tables p.1 = p.2) ∧
      (∀ pa, pa ∉ cells.map Prod.fst → t.dev.byteAt (.mem pa) = s.dev.byteAt (.mem pa)) ∧ t.dev.fills = s.dev.fills) ∧
    let d : Device := { s.dev with faults := listDrop s.dev.faults k }
    let d1 := d.logEntry 6 (s.dev.dieOf f.agent) (BitVec.ofNat 64 (f.core % 32)) 0
    let d2 := d1.trapEntry f.agent f.slices f.pc f.word f.cause.code f.lane 0 f.rolled true
    ((s.dev.view f.agent).stepping = none → exec (.faultRefused k) s = .next { s with dev := d2 }) ∧
    ∀ i r, (s.dev.view f.agent).stepping = some (i, r) → exec (.faultRefused k) s = .next { s with dev := d2.answer r 0 [] })

/-- R362, R378 to R384: pre-emption. A spent slice with a launch waiting for room begins a drain; a drain that misses PDRAIN becomes a save,
which abandons faults, writes the directory and names the cores whose image is to be written; a core image is written, its completion word
last, once what its agents and its context have issued is complete; the last image ends the save, or starts the cluster handlers of the
firmware; a save that misses PSAVE becomes a reset with DEADLINE; a restored block keeps its shape and what it held, its Crest context
thawed, its walker slots as their images say. (The model's choices here: a thread of the cluster handler starts with every register 0, assumption
9; a restored block keeps its core's number in its cluster, 33; a restored Crest context is thawed, 28; the model's own handler saves in one step
where the firmware has none, 34; the order of the directory, the size and the completion word of a core image, 73; restored points of a set
with S = 0 are forced, 83.) -/
def Obligations.PreemptionDrainsSavesResetsAndRestores : Prop :=
  let area := fun (c : Nat) (p : Preempt) => p.save.getD (Config.saveArea c % 2 ^ 26 * 4096)
  let resident := fun (k : LaunchState) => k = .running ∨ k = .placing ∨ k = .queued ∨ k = .waiting
  (∀ (s : State) (c j b : Nat), let x := s.dev.ctx c
    resident x.state → x.preempt = none → x.tslice ≠ 0 → x.tslice.toNat ≤ x.slice.toNat → s.dev.Lives c b →
    j ≠ c → s.dev.served (s.dev.ctx j).die = some j → s.dev.nextStep j = none →
    let p : Preempt := { level := 1, start := s.dev.now, levelStart := s.dev.now, drainLimit := x.pdrain.toNat, saveLimit := x.psave.toNat,
                         save := none, pdrainMissed := false, psaveMissed := false, doubleTrap := false, unresolved := false, cores := [],
                         requester := none }
    exec (.sliceExpiry c) s = .next { s with dev := s.dev.modCtx c (fun k => { k with preempt := some p }) }) ∧
  (∀ (s : State) (c b : Nat) (p : Preempt), let x := s.dev.ctx c
    c < s.dev.ctxs.length → s.dev.memWf = true → resident x.state → x.preempt = some p → p.level = 1 → p.drainLimit ≤ s.dev.now - p.levelStart →
    s.dev.Kept c b → let A := area c p
    s.dev.mayStore (memRun (A + 64) 4032) → ∃ t cs u, exec (.pdrainExpiry c) s = .next t ∧
      (∀ i q, i < 252 → (s.dev.images c)[i]? = some q → ∀ n < 8,
        t.dev.byteAt (.mem (A + 64 + 16 * i + n)) = element 8 (BitVec.ofNat 64 q.2.1) n ∧
        t.dev.byteAt (.mem (A + 72 + 16 * i + n)) = element 8 (BitVec.ofNat 64 q.2.2) n) ∧
      (∀ l, (∀ pa, s.dev.cell l = .mem pa → pa < A + 64 ∨ A + 4096 ≤ pa) → t.dev.byteAt l = s.dev.byteAt l) ∧
      (∀ q, q ∈ cs ↔ (∃ k, s.dev.Kept c k ∧ (s.dev.block k).core = q) ∨
        ∃ r ∈ s.dev.fab.remotes, r.ctx = c ∧ r.binds = true ∧ ∃ a k, r.agent = some a ∧ a.blk? = some k ∧ (s.dev.block k).core = q) ∧
      (u = true ↔ p.unresolved = true ∨ ∃ f ∈ s.dev.faults, s.dev.ctxOf f.agent = c) ∧
      (let p2 := { p with level := 2, levelStart := s.dev.now, save := some A, pdrainMissed := true, unresolved := u, cores := cs }
       t.dev.ctx c = { x with preempt := some p2 }) ∧
      (∀ f, f ∈ t.dev.faults ↔ f ∈ s.dev.faults ∧ s.dev.ctxOf f.agent ≠ c) ∧ t.dev.saved = s.dev.saved ∧
      (∀ k, ¬ s.dev.Lives c k → t.dev.block k = { s.dev.block k with groups := (t.dev.block k).groups, maps := (t.dev.block k).maps } ∧
        ∀ j, ((s.dev.block k).group j).wokenTo ((t.dev.block k).group j)) ∧
      ∀ k, s.dev.Lives c k → ∀ j, let g := (s.dev.block k).group j
        let h := (t.dev.block k).group j
        h = { g with slices := h.slices } ∧ ∀ i, ∃ w, h.slice i = { g.slice i with hold := w } ∧
          w = match (g.slice i).hold with
            | .yield => .free
            | .idle _ _ => .free
            | o => o) ∧
  (∀ (s : State) (c : Nat) (p : Preempt), let x := s.dev.ctx c
    c < s.dev.ctxs.length → s.dev.memWf = true → resident x.state → x.preempt = some p → p.level = 1 → p.requester = none →
    p.drainLimit ≤ s.dev.now - p.levelStart → (∀ b, ¬ s.dev.Kept c b ∧ ¬ s.dev.Lives c b) → (∀ r ∈ s.dev.fab.remotes, r.ctx = c → r.binds = false) →
    let u := p.unresolved || s.dev.faults.any (fun f => s.dev.ctxOf f.agent == c)
    ∃ t, exec (.pdrainExpiry c) s = .next t ∧ s.dev.SavedAway t.dev c (area c p) { p with pdrainMissed := true, unresolved := u }) ∧
  (∀ (s : State) (c core : Nat) (p : Preempt), let x := s.dev.ctx c
    let here := fun (b : Nat) => (s.dev.block b).ctx = c ∧ (s.dev.block b).core = core
    let mine := fun (a : Agent) => ∃ b, a.blk? = some b ∧ here b
    let left := p.cores.filter (fun k => k != core)
    c < s.dev.ctxs.length → s.dev.memWf = true → x.preempt = some p → p.level = 2 → core ∈ p.cores →
    let done := (∀ f ∈ s.dev.fills, ¬ mine f.agent) ∧ (∀ f ∈ s.dev.qfills, ¬ here f.blk) ∧ (∀ f ∈ s.dev.copies, ¬ here f.blk) ∧
      ∀ r ∈ s.dev.fab.remotes, r.ctx = c → r.binds = false
    let A := area c p
    let d := ((s.dev.gather c).writeImages c A (s.dev.coreImage core)).modCtx c (fun k => { k with preempt := some { p with cores := left } })
    (¬ done → exec (.coreImageDone c core) s = .next s) ∧
    ((∀ b off size, (.block b, off, size) ∈ s.dev.images c → (s.dev.block b).core = core → s.dev.mayStore (memRun (A + off) size)) →
      (∀ b off size, (.block b, off, size) ∈ s.dev.images c → (s.dev.block b).core = core → ∀ n < 8,
        d.byteAt (.mem (A + off + size - 8 + n)) = if n = 0 then 1 else 0) ∧
      (∀ l, (∀ pa, s.dev.cell l = .mem pa → ∀ b off size, (.block b, off, size) ∈ s.dev.images c → (s.dev.block b).core = core →
        pa < A + off ∨ A + off + size ≤ pa) → d.byteAt l = s.dev.byteAt l) ∧
      (∀ u ∈ d.ulines, u ∈ s.dev.ulines ∧ ∀ b < s.dev.blocks.length, (s.dev.block b).ctx = c → ∀ q ∈ u.parts, q.1 ≠ (s.dev.block b).core) ∧
      (d.ctx c).staged = x.staged.map (fun k => { k with buffered := false })) ∧
    (done → left ≠ [] → exec (.coreImageDone c core) s = .next { s with dev := d }) ∧
    (done → left = [] → s.dev.ham.handlerBase = 0 → p.requester = none →
      ∃ t, exec (.coreImageDone c core) s = .next t ∧ s.dev.SavedAway t.dev c A p) ∧
    (done → left = [] → s.dev.ham.handlerBase ≠ 0 → (∃ b, s.dev.Lives c b) → ∃ L : List Nat,
      L.Nodup ∧ (∀ q, q ∈ L ↔ ∃ b, s.dev.Lives c b ∧ (s.dev.block b).core / 4 = q) ∧
      let th : Thread := { Thread.fresh 0 0 with inHandler := true, priv := true }
      exec (.coreImageDone c core) s = .next { s with dev := { d with handlers := d.handlers ++ L.map (fun q => (q, c, th)) } })) ∧
  (∀ (s : State) (c : Nat) (p : Preempt), let x := s.dev.ctx c
    c < s.dev.ctxs.length → s.dev.memWf = true → x.state = .running ∨ x.state = .placing → x.preempt = some p → p.level = 2 →
    p.saveLimit < s.dev.now - p.levelStart → p.requester = none → x.requester = none →
    (∀ l, x.statusLoc = some l → ∃ pa, l = .mem pa ∧ ∀ a, p.save = some a → pa + 8 ≤ a ∨ a + 64 ≤ pa) →
    ∃ t, exec (.psaveExpiry c) s = .next t ∧ s.dev.Failed t.dev c 0x11 ∧ s.dev.Reported t.dev c 3 { p with psaveMissed := true }) ∧
  (∀ (d e : Device) (v : Saved), d.restoreSaved v = some e → v.ctx < d.ctxs.length → v.walkers = [] → (v.blocks.map Prod.fst).Nodup →
    (∀ q ∈ v.blocks, q.1 < d.blocks.length) →
    (e.ctx v.ctx).slice = 0 ∧ (e.ctx v.ctx).preempt = none ∧ (e.ctx v.ctx).drains = (d.ctx v.ctx).drains ++ v.drains ∧ (∀ q, q ∈ e.saved ↔ q ∈ d.saved ∧ q.area ≠ v.area) ∧
    (∀ q ∈ v.blocks, ∀ r ∈ v.blocks, q.2.cset = r.2.cset → (e.block q.1).core / 4 = (e.block r.1).core / 4) ∧
    ∀ b B, (b, B) ∈ v.blocks → let B' := e.block b
      B' = { B with core := B'.core, ridgeCtx := B'.ridgeCtx, groups := B'.groups } ∧ B'.core % 4 = B.core % 4 ∧
      B'.groups.length = B.groups.length ∧ (∀ k, B'.group k = { B.group k with pos := (B'.group k).pos, since := (B'.group k).since }) ∧
      ∀ K, v.blocks = [(b, B)] → v.crests = [(b, K)] → B.ridge ≠ none → B'.core < d.cores.length →
        (d.core B'.core).crest.length = 2 → e.crest B'.core B'.ridgeCtx = { K with frozen := false, freezing := false, blk := some b }) ∧
  (∀ (d e : Device) (v : Saved) (b n : Nat) (B : Block) (W : WSlot), d.restoreSaved v = some e → v.ctx < d.ctxs.length → v.blocks = [(b, B)] →
    b < d.blocks.length → v.walkers = [(b, n, W)] → n < 4 → W.waiting = [] → 32 ≤ W.desc.length → B.ctx = v.ctx →
    (∀ x ∈ [W.handed, W.deferrals, W.forced, W.completions], x < 2 ^ 32) → (d.wslot (e.block b).core n).waiting = [] →
    (e.block b).core < d.cores.length → (d.core (e.block b).core).walker.length = 4 →
    let u := e.wslot (e.block b).core n
    let L := e.mapLocs b W.map W.count
    u.holder = some b ∧ u.desc = W.desc.take 32 ++ List.replicate 32 0 ∧ u.waiting = [] ∧ u.points.length = W.count ∧
      u.handed = W.handed ∧ u.deferrals = W.deferrals ∧ u.forced = W.forced ∧ u.completions = W.completions ∧
      ∀ i < W.count, (u.pt i).dc = 0 ∧ (u.pt i).forced = ((u.pt i).fault || W.maxDefer == 0) ∧
        ((∀ l ∈ L, isRemote l = false) → (u.pt i).handed = (((L[i / 8]?).map e.byteAt).getD 0).getLsbD (i % 8)))

/-- R378, R384, R390, R409 to R412, R415 and R445: the Hamada services and the front program. A datagram from an unlisted source is discarded
and logged; a service serves one request at a time, and the blocks in turn; what R411 does not list, and a nonzero byte marked zero, is ILLEGAL; each operation of
the maintenance and the management service has its effect and its data; the front program launches and acknowledges; a store of the Hamada cores
to a line that an engine owns waits, and those after it wait behind it (R231). The model's choices here: a block address that is not 256-byte
aligned names no block, the sequence that a block holds when it is named counts as served, a power cap holds at once, and a log entry past the
last reads as zeros (assumption 40); the front program and MAINT_ADMIT act in one step, with a refused launch logged under kind 6 (25); the stores
that wait keep their order (82). -/
def Obligations.ServicesAnswerTheirRequests : Prop :=
  let num := fun (bs : List Byte) (o n : Nat) => bytesNat ((bs.drop o).take n)
  let ops := fun (r : Req) => [(1, 1, Instr.maintAdmit r), (1, 2, .maintReadLog r), (1, 3, .maintFenceMap r), (2, 1, .mgmtSetCap r),
    (2, 2, .mgmtReadPower r), (2, 3, .mgmtPreempt r), (2, 4, .mgmtRestore r), (3, 1, .debugAttach r), (3, 2, .debugDetach r),
    (3, 3, .debugStopRequest r), (3, 4, .debugStep r), (3, 5, .debugResume r), (3, 6, .debugRead r), (3, 7, .debugWrite r),
    (3, 8, .debugCoreStop r)]
  let asks := fun (s : State) (r : Req) (c : Call) (service op : Nat) =>
    s.dev.Asks r c ∧ c.service = service ∧ c.op = op ∧ c.dirty = false
  let replies := fun (s : State) (i : Instr) (r : Req) (c : Call) (d : Device) (result : Byte) (data : List Byte) =>
    ∃ t, exec i s = .next t ∧ d.Replied t.dev r c result data
  (∀ bs : List Byte, let c := parseCall bs
    c.seq.toNat = num bs 0 8 ∧ c.service = num bs 8 2 ∧ c.op = num bs 10 2 ∧ (c.dirty = true ↔ num bs 12 4 ≠ 0) ∧
    ∀ i < 6, c.arg i = num bs (16 + 8 * i) 8) ∧
  (∀ (d : Device) (src : BitVec 32) (bs : List Byte), d.callOf (.datagram src bs) = some (parseCall bs)) ∧
  (∀ (d : Device) (i : Nat), let base := ((d.ham.services[i]?).getD 0).toNat
    let c := parseCall ((List.range 64).map (fun n => d.byteAt (.mem (base + n))))
    ((base = 0 ∨ d.held [.mem base] = true ∨ c.seq = (d.ham.servedSeq[i]?).getD 0) → d.callOf (.block i) = none) ∧
    (base ≠ 0 → d.held [.mem base] = false → c.seq ≠ (d.ham.servedSeq[i]?).getD 0 → d.callOf (.block i) = some c)) ∧
  (∀ (s : State) (r : Req), ∀ o ∈ ops r,
    (∀ src bs, r = .datagram src bs → src ∉ s.dev.ham.sources →
      let e : LogEntry := { cycles := s.dev.now, kind := 7, die := 0, unit := 0, detail := 0 }
      let h := { s.dev.ham with log := s.dev.ham.log ++ [e] }
      exec o.2.2 s = .next { s with dev := { s.dev with ham := h } }) ∧
    ((∀ src bs, r = .datagram src bs → src ∈ s.dev.ham.sources) →
      (s.dev.callOf r = none → exec o.2.2 s = .next s) ∧
      (∀ c, s.dev.callOf r = some c → (∃ q ∈ s.dev.ham.serving, q.1 = c.service ∨ q.2.1 = r) ∨ s.dev.blockTurn r = false →
        exec o.2.2 s = .next s)) ∧
    ∀ c, s.dev.Asks r c →
      ((∀ p ∈ ops r, ¬ (p.1 = c.service ∧ p.2.1 = c.op)) → replies s o.2.2 r c s.dev 0x01 []) ∧
      (o.1 = c.service → o.2.1 = c.op → c.dirty = true → replies s o.2.2 r c s.dev 0x01 []) ∧
      ((∃ p ∈ ops r, p.1 = c.service ∧ p.2.1 = c.op) → ¬ (o.1 = c.service ∧ o.2.1 = c.op) → exec o.2.2 s = .next s)) ∧
  (∀ (d : Device) (i j : Nat), i < 8 → j < 8 → d.ham.lastBlock < 8 → (d.callOf (.block j)).any (d.callReady (.block j)) = true →
    d.blockTurn (.block i) = true → (i + 7 - d.ham.lastBlock) % 8 ≤ (j + 7 - d.ham.lastBlock) % 8) ∧
  (∀ (s : State) (r : Req) (c : Call), asks s r c 1 1 → (∀ f ∈ s.dev.fab.fetched, f.agent ≠ none) →
    (∀ q ∈ s.dev.fab.remotes, q.agent = none → ∀ g, q.use ≠ .fetch g) →
    let va : DWord := (c.args[0]?).getD 0
    let k0 := s.dev.frontCtx
    (va.toNat % 128 ≠ 0 → replies s (.maintAdmit r) r c s.dev 0x07 []) ∧
    (va.toNat % 128 = 0 → ∀ e, s.dev.decodeRange k0 none 0 true .load va 128 = .error (.trap e) ∨
      s.dev.decodeRange k0 none 0 true .load va 128 = .error (.fault e) → replies s (.maintAdmit r) r c s.dev e.code []) ∧
    (va.toNat % 128 = 0 → ∀ ls, s.dev.decodeRange k0 none 0 true .load va 128 = .ok ls → (∀ l ∈ ls, s.dev.answers l) →
      s.dev.heldLaunches 0 < 1024 → s.dev.held ls = false → (parsePacket (ls.map s.dev.byteAt)).replicate = 0 → ∃ t k,
      exec (.maintAdmit r) s = .next t ∧ SameBytes s t ∧ t.dev.ctxs = s.dev.ctxs ++ [k] ∧ t.dev.ham = (s.dev.begun r c).ham ∧
      k.packet = parsePacket (ls.map s.dev.byteAt) ∧ k.va = va ∧ k.die = 0 ∧ k.state = .read ∧ k.privLaunch = true ∧
      k.requester = some r ∧ k.root = s.dev.ham.frontRoot)) ∧
  (∀ (s : State) (r : Req) (c : Call), asks s r c 1 2 → let n := c.arg 1
    (n = 0 ∨ 5 < n → replies s (.maintReadLog r) r c s.dev 0x01 []) ∧
    (1 ≤ n → n ≤ 5 → ∃ data, data.length = 32 * n ∧ replies s (.maintReadLog r) r c s.dev 0 data ∧ ∀ i < n,
      num data (32 * i) 32 = match s.dev.ham.log[c.arg 0 + i]? with
        | none => 0
        | some e => e.cycles % 2 ^ 64 + 2 ^ 64 * (e.kind % 256) + 2 ^ 72 * (e.die % 256) + 2 ^ 128 * e.unit.toNat + 2 ^ 192 * e.detail.toNat)) ∧
  (∀ (s : State) (r : Req) (c : Call), asks s r c 1 3 →
    (3 < c.arg 0 ∨ 31 < c.arg 1 → replies s (.maintFenceMap r) r c s.dev 0x01 []) ∧
    (c.arg 0 ≤ 3 → c.arg 1 ≤ 31 → ∃ data, data.length = 32 ∧ replies s (.maintFenceMap r) r c s.dev 0 data ∧ ∀ w < 16, ∀ j < 16,
      (num data (2 * w) 2).testBit j = true ↔ Piece.l2way (c.arg 0) (16 * c.arg 1 + j) w ∈ s.dev.ham.fenced)) ∧
  (∀ (s : State) (r : Req) (c : Call), asks s r c 2 1 → let w := c.arg 0
    (w ≠ 2800 → w ≠ 2200 → w ≠ 1600 → replies s (.mgmtSetCap r) r c s.dev 0x01 []) ∧
    (∀ mhz, (w, mhz) ∈ [(2800, 1800), (2200, 1500), (1600, 1150)] →
      let h := { s.dev.ham with cap := w, clocks := s.dev.ham.clocks.map (fun _ => mhz) }
      replies s (.mgmtSetCap r) r c { s.dev with ham := h } 0 [])) ∧
  (∀ (s : State) (r : Req) (c : Call), asks s r c 2 2 → let h := s.dev.ham
    let at' := fun (xs : List Nat) (i : Nat) => (xs[i]?).getD 0
    ∃ data, data.length = 32 ∧ replies s (.mgmtReadPower r) r c s.dev 0 data ∧ num data 0 4 = h.cap % 2 ^ 32 ∧
      num data 4 4 = at' h.sensors 0 % 2 ^ 32 ∧ (∀ i < 4, num data (8 + 2 * i) 2 = at' h.clocks i % 2 ^ 16) ∧
      ∀ i < 8, num data (16 + 2 * i) 2 = at' h.sensors (1 + i) % 2 ^ 16) ∧
  (∀ (s : State) (r : Req) (c : Call), asks s r c 2 3 → let level := c.arg 1
    let bad := level = 0 ∨ 3 < level ∨ (level = 3 ∧ c.arg 2 ≠ 0) ∨ (level ≠ 3 ∧ c.arg 2 % 4096 ≠ 0)
    (bad → replies s (.mgmtPreempt r) r c s.dev 0x01 []) ∧
    (¬ bad → (∀ k, ¬ s.dev.LaunchAt (c.arg 0) k) → replies s (.mgmtPreempt r) r c s.dev 0x06 []) ∧
    ∀ k, ¬ bad → s.dev.LaunchAt (c.arg 0) k → (s.dev.ctx k).preempt = none → let x := s.dev.ctx k
      let p : Preempt := { level := level, start := s.dev.now, levelStart := s.dev.now, drainLimit := x.pdrain.toNat, saveLimit := x.psave.toNat,
                           save := some (c.arg 2), pdrainMissed := false, psaveMissed := false, doubleTrap := false, unresolved := false,
                           cores := [], requester := some r }
      (level = 1 → exec (.mgmtPreempt r) s = .next { s with dev := (s.dev.begun r c).modCtx k (fun k => { k with preempt := some p }) }) ∧
      (level = 2 → (∃ b, s.dev.Kept k b) → s.dev.mayStore (memRun (c.arg 2 + 64) 4032) → ∃ t q, exec (.mgmtPreempt r) s = .next t ∧
        (∀ l, (∀ pa, s.dev.cell l = .mem pa → pa < c.arg 2 + 64 ∨ c.arg 2 + 4096 ≤ pa) → t.dev.byteAt l = s.dev.byteAt l) ∧ (t.dev.ctx k).preempt = some q ∧
        q = { p with unresolved := q.unresolved, cores := q.cores } ∧ t.dev.ham = (s.dev.begun r c).ham) ∧
      (level = 3 → x.requester = none → ∃ t, exec (.mgmtPreempt r) s = .next t ∧ s.dev.Failed t.dev k 0 ∧
        ∀ q ∈ t.dev.ham.serving, q.2.1 ≠ r)) ∧
  (∀ (s : State) (r : Req) (c : Call), asks s r c 2 4 → let area := c.arg 0
    (area % 4096 ≠ 0 → replies s (.mgmtRestore r) r c s.dev 0x01 []) ∧
    (area % 4096 = 0 → (∀ v ∈ s.dev.saved, v.area ≠ area) → replies s (.mgmtRestore r) r c s.dev 0x06 []) ∧
    (area % 4096 = 0 → ∀ pre v post, s.dev.saved = pre ++ v :: post → v.area = area → (∀ q ∈ pre, q.area ≠ area) → v.walkers = [] →
      (s.dev.restoreSaved v = none → exec (.mgmtRestore r) s = .next s) ∧
      ∀ d, s.dev.restoreSaved v = some d → replies s (.mgmtRestore r) r c d 0 [])) ∧
  (∀ (s : State) (i : Nat) (addr : DWord), let h := s.dev.ham
    let a : DWord := if addr.toNat % 256 = 0 then addr else 0
    let seq := s.dev.valueAt ((List.range 8).map (fun n => Loc.mem (a.toNat + 64 + n)))
    (i < 8 → i < h.services.length → i < h.servedSeq.length →
      let h1 := { h with services := h.services.set i a, servedSeq := h.servedSeq.set i seq }
      exec (.serviceBlockAddressWrite i addr) s = .next { s with dev := { s.dev with ham := h1 } }) ∧
    (8 ≤ i → exec (.serviceBlockAddressWrite i addr) s = .next s)) ∧
  (∀ (d : Device) (ws : List (Loc × Byte)), let e := d.firmStore ws
    let waits := fun (q : List (Loc × Byte)) => (∃ n ∈ d.linesOf (q.map Prod.fst), d.owned n = true) ∨ d.underTest (q.map Prod.fst) = true
    let queue := d.ham.stores ++ [ws]
    (waits (queue.headD ws) → e = { d with ham := { d.ham with stores := queue } }) ∧
    (d.ham.stores = [] → ¬ waits ws → (∀ p ∈ ws, d.noMemory p.1 = false) →
      e.ham = d.ham ∧ ∀ l, e.byteAt l = (d.lastTo ws l).getD (d.byteAt l))) ∧
  (∀ (s : State) (i : Nat) (base ack : DWord), s.dev.ham.front[i]? = some (base, ack) → s.dev.memWf = true →
    let at' := fun (o : Nat) => (List.range 8).map (fun n => Loc.mem (base.toNat + o + n))
    let seq := s.dev.valueAt (at' 0)
    let va := s.dev.valueAt (at' 8)
    let k0 := s.dev.frontCtx
    let r0 := s.dev.decodeRange k0 none 0 true .load va 128
    let served := fun (t : State) (result : Byte) => exec (.frontRequest i) s = .next t ∧
      t.dev.ham.front = s.dev.ham.front.set i (base, seq) ∧ (∀ n < 8, t.dev.byteAt (.mem (base.toNat + 16 + n)) = element 8 seq n) ∧
      (∀ n < 8, t.dev.byteAt (.mem (base.toNat + 24 + n)) = if n = 0 then result else 0) ∧
      ∀ pa, pa < base.toNat + 16 ∨ base.toNat + 32 ≤ pa → t.dev.byteAt (.mem pa) = s.dev.byteAt (.mem pa)
    let held := s.dev.held ((List.range 32).map (fun n => Loc.mem (base.toNat + n)))
    (∀ f ∈ s.dev.fab.fetched, f.agent ≠ none) → (∀ q ∈ s.dev.fab.remotes, q.agent = none → ∀ g, q.use ≠ .fetch g) →
    (seq = ack ∨ held = true → exec (.frontRequest i) s = .next s) ∧
    (seq ≠ ack → held = false → ∀ cause : Cause, (va.toNat % 128 ≠ 0 ∧ cause = .misalign) ∨
        (va.toNat % 128 = 0 ∧ (r0 = .error (.trap cause) ∨ r0 = .error (.fault cause))) →
      ∃ t e, served t cause.code ∧ t.dev.ctxs = s.dev.ctxs ∧ t.dev.ham.log = s.dev.ham.log ++ [e] ∧ e.cycles = s.dev.now ∧ e.kind = 6) ∧
    (seq ≠ ack → held = false → va.toNat % 128 = 0 → ∀ ls, r0 = .ok ls → (∀ l ∈ ls, s.dev.answers l) → s.dev.heldLaunches 0 < 1024 →
      s.dev.held ls = false → (parsePacket (ls.map s.dev.byteAt)).replicate = 0 → ∃ t k, served t 0 ∧ t.dev.ctxs = s.dev.ctxs ++ [k] ∧
      k.packet = parsePacket (ls.map s.dev.byteAt) ∧ k.va = va ∧ k.die = 0 ∧ k.state = .read ∧ k.privLaunch = false ∧ k.requester = none))

/-- R385 to R387, R410 and R411: the debug service. It attaches to a launch, once; a stop, a step and an end of a stop act on the group that a0
names; a selector reads and writes one value of a stopped group; core-stop mode is set and cleared. What names no group, or a group that is
not stopped where it must be, is PERM; a selector or an argument outside its limits is ILLEGAL. That a second attachment to a launch is
PERM, that the operations concern the launch attached last, and that a stopped gang or thread goes on at EPC, are the model's choices
(assumptions 41, 54 and 75). -/
def Obligations.DebugServiceStopsStepsReadsAndWrites : Prop :=
  let asks := fun (s : State) (r : Req) (c : Call) (op : Nat) => s.dev.Asks r c ∧ c.service = 3 ∧ c.op = op ∧ c.dirty = false
  let replies := fun (s : State) (i : Instr) (r : Req) (c : Call) (d : Device) (result : Byte) (data : List Byte) =>
    ∃ t, exec i s = .next t ∧ d.Replied t.dev r c result data
  let resumed := fun (g h : Group) => if g.stopped = true then ∃ u, g.AtEpc u ∧ h = { u with stopped := false, stepping := none } else h = g
  (∀ (s : State) (r : Req) (c : Call) (i : Instr), s.dev.Asks r c → c.service = 3 → c.dirty = false →
    (c.op, i) ∈ [(3, Instr.debugStopRequest r), (4, .debugStep r), (5, .debugResume r), (6, .debugRead r), (7, .debugWrite r)] →
    (c.op = 4 → c.arg 1 ≤ 63) →
    let x := c.arg 0
    ((2 ^ 40 ≤ x ∨ x / 16 % 16 ≠ 0) → replies s i r c s.dev 0x01 []) ∧
    (x < 2 ^ 40 → x / 16 % 16 = 0 → (∀ b k, ¬ s.dev.Names x b k) → replies s i r c s.dev 0x06 []) ∧
    (∀ b k, s.dev.Names x b k → c.op ≠ 3 → ((s.dev.block b).group k).stopped = false → replies s i r c s.dev 0x06 [])) ∧
  (∀ (s : State) (r : Req) (c : Call), asks s r c 1 →
    (∀ k, s.dev.LaunchAt (c.arg 0) k → k ∉ s.dev.ham.attached →
      let h := { s.dev.ham with attached := k :: s.dev.ham.attached }
      replies s (.debugAttach r) r c { s.dev with ham := h } 0 []) ∧
    ((∀ k, s.dev.LaunchAt (c.arg 0) k → k ∈ s.dev.ham.attached) → replies s (.debugAttach r) r c s.dev 0x06 [])) ∧
  (∀ (s : State) (r : Req) (c : Call), asks s r c 2 →
    (s.dev.ham.attached = [] → replies s (.debugDetach r) r c s.dev 0x06 []) ∧
    ∀ k rest, s.dev.ham.attached = k :: rest → ∃ d, replies s (.debugDetach r) r c d 0 [] ∧
      (let h := { s.dev.ham with attached := rest }
       d = { s.dev with blocks := d.blocks, ham := h }) ∧
      (∀ b, (s.dev.block b).ctx ≠ k → d.block b = s.dev.block b) ∧
      ∀ b < s.dev.blocks.length, (s.dev.block b).ctx = k → let B := s.dev.block b
        d.block b = { B with groups := (d.block b).groups, access := B.access.map Thread.resumed, ridge := B.ridge.map Thread.resumed } ∧
        (d.block b).groups.length = B.groups.length ∧ ∀ j < B.groups.length, resumed (B.group j) ((d.block b).group j)) ∧
  (∀ (s : State) (r : Req) (c : Call) (b k : Nat), asks s r c 3 → s.dev.Names (c.arg 0) b k →
    let g := (s.dev.block b).group k
    let h := if g.stopped = true then g else { g with stopped := true, handler := if g.inHandler = true then g.handler else 0 }
    replies s (.debugStopRequest r) r c (s.dev.modGroup b k (fun _ => h)) 0 []) ∧
  (∀ (s : State) (r : Req) (c : Call), asks s r c 4 →
    (63 < c.arg 1 → replies s (.debugStep r) r c s.dev 0x01 []) ∧
    ∀ b k, c.arg 1 ≤ 63 → s.dev.Names (c.arg 0) b k → let g := (s.dev.block b).group k
      g.stopped = true →
      ((g.slice (c.arg 1)).live = 0 → replies s (.debugStep r) r c s.dev 0x06 []) ∧
      ((g.slice (c.arg 1)).live ≠ 0 → ∃ u, g.AtEpc u ∧
        let h := { u with stepping := some (c.arg 1, r) }
        exec (.debugStep r) s = .next { s with dev := (s.dev.begun r c).modGroup b k (fun _ => h) })) ∧
  (∀ (s : State) (r : Req) (c : Call) (b k : Nat), asks s r c 5 → s.dev.Names (c.arg 0) b k → let g := (s.dev.block b).group k
    g.stopped = true → ∃ u, g.AtEpc u ∧
      let h := { u with stopped := false, stepping := none }
      replies s (.debugResume r) r c (s.dev.modGroup b k (fun _ => h)) 0 []) ∧
  (∀ (s : State) (r : Req) (c : Call) (b k : Nat), asks s r c 6 → s.dev.Names (c.arg 0) b k → let g := (s.dev.block b).group k
    let kind := c.arg 1 % 256
    let reg := c.arg 1 / 256 % 256
    let lane := c.arg 1 / 65536
    let n := s.dev.nregs (.group b k)
    let ok := lane < 256 ∧ kind ≤ 9 ∧ (kind = 0 ∨ kind = 8 → reg < n) ∧ (kind = 1 ∨ kind = 9 → reg < 64) ∧ (kind = 2 → reg < 8)
    g.stopped = true →
    (¬ ok → replies s (.debugRead r) r c s.dev 0x01 []) ∧
    (ok → ∃ v : DWord, replies s (.debugRead r) r c s.dev 0 ((List.range 8).map (element 8 v)) ∧ match kind with
      | 0 => v = zext (g.vAt reg lane)
      | 1 => v = g.sAt reg
      | 2 => v = if g.pAt reg lane = true then 1 else 0
      | 3 => v = zext (g.slice (lane / 4)).fmt
      | 4 => v = zext (g.slice (lane / 4)).lk
      | 5 => v = g.cause
      | 6 => v = g.epc
      | 7 => v = zext g.recCnt
      | 8 => v = if g.vIsEmpty reg (lane / 4) = true then 0 else 1
      | _ => v = if g.sIsEmpty reg = true then 0 else 1)) ∧
  (∀ (s : State) (r : Req) (c : Call) (b k : Nat), asks s r c 7 → s.dev.Names (c.arg 0) b k → let g := (s.dev.block b).group k
    let kind := c.arg 1 % 256
    let reg := c.arg 1 / 256 % 256
    let lane := c.arg 1 / 65536
    let n := s.dev.nregs (.group b k)
    let v : DWord := (c.args[2]?).getD 0
    let ok := lane < 256 ∧ kind ≤ 9 ∧ kind ≠ 7 ∧ (kind = 0 ∨ kind = 8 → reg < n) ∧ (kind = 1 ∨ kind = 9 → reg < 64) ∧ (kind = 2 → reg < 8)
    g.stopped = true → g.regsWf = true →
    (¬ ok → replies s (.debugWrite r) r c s.dev 0x01 []) ∧
    (ok → g.slices.length = 64 → ∃ h, replies s (.debugWrite r) r c (s.dev.modGroup b k (fun _ => h)) 0 [] ∧ match kind with
      | 0 => h = { g with v := h.v, vBad := h.vBad } ∧
          ∀ q l, l < 256 → h.vAt q l = if q = reg ∧ l = lane then v.extractLsb' 0 32 else g.vAt q l
      | 1 => h = { g with s := h.s, sBad := h.sBad } ∧ ∀ q, h.sAt q = if q = reg then v else g.sAt q
      | 2 => h = { g with p := h.p } ∧ ∀ q l, q < 7 → l < 256 → h.pAt q l = if q = reg ∧ l = lane then v.getLsbD 0 else g.pAt q l
      | 3 => h = { g with slices := h.slices } ∧
          ∀ i, h.slice i = if i = lane / 4 then { g.slice i with fmt := v.extractLsb' 0 32 &&& 3 } else g.slice i
      | 4 => h = { g with slices := h.slices } ∧
          ∀ i, h.slice i = if i = lane / 4 then { g.slice i with lk := v.extractLsb' 0 32 } else g.slice i
      | 5 => h = { g with cause := v }
      | 6 => h = { g with epc := zext (v.extractLsb' 0 32 : Word) }
      | 8 => h = { g with vEmpty := h.vEmpty } ∧
          ∀ q i, i < 64 → h.vIsEmpty q i = if q = reg ∧ i = lane / 4 then !v.getLsbD 0 else g.vIsEmpty q i
      | _ => h = { g with sEmpty := h.sEmpty } ∧ ∀ q, h.sIsEmpty q = if q = reg then !v.getLsbD 0 else g.sIsEmpty q)) ∧
  (∀ (s : State) (r : Req) (c : Call), asks s r c 8 → let n := c.arg 0
    let ok := n < 2 ^ 18 ∧ n % 2 ^ 8 = 0 ∧ n / 2 ^ 10 % 4 = 0 ∧ n / 2 ^ 15 % 2 = 0 ∧ c.arg 1 ≤ 1
    let core := n / 2 ^ 16 * 32 + n / 2 ^ 12 % 8 * 4 + n / 2 ^ 8 % 4
    (¬ ok → replies s (.debugCoreStop r) r c s.dev 0x01 []) ∧
    (ok → replies s (.debugCoreStop r) r c (s.dev.modCore core (fun k => { k with coreStop := decide (c.arg 1 = 1) })) 0 []))

/-- R225, R226, R417, R419, R437 to R440, R442, R443 and R445 to R447: boot, attestation, self-test, fencing, power, heat, link training and
page migration. The image that boots is the first that verifies, is no older than the version fuses allow and is at most 64 MiB; every
boot burns a fuse bit that reserves 1024 indices; fuse bit 0 names the path that is tried first; a failed unit is fenced and logged; a
migrated page's bytes move between DRAM and the CXL tier, and no other byte changes. An image verifies as XMSS with SHAKE256 under the key
whose digest is fused, and a response is signed so with the device's own key. The model's choices here: that DRAM is cleared and bytes of the
CXL tier and of the host stay, that 110 °C resets with cause 0 and dirty lines of L2 are lost then as at any power-off, and that a migration
waits outside the model for accesses under way (assumptions 42 and 43); what an uncorrected error marks (55); the digest of the key, the bytes
that a response signs, and the layouts of RFC 8391 (87); that a neighbour clash is decided by the identifier (57); that a lane is logged under
die 0 (36); that the registers the firmware writes come with the image (56); and what a failed row of a core does first (88). -/
def Obligations.BootFencingPowerAndMigration : Prop :=
  let next := fun (s : State) (i : Instr) (d : Device) => exec i s = .next { s with dev := d }
  let keeps := fun (h k : Hamada) => k.ident = h.ident ∧ k.xmssBits = h.xmssBits ∧ k.xmssNext = 1024 * h.xmssBits ∧ k.bootPath = h.bootPath ∧
    k.identity = h.identity ∧ k.imageKey = h.imageKey
  let log := fun (d : Device) (kind die unit : Nat) =>
    d.ham.log ++ [({ cycles := d.now, kind := kind, die := die, unit := BitVec.ofNat 64 unit, detail := 0 } : LogEntry)]
  let spot := fun (u : Piece) => match u with
    | .core d k => (d, k)
    | .l2way d q w => (d, 16 * q + w)
    | .dramFrame d f => (d, 2 ^ 21 * f)
    | .lane p l => (0, 8 * p + l)
    | .coreRow d k _ => (d, k)
  (∀ (s : State) (a b : Option BootImage) (bad : List Piece), s.dev.boot ≠ .off → next s (.powerGood a b bad) s.dev) ∧
  (∀ (s : State) (a b : Option BootImage) (bad : List Piece), s.dev.boot = .off → let h := s.dev.ham
    let good := fun (o : Option BootImage) (i : BootImage) =>
      o = some i ∧ digestOf i.key = h.imageKey ∧ xmssVerify 20 i.key i.bytes i.signature = true ∧ h.minVersion.toNat ≤ i.version.toNat ∧
        i.bytes.length ≤ 64 * 2 ^ 20
    let first := if h.bootPath then b else a
    let second := if h.bootPath then a else b
    let boots := fun (i : BootImage) => good first i ∨ (good second i ∧ ∀ j, ¬ good first j)
    ((∀ i, ¬ boots i) → ∃ t, exec (.powerGood a b bad) s = .next t ∧ t.dev.boot = .rom ∧ t.dev.mem = s.dev.mem ∧
      t.dev.ham.bootReport = true ∧ keeps h t.dev.ham ∧ t.dev.ham.minVersion = h.minVersion ∧ t.dev.ctxs = [] ∧ t.dev.blocks = []) ∧
    ∀ i, boots i → bad = [] → h.xmssBits < 1024 → ∃ t, exec (.powerGood a b bad) s = .next t ∧ t.dev.boot = .running ∧ t.dev.now = 0 ∧
      (∀ pa < 2 ^ 43, t.dev.byteAt (.mem pa) = 0) ∧ (∀ pa, 2 ^ 43 ≤ pa → s.dev.memWf = true → t.dev.byteAt (.mem pa) = s.dev.byteAt (.mem pa)) ∧
      t.dev.ctxs = [] ∧ t.dev.blocks = [] ∧ t.dev.scratch = [] ∧ t.dev.waypart = [] ∧ t.dev.swapth = [] ∧
      let k := t.dev.ham
      let mine := (i.devices.find? (fun p => p.1 == h.ident)).map Prod.snd
      k.ident = h.ident ∧ k.identity = h.identity ∧ k.imageKey = h.imageKey ∧ k.minVersion.toNat = max h.minVersion.toNat i.minVersion.toNat ∧ k.xmssBits = h.xmssBits + 1 ∧
      k.xmssNext = 1024 * h.xmssBits ∧ k.devNum = mine.getD 0 ∧ (k.listed = true ↔ mine ≠ none) ∧ k.ports = [] ∧
      k.numbers = i.devices.map Prod.snd ∧ k.digests = [digestOf i.bytes] ∧ k.sources = i.sources ∧ k.cap = 2800 ∧ k.fenced = [] ∧
      k.handlerBase = i.handlerBase ∧ k.frontRoot = i.frontRoot ∧
      k.decoders = (i.decoders.filter (fun x => decide (x.len ≠ 0 ∧ x.len % 2 ^ 28 = 0 ∧ x.first + x.len ≤ 2 ^ 43 ∧ x.ports ∈ [1, 2, 4] ∧
        x.gran ∈ [256, 1024, 4096]))).take 8 ∧
      k.front = ((i.front.filter (fun x => decide (x.toNat % 128 = 0))).take 64).map (fun x => (x, 0)) ∧
      let r := i.regs
      let within := bitsOf r.spwin 56 8 = 0 ∧ bitsOf r.spwin 2 27 = 0 ∧ r.splim.toNat ≤ 2 ^ 29 ∧ r.splim.toNat % 2 ^ 20 = 0 ∧ r.formto ≠ 0 ∧
        r.pdrain ≠ 0 ∧ r.psave ≠ 0
      (within → k.regs = r) ∧
      (¬ within → k.regs = { spwin := 0, splim := 0, formto := 512, tslice := 0, pdrain := 1048576, psave := 4194304 })) ∧
  (∀ s : State, s.dev.memWf = true → (∀ y ∈ s.dev.l2, ∀ z ∈ s.dev.l2, y.line = z.line → y = z) → (∀ y ∈ s.dev.l2, ∀ bs, y.behind = some bs → bs.length = 128) →
    ∃ t, exec .powerOff s = .next t ∧ t.dev.boot = .off ∧ t.dev.ctxs = [] ∧ t.dev.blocks = [] ∧ t.dev.l2 = [] ∧
    keeps s.dev.ham t.dev.ham ∧ t.dev.ham.minVersion = s.dev.ham.minVersion ∧
    ∀ pa, t.dev.byteAt (.mem pa) = ((s.dev.l2.findSome? (fun y =>
      if y.line = pa / 128 then y.behind.bind (fun bs => bs[pa % 128]?) else none)).getD (s.dev.byteAt (.mem pa)))) ∧
  (∀ (s : State) (u : Piece) (corrected : Bool) (at' : ErrorPlace),
    let h := { s.dev.ham with testing := s.dev.ham.testing ++ [(u, corrected)]
                              log := log s.dev (if corrected then 1 else 2) (spot u).1 (spot u).2 }
    let d0 := if corrected then s.dev else s.dev.leave at'
    ((∀ d k, u = .core d k → ∀ c b, s.dev.Lives c b → (s.dev.block b).core ≠ 32 * d + k) →
      next s (.errorDetected u ⟨corrected, at'⟩) { d0 with ham := h }) ∧
    ∀ d k c b, u = .core d k → s.dev.Lives c b → (s.dev.block b).core = 32 * d + k → c < s.dev.ctxs.length → (s.dev.ctx c).preempt = none →
      (∀ c' b', s.dev.Lives c' b' → (s.dev.block b').core = 32 * d + k → c' = c) → s.dev.Kept c b →
      s.dev.mayStore (memRun (Config.saveArea c % 2 ^ 26 * 4096 + 64) 4032) →
      ∃ t p, exec (.errorDetected u ⟨corrected, at'⟩) s = .next t ∧ t.dev.ham = h ∧ (t.dev.ctx c).preempt = some p ∧ p.level = 2 ∧
        p.start = s.dev.now ∧ p.requester = none) ∧
  (∀ d : Device, Fmap.wf false d.poison = true → d.leave .nothing = d ∧
    (∀ pa len i, i < len → i < 4096 → (d.leave (.memory pa len)).lostByte (.mem (pa + i)) = true) ∧
    (∀ k len i, i < len → i < 4096 → (d.leave (.scratch k len)).lostByte (.scratch (k + i)) = true) ∧
    (∀ b off len i, i < len → i < 4096 → (d.leave (.stash b off len)).lostByte (.stash b (off + i)) = true) ∧
    (∀ p l, (∀ b k r lane, p ≠ .vreg b k r lane) → d.lostByte l = true → (d.leave p).lostByte l = true) ∧
    (∀ k (f : Fill), d.fills[k]? = some f → d.leave (.transfer k) =
      (let u := { f with vErr := f.v.map Prod.fst, sErr := true }
       { d with fills := d.fills.set k u })) ∧
    (∀ k (f : QFill), d.qfills[k]? = some f → d.leave (.queueTransfer k) =
      (let u := { f with err := List.range 256 }
       { d with qfills := d.qfills.set k u })) ∧
    ∀ b k r lane, d.has (.group b k) = true → ((d.block b).group k).regsWf = true → let g := (d.block b).group k
      ∃ m, d.leave (.vreg b k r lane) = d.modGroup b k (fun _ => { g with vBad := m }) ∧
        ∀ q, Fmap.get false m q = if q = r * 256 + lane then true else Fmap.get false g.vBad q) ∧
  (∀ (s : State) (u : Piece) (passed : Bool), let h0 := s.dev.ham
    let left := h0.testing.filter (fun t => t.1 != u)
    let still := s.dev.copies = [] ∧ s.dev.qfills = [] ∧ (∀ k ∈ s.dev.cores, ∀ x ∈ k.crest, x.ops = []) ∧ s.dev.fab.hostLines = []
    let pair := fun (d q w : Nat) (y : L2Line) => y.die = d ∧ y.slice = q ∧ y.way = w
    (∀ d q w, u = .l2way d q w → (∃ y ∈ s.dev.l2, pair d q w y ∧ (y.line ∈ s.dev.fab.hostLines ∨ s.dev.owned y.line = true)) →
      next s (.selfTestDone u passed) s.dev) ∧
    ((∀ t ∈ h0.testing, t.1 ≠ u) → next s (.selfTestDone u passed) s.dev) ∧
    ((∃ c, (u, c) ∈ h0.testing) → (∀ d k, u ≠ .core d k) → ((∃ d q w, u = .l2way d q w) → still) →
      (passed = true → next s (.selfTestDone u passed)
        (let h := { h0 with testing := left, log := log s.dev 3 (spot u).1 (spot u).2 }
         { s.dev with ham := h })) ∧
      (passed = false → (∀ d q w, u ≠ .l2way d q w) → (∀ d k r, u ≠ .coreRow d k r) → h0.fenced = [] →
        let gone := match u with
          | .lane p l => (List.range 4).map (fun i => Piece.lane p (l / 4 * 4 + i))
          | v => [v]
        next s (.selfTestDone u passed)
          (let h := { h0 with testing := left, fenced := gone, log := log s.dev 4 (spot u).1 (spot u).2 }
           { s.dev with ham := h })) ∧
      ∀ d q w, u = .l2way d q w → passed = false → h0.fenced = [] →
        let keepsWay := ∀ j < 16, ∃ v < 16, (s.dev.wayPart d (q / 16)).getLsbD v = true ∧ ¬ (16 * (q / 16) + j = q ∧ v = w)
        (¬ keepsWay → Fmap.wf 0xFFFF s.dev.waypart = true →
          ∃ t, exec (.selfTestDone u passed) s = .next t ∧ t.dev.wayPart d (q / 16) = 0xFFFF ∧ t.dev.ham.fenced = [u]) ∧
        let lost := fun (y : L2Line) => pair d q w y ∧ y.behind ≠ none ∧ s.dev.badLine y.line = true
        (keepsWay →
        ∃ t, exec (.selfTestDone u passed) s = .next t ∧ t.dev.ham.fenced = [u] ∧ t.dev.ham.testing = left ∧ t.dev.waypart = s.dev.waypart ∧
          ((∀ y ∈ s.dev.l2, ¬ lost y) → t.dev.mem = s.dev.mem) ∧
          (s.dev.memWf = true → (s.dev.l2.map L2Line.line).Nodup → ∀ y ∈ s.dev.l2, lost y → ∀ bs, y.behind = some bs → bs.length = 128 →
            (∃ e ∈ t.dev.ham.log, e.kind = 2 ∧ e.die = d ∧ e.unit = BitVec.ofNat 64 (16 * q + w)) ∧
            ∀ i < 128, t.dev.byteAt (.mem (y.line * 128 + i)) = (bs[i]?).getD 0) ∧
          (∀ y, y ∈ t.dev.l2 ↔ y ∈ s.dev.l2 ∧ ¬ pair d q w y) ∧
          ∀ n, s.dev.memWf = true → t.dev.byteAt (.scratch n) =
            if n / 2 ^ 29 = d ∧ n % 2 ^ 29 / 2 ^ 24 = q / 16 ∧ n / 2 ^ 20 % 16 = w ∧ n / 2 ^ 16 % 16 = q % 16 then 0 else s.dev.byteAt (.scratch n))) ∧
    (∀ d k r, u = .coreRow d k r → (∃ c, (u, c) ∈ h0.testing) → passed = false →
      ((∀ b ∈ s.dev.blocks, b.ended = false → b.core ≠ 32 * d + k) → s.dev.saved = [] → h0.fenced = [] → next s (.selfTestDone u passed)
        (let h := { h0 with testing := left, fenced := [.core d k], log := log s.dev 4 d k }
         { s.dev with ham := h })) ∧
      ∀ c b, s.dev.Lives c b → (s.dev.block b).core = 32 * d + k → c < s.dev.ctxs.length → (s.dev.ctx c).preempt = none →
        (∀ c' b', s.dev.Lives c' b' → (s.dev.block b').core = 32 * d + k → c' = c) → s.dev.Kept c b →
        s.dev.mayStore (memRun (Config.saveArea c % 2 ^ 26 * 4096 + 64) 4032) →
        ∃ t p, exec (.selfTestDone u passed) s = .next t ∧ t.dev.ham = h0 ∧ (t.dev.ctx c).preempt = some p ∧ p.level = 2 ∧
          p.start = s.dev.now ∧ p.requester = none) ∧
    ∀ d k, u = .core d k → (∃ c, (u, c) ∈ h0.testing) →
      ((∃ b ∈ s.dev.blocks, b.ended = false ∧ b.core = 32 * d + k) → next s (.selfTestDone u passed) s.dev) ∧
      ((∀ b ∈ s.dev.blocks, b.ended = false → b.core ≠ 32 * d + k) → s.dev.saved = [] → h0.fenced = [] → next s (.selfTestDone u passed)
        (let h := { h0 with testing := left, fenced := if passed then [] else [u], log := log s.dev (if passed then 3 else 4) d k }
         { s.dev with ham := h }))) ∧
  (∀ (s : State) (die : Nat) (x : Nat), s.dev.ham.clocks.length = 4 → s.dev.ham.hotDram.length = 4 → die < 4 →
    s.dev.ham.clocks[die]? = some x →
    let clocks := fun (c : List Nat) =>
      let h := { s.dev.ham with clocks := c }
      ({ s.dev with ham := h } : Device)
    next s .powerOverCap (clocks (s.dev.ham.clocks.map (fun n => n - 50))) ∧
    next s (.junction100c die) (clocks (s.dev.ham.clocks.set die (x - 50))) ∧
    let dram := fun (b : Bool) =>
      let h := { s.dev.ham with hotDram := s.dev.ham.hotDram.set die b }
      ({ s.dev with ham := h } : Device)
    next s (.dram85c die) (dram true) ∧ next s (.dramBelow80c die) (dram false)) ∧
  (∀ (s : State) (die : Nat), let there := fun (c : Nat) => c < s.dev.ctxs.length ∧ (s.dev.ctx c).state ∈
      [LaunchState.running, .placing, .queued, .waiting, .read, .saved]
    ∃ t d1, exec (.junction110c die) s = .next t ∧ exec .powerOff { s with dev := d1 } = .next t ∧ t.dev.boot = .off ∧ t.dev.ctxs = [] ∧
      t.dev.blocks = [] ∧ keeps s.dev.ham t.dev.ham ∧ (∀ c, there c → (d1.ctx c).state = .failed ∧ s.dev.Stopped d1 c) ∧
      ∀ c, there c → (∀ c', there c' → c' = c) → (s.dev.ctx c).requester = none → (∀ p, (s.dev.ctx c).preempt = some p → p.requester = none) →
        (∀ l, (s.dev.ctx c).statusLoc = some l → ∃ pa, l = .mem pa ∧ ∀ p a, (s.dev.ctx c).preempt = some p → p.save = some a →
          pa + 8 ≤ a ∨ a + 64 ≤ pa) → s.dev.memWf = true → s.dev.Failed d1 c 0) ∧
  (∀ (s : State) (nonce : BitVec 256), let h := s.dev.ham
    let renew := decide (1024 * h.xmssBits ≤ h.xmssNext)
    let bits := if renew then h.xmssBits + 1 else h.xmssBits
    let i := if renew then 1024 * h.xmssBits else h.xmssNext
    (bits = 1024 → renew = true → h.xmssBits = 1023 → next s (.attestationRequest nonce)
      (let k := { h with xmssBits := 1024, xmssNext := 1024 * 1023 }
       { s.dev with ham := k })) ∧
    (bits < 1024 → ∃ t a, exec (.attestationRequest nonce) s = .next t ∧
      (let k := { h with xmssBits := bits, xmssNext := i + 1, attests := h.attests ++ [a] }
       t = { s with dev := { s.dev with ham := k } }) ∧
      a.ident = h.ident ∧ a.digests = h.digests ∧ a.version = h.minVersion ∧ a.index = i ∧ a.devNum = h.devNum ∧ a.nonce = nonce ∧
      (let plain : Attestation := { a with signature := [] }
       a.signature = h.identity.sign 20 i plain.bytes ∧
         (h.identity.seed.length = 32 → xmssVerify 20 (h.identity.pub 20) plain.bytes a.signature = true)) ∧ a.fenced.length = 4 ∧
      a.fenced[0]? = some ((h.fenced.filter (fun p => match p with | .core _ _ => true | _ => false)).length) ∧
      a.fenced[1]? = some ((h.fenced.filter (fun p => match p with | .l2way _ _ _ => true | _ => false)).length) ∧
      a.fenced[2]? = some ((h.fenced.filter (fun p => match p with | .dramFrame _ _ => true | _ => false)).length) ∧
      a.fenced[3]? = some ((h.fenced.filter (fun p => match p with | .lane _ _ => true | _ => false)).length))) ∧
  (∀ (s : State) (nonce : BitVec 256), s.dev.ham.xmssBits = 1024 → next s (.attestationRequest nonce) s.dev) ∧
  (∀ (s : State) (port : Nat) (num : BitVec 12) (ident : BitVec 128), let h := s.dev.ham
    let others := h.ports.filter (fun p => p.1 != port)
    let told := h.announced.filter (fun p => p.1 != port) ++ [(port, h.devNum)]
    let twice := num = h.devNum ∨ ∃ p ∈ others, p.2.1 = num ∧ p.2.2 ≠ ident
    (h.listed = false ∨ 24 ≤ port → next s (.neighbourLinkTraining port ⟨num, ident⟩) s.dev) ∧
    (h.listed = true → port < 24 → ¬ twice → next s (.neighbourLinkTraining port ⟨num, ident⟩)
      (let k := { h with ports := others ++ [(port, num, ident)], announced := told }
       { s.dev with ham := k })) ∧
    (h.listed = true → port < 24 → twice → next s (.neighbourLinkTraining port ⟨num, ident⟩)
      (let k := { h with ports := others, announced := told, log := log s.dev 7 0 (8 * port) }
       { s.dev with ham := k }))) ∧
  (∀ (s : State) (src dst size : Nat) (cells : List Host.Cell), s.dev.memWf = true → size = 2 ^ 12 ∨ size = 2 ^ 16 ∨ size = 2 ^ 21 →
    src % size = 0 → dst % size = 0 → s.dev.ownMemory src = true → s.dev.ownMemory dst = true →
    s.dev.pageBusy src size = false → s.dev.pageBusy dst size = false →
    let tiers := (src < 2 ^ 38 ∧ 2 ^ 38 ≤ dst) ∨ (dst < 2 ^ 38 ∧ 2 ^ 38 ≤ src)
    let meets := fun (at' : Nat) (p : Nat × Nat) => p.1 < at' + size ∧ at' < p.1 + p.2
    let fenced := ∃ i f, Piece.dramFrame i f ∈ s.dev.ham.fenced ∧ 2 ^ 21 * f < dst + size ∧ dst < 2 ^ 21 * (f + 1)
    let page := (∃ p ∈ s.dev.pages, meets src p) ∧ (∀ p ∈ s.dev.pages, meets src p → p = (src, size)) ∧ (∀ p ∈ s.dev.pages, ¬ meets dst p) ∧
      ¬ fenced
    (s.dev.pagePinned src size = true ∨ ¬ tiers ∨ ¬ page → next s (.pageMigration src dst size cells) s.dev) ∧
    (s.dev.pagePinned src size = false → s.dev.pagePinned dst size = false → tiers → page → (cells.map Prod.fst).Nodup →
      (∀ c ∈ s.dev.ctxs, Fmap.wf 0 c.tables = true) →
      (∀ c ∈ cells, ¬ (dst ≤ c.1 ∧ c.1 < dst + size)) → s.dev.mayStore (cells.map (fun c => .mem c.1)) → ∃ t, exec (.pageMigration src dst size cells) s = .next t ∧
      (∀ i < size, t.dev.byteAt (.mem (dst + i)) = s.dev.byteAt (.mem (src + i))) ∧
      (∀ p ∈ cells, t.dev.byteAt (.mem p.1) = p.2 ∧ ∀ c ∈ t.dev.ctxs, Fmap.get 0 c.tables p.1 = p.2) ∧
      ∀ pa, ¬ (dst ≤ pa ∧ pa < dst + size) → pa ∉ cells.map Prod.fst → t.dev.byteAt (.mem pa) = s.dev.byteAt (.mem pa)))

/-- R322, R414 and R420 to R427: messages as they arrive and host accesses. A request of another device is performed at its location and
answered, and the launches shared with its sender count it; a reply reaches the register that waits; replicated values are summed; copy
flits move bytes; a start flit, a replicated packet, an answer and a timeout move a replicated launch on; sweeps add up the tree; a failed
message marks its value or its store, or fails the open phase; the host reads, writes, holds and recalls lines, and a write of its own memory
stands there; a device that no configuration lists takes and sends no message. The model's choices here: how an answer of a replicated launch
and word of its failure travel (assumption 44), that link control changes nothing (45), the forms of answers that R420 and R421 leave open,
among them one without bytes and the wakes (51), what a failed message does to the counts (61), that the lane of a port is the unit of a value
that fails (81), that an index past the list names the launch whose sweep failed (35), and that a host read of a whole 64-byte line caches it (23). -/
def Obligations.FabricMessagesAndHostAccesses : Prop :=
  let next := fun (s : State) (i : Instr) (d : Device) => exec i s = .next { s with dev := d }
  let withFab := fun (d : Device) (f : Fabric) => ({ d with fab := f } : Device)
  let locs := fun (m : RemoteReq) => (List.range (min m.size 128)).map (fun i => Loc.mem (m.addr % 2 ^ 38 + i))
  let answer := fun (m : RemoteReq) (cls : BitVec 4) (data : DWord) (bytes : List Byte) =>
    ({ dst := m.src, cls := cls, tag := m.tag, addr := m.addr, size := m.size, op := 0, data := data, aux := 0, bytes := bytes
       cells := [], counted := false } : OutMsg)
  let flit := fun (dst : BitVec 12) (cls : BitVec 4) (data : DWord) =>
    ({ dst := dst, cls := cls, tag := 0, addr := 0, size := 0, op := 0, data := data, aux := 0, bytes := [], cells := [],
       counted := false } : OutMsg)
  let counts := fun (s t : State) (m : RemoteReq) => (m.counted = true → s.dev.Counted t.dev m.src) ∧
    (m.counted = false → t.dev.ctxs.length = s.dev.ctxs.length ∧ ∀ c < s.dev.ctxs.length,
      t.dev.ctx c = { s.dev.ctx c with broken := (t.dev.ctx c).broken })
  let failing := fun (d : Device) (dev : BitVec 12) =>
    let port := (((d.ham.ports.find? (fun p => p.2.1 == dev)).or d.ham.ports.head?).map (fun p => p.1)).getD 0
    let e : LogEntry := { cycles := d.now, kind := 2, die := 0, unit := BitVec.ofNat 64 (8 * port), detail := 0 }
    let known := d.ham.testing.any (fun q => q.1 == Piece.lane port 0)
    ({ d.ham with log := d.ham.log ++ [e], testing := if known = true then d.ham.testing else d.ham.testing ++ [(.lane port 0, false)] } : Hamada)
  let sends := fun (s : State) (i : Instr) (m : OutMsg) => next s i (withFab s.dev { s.dev.fab with outbox := s.dev.fab.outbox ++ [m] })
  let whole := fun (d : Device) (ls : List Loc) => ∀ l ∈ ls, d.lostByte l = false
  let phaseFails := fun (s : State) (i : Instr) (c : Nat) => ∃ t, exec i s = .next t ∧ (t.dev.ctx c).phase = (s.dev.ctx c).phase + 1 ∧
    (t.dev.ctx c).drains = [] ∧ ((s.dev.ctx c).drains = [] → (t.dev.ctx c).failedMsg = true)
  let log := fun (d : Device) (unit : Nat) =>
    d.ham.log ++ [({ cycles := d.now, kind := 7, die := 0, unit := BitVec.ofNat 64 unit, detail := 0 } : LogEntry)]
  (∀ (s : State) (m : RemoteReq) (k : Nat) (bs : List Byte) (v : Option DWord) (n : BitVec 12) (q : CopyFlit) (a z : Nat) (x : ReplicaOf)
      (g : DWord) (port : Nat) (cls : BitVec 4), s.dev.ham.listed = false →
    ∀ i ∈ [Instr.remoteLoadRequest m, .reductionLoadRequest m, .remoteStore m, .remoteAtomic m, .loadReply k bs, .storeAcknowledgement k,
      .atomicReply k v, .reductionReply k n v, .copyData q a z bs, .startBarrier n g, .launchPacketReplication n x g bs, .reservedFlit port cls],
    exec i s = .next s) ∧
  (∀ (s : State) (m : RemoteReq), s.dev.ham.listed = true → ∀ o ∈ [(Instr.remoteLoadRequest m, (1 : BitVec 4)), (.reductionLoadRequest m, 9)],
    (s.dev.held (locs m) = true → exec o.1 s = .next s) ∧
    (s.dev.held (locs m) = false → whole s.dev (locs m) → ∃ t, exec o.1 s = .next t ∧ SameBytes s t ∧ counts s t m ∧
      s.dev.Sent t.dev (answer m o.2 (s.dev.valueAt ((locs m).take 8)) ((locs m).map s.dev.byteAt))) ∧
    (s.dev.held (locs m) = false → ¬ whole s.dev (locs m) → sends s o.1 (answer m o.2 0 []))) ∧
  (∀ (s : State) (m : RemoteReq), s.dev.ham.listed = true → (∀ p ∈ m.cells, m.addr % 128 + p.1 < 128) → s.dev.memWf = true →
    let W := m.cells.map (fun p => (Loc.mem (m.addr % 2 ^ 38 + p.1), p.2))
    let home := bitsOf m.data 0 12
    let key := lineKey (if 2 ^ 50 ≤ m.addr then .mem m.addr else if home = s.dev.ham.devNum then .mem (m.addr % 2 ^ 38)
      else .remote home (m.addr % 2 ^ 38))
    (s.dev.held (W.map Prod.fst) = true → exec (.remoteStore m) s = .next s) ∧
    (s.dev.held (W.map Prod.fst) = false → ∃ t, exec (.remoteStore m) s = .next t ∧
      (∀ l, t.dev.byteAt l = (s.dev.lastTo W l).getD (s.dev.byteAt l)) ∧ counts s t m ∧ s.dev.Sent t.dev (answer m 3 0 []) ∧
      (m.cells = [] → t.dev.monitors = s.dev.monitors.map (fun y =>
        if y.line = some key then { y with called := true } else if y.line = none then { y with woken := true } else y)))) ∧
  (∀ (s : State) (m : RemoteReq) (n : Nat), s.dev.ham.listed = true → m.size = 4 ∨ m.size = 8 → n = 8 * m.size → s.dev.memWf = true →
    m.op.toNat % 16 < 8 ∨ (m.size = 4 ∧ m.op.toNat % 16 < 11) →
    let old : BitVec n := BitVec.ofNat n (s.dev.valueAt (locs m)).toNat
    let new := atomResult (m.op.toNat % 16) (m.op.getLsbD 4) old (element n m.data 0) (element n m.cmp 0)
    let marks : DWord := if m.op.toNat % 16 = 0 ∧ m.cmp = 1 then 0x8000000000000000 else 0
    (s.dev.held (locs m) = true → exec (.remoteAtomic m) s = .next s) ∧
    (s.dev.held (locs m) = false → ¬ whole s.dev (locs m) → sends s (.remoteAtomic m) (answer m 5 0 [])) ∧
    (s.dev.held (locs m) = false → whole s.dev (locs m) → ∃ t, exec (.remoteAtomic m) s = .next t ∧
      s.dev.Wrote t.dev (locs m) (BitVec.ofNat 64 new.toNat ||| marks) ∧
      counts s t m ∧ s.dev.Sent t.dev (answer m 5 (s.dev.valueAt (locs m)) ((locs m).map s.dev.byteAt)))) ∧
  (∀ (s : State) (k j : Nat) (op : RemoteOp) (f : Fill), s.dev.ham.listed = true → s.dev.Awaits k j op f →
    (op.kind = 0 → ∀ bytes, bytes ≠ [] → ∃ u, f.Got u op (fun p y => y ||| op.taken p bytes) ∧
      next s (.loadReply k bytes) (s.dev.fillGot k j u)) ∧
    (op.kind = 0 → exec (.loadReply k []) s = exec (.messageFailure k) s) ∧
    (op.kind = 4 → ∀ data, ∃ u, f.Got u op (fun p y => y ||| op.taken p ((List.range op.cnt).map (element 8 data))) ∧
      next s (.atomicReply k (some data)) (s.dev.fillGot k j u)) ∧
    (op.kind = 4 → exec (.atomicReply k none) s = exec (.messageFailure k) s) ∧
    (op.kind = 8 → ∀ src ∈ op.left, exec (.reductionReply k src none) s = exec (.messageFailure k) s) ∧
    (op.kind = 8 → ∀ data, ∀ src ∈ op.left,
      let sum : DWord := BitVec.ofNat 64 ((op.acc.toNat + data.toNat) % 2 ^ (8 * op.cnt))
      let left := op.left.filter (fun n => n != src)
      (left = [] → ∃ u, f.Got u op (fun _ _ => sum) ∧ next s (.reductionReply k src (some data)) (s.dev.fillGot k j u)) ∧
      (left ≠ [] → next s (.reductionReply k src (some data))
        (withFab s.dev { s.dev.fab with remotes := s.dev.fab.remotes.set k { op with acc := sum, left := left } }))) ∧
    ((s.dev.ctx op.ctx).drains = [] → ∃ u e,
      u = { f with await := f.await - 1, sErr := u.sErr, vErr := f.vErr ++ e } ∧
      (u.sErr = true ↔ f.sErr = true ∨ ∃ p ∈ op.parts, p.lane = none) ∧
      (∀ q, q ∈ e ↔ ∃ p ∈ op.parts, ∃ l, p.lane = some l ∧ (q = op.reg.toNat * 256 + l ∨ (op.size = 3 ∧ q = (op.reg.toNat + 1) * 256 + l))) ∧
      let meets := fun (c : Ctx) => { c with received := c.received + 1, failedMsg := true }
      (op.kind ≠ 4 → next s (.messageFailure k) (({ s.dev.fillGot k j u with ham := failing s.dev op.dev } : Device).modCtx op.ctx meets)) ∧
      (op.kind = 4 → op.agent ≠ none →
        let r := s.dev.fab.remotes.set k { op with use := .done, failed := true }
        let d := withFab s.dev { s.dev.fab with remotes := r }
        next s (.messageFailure k) (({ d with fills := s.dev.fills.set j u, ham := failing s.dev op.dev } : Device).modCtx op.ctx meets)))) ∧
  (∀ (s : State) (k : Nat) (op : RemoteOp), s.dev.fab.remotes[k]? = some op → op.failed = false →
    (let d := withFab s.dev { s.dev.fab with remotes := listDrop s.dev.fab.remotes k }
     op.kind = 2 ∨ op.kind = 6 → s.dev.ham.listed = true →
      ((∀ core n w, op.use ≠ .mapBit core n w) → (∀ core n bar, op.use ≠ .image core n bar) → next s (.storeAcknowledgement k) d) ∧
      ∀ core n bar, op.use = .image core n bar →
        let rest := ∃ q ∈ d.fab.remotes, q.failed = false ∧ ∃ b, q.use = .image core n b
        (rest → next s (.storeAcknowledgement k) d) ∧ (¬ rest → next s (.storeAcknowledgement k) (d.crestArrive (s.dev.crest core n) bar))) ∧
    (∀ core slot serial i, op.use = .bring core slot serial i → let W := s.dev.wslot core slot
      W.serial = serial → W.waiting = [] → i < W.points.length → core < s.dev.cores.length → slot < (s.dev.core core).walker.length →
      (s.dev.ctx op.ctx).drains = [] → ∃ t, exec (.messageFailure k) s = .next t ∧ ((t.dev.wslot core slot).pt i).fault = true) ∧
    (op.kind = 2 → op.use = .done ∨ op.use = .unit → op.agent ≠ none → (s.dev.ctx op.ctx).drains = [] →
      let d := withFab s.dev { s.dev.fab with remotes := s.dev.fab.remotes.set k { op with use := .done, failed := true } }
      let h := { s.dev.ham with log := log s.dev 0 }
      next s (.messageFailure k) (({ d with ham := h } : Device).modCtx op.ctx (fun c => { c with received := c.received + 1, failedMsg := true }))) ∧
    (op.use = .done → op.ctx < s.dev.ctxs.length → (s.dev.ctx op.ctx).drains ≠ [] → phaseFails s (.messageFailure k) op.ctx)) ∧
  (∀ (s : State) (c : Nat), c < s.dev.ctxs.length → let k := s.dev.ctx c
    let i : Instr := .messageFailure (s.dev.fab.remotes.length + c)
    (k.away = true → exec i s = .next s) ∧
    (k.away = false → phaseFails s i c ∧
      (k.packet.replicate ≠ 0 → s.dev.ham.listed = true → k.state = .running ∨ k.state = .placing → ∀ t, exec i s = .next t → ∀ n ∈ s.dev.replicas c,
        ∃ m ∈ t.dev.fab.outbox, m.dst = n ∧ m.cls = 10 ∧ m.op = 2 ∧ m.addr = k.phase))) ∧
  (∀ (s : State) (src : BitVec 12) (tag : BitVec 20) (holes : List Nat) (addr size : Nat), s.dev.ham.listed = true → let n := min size 240
    let ls := (List.range n).map (fun i => Loc.mem (addr % 2 ^ 38 + i))
    let gives := fun (bytes : List Byte) => { flit src 6 0 with addr := addr, size := size, tag := tag, op := 1, bytes := bytes }
    (s.dev.held ls = true → exec (.copyData ⟨src, false, tag, holes⟩ addr size []) s = .next s) ∧
    (s.dev.held ls = false → whole s.dev ls → ∃ t, exec (.copyData ⟨src, false, tag, holes⟩ addr size []) s = .next t ∧ SameBytes s t ∧
      s.dev.Counted t.dev src ∧ s.dev.Sent t.dev (gives (ls.map s.dev.byteAt))) ∧
    (s.dev.held ls = false → ¬ whole s.dev ls → sends s (.copyData ⟨src, false, tag, holes⟩ addr size []) (gives []))) ∧
  (∀ (s : State) (src : BitVec 12) (tag : BitVec 20) (holes : List Nat) (addr size : Nat) (bytes : List Byte), s.dev.ham.listed = true →
    bytes ≠ [] → bytes.length ≤ 240 → s.dev.memWf = true → let i : Instr := .copyData ⟨src, false, tag, holes⟩ addr size bytes
    let ls := ((List.range bytes.length).filter (fun i => decide (i ∉ holes))).map (fun i => Loc.mem (addr % 2 ^ 38 + i))
    (s.dev.held ls = true → exec i s = .next s) ∧
    (s.dev.held ls = false → ∃ t, exec i s = .next t ∧ s.dev.Counted t.dev src ∧
      s.dev.Sent t.dev { flit src 3 0 with addr := addr, size := size, tag := tag } ∧
      (∀ (j : Nat) (x : Byte), bytes[j]? = some x → j ∉ holes → t.dev.byteAt (.mem (addr % 2 ^ 38 + j)) = x) ∧
      ∀ l, s.dev.cell l ∉ ls → t.dev.byteAt l = s.dev.byteAt l)) ∧
  (∀ (s : State) (src : BitVec 12) (tag : BitVec 20) (holes : List Nat) (addr size k : Nat) (bytes : List Byte) (op : RemoteOp) (id pos : Nat),
    let asked := fun (q : RemoteOp) => q.kind = 6 ∧ q.dev = src ∧ q.tag = tag ∧ q.failed = false
    let i := fun (bs : List Byte) => Instr.copyData ⟨src, true, tag, holes⟩ addr size bs
    s.dev.ham.listed = true → s.dev.fab.remotes[k]? = some op → asked op → (∀ j < k, ∀ q, s.dev.fab.remotes[j]? = some q → ¬ asked q) →
    op.use = .copy id pos →
    (bytes ≠ [] → ∃ t, exec (i bytes) s = .next t ∧
      t.dev = { withFab s.dev { s.dev.fab with remotes := listDrop s.dev.fab.remotes k } with copies := t.dev.copies } ∧
      t.dev.copies.length = s.dev.copies.length ∧ ∀ (j : Nat) (c : CopyOp), s.dev.copies[j]? = some c → ∃ B, t.dev.copies[j]? = some { c with bytes := B } ∧
        (c.id ≠ id → B = c.bytes) ∧ (c.id = id → Fmap.wf 0 c.bytes = true →
          ∀ n, Fmap.get 0 B n = if pos ≤ n ∧ n < pos + min op.cnt bytes.length then (bytes[n - pos]?).getD 0 else Fmap.get 0 c.bytes n)) ∧
    exec (i []) s = exec (.messageFailure k) s ∧
    ((s.dev.ctx op.ctx).drains = [] → ∃ t, exec (i []) s = .next t ∧ t.dev.fab.remotes = listDrop s.dev.fab.remotes k ∧
      t.dev.ham.log = log s.dev 0 ∧ t.dev.copies.length = s.dev.copies.length ∧
      ∀ (j : Nat) (c : CopyOp), s.dev.copies[j]? = some c → t.dev.copies[j]? = some (if c.id = id then { c with bad := true } else c))) ∧
  (∀ (s : State) (src : BitVec 12) (tag : BitVec 20) (holes : List Nat) (addr size : Nat) (bytes : List Byte),
    (∀ op ∈ s.dev.fab.remotes, op.kind = 6 → op.dev = src → op.tag = tag → op.failed = true) →
    exec (.copyData ⟨src, true, tag, holes⟩ addr size bytes) s = .next s) ∧
  (∀ (s : State) (src : BitVec 12) (gen : DWord), let f := s.dev.fab
    let block := s.dev.ham.devNum.toNat / 64
    s.dev.ham.listed = true → Fmap.wf 0 f.gens = true →
    let starts := f.starts ++ [(src, gen)]
    let begins := (Fmap.get 0 f.gens block).toNat < gen.toNat ∧ ∃ c < s.dev.ctxs.length, (s.dev.ctx c).packet.replicate ≠ 0 ∧
      (s.dev.ctx c).packet.gen = gen ∧ (s.dev.ctx c).placed ≠ 0 ∧ ∀ n ∈ s.dev.replicas c, (n, gen) ∈ starts
    ∃ t, exec (.startBarrier src gen) s = .next t ∧ t.dev = withFab s.dev { f with starts := starts, gens := t.dev.fab.gens } ∧
      ∀ b, Fmap.get 0 t.dev.fab.gens b = if b = block ∧ begins then gen else Fmap.get 0 f.gens b) ∧
  (∀ (s : State) (src : BitVec 12) (x : ReplicaOf) (gen : DWord) (packet : List Byte), x.ended = true → s.dev.ham.listed = true →
    ∃ t, exec (.launchPacketReplication src x gen packet) s = .next t ∧
      (∀ p, p ∈ t.dev.fab.starts ↔ p ∈ s.dev.fab.starts ∧ p.2 ≠ gen) ∧
      ∀ c < s.dev.ctxs.length, let k := s.dev.ctx c
        let ends := k.origin = some src ∧ k.packet.gen = gen ∧ k.state ≠ .failed ∧ k.state ≠ .done
        (ends → (t.dev.ctx c).state = .failed ∧ s.dev.Stopped t.dev c) ∧ (¬ ends → t.dev.ctx c = k)) ∧
  (∀ (s : State) (src : BitVec 12) (c : Nat) (va : DWord) (priv : Bool) (packet : List Byte), packet ≠ [] → s.dev.ham.listed = true →
    (c < s.dev.ctxs.length → ∃ t k, exec (.launchPacketReplication src ⟨c, priv, false⟩ va packet) s = .next t ∧
      t.dev = { s.dev with ctxs := s.dev.ctxs ++ [k] } ∧ k.packet = parsePacket packet ∧ k.va = va ∧ k.state = .read ∧
      k.origin = some src ∧ k.die = (s.dev.ctx c).die ∧ k.root = (s.dev.ctx c).root ∧ k.privLaunch = priv) ∧
    (s.dev.ctxs.length ≤ c → ∃ t, exec (.launchPacketReplication src ⟨c, priv, false⟩ va packet) s = .next t ∧
      s.dev.Sent t.dev (flit src 11 0x06) ∧ t.dev.ctxs = s.dev.ctxs)) ∧
  (∀ (s : State) (src : BitVec 12) (c : Nat) (va : DWord) (priv : Bool), let k := s.dev.ctx c
    let as := k.answers ++ [(src, bitsOf va 0 8)]
    let all := (∀ n ∈ s.dev.othersOf k.packet, ∃ a ∈ as, a.1 = n) ∧ ∃ a ∈ as, a.1 = s.dev.ham.devNum
    c < s.dev.ctxs.length → s.dev.ham.listed = true → s.dev.memWf = true → k.origin = none → k.packet.replicate ≠ 0 → (∀ a ∈ k.answers, a.1 ≠ src) → k.requester = none →
    k.preempt = none →
    (¬ all → next s (.launchPacketReplication src ⟨c, priv, false⟩ va []) (s.dev.modCtx c (fun k => { k with answers := as }))) ∧
    (all → (∀ a ∈ as, a.2 = 0) → ∃ t, exec (.launchPacketReplication src ⟨c, priv, false⟩ va []) s = .next t ∧ (t.dev.ctx c).state = k.state ∧
      ∀ pa, k.statusLoc = some (.mem pa) → s.dev.mayStore (memRun pa 8) → ∀ i < 8, t.dev.byteAt (.mem (pa + i)) = if i = 0 then 1 else 0) ∧
    (all → ∀ a ∈ as, a.2 ≠ 0 → (∀ b ∈ as, b.2 ≠ 0 → b = a ∨ a.1.toNat < b.1.toNat) →
      ∃ t, exec (.launchPacketReplication src ⟨c, priv, false⟩ va []) s = .next t ∧ s.dev.Failed t.dev c a.2 ∧
        (∀ p ∈ t.dev.fab.starts, p.2 ≠ k.packet.gen) ∧
        ∀ n ∈ s.dev.othersOf k.packet, ∃ m ∈ t.dev.fab.outbox, m.dst = n ∧ m.cls = 11 ∧ m.op = 2 ∧ m.data = k.packet.gen)) ∧
  (∀ (s : State) (c : Nat), let k := s.dev.ctx c
    let late := k.packet.replicate ≠ 0 ∧ 2 ^ 24 ≤ s.dev.now - k.arrival ∧ (k.state = .read ∨ (k.origin = none ∧ s.dev.allAnswered k = false))
    (¬ late → exec (.replicationTimeout c) s = .next s) ∧
    (late → c < s.dev.ctxs.length → (∀ n, k.origin = some n → s.dev.ham.listed = true → ∃ t m, exec (.replicationTimeout c) s = .next t ∧ (t.dev.ctx c).state = .failed ∧
        s.dev.Stopped t.dev c ∧ m ∈ t.dev.fab.outbox ∧ m.dst = n ∧ m.cls = 11 ∧ m.data = 0x13) ∧
      (k.origin = none → s.dev.memWf = true → k.requester = none → k.preempt = none → k.answers = [] →
        ∃ t, exec (.replicationTimeout c) s = .next t ∧ s.dev.Failed t.dev c 0x13))) ∧
  (∀ (d : Device) (c : Nat), let L := d.setOf c
    let p := d.treePos c
    L.Pairwise (· < ·) ∧ (∀ n, n ∈ L ↔ n = d.ham.devNum.toNat ∨ ∃ r ∈ d.replicas c, r.toNat = n) ∧ L[p]? = some d.ham.devNum.toNat ∧
    L[p / 2]? = some (d.treeParent c).toNat ∧ ∀ n, n ∈ d.treeChildren c ↔ ∃ i, L[i]? = some n.toNat ∧ i / 2 = p ∧ i ≠ p) ∧
  (∀ (s : State) (c : Nat) (src : BitVec 12) (phase no a b : DWord) (v : BitVec 2), let k := s.dev.ctx c
    let i : Instr := .drainSweep c src phase no a b v
    c < s.dev.ctxs.length → (k.away = true → exec i s = .next s) ∧ (src ≠ s.dev.ham.devNum → s.dev.ham.listed = false → exec i s = .next s) ∧
    (src ≠ s.dev.ham.devNum → s.dev.ham.listed = true → phase.toNat = k.phase → k.away = false →
    (v = 2 → src ∈ s.dev.replicas c → phaseFails s i c) ∧
    (v ≠ 2 → no.toNat = k.sweepNo → src ∈ s.dev.treeChildren c → (∀ q ∈ k.childSums, q.1 ≠ src) → next s i
      (s.dev.modCtx c (fun k => { k with childSums := k.childSums ++ [(src, a, b)] }))) ∧
    (v ≠ 2 → v ≠ 1 → no.toNat = k.sweepNo → src ∉ s.dev.treeChildren c → src = s.dev.treeParent c → k.sweepSent = true →
      s.dev.treeChildren c = [] → next s i (s.dev.modCtx c (fun k =>
        { k with sweepNo := k.sweepNo + 1, sweepSent := false, childSums := [] }))))) ∧
  (∀ (s : State) (c : Nat) (phase no a b : DWord) (v : BitVec 2), let k := s.dev.ctx c
    let me := s.dev.ham.devNum
    let i : Instr := .drainSweep c me phase no a b v
    let sums := k.childSums.foldl (fun (p : DWord × DWord) q => (p.1 + q.2.1, p.2 + q.2.2)) (k.sent, k.received)
    c < s.dev.ctxs.length → s.dev.ham.listed = true → k.away = false → k.drains ≠ [] ∨ k.state = .done ∨ k.state = .drained → k.sweepSent = false →
    (∀ n ∈ s.dev.treeChildren c, ∃ q ∈ k.childSums, q.1 = n) →
    (s.dev.treePos c ≠ 0 → ∃ t, exec i s = .next t ∧
      s.dev.Sent t.dev { flit (s.dev.treeParent c) 10 sums.1 with addr := k.phase, size := k.sweepNo, aux := sums.2 } ∧
      t.dev.ctx c = { k with sweepSent := true }) ∧
    (s.dev.treePos c = 0 → k.lastSum ≠ some sums ∨ sums.1 ≠ sums.2 → ∃ t, exec i s = .next t ∧
      t.dev.ctx c = { k with lastSum := some sums, sweepNo := k.sweepNo + 1, childSums := [] } ∧ t.dev.blocks = s.dev.blocks ∧
      ∀ n ∈ s.dev.treeChildren c, ∃ m ∈ t.dev.fab.outbox, m.dst = n ∧ m.cls = 10 ∧ m.data = sums.1 ∧ m.aux = sums.2 ∧ m.op = 0) ∧
    (s.dev.treePos c = 0 → k.lastSum = some sums → sums.1 = sums.2 → (k.drains.map (fun q => (q.blk, q.slot))).Nodup →
      (∀ q ∈ k.drains, s.dev.has (.group q.blk q.slot) = true) → s.dev.filesWf = true → ∃ t, exec i s = .next t ∧
      t.dev.ctx c = { k with phase := k.phase + 1, sweepNo := 0, childSums := [], lastSum := none, drains := [] } ∧
      (∀ q ∈ k.drains, let g := (t.dev.block q.blk).group q.slot
        g.sAt q.sreg.toNat = sums.1 ∧ g.sIsEmpty q.sreg.toNat = false ∧ g.region = none ∧ ∀ j, (g.slice j).hold ≠ .unit) ∧
      ∀ n ∈ s.dev.treeChildren c, ∃ m ∈ t.dev.fab.outbox, m.dst = n ∧ m.cls = 10 ∧ m.data = sums.1 ∧ m.op = 1)) ∧
  (∀ (s : State) (port : Nat) (cls : BitVec 4), exec (.linkControl port) s = .next s ∧
    (cls.toNat < 13 → exec (.reservedFlit port cls) s = .next s) ∧
    (13 ≤ cls.toNat → s.dev.ham.listed = true → next s (.reservedFlit port cls)
      (let h := { s.dev.ham with log := log s.dev (8 * port) }
       { s.dev with ham := h }))) ∧
  (∀ (s : State) (write : Bool) (addr size : Nat) (bytes : List Byte), let n := min (if write then bytes.length else size) 64
    let a := addr % 2 ^ 51
    let ls := (List.range n).map (fun i => Loc.mem (a + i))
    let i : Instr := .hostDeviceAccess write addr size bytes
    s.dev.memWf = true →
    (s.dev.ownedLocs ls = true → exec i s = .next s) ∧
    (s.dev.ownedLocs ls = false → write = true → ∃ t, exec i s = .next t ∧
      (∀ (j : Nat) (l : Loc), ls[j]? = some l → t.dev.byteAt l = (bytes[j]?).getD 0) ∧ ∀ l, s.dev.cell l ∉ ls → t.dev.byteAt l = s.dev.byteAt l) ∧
    (s.dev.ownedLocs ls = false → write = false → ∃ t, exec i s = .next t ∧ SameBytes s t ∧
      ∀ q, q ∈ t.dev.fab.hostLines ↔ q ∈ s.dev.fab.hostLines ∨ (n = 64 ∧ a < 2 ^ 50 ∧ ∃ j < 64, q = (a + j) / 128)) ∧
    (s.dev.ownedLocs ls = false → 2 ^ 50 ≤ a → a + n ≤ 2 ^ 51 → ∃ t, exec i s = .next t ∧
      ∀ y ∈ t.dev.l2, ∀ j < n, y.line = (a + j) / 128 → write = false ∧ y.behind = none)) ∧
  (∀ (s : State) (line : Nat), next s (.backInvalidateResponse line)
    (withFab s.dev { s.dev.fab with hostLines := s.dev.fab.hostLines.filter (fun n => n != line) })) ∧
  (∀ (s : State) (line : Nat) (write : Bool), let host := 2 ^ 50 ≤ line * 128 ∧ line * 128 < 2 ^ 51
    (¬ host ∨ s.dev.owned line = true → exec (.hostSnoop line write) s = .next s) ∧
    (host → s.dev.owned line = false → ∃ t, exec (.hostSnoop line write) s = .next t ∧ SameBytes s t ∧
      (write = true → LineEffect .wbinv (fun y => y.line = line) (fun n => n = line) s.dev t.dev) ∧
      (write = false → ∃ d, LineEffect .clean (fun y => y.line = line) (fun _ => False) s.dev d ∧
        t.dev = { d with blocks := t.dev.blocks, ulines := t.dev.ulines } ∧ (∀ u, u ∈ t.dev.ulines ↔ u ∈ s.dev.ulines ∧ u.line ≠ line) ∧
        ∀ b, t.dev.block b = { s.dev.block b with maps := (t.dev.block b).maps } ∧
          (t.dev.block b).maps.map (fun m => (m.off, m.len, m.lines, m.filled)) = (s.dev.block b).maps.map (fun m => (m.off, m.len, m.lines, m.filled)) ∧
          ∀ m ∈ (t.dev.block b).maps, ∀ f ∈ m.dirty, m.lines[f.1]? ≠ some line)))

/-- R91, R222, R223, R354, R396, R411, R437 and R445: what reset leaves. Every domain's WAYPART is 0xFFFF and SWAPTH is 24; the power cap is
2.8 kW and the clocks stand at its limit; no context, block, copy, fault or request is on the device; every Crest context and walker slot
is empty; memory lists nothing and keeps its canonical form. That no piece is fenced, that sensors and fuses start at their least values and
that memory reads 0 are the model's choices (assumptions 4, 6 and 7). -/
def Obligations.ResetLeavesTheValuesTheSpecGives : Prop :=
  let s := State.reset
  let d := s.dev
  d.boot = .running ∧ d.now = 0 ∧ s.iss = none ∧ s.agenda = [] ∧ d.ctxs = [] ∧ d.blocks = [] ∧ d.sets = [] ∧ d.handlers = [] ∧ d.fills = [] ∧
  d.qfills = [] ∧ d.copies = [] ∧ d.monitors = [] ∧ d.prefetches = [] ∧ d.faults = [] ∧ d.saved = [] ∧ d.fab.remotes = [] ∧ d.fab.outbox = [] ∧
  (∀ die < 4, ∀ dom < 32, d.wayPart die dom = 0xFFFF) ∧ (∀ die, Fmap.get 24 d.swapth die = 24) ∧ d.ham.cap = 2800 ∧
  d.ham.clocks = [1800, 1800, 1800, 1800] ∧ d.ham.hotDram = [false, false, false, false] ∧ d.ham.fenced = [] ∧ d.ham.log = [] ∧
  d.ham.attached = [] ∧ d.ham.serving = [] ∧ d.cores.length = 128 ∧
  (∀ k ∈ d.cores, k.crest.length = 2 ∧ k.walker.length = 4 ∧ k.coreStop = false ∧ k.transfer = none ∧ (∀ w ∈ k.walker, w.holder = none) ∧
    ∀ c ∈ k.crest, c.mode = 0 ∧ c.k1 = 0 ∧ c.steps = 0 ∧ c.step = 0 ∧ c.vRows = 0xFFFF ∧ c.vCols = 0xFFFF ∧ c.bank = [] ∧ c.abandon = [] ∧
      c.lists = [] ∧ c.frozen = false ∧ c.ops = [] ∧ c.blk = none) ∧
  (∀ l, d.byteAt l = 0) ∧ d.memWf = true ∧ d.filesWf = true

/-- R52 to R74, R166, R185, R269 and the rules of the words named: words that the spec writes out are the instructions that it says they are,
field by field; the all-zero word is no instruction. -/
def Obligations.WordsWrittenOutDecodeToTheirInstructions : Prop :=
  let a := fun (d x y : RegNo) (t : BitVec 3) (ea : Bool) =>
    ({ c := false, d := d, a := x, b := y, t := t, ea := ea, eb := false, u := false, ext := none } : AWord)
  decode 0x01000000 none = .ok (.nop false) ∧ decode 0x81000000 none = .ok (.nop true) ∧
  decode 0x10138E44 none = .ok (.add (a 4 56 57 0 true)) ∧ decode 0x28101080 none = .ok (.fadd (a 4 1 2 0 false)) ∧
  decode 0x64102000 none = .ok (.hmix (a 4 2 0 0 false)) ∧ decode 0x380C1000 none = .ok (.frsq (a 3 1 0 0 false)) ∧
  decode 0x90101000 (some 0x03FFFFFD) = .ok (.add { a 4 1 0 0 false with ext := some 0xFFFFFD }) ∧
  (let w : MWord := { c := false, d := 5, base := 2, index := 0, func := 0, size := 2, scope := 0, order := 0, hint := 0, ea := false,
                      u := false, off := 16 }
   decode 0xC8142000 (some 0x03400010) = .ok (.ld w)) ∧
  (let w : MWord := { c := false, d := 26, base := 0, index := 9, func := 1, size := 0, scope := 2, order := 2, hint := 0, ea := false,
                      u := true, off := 0 }
   decode 0xDB680241 (some 0x030A1000) = .ok (.barArrive w)) ∧
  decode 0x0448_0009 none = .ok (.br { c := false, p := 2, neg := false, cond := true, off := 9 }) ∧
  decode 0x0478_0002 none = .ok (.br { c := false, p := 3, neg := true, cond := true, off := 2 }) ∧
  decode 0x0D000000 none = .ok (.region { c := false, p := 0, neg := false, cond := false, off := 0 }) ∧
  decode 0x82200000 none = .ok (.guard { p := 1, neg := false, count := 0 }) ∧
  decode 0xF827E100 (some 0x03010485) = .ok (.mma { c := false, n6 := 31, m2 := 2, fmt := 1, core := 0, ctx := false, low := 0, pay := 0x010485 }) ∧
  decode 0x7F500500 none = .ok (.launch { c := false, d := 0, a := 5, imm := 0 }) ∧
  decode 0x7F600004 none = .ok (.idle { c := false, d := 0, a := 0, imm := 4 }) ∧
  decode 0x7F300601 none = .ok (.tlbinv { c := false, d := 0, a := 6, imm := 1 }) ∧
  (∀ x, decode 0 x = .error .noRow)

/-- R52 to R54, R71 to R74 and every encoding of the opcode map: for every well-formed instruction that has words, at every operand, the
bytes of its words read back as the instruction, with nothing left. -/
def Obligations.DecodingUndoesEncoding : Prop :=
  ∀ i : Instr, i.WellFormed → encode i ≠ [] → decodeBytes ((encode i).flatMap bytesOfWord) = .ok (i, [])

/-- R52, R55, R56, R71, R74, R333 and R437: a step issues the packet at the gang's packet number. Its three words are the 12 bytes at the code
base; each is decoded, a word before an `ext` with its payload. A check that finds a cause traps at the word that decides; when none does and no
word waits, `exec` performs the words in order, each chain on the registers as they stood where it starts and a transfer last; a trap on the way
cancels the packet, also beside a word that waits, and else the gang goes on to the next packet unless a word moved it. An agenda's event is
performed by `exec` too; time goes on by one, and stores of the firmware that waited are performed. Nothing but power happens before boot. The
model's choices here: that an agenda orders the steps (assumption 1), that a packet is performed whole in one step (15), that a step takes a
cycle (5), what a packet leaves when a word waits only once it is tried (77), which gangs a slot's cycle takes (52), and the fault before boot (37). -/
def Obligations.StepRunsTheDecodedPacket : Prop :=
  (∀ (d : Device) (a : Agent) (slices : List Nat) (pc : Word) (ls : List Loc),
    d.reach a (d.view a).priv .fetch (d.codeBase a slices + zext pc * 12) 12 = .ok ls → ls.length = 12 →
    (∀ l ∈ ls, isRemote l = false ∧ d.lostByte l = false) →
    ∃ w0 w1 w2, d.fetchPacket a slices pc = .ok [w0, w1, w2] ∧
      (∀ k j w, [w0, w1, w2][k]? = some w → j < 4 → ∀ l, ls[4 * k + j]? = some l → w.extractLsb' (8 * j) 8 = d.byteAt l) ∧
      let items := readItems [w0, w1, w2]
      let named := fun (n : Nat) (i : Instr) => ∃ it, items[n]? = some it ∧ it.idx = n ∧ it.instr = some i
      (∀ i, extAfter w0 (some w1) = none → decode w0 (some w1) = .ok i → named 0 i) ∧
      (∀ i p, extAfter w0 (some w1) = some p → decode w0 (some w1) = .ok i → named 0 i ∧ named 1 (.ext p.2 p.1)) ∧
      (∀ i, extAfter w0 (some w1) = none → decode w1 (some w2) = .ok i → named 1 i) ∧
      (∀ i, extAfter w0 (some w1) ≠ none ∨ extAfter w1 (some w2) = none → decode w2 none = .ok i → named 2 i)) ∧
  (∀ (s t : State) (x : Issue) (y : Issue) (it : Item) (rd : Device) (i : Instr), s.iss = some y → it.instr = some i →
    let z := { x.at it rd with moved := y.moved }
    (y.status = .run → s.dev.orderWaits x.agent x.slices i = false ∨ (unguardable i = false ∧ z.act = []) →
      exec i { s with iss := some z } = .next t → s.perform x it rd = t) ∧
    (y.status = .run → s.dev.orderWaits x.agent x.slices i = true → unguardable i = true ∨ z.act ≠ [] → s.perform x it rd = s.waitNow z) ∧
    (y.status ≠ .run → s.perform x it rd = s)) ∧
  (∀ (s : State) (x : Issue) (p q r : Item), let s0 : State := { s with iss := some x }
    let isB := fun (it : Item) => ∃ i, it.instr = some i ∧ pipeOf i = .b
    let all := fun (s1 s2 s3 : State) => s1.status = .run → s2.status = .run → s3.status = .run →
      let out := s.performPacket x [] [p, q, r]
      out.state = s3 ∧ out.stop = none ∧ out.trap = none ∧ out.fault = none
    (¬ isB p → ¬ isB q →
      let s1 := s0.perform x p s.dev
      let rd1 := if q.chain = p.chain then s.dev else s1.dev
      let s2 := s1.perform x q rd1
      let rd2 := if r.chain = q.chain then rd1 else s2.dev
      all s1 s2 (s2.perform x r rd2)) ∧
    (¬ isB p → isB q → ¬ isB r →
      let s1 := s0.perform x p s.dev
      let rd1 := if q.chain = p.chain then s.dev else s1.dev
      let s2 := s1.perform x r (if r.chain = q.chain then rd1 else s1.dev)
      all s1 s2 (s2.perform x q rd1)) ∧
    (isB p → ¬ isB q → ¬ isB r →
      let s1 := s0.perform x q s.dev
      let s2 := s1.perform x r (if r.chain = q.chain then s.dev else s1.dev)
      all s1 s2 (s2.perform x p s.dev))) ∧
  (∀ (s : State) (x : Issue) (p q : Item) (i j : Instr), p.instr = some i → q.instr = some j → pipeOf i ≠ .b → pipeOf j ≠ .b →
    let s0 : State := { s with iss := some x }
    (s0.perform x p s.dev).status = .waits → (s0.perform x q s.dev).status = .trapped → (∀ k ∈ q.reads, k ∉ p.writes) →
    let out := s.performPacket x [] [p, q]
    out.stop = some (p.chain, none) ∧ out.trap = some (q.idx, s0.perform x q s.dev) ∧ out.fault = none) ∧
  (∀ (s : State) (a : Agent) (i : Nat) (t : Turn), s.turnOf a i = some t → t.agent = a ∧ ∀ b k, a = .group b k →
    let g := (s.dev.block b).group k
    g.pos ≠ none ∧ i ∈ g.gangOf t.slice ∧ s.ready a (g.gangOf t.slice) = true) ∧
  (∀ (s : State) (core n : Nat) (p q : Place), s.select core n = [p, q] → p.blk = q.blk → p.slot = q.slot → p.slice ≤ q.slice) ∧
  (∀ (s : State) (a : Agent) (n : Nat) (rest : List Act), s.dev.boot = .running → s.agenda = .issue a n :: rest →
    let s1 : State := { s with agenda := rest }
    let g := s.dev.view a
    (s1.turnOf a n = none → step s = .next (s1.tick 1)) ∧
    ∀ t0, s1.turnOf a n = some t0 → g.stepping = none →
      let slices := if a.isGroup then g.gangOf t0.slice else [0]
      let x := s.dev.issueOf a slices
      let done := fun (t : State) => step s = .next (({ t with dev := t0.note t.dev, iss := none, turn := s.turn + 1 } : State).tick 1)
      let cancelled := fun (t : State) => done { t with dev := t.dev.dropFetched (some a) slices }
      let traps := fun (c : Cause) (lane : Option Nat) (k : Nat) =>
        step s = .next (({ s1 with dev := t0.note ((s.dev.trapEntry a slices x.pc k c.code lane 0 false false).dropFetched (some a) slices),
                                   turn := s.turn + 1 } : State).tick 1)
      ∀ ws, s.dev.fetchPacket a slices x.pc = .ok ws →
        let placed := placeGuards none (readItems ws)
        let items := g.left slices (placed.map Prod.fst)
        (∀ c k, x.packetCause ws placed = some (c, k) → traps c none k) ∧
        (x.packetCause ws placed = none → let vs := s1.packetVerdict x items
          let stops := fun (v : Nat × Verdict) => match v.2 with | .trap _ _ => true | _ => false
          (∀ k c l, vs.find? stops = some (k, .trap c l) →
            (c ≠ .emptyRead ∨ s1.whenWaiting x items = none → traps c l k) ∧
            (∀ t, c = .emptyRead → s1.whenWaiting x items = some t → step s = .next (t.tick 1))) ∧
          (vs.find? stops = none → let r := s1.performPacket x ((vs.filter (fun v => v.2 == .wait)).map Prod.fst) items
            (r.stop = none → r.trap = none → r.fault = none →
              done { r.state with dev := r.state.dev.advance x ((r.state.iss.map Issue.moved).getD false) }) ∧
            (∀ k t, r.trap = some (k, t) → (r.stop = none → ∀ m u, r.fault = some (m, u) → k ≤ m) → cancelled t) ∧
            (∀ m u, r.stop = none → r.fault = some (m, u) → (∀ k t, r.trap = some (k, t) → m < k) → cancelled u) ∧
            (∀ ch asks, r.trap = none → r.stop = some (ch, asks) →
              let own := s1.ownWait x ((vs.filter (fun v => v.2 == .wait)).map Prod.fst) items ch
              (own = true → step s = .next ((s1.begin x items ch).tick 1)) ∧
              (∀ t, own = false → asks = some t → step s = .next (({ t with iss := none } : State).tick 1)) ∧
              (own = false → asks = none → step s = .next (((s1.whenWaiting x items).getD s1).tick 1)))))) ∧
  (∀ (s t : State) (i : Instr) (rest : List Act) (n : Nat), s.dev.boot = .running → let s1 : State := { s with agenda := rest }
    (s.agenda = .event i :: rest → exec i s1 = .next t → step s = .next (t.tick 1)) ∧
    (s.agenda = .pass n :: rest → step s = .next (s1.tick n)) ∧ (t.tick n).dev.now = t.dev.now + n ∧
    ((∀ l, t.dev.owned l = false) → t.dev.ham.testing = [] → (t.tick n).dev.ham.stores = [])) ∧
  (∀ (s : State) (a : Agent) (n : Nat) (rest : List Act), s.dev.boot ≠ .running → s.agenda = .issue a n :: rest → step s = .fault .notBooted)

/-- The model's own invariant (R218 and R222 give every byte of memory one value; assumption 4 says what an unlisted byte reads as): every
step keeps memory and scratchpad in their canonical form, and so does the packet in issue, from whatever state it starts. -/
def Obligations.EveryStepKeepsMemoryCanonical : Prop :=
  ∀ s t : State, s.dev.memWf = true → (∀ x, s.iss = some x → x.base.memWf = true) → step s = .next t →
    t.dev.memWf = true ∧ ∀ x, t.iss = some x → x.base.memWf = true

/-- The model's own invariant (R27 to R31 and R218 give every register and stash byte one value; assumption 9 says what they hold at first): every
step keeps the stash and the register files of every block, resident or saved, and of every cluster handler in their canonical form. -/
def Obligations.EveryStepKeepsStashesAndRegisterFilesCanonical : Prop :=
  ∀ s t : State, s.dev.filesWf = true → (∀ x, s.iss = some x → x.base.filesWf = true) → step s = .next t →
    t.dev.filesWf = true ∧ ∀ x, t.iss = some x → x.base.filesWf = true

end
end

