-- ==== Sys2Proof/Laws/Fmap.lean ====
section
/-! SUPPORT. Laws of sparse arrays and of the list operations: read after write, and the canonical form. -/

namespace Sys2Proof.Machine

variable {α : Type}

/-! Reading. -/

@[simp] theorem Fmap.get_nil (dflt : α) (i : Nat) : Fmap.get dflt ([] : Fmap α) i = dflt := rfl

theorem Fmap.get_cons (dflt : α) (k : Nat) (v : α) (m : Fmap α) (i : Nat) :
    Fmap.get dflt ((k, v) :: m) i = if i = k then v else if i < k then dflt else Fmap.get dflt m i := rfl

variable [DecidableEq α]

theorem Fmap.wfAbove_cons (dflt : α) (lo : Option Nat) (k : Nat) (v : α) (m : Fmap α) :
    Fmap.wfAbove dflt lo ((k, v) :: m) = true ↔
      (∀ l, lo = some l → l < k) ∧ v ≠ dflt ∧ Fmap.wfAbove dflt (some k) m = true := by
  cases lo <;> simp [Fmap.wfAbove, and_assoc]

/-- A lower bound may be lowered. -/
theorem Fmap.wfAbove_mono (dflt : α) {a b : Option Nat} (m : Fmap α) (h : ∀ x, a = some x → ∃ y, b = some y ∧ x ≤ y)
    (hb : Fmap.wfAbove dflt b m = true) : Fmap.wfAbove dflt a m = true := by
  cases m with
  | nil => rfl
  | cons p m =>
    obtain ⟨k, v⟩ := p
    rw [Fmap.wfAbove_cons] at hb ⊢
    refine ⟨fun l hl => ?_, hb.2.1, hb.2.2⟩
    obtain ⟨y, hy, hle⟩ := h l hl
    exact lt_of_le_of_lt hle (hb.1 y hy)

/-- Keys at or below the bound are not listed. -/
theorem Fmap.get_below (dflt : α) (m : Fmap α) (k i : Nat) (h : Fmap.wfAbove dflt (some k) m = true) (hi : i ≤ k) :
    Fmap.get dflt m i = dflt := by
  cases m with
  | nil => rfl
  | cons p m =>
    obtain ⟨k', v⟩ := p
    rw [Fmap.wfAbove_cons] at h
    have := h.1 k rfl
    simp [Fmap.get_cons, show i ≠ k' by omega, show i < k' by omega]

/-- Read after write to the same key. -/
theorem Fmap.get_set_same (dflt : α) (lo : Option Nat) (m : Fmap α) (i : Nat) (x : α)
    (h : Fmap.wfAbove dflt lo m = true) : Fmap.get dflt (Fmap.set dflt m i x) i = x := by
  induction m generalizing lo with
  | nil => unfold Fmap.set; split <;> simp_all [Fmap.get_cons]
  | cons p m ih =>
    obtain ⟨k, v⟩ := p
    rw [Fmap.wfAbove_cons] at h
    unfold Fmap.set
    split
    · next hik =>
      split
      · next hx => simp [Fmap.get_cons, hik, hx, show i ≠ k by omega]
      · simp [Fmap.get_cons]
    · split
      · next hik =>
        subst hik
        split
        · next hx => rw [hx]; exact Fmap.get_below dflt m i i h.2.2 le_rfl
        · simp [Fmap.get_cons]
      · simp [Fmap.get_cons, *, ih _ h.2.2]

/-- A write leaves every other key alone. -/
theorem Fmap.get_set_other (dflt : α) (lo : Option Nat) (m : Fmap α) (i j : Nat) (x : α)
    (h : Fmap.wfAbove dflt lo m = true) (hij : j ≠ i) : Fmap.get dflt (Fmap.set dflt m i x) j = Fmap.get dflt m j := by
  induction m generalizing lo with
  | nil => unfold Fmap.set; split <;> simp_all [Fmap.get_cons]
  | cons p m ih =>
    obtain ⟨k, v⟩ := p
    rw [Fmap.wfAbove_cons] at h
    unfold Fmap.set
    split
    · split
      · rfl
      · by_cases hj : j < i
        · simp [Fmap.get_cons, hij, hj, show j ≠ k by omega, show j < k by omega]
        · simp [Fmap.get_cons, hij, hj]
    · split
      · next hik =>
        subst hik
        split
        · by_cases hj : j < i
          · simp [Fmap.get_cons, hij, hj, Fmap.get_below dflt m i j h.2.2 (by omega)]
          · simp [Fmap.get_cons, hij, hj]
        · simp [Fmap.get_cons, hij]
      · simp only [Fmap.get_cons, ih _ h.2.2]

/-! The canonical form. -/

theorem Fmap.wfAbove_set (dflt : α) (lo : Option Nat) (m : Fmap α) (i : Nat) (x : α) (hlo : ∀ l, lo = some l → l < i)
    (h : Fmap.wfAbove dflt lo m = true) : Fmap.wfAbove dflt lo (Fmap.set dflt m i x) = true := by
  induction m generalizing lo with
  | nil =>
    unfold Fmap.set
    split
    · rfl
    · next hx => rw [Fmap.wfAbove_cons]; exact ⟨hlo, hx, rfl⟩
  | cons p m ih =>
    obtain ⟨k, v⟩ := p
    have h' := h
    rw [Fmap.wfAbove_cons] at h
    unfold Fmap.set
    split
    · next hik =>
      split
      · exact h'
      · next hx =>
        rw [Fmap.wfAbove_cons, Fmap.wfAbove_cons]
        refine ⟨hlo, hx, ?_, h.2.1, h.2.2⟩
        intro l hl; cases hl; exact hik
    · split
      · next hik =>
        subst hik
        split
        · refine Fmap.wfAbove_mono dflt m ?_ h.2.2
          intro y hy; exact ⟨i, rfl, le_of_lt (hlo y hy)⟩
        · next hx => rw [Fmap.wfAbove_cons]; exact ⟨hlo, hx, h.2.2⟩
      · rw [Fmap.wfAbove_cons]
        refine ⟨h.1, h.2.1, ih _ ?_ h.2.2⟩
        intro l hl; cases hl; omega

/-- A write keeps the canonical form. -/
theorem Fmap.wf_set (dflt : α) (m : Fmap α) (i : Nat) (x : α) (h : Fmap.wf dflt m = true) :
    Fmap.wf dflt (Fmap.set dflt m i x) = true :=
  Fmap.wfAbove_set dflt none m i x (by simp) h

/-- So do several writes. -/
theorem Fmap.wf_setAll (dflt : α) (ps : List (Nat × α)) (m : Fmap α) (h : Fmap.wf dflt m = true) :
    Fmap.wf dflt (Fmap.setAll dflt m ps) = true := by
  induction ps generalizing m with
  | nil => exact h
  | cons p ps ih => exact ih _ (Fmap.wf_set dflt m p.1 p.2 h)

theorem Fmap.wfAbove_filter (dflt : α) (q : Nat × α → Bool) (m : Fmap α) (lo : Option Nat)
    (h : Fmap.wfAbove dflt lo m = true) : Fmap.wfAbove dflt lo (m.filter q) = true := by
  induction m generalizing lo with
  | nil => rfl
  | cons p m ih =>
    obtain ⟨k, v⟩ := p
    rw [Fmap.wfAbove_cons] at h
    rw [List.filter_cons]
    split
    · rw [Fmap.wfAbove_cons]; exact ⟨h.1, h.2.1, ih _ h.2.2⟩
    · refine ih _ (Fmap.wfAbove_mono dflt m ?_ h.2.2)
      intro l hl; exact ⟨k, rfl, le_of_lt (h.1 l hl)⟩

/-- Leaving entries out keeps the canonical form. -/
theorem Fmap.wf_filter (dflt : α) (q : Nat × α → Bool) (m : Fmap α) (h : Fmap.wf dflt m = true) :
    Fmap.wf dflt (m.filter q) = true := Fmap.wfAbove_filter dflt q m none h

theorem Fmap.wf_clear (dflt : α) (m : Fmap α) (lo n : Nat) (h : Fmap.wf dflt m = true) :
    Fmap.wf dflt (Fmap.clear m lo n) = true := Fmap.wf_filter dflt _ m h

/-- Reads after several writes: the last write of a key stands, and the other keys read as before. -/
theorem Fmap.get_setAll_other (dflt : α) (ps : List (Nat × α)) (m : Fmap α) (j : Nat) (h : Fmap.wf dflt m = true)
    (hj : ∀ p ∈ ps, p.1 ≠ j) : Fmap.get dflt (Fmap.setAll dflt m ps) j = Fmap.get dflt m j := by
  induction ps generalizing m with
  | nil => rfl
  | cons p ps ih =>
    rw [Fmap.setAll, ih _ (Fmap.wf_set dflt m p.1 p.2 h) (fun q hq => hj q (List.mem_cons_of_mem _ hq))]
    exact Fmap.get_set_other dflt none m p.1 j p.2 h (Ne.symm (hj p List.mem_cons_self))

/-- A key that is written the same value however often reads as that value. -/
theorem Fmap.get_setAll_of (dflt : α) (ps : List (Nat × α)) (m : Fmap α) (j : Nat) (x : α) (h : Fmap.wf dflt m = true)
    (hx : ∀ p ∈ ps, p.1 = j → p.2 = x) (hj : (∃ p ∈ ps, p.1 = j) ∨ Fmap.get dflt m j = x) :
    Fmap.get dflt (Fmap.setAll dflt m ps) j = x := by
  induction ps generalizing m with
  | nil => simpa [Fmap.setAll] using hj
  | cons p ps ih =>
    rw [Fmap.setAll]
    refine ih _ (Fmap.wf_set dflt m p.1 p.2 h) (fun q hq => hx q (List.mem_cons_of_mem _ hq)) ?_
    by_cases hp : p.1 = j
    · right; rw [← hx p List.mem_cons_self hp, ← hp]; exact Fmap.get_set_same dflt none m p.1 p.2 h
    · rcases hj with ⟨q, hq, hqj⟩ | hj
      · rcases List.mem_cons.mp hq with rfl | hq
        · exact absurd hqj hp
        · exact .inl ⟨q, hq, hqj⟩
      · right; rw [Fmap.get_set_other dflt none m p.1 j p.2 h (Ne.symm hp)]; exact hj

omit [DecidableEq α]

/-! Lists. -/

@[simp] theorem listModify_length (f : α → α) (l : List α) (n : Nat) : (listModify f l n).length = l.length := by
  induction l generalizing n with
  | nil => rfl
  | cons x l ih => cases n <;> simp [listModify, ih]

/-- The element that is changed. -/
theorem listModify_get_same (f : α → α) (l : List α) (n : Nat) : (listModify f l n)[n]? = (l[n]?).map f := by
  induction l generalizing n with
  | nil => rfl
  | cons x l ih => cases n <;> simp [listModify, ih]

/-- The others stay. -/
theorem listModify_get_other (f : α → α) (l : List α) (n m : Nat) (h : m ≠ n) : (listModify f l n)[m]? = l[m]? := by
  induction l generalizing n m with
  | nil => rfl
  | cons x l ih =>
    cases n <;> cases m <;> simp [listModify]
    · exact absurd rfl h
    · exact ih _ _ (by omega)

theorem listModify_id (l : List α) (n : Nat) : listModify id l n = l := by
  induction l generalizing n with
  | nil => rfl
  | cons x l ih => cases n <;> simp [listModify, ih]

@[simp] theorem listSet_length (l : List α) (n : Nat) (x : α) : (listSet l n x).length = l.length := by
  induction l generalizing n with
  | nil => rfl
  | cons y l ih => cases n <;> simp [listSet, ih]

end Sys2Proof.Machine
end

