-- ==== Sys2Proof/Laws/State.lean ====
section
/-! SUPPORT. Fields after updates: one lemma for each field that an update leaves, and for what it changes. -/

namespace Sys2Proof.Machine

/-! A block -/

@[simp] theorem Device.modBlock_now (d : Device) (b : Nat) (f : Block → Block) : (d.modBlock b f).now = d.now := rfl
@[simp] theorem Device.modBlock_boot (d : Device) (b : Nat) (f : Block → Block) : (d.modBlock b f).boot = d.boot := rfl
@[simp] theorem Device.modBlock_mem (d : Device) (b : Nat) (f : Block → Block) : (d.modBlock b f).mem = d.mem := rfl
@[simp] theorem Device.modBlock_l2 (d : Device) (b : Nat) (f : Block → Block) : (d.modBlock b f).l2 = d.l2 := rfl
@[simp] theorem Device.modBlock_ulines (d : Device) (b : Nat) (f : Block → Block) : (d.modBlock b f).ulines = d.ulines := rfl
@[simp] theorem Device.modBlock_poison (d : Device) (b : Nat) (f : Block → Block) : (d.modBlock b f).poison = d.poison := rfl
@[simp] theorem Device.modBlock_ridgeLast (d : Device) (b : Nat) (f : Block → Block) : (d.modBlock b f).ridgeLast = d.ridgeLast := rfl
@[simp] theorem Device.modBlock_waypart (d : Device) (b : Nat) (f : Block → Block) : (d.modBlock b f).waypart = d.waypart := rfl
@[simp] theorem Device.modBlock_scratch (d : Device) (b : Nat) (f : Block → Block) : (d.modBlock b f).scratch = d.scratch := rfl
@[simp] theorem Device.modBlock_swapth (d : Device) (b : Nat) (f : Block → Block) : (d.modBlock b f).swapth = d.swapth := rfl
@[simp] theorem Device.modBlock_ctxs (d : Device) (b : Nat) (f : Block → Block) : (d.modBlock b f).ctxs = d.ctxs := rfl
@[simp] theorem Device.modBlock_sets (d : Device) (b : Nat) (f : Block → Block) : (d.modBlock b f).sets = d.sets := rfl
@[simp] theorem Device.modBlock_cores (d : Device) (b : Nat) (f : Block → Block) : (d.modBlock b f).cores = d.cores := rfl
@[simp] theorem Device.modBlock_handlers (d : Device) (b : Nat) (f : Block → Block) : (d.modBlock b f).handlers = d.handlers := rfl
@[simp] theorem Device.modBlock_fills (d : Device) (b : Nat) (f : Block → Block) : (d.modBlock b f).fills = d.fills := rfl
@[simp] theorem Device.modBlock_qfills (d : Device) (b : Nat) (f : Block → Block) : (d.modBlock b f).qfills = d.qfills := rfl
@[simp] theorem Device.modBlock_copies (d : Device) (b : Nat) (f : Block → Block) : (d.modBlock b f).copies = d.copies := rfl
@[simp] theorem Device.modBlock_copyId (d : Device) (b : Nat) (f : Block → Block) : (d.modBlock b f).copyId = d.copyId := rfl
@[simp] theorem Device.modBlock_monitors (d : Device) (b : Nat) (f : Block → Block) : (d.modBlock b f).monitors = d.monitors := rfl
@[simp] theorem Device.modBlock_prefetches (d : Device) (b : Nat) (f : Block → Block) : (d.modBlock b f).prefetches = d.prefetches := rfl
@[simp] theorem Device.modBlock_faults (d : Device) (b : Nat) (f : Block → Block) : (d.modBlock b f).faults = d.faults := rfl
@[simp] theorem Device.modBlock_saved (d : Device) (b : Nat) (f : Block → Block) : (d.modBlock b f).saved = d.saved := rfl
@[simp] theorem Device.modBlock_fab (d : Device) (b : Nat) (f : Block → Block) : (d.modBlock b f).fab = d.fab := rfl
@[simp] theorem Device.modBlock_ham (d : Device) (b : Nat) (f : Block → Block) : (d.modBlock b f).ham = d.ham := rfl
@[simp] theorem Device.modBlock_blocks (d : Device) (b : Nat) (f : Block → Block) : (d.modBlock b f).blocks = listModify f d.blocks b := rfl

/-! A context -/

@[simp] theorem Device.modCtx_now (d : Device) (c : Nat) (f : Ctx → Ctx) : (d.modCtx c f).now = d.now := rfl
@[simp] theorem Device.modCtx_boot (d : Device) (c : Nat) (f : Ctx → Ctx) : (d.modCtx c f).boot = d.boot := rfl
@[simp] theorem Device.modCtx_mem (d : Device) (c : Nat) (f : Ctx → Ctx) : (d.modCtx c f).mem = d.mem := rfl
@[simp] theorem Device.modCtx_l2 (d : Device) (c : Nat) (f : Ctx → Ctx) : (d.modCtx c f).l2 = d.l2 := rfl
@[simp] theorem Device.modCtx_ulines (d : Device) (c : Nat) (f : Ctx → Ctx) : (d.modCtx c f).ulines = d.ulines := rfl
@[simp] theorem Device.modCtx_poison (d : Device) (c : Nat) (f : Ctx → Ctx) : (d.modCtx c f).poison = d.poison := rfl
@[simp] theorem Device.modCtx_ridgeLast (d : Device) (c : Nat) (f : Ctx → Ctx) : (d.modCtx c f).ridgeLast = d.ridgeLast := rfl
@[simp] theorem Device.modCtx_waypart (d : Device) (c : Nat) (f : Ctx → Ctx) : (d.modCtx c f).waypart = d.waypart := rfl
@[simp] theorem Device.modCtx_scratch (d : Device) (c : Nat) (f : Ctx → Ctx) : (d.modCtx c f).scratch = d.scratch := rfl
@[simp] theorem Device.modCtx_swapth (d : Device) (c : Nat) (f : Ctx → Ctx) : (d.modCtx c f).swapth = d.swapth := rfl
@[simp] theorem Device.modCtx_blocks (d : Device) (c : Nat) (f : Ctx → Ctx) : (d.modCtx c f).blocks = d.blocks := rfl
@[simp] theorem Device.modCtx_sets (d : Device) (c : Nat) (f : Ctx → Ctx) : (d.modCtx c f).sets = d.sets := rfl
@[simp] theorem Device.modCtx_cores (d : Device) (c : Nat) (f : Ctx → Ctx) : (d.modCtx c f).cores = d.cores := rfl
@[simp] theorem Device.modCtx_handlers (d : Device) (c : Nat) (f : Ctx → Ctx) : (d.modCtx c f).handlers = d.handlers := rfl
@[simp] theorem Device.modCtx_fills (d : Device) (c : Nat) (f : Ctx → Ctx) : (d.modCtx c f).fills = d.fills := rfl
@[simp] theorem Device.modCtx_qfills (d : Device) (c : Nat) (f : Ctx → Ctx) : (d.modCtx c f).qfills = d.qfills := rfl
@[simp] theorem Device.modCtx_copies (d : Device) (c : Nat) (f : Ctx → Ctx) : (d.modCtx c f).copies = d.copies := rfl
@[simp] theorem Device.modCtx_copyId (d : Device) (c : Nat) (f : Ctx → Ctx) : (d.modCtx c f).copyId = d.copyId := rfl
@[simp] theorem Device.modCtx_monitors (d : Device) (c : Nat) (f : Ctx → Ctx) : (d.modCtx c f).monitors = d.monitors := rfl
@[simp] theorem Device.modCtx_prefetches (d : Device) (c : Nat) (f : Ctx → Ctx) : (d.modCtx c f).prefetches = d.prefetches := rfl
@[simp] theorem Device.modCtx_faults (d : Device) (c : Nat) (f : Ctx → Ctx) : (d.modCtx c f).faults = d.faults := rfl
@[simp] theorem Device.modCtx_saved (d : Device) (c : Nat) (f : Ctx → Ctx) : (d.modCtx c f).saved = d.saved := rfl
@[simp] theorem Device.modCtx_fab (d : Device) (c : Nat) (f : Ctx → Ctx) : (d.modCtx c f).fab = d.fab := rfl
@[simp] theorem Device.modCtx_ham (d : Device) (c : Nat) (f : Ctx → Ctx) : (d.modCtx c f).ham = d.ham := rfl
@[simp] theorem Device.modCtx_ctxs (d : Device) (c : Nat) (f : Ctx → Ctx) : (d.modCtx c f).ctxs = listModify f d.ctxs c := rfl

/-! A core -/

@[simp] theorem Device.modCore_now (d : Device) (k : Nat) (f : CoreState → CoreState) : (d.modCore k f).now = d.now := rfl
@[simp] theorem Device.modCore_boot (d : Device) (k : Nat) (f : CoreState → CoreState) : (d.modCore k f).boot = d.boot := rfl
@[simp] theorem Device.modCore_mem (d : Device) (k : Nat) (f : CoreState → CoreState) : (d.modCore k f).mem = d.mem := rfl
@[simp] theorem Device.modCore_l2 (d : Device) (k : Nat) (f : CoreState → CoreState) : (d.modCore k f).l2 = d.l2 := rfl
@[simp] theorem Device.modCore_ulines (d : Device) (k : Nat) (f : CoreState → CoreState) : (d.modCore k f).ulines = d.ulines := rfl
@[simp] theorem Device.modCore_poison (d : Device) (k : Nat) (f : CoreState → CoreState) : (d.modCore k f).poison = d.poison := rfl
@[simp] theorem Device.modCore_ridgeLast (d : Device) (k : Nat) (f : CoreState → CoreState) : (d.modCore k f).ridgeLast = d.ridgeLast := rfl
@[simp] theorem Device.modCore_waypart (d : Device) (k : Nat) (f : CoreState → CoreState) : (d.modCore k f).waypart = d.waypart := rfl
@[simp] theorem Device.modCore_scratch (d : Device) (k : Nat) (f : CoreState → CoreState) : (d.modCore k f).scratch = d.scratch := rfl
@[simp] theorem Device.modCore_swapth (d : Device) (k : Nat) (f : CoreState → CoreState) : (d.modCore k f).swapth = d.swapth := rfl
@[simp] theorem Device.modCore_ctxs (d : Device) (k : Nat) (f : CoreState → CoreState) : (d.modCore k f).ctxs = d.ctxs := rfl
@[simp] theorem Device.modCore_blocks (d : Device) (k : Nat) (f : CoreState → CoreState) : (d.modCore k f).blocks = d.blocks := rfl
@[simp] theorem Device.modCore_sets (d : Device) (k : Nat) (f : CoreState → CoreState) : (d.modCore k f).sets = d.sets := rfl
@[simp] theorem Device.modCore_handlers (d : Device) (k : Nat) (f : CoreState → CoreState) : (d.modCore k f).handlers = d.handlers := rfl
@[simp] theorem Device.modCore_fills (d : Device) (k : Nat) (f : CoreState → CoreState) : (d.modCore k f).fills = d.fills := rfl
@[simp] theorem Device.modCore_qfills (d : Device) (k : Nat) (f : CoreState → CoreState) : (d.modCore k f).qfills = d.qfills := rfl
@[simp] theorem Device.modCore_copies (d : Device) (k : Nat) (f : CoreState → CoreState) : (d.modCore k f).copies = d.copies := rfl
@[simp] theorem Device.modCore_copyId (d : Device) (k : Nat) (f : CoreState → CoreState) : (d.modCore k f).copyId = d.copyId := rfl
@[simp] theorem Device.modCore_monitors (d : Device) (k : Nat) (f : CoreState → CoreState) : (d.modCore k f).monitors = d.monitors := rfl
@[simp] theorem Device.modCore_prefetches (d : Device) (k : Nat) (f : CoreState → CoreState) : (d.modCore k f).prefetches = d.prefetches := rfl
@[simp] theorem Device.modCore_faults (d : Device) (k : Nat) (f : CoreState → CoreState) : (d.modCore k f).faults = d.faults := rfl
@[simp] theorem Device.modCore_saved (d : Device) (k : Nat) (f : CoreState → CoreState) : (d.modCore k f).saved = d.saved := rfl
@[simp] theorem Device.modCore_fab (d : Device) (k : Nat) (f : CoreState → CoreState) : (d.modCore k f).fab = d.fab := rfl
@[simp] theorem Device.modCore_ham (d : Device) (k : Nat) (f : CoreState → CoreState) : (d.modCore k f).ham = d.ham := rfl
@[simp] theorem Device.modCore_cores (d : Device) (k : Nat) (f : CoreState → CoreState) : (d.modCore k f).cores = listModify f d.cores k := rfl

/-! A group -/

@[simp] theorem Device.modGroup_now (d : Device) (b k : Nat) (f : Group → Group) : (d.modGroup b k f).now = d.now := rfl
@[simp] theorem Device.modGroup_boot (d : Device) (b k : Nat) (f : Group → Group) : (d.modGroup b k f).boot = d.boot := rfl
@[simp] theorem Device.modGroup_mem (d : Device) (b k : Nat) (f : Group → Group) : (d.modGroup b k f).mem = d.mem := rfl
@[simp] theorem Device.modGroup_l2 (d : Device) (b k : Nat) (f : Group → Group) : (d.modGroup b k f).l2 = d.l2 := rfl
@[simp] theorem Device.modGroup_ulines (d : Device) (b k : Nat) (f : Group → Group) : (d.modGroup b k f).ulines = d.ulines := rfl
@[simp] theorem Device.modGroup_poison (d : Device) (b k : Nat) (f : Group → Group) : (d.modGroup b k f).poison = d.poison := rfl
@[simp] theorem Device.modGroup_ridgeLast (d : Device) (b k : Nat) (f : Group → Group) : (d.modGroup b k f).ridgeLast = d.ridgeLast := rfl
@[simp] theorem Device.modGroup_waypart (d : Device) (b k : Nat) (f : Group → Group) : (d.modGroup b k f).waypart = d.waypart := rfl
@[simp] theorem Device.modGroup_scratch (d : Device) (b k : Nat) (f : Group → Group) : (d.modGroup b k f).scratch = d.scratch := rfl
@[simp] theorem Device.modGroup_swapth (d : Device) (b k : Nat) (f : Group → Group) : (d.modGroup b k f).swapth = d.swapth := rfl
@[simp] theorem Device.modGroup_ctxs (d : Device) (b k : Nat) (f : Group → Group) : (d.modGroup b k f).ctxs = d.ctxs := rfl
@[simp] theorem Device.modGroup_sets (d : Device) (b k : Nat) (f : Group → Group) : (d.modGroup b k f).sets = d.sets := rfl
@[simp] theorem Device.modGroup_cores (d : Device) (b k : Nat) (f : Group → Group) : (d.modGroup b k f).cores = d.cores := rfl
@[simp] theorem Device.modGroup_handlers (d : Device) (b k : Nat) (f : Group → Group) : (d.modGroup b k f).handlers = d.handlers := rfl
@[simp] theorem Device.modGroup_fills (d : Device) (b k : Nat) (f : Group → Group) : (d.modGroup b k f).fills = d.fills := rfl
@[simp] theorem Device.modGroup_qfills (d : Device) (b k : Nat) (f : Group → Group) : (d.modGroup b k f).qfills = d.qfills := rfl
@[simp] theorem Device.modGroup_copies (d : Device) (b k : Nat) (f : Group → Group) : (d.modGroup b k f).copies = d.copies := rfl
@[simp] theorem Device.modGroup_copyId (d : Device) (b k : Nat) (f : Group → Group) : (d.modGroup b k f).copyId = d.copyId := rfl
@[simp] theorem Device.modGroup_monitors (d : Device) (b k : Nat) (f : Group → Group) : (d.modGroup b k f).monitors = d.monitors := rfl
@[simp] theorem Device.modGroup_prefetches (d : Device) (b k : Nat) (f : Group → Group) : (d.modGroup b k f).prefetches = d.prefetches := rfl
@[simp] theorem Device.modGroup_faults (d : Device) (b k : Nat) (f : Group → Group) : (d.modGroup b k f).faults = d.faults := rfl
@[simp] theorem Device.modGroup_saved (d : Device) (b k : Nat) (f : Group → Group) : (d.modGroup b k f).saved = d.saved := rfl
@[simp] theorem Device.modGroup_fab (d : Device) (b k : Nat) (f : Group → Group) : (d.modGroup b k f).fab = d.fab := rfl
@[simp] theorem Device.modGroup_ham (d : Device) (b k : Nat) (f : Group → Group) : (d.modGroup b k f).ham = d.ham := rfl

/-! The registers of an agent -/

@[simp] theorem Device.putView_now (d : Device) (a : Agent) (g : Group) : (d.putView a g).now = d.now := by cases a <;> rfl
@[simp] theorem Device.putView_boot (d : Device) (a : Agent) (g : Group) : (d.putView a g).boot = d.boot := by cases a <;> rfl
@[simp] theorem Device.putView_mem (d : Device) (a : Agent) (g : Group) : (d.putView a g).mem = d.mem := by cases a <;> rfl
@[simp] theorem Device.putView_l2 (d : Device) (a : Agent) (g : Group) : (d.putView a g).l2 = d.l2 := by cases a <;> rfl
@[simp] theorem Device.putView_ulines (d : Device) (a : Agent) (g : Group) : (d.putView a g).ulines = d.ulines := by cases a <;> rfl
@[simp] theorem Device.putView_poison (d : Device) (a : Agent) (g : Group) : (d.putView a g).poison = d.poison := by cases a <;> rfl
@[simp] theorem Device.putView_ridgeLast (d : Device) (a : Agent) (g : Group) : (d.putView a g).ridgeLast = d.ridgeLast := by cases a <;> rfl
@[simp] theorem Device.putView_waypart (d : Device) (a : Agent) (g : Group) : (d.putView a g).waypart = d.waypart := by cases a <;> rfl
@[simp] theorem Device.putView_scratch (d : Device) (a : Agent) (g : Group) : (d.putView a g).scratch = d.scratch := by cases a <;> rfl
@[simp] theorem Device.putView_swapth (d : Device) (a : Agent) (g : Group) : (d.putView a g).swapth = d.swapth := by cases a <;> rfl
@[simp] theorem Device.putView_ctxs (d : Device) (a : Agent) (g : Group) : (d.putView a g).ctxs = d.ctxs := by cases a <;> rfl
@[simp] theorem Device.putView_sets (d : Device) (a : Agent) (g : Group) : (d.putView a g).sets = d.sets := by cases a <;> rfl
@[simp] theorem Device.putView_cores (d : Device) (a : Agent) (g : Group) : (d.putView a g).cores = d.cores := by cases a <;> rfl
@[simp] theorem Device.putView_fills (d : Device) (a : Agent) (g : Group) : (d.putView a g).fills = d.fills := by cases a <;> rfl
@[simp] theorem Device.putView_qfills (d : Device) (a : Agent) (g : Group) : (d.putView a g).qfills = d.qfills := by cases a <;> rfl
@[simp] theorem Device.putView_copies (d : Device) (a : Agent) (g : Group) : (d.putView a g).copies = d.copies := by cases a <;> rfl
@[simp] theorem Device.putView_copyId (d : Device) (a : Agent) (g : Group) : (d.putView a g).copyId = d.copyId := by cases a <;> rfl
@[simp] theorem Device.putView_monitors (d : Device) (a : Agent) (g : Group) : (d.putView a g).monitors = d.monitors := by cases a <;> rfl
@[simp] theorem Device.putView_prefetches (d : Device) (a : Agent) (g : Group) : (d.putView a g).prefetches = d.prefetches := by cases a <;> rfl
@[simp] theorem Device.putView_faults (d : Device) (a : Agent) (g : Group) : (d.putView a g).faults = d.faults := by cases a <;> rfl
@[simp] theorem Device.putView_saved (d : Device) (a : Agent) (g : Group) : (d.putView a g).saved = d.saved := by cases a <;> rfl
@[simp] theorem Device.putView_fab (d : Device) (a : Agent) (g : Group) : (d.putView a g).fab = d.fab := by cases a <;> rfl
@[simp] theorem Device.putView_ham (d : Device) (a : Agent) (g : Group) : (d.putView a g).ham = d.ham := by cases a <;> rfl

/-! The same, by a function -/

@[simp] theorem Device.modView_now (d : Device) (a : Agent) (f : Group → Group) : (d.modView a f).now = d.now := by simp [Device.modView]
@[simp] theorem Device.modView_boot (d : Device) (a : Agent) (f : Group → Group) : (d.modView a f).boot = d.boot := by simp [Device.modView]
@[simp] theorem Device.modView_mem (d : Device) (a : Agent) (f : Group → Group) : (d.modView a f).mem = d.mem := by simp [Device.modView]
@[simp] theorem Device.modView_l2 (d : Device) (a : Agent) (f : Group → Group) : (d.modView a f).l2 = d.l2 := by simp [Device.modView]
@[simp] theorem Device.modView_ulines (d : Device) (a : Agent) (f : Group → Group) : (d.modView a f).ulines = d.ulines := by simp [Device.modView]
@[simp] theorem Device.modView_poison (d : Device) (a : Agent) (f : Group → Group) : (d.modView a f).poison = d.poison := by simp [Device.modView]
@[simp] theorem Device.modView_ridgeLast (d : Device) (a : Agent) (f : Group → Group) : (d.modView a f).ridgeLast = d.ridgeLast := by simp [Device.modView]
@[simp] theorem Device.modView_waypart (d : Device) (a : Agent) (f : Group → Group) : (d.modView a f).waypart = d.waypart := by simp [Device.modView]
@[simp] theorem Device.modView_scratch (d : Device) (a : Agent) (f : Group → Group) : (d.modView a f).scratch = d.scratch := by simp [Device.modView]
@[simp] theorem Device.modView_swapth (d : Device) (a : Agent) (f : Group → Group) : (d.modView a f).swapth = d.swapth := by simp [Device.modView]
@[simp] theorem Device.modView_ctxs (d : Device) (a : Agent) (f : Group → Group) : (d.modView a f).ctxs = d.ctxs := by simp [Device.modView]
@[simp] theorem Device.modView_sets (d : Device) (a : Agent) (f : Group → Group) : (d.modView a f).sets = d.sets := by simp [Device.modView]
@[simp] theorem Device.modView_cores (d : Device) (a : Agent) (f : Group → Group) : (d.modView a f).cores = d.cores := by simp [Device.modView]
@[simp] theorem Device.modView_fills (d : Device) (a : Agent) (f : Group → Group) : (d.modView a f).fills = d.fills := by simp [Device.modView]
@[simp] theorem Device.modView_qfills (d : Device) (a : Agent) (f : Group → Group) : (d.modView a f).qfills = d.qfills := by simp [Device.modView]
@[simp] theorem Device.modView_copies (d : Device) (a : Agent) (f : Group → Group) : (d.modView a f).copies = d.copies := by simp [Device.modView]
@[simp] theorem Device.modView_copyId (d : Device) (a : Agent) (f : Group → Group) : (d.modView a f).copyId = d.copyId := by simp [Device.modView]
@[simp] theorem Device.modView_monitors (d : Device) (a : Agent) (f : Group → Group) : (d.modView a f).monitors = d.monitors := by simp [Device.modView]
@[simp] theorem Device.modView_prefetches (d : Device) (a : Agent) (f : Group → Group) : (d.modView a f).prefetches = d.prefetches := by simp [Device.modView]
@[simp] theorem Device.modView_faults (d : Device) (a : Agent) (f : Group → Group) : (d.modView a f).faults = d.faults := by simp [Device.modView]
@[simp] theorem Device.modView_saved (d : Device) (a : Agent) (f : Group → Group) : (d.modView a f).saved = d.saved := by simp [Device.modView]
@[simp] theorem Device.modView_fab (d : Device) (a : Agent) (f : Group → Group) : (d.modView a f).fab = d.fab := by simp [Device.modView]
@[simp] theorem Device.modView_ham (d : Device) (a : Agent) (f : Group → Group) : (d.modView a f).ham = d.ham := by simp [Device.modView]

/-! Queue pops of a word -/

@[simp] theorem Device.popWord_now (d : Device) (x : Issue) (i : Instr) : (d.popWord x i).now = d.now := by unfold Device.popWord; split <;> simp
@[simp] theorem Device.popWord_boot (d : Device) (x : Issue) (i : Instr) : (d.popWord x i).boot = d.boot := by unfold Device.popWord; split <;> simp
@[simp] theorem Device.popWord_mem (d : Device) (x : Issue) (i : Instr) : (d.popWord x i).mem = d.mem := by unfold Device.popWord; split <;> simp
@[simp] theorem Device.popWord_l2 (d : Device) (x : Issue) (i : Instr) : (d.popWord x i).l2 = d.l2 := by unfold Device.popWord; split <;> simp
@[simp] theorem Device.popWord_ulines (d : Device) (x : Issue) (i : Instr) : (d.popWord x i).ulines = d.ulines := by unfold Device.popWord; split <;> simp
@[simp] theorem Device.popWord_poison (d : Device) (x : Issue) (i : Instr) : (d.popWord x i).poison = d.poison := by unfold Device.popWord; split <;> simp
@[simp] theorem Device.popWord_ridgeLast (d : Device) (x : Issue) (i : Instr) : (d.popWord x i).ridgeLast = d.ridgeLast := by unfold Device.popWord; split <;> simp
@[simp] theorem Device.popWord_waypart (d : Device) (x : Issue) (i : Instr) : (d.popWord x i).waypart = d.waypart := by unfold Device.popWord; split <;> simp
@[simp] theorem Device.popWord_scratch (d : Device) (x : Issue) (i : Instr) : (d.popWord x i).scratch = d.scratch := by unfold Device.popWord; split <;> simp
@[simp] theorem Device.popWord_swapth (d : Device) (x : Issue) (i : Instr) : (d.popWord x i).swapth = d.swapth := by unfold Device.popWord; split <;> simp
@[simp] theorem Device.popWord_ctxs (d : Device) (x : Issue) (i : Instr) : (d.popWord x i).ctxs = d.ctxs := by unfold Device.popWord; split <;> simp
@[simp] theorem Device.popWord_sets (d : Device) (x : Issue) (i : Instr) : (d.popWord x i).sets = d.sets := by unfold Device.popWord; split <;> simp
@[simp] theorem Device.popWord_cores (d : Device) (x : Issue) (i : Instr) : (d.popWord x i).cores = d.cores := by unfold Device.popWord; split <;> simp
@[simp] theorem Device.popWord_fills (d : Device) (x : Issue) (i : Instr) : (d.popWord x i).fills = d.fills := by unfold Device.popWord; split <;> simp
@[simp] theorem Device.popWord_qfills (d : Device) (x : Issue) (i : Instr) : (d.popWord x i).qfills = d.qfills := by unfold Device.popWord; split <;> simp
@[simp] theorem Device.popWord_copies (d : Device) (x : Issue) (i : Instr) : (d.popWord x i).copies = d.copies := by unfold Device.popWord; split <;> simp
@[simp] theorem Device.popWord_copyId (d : Device) (x : Issue) (i : Instr) : (d.popWord x i).copyId = d.copyId := by unfold Device.popWord; split <;> simp
@[simp] theorem Device.popWord_monitors (d : Device) (x : Issue) (i : Instr) : (d.popWord x i).monitors = d.monitors := by unfold Device.popWord; split <;> simp
@[simp] theorem Device.popWord_prefetches (d : Device) (x : Issue) (i : Instr) : (d.popWord x i).prefetches = d.prefetches := by unfold Device.popWord; split <;> simp
@[simp] theorem Device.popWord_faults (d : Device) (x : Issue) (i : Instr) : (d.popWord x i).faults = d.faults := by unfold Device.popWord; split <;> simp
@[simp] theorem Device.popWord_saved (d : Device) (x : Issue) (i : Instr) : (d.popWord x i).saved = d.saved := by unfold Device.popWord; split <;> simp
@[simp] theorem Device.popWord_fab (d : Device) (x : Issue) (i : Instr) : (d.popWord x i).fab = d.fab := by unfold Device.popWord; split <;> simp
@[simp] theorem Device.popWord_ham (d : Device) (x : Issue) (i : Instr) : (d.popWord x i).ham = d.ham := by unfold Device.popWord; split <;> simp

/-! The state. -/

@[simp] theorem State.event_eq (s : State) (f : Device → Device) : s.event f = .next { s with dev := f s.dev } := rfl
@[simp] theorem State.trapNow_turn (s : State) (x : Issue) (fix : Device → Device) (c : Cause) (l : Option Nat) (k : BitVec 16) :
    (s.trapNow x fix c l k).turn = s.turn := rfl
@[simp] theorem State.trapNow_agenda (s : State) (x : Issue) (fix : Device → Device) (c : Cause) (l : Option Nat) (k : BitVec 16) :
    (s.trapNow x fix c l k).agenda = s.agenda := rfl
@[simp] theorem State.waitNow_dev (s : State) (x : Issue) : (s.waitNow x).dev = x.base := rfl
@[simp] theorem State.waitNow_turn (s : State) (x : Issue) : (s.waitNow x).turn = s.turn := rfl
@[simp] theorem State.waitNow_agenda (s : State) (x : Issue) : (s.waitNow x).agenda = s.agenda := rfl
@[simp] theorem State.faultNow_turn (s : State) (x : Issue) (c : Cause) (l : Option Nat) (a : DWord) :
    (s.faultNow x c l a).turn = s.turn := rfl
@[simp] theorem State.faultNow_agenda (s : State) (x : Issue) (c : Cause) (l : Option Nat) (a : DWord) :
    (s.faultNow x c l a).agenda = s.agenda := rfl

/-! Registers of a group. -/

@[simp] theorem Group.setV_s (g : Group) (ws : List (Nat × Word)) : (g.setV ws).s = g.s := rfl
@[simp] theorem Group.setV_v (g : Group) (ws : List (Nat × Word)) : (g.setV ws).v = Fmap.setAll 0 g.v ws := rfl
@[simp] theorem Group.setV_p (g : Group) (ws : List (Nat × Word)) : (g.setV ws).p = g.p := rfl
@[simp] theorem Group.setV_flags (g : Group) (ws : List (Nat × Word)) : (g.setV ws).flags = g.flags := rfl
@[simp] theorem Group.setV_slices (g : Group) (ws : List (Nat × Word)) : (g.setV ws).slices = g.slices := rfl
@[simp] theorem Group.setS_s (g : Group) (r : Nat) (x : DWord) : (g.setS r x).s = Fmap.set 0 g.s r x := rfl
@[simp] theorem Group.setS_v (g : Group) (r : Nat) (x : DWord) : (g.setS r x).v = g.v := rfl
@[simp] theorem Group.setS_p (g : Group) (r : Nat) (x : DWord) : (g.setS r x).p = g.p := rfl
@[simp] theorem Group.setS_slices (g : Group) (r : Nat) (x : DWord) : (g.setS r x).slices = g.slices := rfl
@[simp] theorem Group.setP_v (g : Group) (ws : List (Nat × Bool)) : (g.setP ws).v = g.v := rfl
@[simp] theorem Group.setP_s (g : Group) (ws : List (Nat × Bool)) : (g.setP ws).s = g.s := rfl
@[simp] theorem Group.setP_slices (g : Group) (ws : List (Nat × Bool)) : (g.setP ws).slices = g.slices := rfl
@[simp] theorem Group.markV_v (g : Group) (e : Bool) (rs sl : List Nat) : (g.markV e rs sl).v = g.v := rfl
@[simp] theorem Group.markV_s (g : Group) (e : Bool) (rs sl : List Nat) : (g.markV e rs sl).s = g.s := rfl
@[simp] theorem Group.markV_p (g : Group) (e : Bool) (rs sl : List Nat) : (g.markV e rs sl).p = g.p := rfl
@[simp] theorem Group.markV_slices (g : Group) (e : Bool) (rs sl : List Nat) : (g.markV e rs sl).slices = g.slices := rfl
@[simp] theorem Group.markS_v (g : Group) (e : Bool) (rs : List Nat) : (g.markS e rs).v = g.v := rfl
@[simp] theorem Group.markS_s (g : Group) (e : Bool) (rs : List Nat) : (g.markS e rs).s = g.s := rfl
@[simp] theorem Group.markS_slices (g : Group) (e : Bool) (rs : List Nat) : (g.markS e rs).slices = g.slices := rfl
@[simp] theorem Group.modSlices_v (g : Group) (is : List Nat) (f : Slice → Slice) : (g.modSlices is f).v = g.v := rfl
@[simp] theorem Group.modSlices_s (g : Group) (is : List Nat) (f : Slice → Slice) : (g.modSlices is f).s = g.s := rfl
@[simp] theorem Group.modSlices_p (g : Group) (is : List Nat) (f : Slice → Slice) : (g.modSlices is f).p = g.p := rfl

end Sys2Proof.Machine
end

