-- ==== Sys2Proof/Laws/View.lean ====
section
/-! SUPPORT. Reading an agent's registers after they are put back, and other agents' meanwhile. -/

namespace Sys2Proof.Machine

theorem Device.block_modBlock_same (d : Device) (b : Nat) (f : Block → Block) (h : b < d.blocks.length) :
    (d.modBlock b f).block b = f (d.block b) := by
  simp [Device.block, listModify_get_same, List.getElem?_eq_getElem h]

theorem Device.block_modBlock_other (d : Device) (b c : Nat) (f : Block → Block) (h : c ≠ b) :
    (d.modBlock b f).block c = d.block c := by
  simp [Device.block, listModify_get_other _ _ _ _ h]

theorem Device.ctx_modCtx_same (d : Device) (c : Nat) (f : Ctx → Ctx) (h : c < d.ctxs.length) :
    (d.modCtx c f).ctx c = f (d.ctx c) := by
  simp [Device.ctx, listModify_get_same, List.getElem?_eq_getElem h]

theorem Device.ctx_modCtx_other (d : Device) (c e : Nat) (f : Ctx → Ctx) (h : e ≠ c) :
    (d.modCtx c f).ctx e = d.ctx e := by
  simp [Device.ctx, listModify_get_other _ _ _ _ h]

theorem Block.group_listModify_same (b : Block) (k : Nat) (f : Group → Group) (h : k < b.groups.length) :
    ({ b with groups := listModify f b.groups k } : Block).group k = f (b.group k) := by
  simp [Block.group, listModify_get_same, List.getElem?_eq_getElem h]

theorem Block.group_listModify_other (b : Block) (k n : Nat) (f : Group → Group) (h : n ≠ k) :
    ({ b with groups := listModify f b.groups k } : Block).group n = b.group n := by
  simp [Block.group, listModify_get_other _ _ _ _ h]

/-- An agent of lanes reads what was put back. -/
theorem Device.view_putView_group (d : Device) (b k : Nat) (g : Group) (h : d.has (.group b k) = true) :
    (d.putView (.group b k) g).view (.group b k) = g := by
  simp only [Device.has, Bool.and_eq_true, decide_eq_true_eq] at h
  simp only [Device.putView, Device.view, Device.modGroup]
  rw [Device.block_modBlock_same _ _ _ h.1, Block.group_listModify_same _ _ _ h.2]

theorem Device.view_modView_group (d : Device) (b k : Nat) (f : Group → Group) (h : d.has (.group b k) = true) :
    (d.modView (.group b k) f).view (.group b k) = f (d.view (.group b k)) :=
  Device.view_putView_group d b k _ h

/-- Another group of lanes reads as before. -/
theorem Device.view_putView_group_other (d : Device) (a : Agent) (b k : Nat) (g : Group) (h : a ≠ .group b k) :
    (d.putView a g).view (.group b k) = d.view (.group b k) := by
  cases a with
  | group c n =>
    simp only [Device.putView, Device.view, Device.modGroup]
    by_cases hc : b = c
    · subst hc
      have hn : k ≠ n := fun e => h (by rw [e])
      by_cases hb : b < d.blocks.length
      · rw [Device.block_modBlock_same _ _ _ hb, Block.group_listModify_other _ _ _ _ hn]
      · simp [Device.block, hb]
    · rw [Device.block_modBlock_other _ _ _ _ hc]
  | access c =>
    simp only [Device.putView, Device.view]
    by_cases hc : b = c
    · subst hc
      by_cases hb : b < d.blocks.length
      · rw [Device.block_modBlock_same _ _ _ hb]; rfl
      · simp [Device.block, hb]
    · rw [Device.block_modBlock_other _ _ _ _ hc]
  | ridge c =>
    simp only [Device.putView, Device.view]
    by_cases hc : b = c
    · subst hc
      by_cases hb : b < d.blocks.length
      · rw [Device.block_modBlock_same _ _ _ hb]; rfl
      · simp [Device.block, hb]
    · rw [Device.block_modBlock_other _ _ _ _ hc]
  | handler c => rfl

end Sys2Proof.Machine
end

