-- ==== Sys2Proof/Laws/Words.lean ====
section
/-! SUPPORT. What performing a word can come to: the shared operations behind every instruction with an encoding. -/

namespace Sys2Proof.Machine

/-- A word that passes its checks and has an effect leaves that effect. -/
theorem State.runWord_ok (s : State) (x : Issue) (i : Instr) (always moved : Bool) (eff : Issue → Device → Eff) (d : Device)
    (h : Cleared s x i) (ha : always = true ∨ x.act ≠ []) (he : eff x s.dev = .ok d) :
    s.runWord i always moved eff = .next (s.after x i moved d) := by
  have hb : (always || !x.act.isEmpty) = true := by
    rcases ha with h | h
    · simp [h]
    · simp [h]
  simp only [State.runWord, h.1, h.2, hb, he, State.settle, State.after, if_true]

theorem State.runLanes_ok (s : State) (x : Issue) (i : Instr) (eff : Issue → Device → Eff) (d : Device) (h : Ready s x i)
    (he : eff x s.dev = .ok d) : s.runLanes i eff = .next (s.after x i false d) :=
  s.runWord_ok x i false false eff d h.1 (.inr h.2) he

theorem State.runGang_ok (s : State) (x : Issue) (i : Instr) (eff : Issue → Device → Eff) (d : Device) (h : Cleared s x i)
    (he : eff x s.dev = .ok d) : s.runGang i eff = .next (s.after x i false d) :=
  s.runWord_ok x i true false eff d h (.inl rfl) he

theorem State.runMove_ok (s : State) (x : Issue) (i : Instr) (eff : Issue → Device → Eff) (d : Device) (h : Cleared s x i)
    (he : eff x s.dev = .ok d) : s.runMove i eff = .next (s.after x i true d) :=
  s.runWord_ok x i true true eff d h (.inl rfl) he

/-- A word whose checks find a trap takes it. -/
theorem State.runWord_trap (s : State) (x : Issue) (i : Instr) (always moved : Bool) (eff : Issue → Device → Eff) (c : Cause)
    (l : Option Nat) (h : s.iss = some x) (hv : x.verdict s.dev i = .trap c l) :
    s.runWord i always moved eff = .next (s.trapped x c l 0) := by
  simp only [State.runWord, h, hv]; rfl

/-- A word whose checks make it wait leaves the device as the packet found it. -/
theorem State.runWord_wait (s : State) (x : Issue) (i : Instr) (always moved : Bool) (eff : Issue → Device → Eff)
    (h : s.iss = some x) (hv : x.verdict s.dev i = .wait) :
    s.runWord i always moved eff = .next (s.waitNow x) := by
  simp only [State.runWord, h, hv]

/-- A word whose effect is a trap takes it. -/
theorem State.runWord_effTrap (s : State) (x : Issue) (i : Instr) (always moved : Bool) (eff : Issue → Device → Eff)
    (c : Cause) (l : Option Nat) (code : BitVec 16) (h : Cleared s x i) (ha : always = true ∨ x.act ≠ [])
    (he : eff x s.dev = .trap c l code) : s.runWord i always moved eff = .next (s.trapped x c l code) := by
  have hb : (always || !x.act.isEmpty) = true := by
    rcases ha with h | h
    · simp [h]
    · simp [h]
  simp only [State.runWord, h.1, h.2, hb, he, State.settle, if_true]; rfl

/-- A word that no lane performs has no effect but its queue pops (R73). -/
theorem State.runLanes_idle (s : State) (x : Issue) (i : Instr) (eff : Issue → Device → Eff) (h : Cleared s x i)
    (ha : x.act = []) : s.runLanes i eff = .next (s.after x i false s.dev) := by
  simp [State.runLanes, State.runWord, h.1, h.2, ha, State.settle, State.after]

/-- Everything that performing a word can come to. -/
theorem State.runWord_cases (s t : State) (i : Instr) (always moved : Bool) (eff : Issue → Device → Eff)
    (h : s.runWord i always moved eff = .next t) :
    ∃ x, s.iss = some x ∧
      ((∃ c l, x.verdict s.dev i = .trap c l ∧ t = s.trapped x c l 0) ∨
       (x.verdict s.dev i = .wait ∧ t = s.waitNow x) ∨
       (x.verdict s.dev i = .go ∧ always = false ∧ x.act = [] ∧ t = s.after x i false s.dev) ∨
       (x.verdict s.dev i = .go ∧ t = s.settle x i moved (eff x s.dev))) := by
  unfold State.runWord at h
  cases hx : s.iss with
  | none => simp [hx] at h
  | some x =>
    rw [hx] at h
    refine ⟨x, rfl, ?_⟩
    cases hv : x.verdict s.dev i with
    | trap c l => simp only [hv] at h; cases h; exact .inl ⟨c, l, rfl, rfl⟩
    | wait => simp only [hv] at h; cases h; exact .inr (.inl ⟨rfl, rfl⟩)
    | go =>
      simp only [hv] at h
      split at h
      · cases h; exact .inr (.inr (.inr ⟨rfl, rfl⟩))
      · next hn =>
        cases h
        simp only [Bool.or_eq_true, Bool.not_eq_true', not_or, Bool.not_eq_true, Bool.not_eq_false] at hn
        refine .inr (.inr (.inl ⟨rfl, by simpa using hn.1, by simpa using hn.2, rfl⟩))

end Sys2Proof.Machine
end

