-- ==== Sys2Proof/Laws/Effects.lean ====
section
/-! SUPPORT. What the operations that write results leave in registers: the effects of `Sys2Proof.Claims`, from the shared
operations behind the words. -/

namespace Sys2Proof.Machine

/-! Registers put back. -/

theorem listModify_listModify {α : Type} (f g : α → α) (l : List α) (n : Nat) :
    listModify f (listModify g l n) n = listModify (fun x => f (g x)) l n := by
  induction l generalizing n with
  | nil => rfl
  | cons x l ih => cases n <;> simp [listModify, ih]

/-- A scalar thread's registers, seen as a group, are themselves when put back. -/
def Group.threadlike (g : Group) : Prop := g.toThread.toGroup = g

/-- The predicates of a thread, as a group holds them. -/
def predList (p : BitVec 8) : Fmap Bool := (List.range 7).filterMap (fun i => if bitOf p i then some (i * 256, true) else none)
/-- And back. -/
def predBits (m : Fmap Bool) : BitVec 8 :=
  (List.range 7).foldl (fun acc i => if Fmap.get false m (i * 256) then acc ||| BitVec.ofNat 8 (2 ^ i) else acc) 0

theorem predList_predBits : ∀ p : BitVec 8, predList (predBits (predList p)) = predList p := by decide +kernel

theorem toGroup_p (t : Thread) : t.toGroup.p = predList t.p := rfl
theorem toThread_p (g : Group) : g.toThread.p = predBits g.p := rfl

/-- What the group of a thread holds, predicates and registers apart. -/
theorem Thread.toThread_with (t : Thread) (s : Fmap DWord) (e b p : Fmap Bool) (fl : BitVec 5) :
    ({ t.toGroup with s := s, sEmpty := e, sBad := b, flags := fl, p := p } : Group).toThread =
      { t with s := s, sEmpty := e, sBad := b, flags := fl, p := predBits p } := by
  obtain ⟨pc, part, s0, se, sb, p0, lk, flags, cause, epc, inH, vec, priv, hold, exited, stopped⟩ := t
  cases exited <;> rfl

theorem Thread.toGroup_with (t : Thread) (s : Fmap DWord) (e b : Fmap Bool) (p : BitVec 8) (fl : BitVec 5) :
    ({ t with s := s, sEmpty := e, sBad := b, flags := fl, p := p } : Thread).toGroup =
      { t.toGroup with s := s, sEmpty := e, sBad := b, flags := fl, p := predList p } := rfl

/-- Only predicates, s registers and flags of a thread's registers changed. -/
theorem Thread.threadlike_with (t : Thread) (s : Fmap DWord) (e b p : Fmap Bool) (fl : BitVec 5)
    (hp : predList (predBits p) = p) :
    ({ t.toGroup with s := s, sEmpty := e, sBad := b, flags := fl, p := p } : Group).threadlike := by
  unfold Group.threadlike
  rw [Thread.toThread_with, Thread.toGroup_with, hp]

theorem Thread.threadlike_toGroup (t : Thread) : t.toGroup.threadlike :=
  t.threadlike_with t.s t.sEmpty t.sBad t.toGroup.p t.flags (predList_predBits t.p)

theorem Device.putView_putView (d : Device) (a : Agent) (g h : Group) : (d.putView a g).putView a h = d.putView a h := by
  cases a with
  | group b k =>
    simp only [Device.putView, Device.modGroup, Device.modBlock, listModify_listModify]
  | access b => simp only [Device.putView, Device.modBlock, listModify_listModify, Option.map_map]; rfl
  | ridge b => simp only [Device.putView, Device.modBlock, listModify_listModify, Option.map_map]; rfl
  | handler c =>
    simp only [Device.putView, List.map_map]
    congr 1
    apply List.map_congr_left
    intro p _
    by_cases hp : p.1 = c <;> simp [hp]

theorem find_map_handler (l : List (Nat × Nat × Thread)) (c : Nat) (t : Thread) :
    (l.map (fun h => if h.1 == c then (h.1, h.2.1, t) else h)).find? (fun h => h.1 == c) =
      (l.find? (fun h => h.1 == c)).map (fun h => (h.1, h.2.1, t)) := by
  induction l with
  | nil => rfl
  | cons p l ih =>
    by_cases hp : p.1 = c
    · simp [hp]
    · simp only [List.map_cons, beq_iff_eq, hp, if_false, List.find?_cons, beq_eq_false_iff_ne.mpr hp]
      simpa only [beq_iff_eq] using ih

/-- An agent reads what was put back. -/
theorem Device.view_putView (d : Device) (a : Agent) (g : Group) (h : d.has a = true)
    (hg : a.isGroup = true ∨ g.threadlike) : (d.putView a g).view a = g := by
  cases a with
  | group b k => exact Device.view_putView_group d b k g h
  | access b =>
    have hg : g.toThread.toGroup = g := hg.resolve_left (by simp [Agent.isGroup])
    simp only [Device.has, Bool.and_eq_true, decide_eq_true_eq] at h
    obtain ⟨t, ht⟩ := Option.isSome_iff_exists.mp h.2
    simp only [Device.putView, Device.view]
    rw [Device.block_modBlock_same _ _ _ h.1]
    simp [ht, hg]
  | ridge b =>
    have hg : g.toThread.toGroup = g := hg.resolve_left (by simp [Agent.isGroup])
    simp only [Device.has, Bool.and_eq_true, decide_eq_true_eq] at h
    obtain ⟨t, ht⟩ := Option.isSome_iff_exists.mp h.2
    simp only [Device.putView, Device.view]
    rw [Device.block_modBlock_same _ _ _ h.1]
    simp [ht, hg]
  | handler c =>
    have hg : g.toThread.toGroup = g := hg.resolve_left (by simp [Agent.isGroup])
    simp only [Device.has] at h
    obtain ⟨p, hp⟩ := Option.isSome_iff_exists.mp h
    simp only [Device.putView, Device.view, Device.handlerOf] at hp ⊢
    rw [find_map_handler, hp]
    exact hg

/-! The lanes of a gang. -/

theorem mem_maskLanes {i : Nat} {m : BitVec 4} {l : Nat} (h : l ∈ maskLanes i m) : l / 4 = i := by
  simp only [maskLanes, List.mem_filterMap, List.mem_range, Option.ite_none_right_eq_some, Option.some.injEq] at h
  obtain ⟨n, hn, -, rfl⟩ := h
  omega

theorem act_slice {x : Issue} {l : Nat} (h : l ∈ x.act) : l / 4 ∈ x.slices := by
  simp only [Issue.act, List.mem_filter, Group.lanesOf, List.mem_flatMap] at h
  obtain ⟨⟨i, hi, hl⟩, -⟩ := h
  rw [mem_maskLanes hl]; exact hi

theorem act_lt {s : State} {x : Issue} (hg : GangOk s x) {l : Nat} (h : l ∈ x.act) : l < 256 := by
  have := (hg.2.2.2 _ (act_slice h)).1
  omega

theorem actSlices_lt {s : State} {x : Issue} (hg : GangOk s x) {i : Nat} (h : i ∈ x.actSlices) : i < 64 :=
  (hg.2.2.2 _ (List.mem_of_mem_filter h)).1

/-! Queues popped (R36): the registers stay. -/

theorem Group.freeQueues_eq (g : Group) : g.freeQueues = { g with queues := g.freeQueues.queues } := by
  unfold Group.freeQueues; split <;> rfl

theorem Group.slice_modSlices (g : Group) (is : List Nat) (f : Slice → Slice) (i : Nat) :
    (g.modSlices is f).slice i = if i < g.slices.length then (if is.contains i then f (g.slice i) else g.slice i) else default := by
  simp only [Group.modSlices, Group.slice, List.getElem?_mapIdx]
  by_cases h : i < g.slices.length
  · simp only [h, List.getElem?_eq_getElem h, Option.map_some, Option.getD_some, if_true]
  · simp [h]

theorem Group.pop_sameControl (g : Group) (qs is : List Nat) : g.sameControl (g.pop qs is) := by
  unfold Group.pop
  split
  · exact ⟨rfl, fun i => rfl⟩
  · constructor
    · rw [Group.freeQueues_eq]; rfl
    · intro i
      generalize hf : (fun s : Slice => { s with qpos := qs.foldl (fun m q => Fmap.set 0 m q (Fmap.get 0 m q + 1)) s.qpos }) = f
      have e : (g.modSlices is f).freeQueues.slice i = (g.modSlices is f).slice i := by rw [Group.freeQueues_eq]; rfl
      rw [e, Group.slice_modSlices]
      split
      · split
        · rw [← hf]
        · rfl
      · next h => simp only [Group.slice, List.getElem?_eq_none (Nat.le_of_not_lt h)]; rfl

theorem Group.pop_regs (g : Group) (qs is : List Nat) :
    (g.pop qs is).v = g.v ∧ (g.pop qs is).vEmpty = g.vEmpty ∧ (g.pop qs is).vBad = g.vBad ∧ (g.pop qs is).s = g.s ∧
      (g.pop qs is).sEmpty = g.sEmpty ∧ (g.pop qs is).sBad = g.sBad ∧ (g.pop qs is).p = g.p ∧
      (g.pop qs is).flags = g.flags := by
  unfold Group.pop
  split
  · simp
  · rw [Group.freeQueues_eq]; exact ⟨rfl, rfl, rfl, rfl, rfl, rfl, rfl, rfl⟩

/-! The state after a word that wrote registers and left fills. -/

@[simp] theorem Device.view_fills (d : Device) (fs : List Fill) (a : Agent) : ({ d with fills := fs } : Device).view a = d.view a := by
  cases a <;> rfl
theorem Device.putView_fills_comm (d : Device) (fs : List Fill) (a : Agent) (g : Group) :
    ({ d with fills := fs } : Device).putView a g = { d.putView a g with fills := fs } := by cases a <;> rfl

theorem Group.pop_nil (g : Group) (is : List Nat) : g.pop [] is = g := rfl

/-- What a word's queue pops do to a device whose agent's registers have been put. -/
theorem Device.popWord_put (d : Device) (x : Issue) (i : Instr) (g : Group) (fs : List Fill) (h : d.has x.agent = true)
    (hg : x.agent.isGroup = true ∨ g.threadlike ∧ (operands i).pops = []) :
    ({ d.putView x.agent g with fills := fs } : Device).popWord x i =
      { d.putView x.agent (g.pop (operands i).pops x.slices) with fills := fs } := by
  unfold Device.popWord
  have hv : (d.putView x.agent g).view x.agent = g := d.view_putView _ _ h (hg.imp id And.left)
  split
  · next hq => rw [hq]; rfl
  · rw [Device.modView, Device.view_fills, hv, Device.putView_fills_comm, Device.putView_putView]

/-- The view after a word whose effect is to put these registers and these fills. -/
theorem State.after_put (s : State) (x : Issue) (i : Instr) (g : Group) (fs : List Fill) (hx : s.iss = some x)
    (h : s.dev.has x.agent = true) (hg : x.agent.isGroup = true ∨ g.threadlike ∧ (operands i).pops = []) :
    let t := s.after x i false { s.dev.putView x.agent g with fills := fs }
    t.dev.view x.agent = g.pop (operands i).pops x.slices ∧ s.sameBeside t x.agent ∧ t.dev.fills = fs := by
  intro t
  have e : t.dev = { s.dev.putView x.agent (g.pop (operands i).pops x.slices) with fills := fs } :=
    Device.popWord_put s.dev x i g fs h hg
  have hv : t.dev.view x.agent = g.pop (operands i).pops x.slices := by
    rw [e, Device.view_fills]
    refine s.dev.view_putView _ _ h (hg.imp id ?_)
    rintro ⟨h1, h2⟩; rw [h2]; exact h1
  refine ⟨hv, ⟨rfl, rfl, ?_, ?_⟩, by rw [e]⟩
  · show some { x with moved := x.moved || false } = s.iss
    rw [hx, Bool.or_false]
  · show t.dev = _
    rw [hv, e]

theorem Group.sameControl_pop {g h : Group} (hs : h = { g with v := h.v, vEmpty := h.vEmpty, vBad := h.vBad, s := h.s, sEmpty := h.sEmpty, sBad := h.sBad, p := h.p, flags := h.flags })
    (qs is : List Nat) : g.sameControl (h.pop qs is) := by
  have hp := h.pop_sameControl qs is
  constructor
  · have h1 := hp.1
    rw [hs] at h1
    rw [hs]
    exact h1
  · intro i
    have h2 := hp.2 i
    have e : h.slice i = g.slice i := by rw [hs]; rfl
    rw [e] at h2; exact h2

/-! Writes of lanes. -/

/-- The value that a register, or a pair, holds of a result. -/
def narrow (wide : Bool) (v : DWord) : DWord := if wide then v else zext (bitsOf v 0 32)

theorem halves (v : DWord) : bitsOf v 32 32 ++ bitsOf v 0 32 = v := by
  apply BitVec.eq_of_getLsbD_eq
  intro i hi
  simp only [bitsOf, BitVec.getLsbD_append, BitVec.getLsbD_extractLsb']
  split
  · next h => simp [h]
  · rw [decide_eq_true (by omega), Bool.true_and]; congr 1; omega

theorem mem_laneWords_iff (r : Nat) (wide : Bool) (ls : List Nat) (v : Nat → DWord) (p : Nat × Word) :
    p ∈ laneWords r wide (ls.map (fun l => (l, v l))) ↔ ∃ l ∈ ls, p = (r * 256 + l, bitsOf (v l) 0 32) ∨
      wide = true ∧ p = ((r + 1) * 256 + l, bitsOf (v l) 32 32) := by
  unfold laneWords
  cases wide
  · simp [eq_comm]
  · simp only [if_true, List.map_map, List.mem_append, List.mem_map, Function.comp_def, true_and]
    constructor
    · rintro (⟨l, hl, rfl⟩ | ⟨l, hl, rfl⟩)
      · exact ⟨l, hl, .inl rfl⟩
      · exact ⟨l, hl, .inr rfl⟩
    · rintro ⟨l, hl, rfl | rfl⟩
      · exact .inl ⟨l, hl, rfl⟩
      · exact .inr ⟨l, hl, rfl⟩

theorem mem_laneWords {r : Nat} {wide : Bool} {vs : List (Nat × DWord)} {p : Nat × Word} (h : p ∈ laneWords r wide vs) :
    ∃ l v, (l, v) ∈ vs ∧ (p = (r * 256 + l, bitsOf v 0 32) ∨ wide = true ∧ p = ((r + 1) * 256 + l, bitsOf v 32 32)) := by
  unfold laneWords at h
  split at h
  · next hw =>
    rcases List.mem_append.mp h with h | h <;> obtain ⟨q, hq, rfl⟩ := List.mem_map.mp h
    · exact ⟨q.1, q.2, hq, .inl rfl⟩
    · exact ⟨q.1, q.2, hq, .inr ⟨hw, rfl⟩⟩
  · obtain ⟨q, hq, rfl⟩ := List.mem_map.mp h
    exact ⟨q.1, q.2, hq, .inl rfl⟩

/-- The words of a list of lanes, each of its own value. -/
theorem laneWords_get (m : Fmap Word) (hm : Fmap.wf 0 m = true) (r : Nat) (wide : Bool) (ls : List Nat) (v : Nat → DWord)
    (hl : ∀ l ∈ ls, l < 256) (q l : Nat) (h : l < 256) :
    Fmap.get 0 (Fmap.setAll 0 m (laneWords r wide (ls.map (fun l => (l, v l))))) (q * 256 + l) =
      if l ∈ ls then (if q = r then bitsOf (v l) 0 32 else if wide = true ∧ q = r + 1 then bitsOf (v l) 32 32
        else Fmap.get 0 m (q * 256 + l)) else Fmap.get 0 m (q * 256 + l) := by
  have hmem : ∀ p ∈ laneWords r wide (ls.map (fun l => (l, v l))), p.1 = q * 256 + l →
      l ∈ ls ∧ ((q = r ∧ p.2 = bitsOf (v l) 0 32) ∨ (wide = true ∧ q = r + 1 ∧ p.2 = bitsOf (v l) 32 32)) := by
    intro p hp hk
    obtain ⟨l', v', hv, h1⟩ := mem_laneWords hp
    obtain ⟨l'', hl'', heq⟩ := List.mem_map.mp hv
    cases heq
    have := hl _ hl''
    rcases h1 with rfl | ⟨hw, rfl⟩
    · simp only at hk
      have e1 : l' = l := by omega
      have e2 : q = r := by omega
      subst e1; exact ⟨hl'', .inl ⟨e2, rfl⟩⟩
    · simp only at hk
      have e1 : l' = l := by omega
      have e2 : q = r + 1 := by omega
      subst e1; exact ⟨hl'', .inr ⟨hw, e2, rfl⟩⟩
  by_cases hls : l ∈ ls
  · rw [if_pos hls]
    by_cases hq : q = r
    · rw [if_pos hq]
      refine Fmap.get_setAll_of 0 _ m _ _ hm ?_ (.inl ?_)
      · intro p hp hk
        rcases (hmem p hp hk).2 with ⟨-, h⟩ | ⟨-, h, -⟩
        · exact h
        · omega
      · refine ⟨(r * 256 + l, bitsOf (v l) 0 32), ?_, by simp [hq]⟩
        unfold laneWords
        split
        · exact List.mem_append_left _ (List.mem_map.mpr ⟨(l, v l), List.mem_map.mpr ⟨l, hls, rfl⟩, rfl⟩)
        · exact List.mem_map.mpr ⟨(l, v l), List.mem_map.mpr ⟨l, hls, rfl⟩, rfl⟩
    · rw [if_neg hq]
      by_cases hw : wide = true ∧ q = r + 1
      · rw [if_pos hw]
        refine Fmap.get_setAll_of 0 _ m _ _ hm ?_ (.inl ?_)
        · intro p hp hk
          rcases (hmem p hp hk).2 with ⟨h, -⟩ | ⟨-, -, h⟩
          · omega
          · exact h
        · refine ⟨((r + 1) * 256 + l, bitsOf (v l) 32 32), ?_, by simp [hw.2]⟩
          unfold laneWords
          rw [if_pos hw.1]
          exact List.mem_append_right _ (List.mem_map.mpr ⟨(l, v l), List.mem_map.mpr ⟨l, hls, rfl⟩, rfl⟩)
      · rw [if_neg hw]
        refine Fmap.get_setAll_other 0 _ m _ hm ?_
        intro p hp hk
        rcases (hmem p hp hk).2 with ⟨h, -⟩ | ⟨h1, h2, -⟩
        · exact hq h
        · exact hw ⟨h1, h2⟩
  · rw [if_neg hls]
    exact Fmap.get_setAll_other 0 _ m _ hm (fun p hp hk => hls (hmem p hp hk).1)

/-- Marks of registers of slices. -/
theorem markKeys_get (m : Fmap Bool) (hm : Fmap.wf false m = true) (e : Bool) (r : Nat) (wide : Bool) (is : List Nat)
    (his : ∀ i ∈ is, i < 64) (q i : Nat) (hi : i < 64) :
    Fmap.get false (Fmap.setAll false m ((if wide then [r, r + 1] else [r]).flatMap (fun r => is.map (fun s => (r * 64 + s, e)))))
      (q * 64 + i) = if i ∈ is ∧ (q = r ∨ wide = true ∧ q = r + 1) then e else Fmap.get false m (q * 64 + i) := by
  have hmem : ∀ p ∈ (if wide then [r, r + 1] else [r]).flatMap (fun r => is.map (fun s => (r * 64 + s, e))),
      p.2 = e ∧ (p.1 = q * 64 + i → i ∈ is ∧ (q = r ∨ wide = true ∧ q = r + 1)) := by
    intro p hp
    obtain ⟨r', hr', hp⟩ := List.mem_flatMap.mp hp
    obtain ⟨i', hi', rfl⟩ := List.mem_map.mp hp
    have := his _ hi'
    refine ⟨rfl, fun hk => ?_⟩
    simp only at hk
    have e1 : i' = i := by omega
    subst e1
    refine ⟨hi', ?_⟩
    cases wide <;> simp at hr'
    · left; omega
    · rcases hr' with rfl | rfl
      · left; omega
      · right; exact ⟨rfl, by omega⟩
  by_cases h : i ∈ is ∧ (q = r ∨ wide = true ∧ q = r + 1)
  · rw [if_pos h]
    refine Fmap.get_setAll_of false _ m _ e hm (fun p hp _ => (hmem p hp).1) (.inl ⟨(q * 64 + i, e), ?_, rfl⟩)
    refine List.mem_flatMap.mpr ⟨q, ?_, List.mem_map.mpr ⟨i, h.1, rfl⟩⟩
    rcases h.2 with rfl | ⟨hw, rfl⟩
    · split <;> simp
    · simp [hw]
  · rw [if_neg h]
    exact Fmap.get_setAll_other false _ m _ hm (fun p hp hk => h ((hmem p hp).2 hk))

/-- Registers of lanes, written: what `putLanes` leaves. -/
theorem State.wroteLanes (s : State) (x : Issue) (i : Instr) (r : Nat) (wide : Bool) (v : Nat → DWord) (fl : BitVec 5)
    (hx : s.iss = some x) (hg : GangOk s x) (ha : x.agent.isGroup = true) (hw : (s.dev.view x.agent).regsWf = true) :
    WroteLanes s (s.after x i false (s.dev.putLanes x r wide (x.act.map (fun l => (l, v l))) fl)) x r wide
      (fun l => narrow wide (v l)) fl := by
  simp only [Group.regsWf, Bool.and_eq_true] at hw
  replace hw := hw.1
  obtain ⟨⟨⟨⟨⟨⟨⟨hv, -⟩, -⟩, hve⟩, -⟩, hvb⟩, -⟩, -⟩ := hw
  have hl : ∀ l ∈ x.act, l < 256 := fun l h => act_lt hg h
  have hi : ∀ i ∈ x.actSlices, i < 64 := fun i h => actSlices_lt hg h
  generalize hg' : s.dev.view x.agent = g at hv hve hvb
  let ws := laneWords r wide (x.act.map (fun l => (l, v l)))
  let g' : Group := { (g.setV ws).markV false (if wide then [r, r + 1] else [r]) x.actSlices with
    flags := ((g.setV ws).markV false (if wide then [r, r + 1] else [r]) x.actSlices).flags ||| fl }
  have hp := s.after_put x i g' s.dev.fills hx hg.1 (.inl ha)
  have he : s.dev.putLanes x r wide (x.act.map (fun l => (l, v l))) fl = { s.dev.putView x.agent g' with fills := s.dev.fills } := by
    simp only [Device.putLanes, Device.modView, hg']
    rw [← Device.putView_fills s.dev x.agent g']
  rw [he]
  obtain ⟨hview, hb, hf⟩ := hp
  simp only [WroteLanes, hview, hg']
  obtain ⟨e1, e2, e3, e4, e5, e6, e7, e8⟩ := g'.pop_regs (operands i).pops x.slices
  have hv' : (g'.pop (operands i).pops x.slices).v = Fmap.setAll 0 g.v ws := e1
  have hm' : (g'.pop (operands i).pops x.slices).vEmpty = Fmap.setAll false g.vEmpty
      ((if wide then [r, r + 1] else [r]).flatMap (fun r => x.actSlices.map (fun s => (r * 64 + s, false)))) := e2
  have hb' : (g'.pop (operands i).pops x.slices).vBad =
      if g.vBad.isEmpty then g.vBad else Fmap.setAll false g.vBad (ws.map (fun p => (p.1, false))) := e3
  have hbk : ∀ q l, l < 256 → (∀ p ∈ ws, p.1 = q * 256 + l → False) →
      Fmap.get false (g'.pop (operands i).pops x.slices).vBad (q * 256 + l) = Fmap.get false g.vBad (q * 256 + l) := by
    intro q l hlt hno
    rw [hb']
    split
    · rfl
    · refine Fmap.get_setAll_other false _ _ _ hvb ?_
      intro p hp hk
      obtain ⟨p', hp', rfl⟩ := List.mem_map.mp hp
      exact hno p' hp' hk
  refine ⟨?_, ?_, ?_, ?_, ?_, e4, e5, e6, e7, e8, Group.sameControl_pop rfl _ _, hb, hf⟩
  · intro l h
    have hlt := hl l h
    simp only [Group.laneVal, Group.vAt, hv', narrow]
    rw [laneWords_get g.v hv r wide x.act v hl r l hlt, if_pos h, if_pos rfl]
    split
    · next hwide =>
      rw [laneWords_get g.v hv r wide x.act v hl (r + 1) l hlt, if_pos h, if_neg (by omega), if_pos ⟨hwide, rfl⟩]
      exact halves _
    · rfl
  · intro q l hlt hno
    refine ⟨?_, hbk q l hlt ?_⟩
    · simp only [Group.vAt, hv']
      rw [laneWords_get g.v hv r wide x.act v hl q l hlt]
      split
      · next h =>
        rw [if_neg (fun e => hno ⟨h, .inl e⟩), if_neg (fun e => hno ⟨h, .inr e⟩)]
      · rfl
    · intro p hp hk
      obtain ⟨l', v', hv1, h1⟩ := mem_laneWords hp
      obtain ⟨l'', hl'', heq⟩ := List.mem_map.mp hv1
      cases heq
      have := hl _ hl''
      rcases h1 with rfl | ⟨hw, rfl⟩
      · simp only at hk
        have e1 : l' = l := by omega
        subst e1; exact hno ⟨hl'', .inl (by omega)⟩
      · simp only at hk
        have e1 : l' = l := by omega
        subst e1; exact hno ⟨hl'', .inr ⟨hw, by omega⟩⟩
  · intro q l h hin
    have hlt := hl l h
    rw [hb']
    split
    · next he => rw [List.isEmpty_iff.mp he]; rfl
    · refine Fmap.get_setAll_of false _ _ _ false hvb ?_ (.inl ?_)
      · intro p hp _
        obtain ⟨p', -, rfl⟩ := List.mem_map.mp hp
        rfl
      · have hmem : ∃ p ∈ ws, p.1 = q * 256 + l := by
          have hm : (l, v l) ∈ x.act.map (fun l => (l, v l)) := List.mem_map.mpr ⟨l, h, rfl⟩
          rcases hin with rfl | ⟨hw, rfl⟩
          · refine ⟨(q * 256 + l, bitsOf (v l) 0 32), ?_, rfl⟩
            show _ ∈ laneWords _ _ _
            unfold laneWords
            split
            · exact List.mem_append_left _ (List.mem_map.mpr ⟨_, hm, rfl⟩)
            · exact List.mem_map.mpr ⟨_, hm, rfl⟩
          · refine ⟨((r + 1) * 256 + l, bitsOf (v l) 32 32), ?_, rfl⟩
            show _ ∈ laneWords _ _ _
            unfold laneWords
            rw [if_pos hw]
            exact List.mem_append_right _ (List.mem_map.mpr ⟨_, hm, rfl⟩)
        obtain ⟨p, hp, hk⟩ := hmem
        exact ⟨(p.1, false), List.mem_map.mpr ⟨p, hp, rfl⟩, hk⟩
  · intro q i h hin
    simp only [Group.vIsEmpty, hm']
    rw [markKeys_get g.vEmpty hve false r wide x.actSlices hi q i (hi i h), if_pos ⟨h, hin⟩]
  · intro q i h hin
    simp only [Group.vIsEmpty, hm']
    exact (markKeys_get g.vEmpty hve false r wide x.actSlices hi q i h).trans (if_neg hin)

/-! Writes of s registers, of predicates, and results still to come. -/

/-- The registers of a scalar agent are those of a thread. -/
theorem Device.view_thread (d : Device) (a : Agent) (ha : a.isGroup = false) : ∃ t : Thread, d.view a = t.toGroup := by
  cases a with
  | group b k => exact absurd ha (by simp [Agent.isGroup])
  | access b => exact ⟨_, rfl⟩
  | ridge b => exact ⟨_, rfl⟩
  | handler c => exact ⟨_, rfl⟩

/-- A word that names no queue, or an agent of lanes: what `after_put` asks, for registers that differ from a thread's only
in s registers and flags. -/
theorem put_ok (d : Device) (a : Agent) (i : Instr) (g : Group) (hg : d.view a = g) (s : Fmap DWord) (e b : Fmap Bool)
    (fl : BitVec 5) (h : a.isGroup = true ∨ (operands i).pops = []) :
    a.isGroup = true ∨ ({ g with s := s, sEmpty := e, sBad := b, flags := fl } : Group).threadlike ∧ (operands i).pops = [] := by
  subst hg
  cases ha : a.isGroup with
  | true => exact .inl rfl
  | false =>
    obtain ⟨t, ht⟩ := d.view_thread a ha
    refine .inr ⟨?_, h.resolve_left (by simp [ha])⟩
    rw [ht]
    exact t.threadlike_with s e b t.toGroup.p fl (predList_predBits t.p)

theorem Fmap.get_set (m : Fmap DWord) (hm : Fmap.wf 0 m = true) (r q : Nat) (v : DWord) :
    Fmap.get 0 (Fmap.set 0 m r v) q = if q = r then v else Fmap.get 0 m q := by
  split
  · next h => rw [h]; exact Fmap.get_set_same 0 none m r v hm
  · next h => exact Fmap.get_set_other 0 none m r q v hm h

theorem Fmap.get_setBool (m : Fmap Bool) (hm : Fmap.wf false m = true) (r q : Nat) (v : Bool) :
    Fmap.get false (Fmap.set false m r v) q = if q = r then v else Fmap.get false m q := by
  split
  · next h => rw [h]; exact Fmap.get_set_same false none m r v hm
  · next h => exact Fmap.get_set_other false none m r q v hm h

/-- An s register, written: what `putS` leaves. -/
theorem State.wroteS (s : State) (x : Issue) (i : Instr) (r : Nat) (v : DWord) (fl : BitVec 5)
    (hx : s.iss = some x) (hg : GangOk s x) (ha : x.agent.isGroup = true ∨ (operands i).pops = [])
    (hw : (s.dev.view x.agent).regsWf = true) :
    WroteS s (s.after x i false (s.dev.putS x r v fl)) x r v fl := by
  simp only [Group.regsWf, Bool.and_eq_true] at hw
  replace hw := hw.1
  obtain ⟨⟨⟨⟨⟨⟨⟨-, hs⟩, -⟩, -⟩, hse⟩, -⟩, hsb⟩, -⟩ := hw
  generalize hg' : s.dev.view x.agent = g at hs hse hsb
  let sb := if g.sBad.isEmpty then g.sBad else Fmap.set false g.sBad r false
  let g' : Group := { g with
    s := Fmap.set 0 g.s r v, sEmpty := Fmap.setAll false g.sEmpty [(r, false)], sBad := sb, flags := g.flags ||| fl }
  have hp := s.after_put x i g' s.dev.fills hx hg.1 (put_ok s.dev _ i g hg' _ _ _ _ ha)
  have he : s.dev.putS x r v fl = { s.dev.putView x.agent g' with fills := s.dev.fills } := by
    simp only [Device.putS, Device.modView, hg']
    rw [← Device.putView_fills s.dev x.agent g']
    rfl
  rw [he]
  obtain ⟨hview, hb, hf⟩ := hp
  simp only [WroteS, hview, hg']
  obtain ⟨e1, e2, e3, e4, e5, e6, e7, e8⟩ := g'.pop_regs (operands i).pops x.slices
  have hs' : ∀ q, (g'.pop (operands i).pops x.slices).sAt q = if q = r then v else g.sAt q := fun q => by
    simp only [Group.sAt, e4]; exact Fmap.get_set g.s hs r q v
  have hm' : ∀ q, (g'.pop (operands i).pops x.slices).sIsEmpty q = if q = r then false else g.sIsEmpty q := fun q => by
    simp only [Group.sIsEmpty, e5]; exact Fmap.get_setBool g.sEmpty hse r q false
  have hb' : ∀ q, Fmap.get false (g'.pop (operands i).pops x.slices).sBad q = if q = r then false else Fmap.get false g.sBad q := by
    intro q
    rw [e6]
    show Fmap.get false sb q = _
    simp only [sb]
    split
    · next h => rw [List.isEmpty_iff.mp h]; simp
    · exact Fmap.get_setBool g.sBad hsb r q false
  refine ⟨by rw [hs', if_pos rfl], by rw [hm', if_pos rfl], by rw [hb', if_pos rfl], fun q hq => ?_, e1, e2, e3, e7, e8,
    Group.sameControl_pop rfl _ _, hb, hf⟩
  exact ⟨by rw [hs', if_neg hq], by rw [hm', if_neg hq], by rw [hb', if_neg hq]⟩

/-- A result promised for lanes: what `laterLanes` leaves. -/
theorem State.markedLanes (s : State) (x : Issue) (i : Instr) (r : Nat) (wide : Bool) (v : Nat → DWord) (fl : BitVec 5) (k : Sets)
    (hx : s.iss = some x) (hg : GangOk s x) (ha : x.agent.isGroup = true) (hw : (s.dev.view x.agent).regsWf = true) :
    MarkedLanes s (s.after x i false (s.dev.laterLanes x r wide (x.act.map (fun l => (l, v l))) fl k)) x r wide v fl := by
  simp only [Group.regsWf, Bool.and_eq_true] at hw
  replace hw := hw.1
  obtain ⟨⟨⟨⟨⟨⟨⟨-, -⟩, -⟩, hve⟩, -⟩, -⟩, -⟩, -⟩ := hw
  have hi : ∀ i ∈ x.actSlices, i < 64 := fun i h => actSlices_lt hg h
  generalize hg' : s.dev.view x.agent = g at hve
  let rs := if wide then [r, r + 1] else [r]
  let g' : Group := g.markV true rs x.actSlices
  let f := Fill.lanes x.agent x.slices (laneWords r wide (x.act.map (fun l => (l, v l))))
    (rs.flatMap (fun n => x.actSlices.map (fun s => n * 64 + s))) fl k
  have hp := s.after_put x i g' (s.dev.fills ++ [f]) hx hg.1 (.inl ha)
  have he : s.dev.laterLanes x r wide (x.act.map (fun l => (l, v l))) fl k =
      { s.dev.putView x.agent g' with fills := s.dev.fills ++ [f] } := by
    simp only [Device.laterLanes, Device.modView, hg', Device.putView_fills]
    rfl
  rw [he]
  obtain ⟨hview, hb, hf⟩ := hp
  simp only [MarkedLanes, MarkedFor, hview, hg']
  obtain ⟨e1, e2, e3, e4, e5, e6, e7, e8⟩ := g'.pop_regs (operands i).pops x.slices
  have hm' : (g'.pop (operands i).pops x.slices).vEmpty = Fmap.setAll false g.vEmpty
      (rs.flatMap (fun r => x.actSlices.map (fun s => (r * 64 + s, true)))) := e2
  refine ⟨?_, ?_, e1, e3, e4, e5, e6, e7, e8, Group.sameControl_pop rfl _ _, hb, f, hf, rfl, fun _ => Iff.rfl, rfl, rfl, rfl, rfl, rfl, rfl,
    mem_laneWords_iff r wide x.act v, ?_⟩
  · intro q i h hin
    simp only [Group.vIsEmpty, hm']
    exact (markKeys_get g.vEmpty hve true r wide x.actSlices hi q i (hi i h)).trans (if_pos ⟨h, hin⟩)
  · intro q i h hin
    simp only [Group.vIsEmpty, hm']
    exact (markKeys_get g.vEmpty hve true r wide x.actSlices hi q i h).trans (if_neg hin)
  · intro k
    show k ∈ rs.flatMap _ ↔ _
    simp only [List.mem_flatMap, List.mem_map]
    constructor
    · rintro ⟨q, hq, i, hi, rfl⟩
      refine ⟨q, i, hi, ?_, rfl⟩
      cases wide <;> simp [rs] at hq
      · exact .inl hq
      · rcases hq with rfl | rfl
        · exact .inl rfl
        · exact .inr ⟨rfl, rfl⟩
    · rintro ⟨q, i, hi, hin, rfl⟩
      refine ⟨q, ?_, i, hi, rfl⟩
      rcases hin with rfl | ⟨hw, rfl⟩
      · simp only [rs]; split <;> simp
      · simp [rs, hw]

/-- A result promised for an s register: what `laterS` leaves. -/
theorem State.markedS (s : State) (x : Issue) (i : Instr) (r : Nat) (v : DWord) (fl : BitVec 5) (k : Sets)
    (hx : s.iss = some x) (hg : GangOk s x) (ha : x.agent.isGroup = true ∨ (operands i).pops = [])
    (hw : (s.dev.view x.agent).regsWf = true) :
    MarkedS s (s.after x i false (s.dev.laterS x r v fl k)) x r v fl := by
  simp only [Group.regsWf, Bool.and_eq_true] at hw
  replace hw := hw.1
  obtain ⟨⟨⟨⟨⟨⟨⟨-, -⟩, -⟩, -⟩, hse⟩, -⟩, -⟩, -⟩ := hw
  generalize hg' : s.dev.view x.agent = g at hse
  let g' : Group := { g with s := g.s, sEmpty := Fmap.setAll false g.sEmpty [(r, true)], sBad := g.sBad, flags := g.flags }
  have hp := s.after_put x i g' (s.dev.fills ++ [Fill.scalar x.agent x.slices r v fl k]) hx hg.1
    (put_ok s.dev _ i g hg' _ _ _ _ ha)
  have he : s.dev.laterS x r v fl k = { s.dev.putView x.agent g' with fills := s.dev.fills ++ [Fill.scalar x.agent x.slices r v fl k] } := by
    simp only [Device.laterS, Device.modView, hg', Device.putView_fills]
    rfl
  rw [he]
  obtain ⟨hview, hb, hf⟩ := hp
  simp only [MarkedS, MarkedSFor, hview, hg']
  obtain ⟨e1, e2, e3, e4, e5, e6, e7, e8⟩ := g'.pop_regs (operands i).pops x.slices
  have hm' : ∀ q, (g'.pop (operands i).pops x.slices).sIsEmpty q = if q = r then true else g.sIsEmpty q := fun q => by
    simp only [Group.sIsEmpty, e5]; exact Fmap.get_setBool g.sEmpty hse r q true
  exact ⟨by rw [hm', if_pos rfl], fun q hq => by rw [hm', if_neg hq], e1, e2, e3, e4, e6, e7, e8,
    Group.sameControl_pop rfl _ _, hb, 0, x.slices, k, hf, fun _ => Iff.rfl⟩

/-! Writes of predicates. -/

/-- A thread's predicates with one written. -/
def putBit (q : BitVec 8) (i : Nat) (b : Bool) : BitVec 8 :=
  if b then q ||| BitVec.ofNat 8 (2 ^ i) else q &&& ~~~(BitVec.ofNat 8 (2 ^ i))

theorem set_predList_true : ∀ (q : BitVec 8) (i : Fin 7), Fmap.set false (predList q) (i * 256) true = predList (putBit q i true) := by
  decide +kernel
theorem set_predList_false : ∀ (q : BitVec 8) (i : Fin 7), Fmap.set false (predList q) (i * 256) false = predList (putBit q i false) := by
  decide +kernel
theorem set_predList (q : BitVec 8) (i : Fin 7) (b : Bool) : ∃ q', Fmap.set false (predList q) (i * 256) b = predList q' := by
  cases b
  · exact ⟨_, set_predList_false q i⟩
  · exact ⟨_, set_predList_true q i⟩

theorem setAll_predList (ws : List (Nat × Bool)) (q : BitVec 8) (h : ∀ w ∈ ws, ∃ i : Fin 7, w.1 = i * 256) :
    ∃ q', Fmap.setAll false (predList q) ws = predList q' := by
  induction ws generalizing q with
  | nil => exact ⟨q, rfl⟩
  | cons w ws ih =>
    obtain ⟨i, hi⟩ := h w List.mem_cons_self
    obtain ⟨q', hq⟩ := set_predList q i w.2
    obtain ⟨q'', hq'⟩ := ih q' (fun v hv => h v (List.mem_cons_of_mem _ hv))
    refine ⟨q'', ?_⟩
    show Fmap.setAll false (Fmap.set false (predList q) w.1 w.2) ws = _
    rw [hi, hq, hq']

/-- A scalar thread performs words in lane 0. -/
theorem act_thread {s : State} {x : Issue} (hg : GangOk s x) (ha : x.agent.isGroup = false) {l : Nat} (h : l ∈ x.act) : l = 0 := by
  obtain ⟨t, ht⟩ := s.dev.view_thread x.agent ha
  obtain ⟨u, hu⟩ := x.rd.view_thread x.agent ha
  have h0 := (hg.2.2.2 _ (act_slice h)).2
  rw [ht] at h0
  have h0 : l / 4 < 1 := h0
  simp only [Issue.act, Issue.view, hu, List.mem_filter, Group.lanesOf, List.mem_flatMap] at h
  obtain ⟨⟨i, -, hl⟩, -⟩ := h
  have hi : i = 0 := by have := mem_maskLanes hl; omega
  subst hi
  simp only [maskLanes, List.mem_filterMap, List.mem_range, Option.ite_none_right_eq_some, Option.some.injEq] at hl
  obtain ⟨n, hn, hb, rfl⟩ := hl
  have hm : (u.toGroup.slice 0).mask = if u.exited then 0 else 1 := rfl
  rw [hm] at hb
  have : n = 0 := by
    interval_cases n
    · rfl
    all_goals (split at hb <;> simp [bitOf] at hb)
  omega

/-- Predicates of lanes, written: what `putP` leaves. -/
theorem State.wroteP (s : State) (x : Issue) (i : Instr) (p : Nat) (v : Nat → Bool) (fl : BitVec 5)
    (hx : s.iss = some x) (hg : GangOk s x) (ha : x.agent.isGroup = true ∨ (operands i).pops = [])
    (hw : (s.dev.view x.agent).regsWf = true) :
    WroteP s (s.after x i false (s.dev.putP x p (x.act.map (fun l => (l, v l))) fl)) x p v fl := by
  simp only [Group.regsWf, Bool.and_eq_true] at hw
  replace hw := hw.1
  obtain ⟨⟨⟨⟨⟨⟨⟨-, -⟩, hpw⟩, -⟩, -⟩, -⟩, -⟩, -⟩ := hw
  have hl : ∀ l ∈ x.act, l < 256 := fun l h => act_lt hg h
  let ws := (x.act.map (fun l => (p * 256 + l, v l))).filter (fun q => q.1 < 7 * 256)
  have hws : ∀ w ∈ ws, ∃ l ∈ x.act, w = (p * 256 + l, v l) ∧ p < 7 := by
    intro w hw
    obtain ⟨h1, h2⟩ := List.mem_filter.mp hw
    obtain ⟨l, h3, rfl⟩ := List.mem_map.mp h1
    have h2 : p * 256 + l < 7 * 256 := of_decide_eq_true h2
    exact ⟨l, h3, rfl, by omega⟩
  generalize hg' : s.dev.view x.agent = g at hpw
  let g' : Group := { g with s := g.s, sEmpty := g.sEmpty, sBad := g.sBad, flags := g.flags ||| fl, p := Fmap.setAll false g.p ws }
  have hput : x.agent.isGroup = true ∨ g'.threadlike ∧ (operands i).pops = [] := by
    cases hag : x.agent.isGroup with
    | true => exact .inl rfl
    | false =>
      obtain ⟨t, ht⟩ := s.dev.view_thread x.agent hag
      refine .inr ⟨?_, ha.resolve_left (by simp [hag])⟩
      rw [hg'] at ht
      obtain ⟨q', hq⟩ := setAll_predList ws t.p (fun w hw => by
        obtain ⟨l, hl, rfl, hp⟩ := hws w hw
        exact ⟨⟨p, hp⟩, by simp [act_thread hg hag hl]⟩)
      simp only [g']
      rw [ht, toGroup_p, hq]
      exact t.threadlike_with _ _ _ _ _ (predList_predBits q')
  have hp := s.after_put x i g' s.dev.fills hx hg.1 hput
  have he : s.dev.putP x p (x.act.map (fun l => (l, v l))) fl = { s.dev.putView x.agent g' with fills := s.dev.fills } := by
    simp only [Device.putP, Device.modView, hg', List.map_map]
    rw [← Device.putView_fills s.dev x.agent g']
    rfl
  rw [he]
  obtain ⟨hview, hb, hf⟩ := hp
  simp only [WroteP, WrotePIn, hview, hg']
  obtain ⟨e1, e2, e3, e4, e5, e6, e7, e8⟩ := g'.pop_regs (operands i).pops x.slices
  have hp' : ∀ q l, (g'.pop (operands i).pops x.slices).pAt q l = (q == 7 || Fmap.get false (Fmap.setAll false g.p ws) (q * 256 + l)) :=
    fun q l => by simp only [Group.pAt, e7]; rfl
  refine ⟨?_, ?_, e1, e2, e3, e4, e5, e6, e8, Group.sameControl_pop rfl _ _, hb, hf⟩
  · intro l h hp7
    have hlt := hl l h
    rw [hp', show (p == 7) = false by simpa using (by omega : p ≠ 7), Bool.false_or]
    refine Fmap.get_setAll_of false _ _ _ _ hpw ?_ (.inl ⟨(p * 256 + l, v l), List.mem_filter.mpr
      ⟨List.mem_map.mpr ⟨l, h, rfl⟩, by simp; omega⟩, rfl⟩)
    intro w hw hk
    obtain ⟨l', -, rfl, -⟩ := hws w hw
    simp only at hk
    rw [show l' = l by omega]
  · intro q l hlt hno
    rw [hp', Group.pAt, Fmap.get_setAll_other false ws g.p (q * 256 + l) hpw ?_]
    intro w hw hk
    obtain ⟨l', hl', rfl, hp7⟩ := hws w hw
    have := hl _ hl'
    simp only at hk
    exact hno ⟨by rw [show l = l' by omega]; exact hl', by omega, hp7⟩

/-! Words of the A format. -/

theorem Verdict.first_go {v : Verdict} {vs : List Verdict} (h : Verdict.first (v :: vs) = .go) : v = .go ∧ Verdict.first vs = .go := by
  cases v with
  | go => exact ⟨rfl, h⟩
  | trap c l => exact Verdict.noConfusion h
  | wait => simp only [Verdict.first] at h; split at h <;> exact Verdict.noConfusion h

/-- A word that passes its checks passes those on its encoding and registers. -/
theorem Cleared.static {s : State} {x : Issue} {i : Instr} (h : Cleared s x i) : x.staticCause s.dev i = none := by
  have hv := h.2
  unfold Issue.verdict at hv
  split at hv
  · exact Verdict.noConfusion hv
  · assumption

/-- The word is legal, and names v registers only for an agent of lanes. -/
theorem Cleared.lanes {s : State} {x : Issue} {i : Instr} (h : Cleared s x i) :
    x.agent.isGroup = true ∨ (operands i).v = [] ∧ (operands i).vd = [] := by
  have hs := h.static
  unfold Issue.staticCause at hs
  simp only at hs
  split at hs
  · exact absurd hs (by simp)
  · next hn =>
    simp only [Bool.or_eq_true, not_or] at hn
    have hn := hn.1.1.2
    cases hg : x.agent.isGroup with
    | true => exact .inl rfl
    | false =>
      simp only [Opnds.illegal, hg, Bool.or_eq_true, not_or] at hn
      have := hn.2
      right
      simpa using this

theorem Cleared.pops {s : State} {x : Issue} {i : Instr} (h : Cleared s x i) :
    x.agent.isGroup = true ∨ (operands i).pops = [] :=
  h.lanes.imp id (fun h => by simp [Opnds.pops, h.1])

theorem narrow_false (v : DWord) : narrow false v = zext (bitsOf v 0 32) := rfl
theorem narrow_true (v : DWord) : narrow true v = v := rfl

theorem lanesWith_vals (x : Issue) (f : Nat → LaneVal) :
    (x.lanesWith f).map (fun p => (p.1, p.2.1)) = x.act.map (fun l => (l, (f l).1)) := by
  simp [Issue.lanesWith]

/-- A word that writes d in each lane. -/
theorem State.putA_lanes (s : State) (x : Issue) (i : Instr) (w : AWord) (wide signed : Bool) (f : Issue → Device → Nat → LaneVal)
    (eff : Issue → Device → Eff) (he : eff x s.dev = putA w x s.dev wide signed (f x s.dev)) (h : Ready s x i) (hg : GangOk s x)
    (hw : (s.dev.view x.agent).regsWf = true) (hu : w.u = false) (hd : (operands i).vd ≠ []) :
    ∃ t, s.runLanes i eff = .next t ∧
      WroteLanes s t x w.d.toNat wide (fun l => narrow wide (f x s.dev l).1) (orFlags (x.lanesWith (f x s.dev))) := by
  have hp := s.wroteLanes x i w.d.toNat wide (fun l => (f x s.dev l).1) (orFlags (x.lanesWith (f x s.dev))) h.1.1 hg
      (h.1.lanes.resolve_right (fun e => hd e.2)) hw
  refine ⟨_, s.runLanes_ok x i eff _ h (he.trans ?_), hp⟩
  simp only [putA, hu, lanesWith_vals]; rfl

/-- The same in the uniform form. -/
theorem State.putA_uni (s : State) (x : Issue) (i : Instr) (w : AWord) (wide signed : Bool) (f : Issue → Device → Nat → LaneVal)
    (eff : Issue → Device → Eff) (he : eff x s.dev = putA w x s.dev wide signed (f x s.dev)) (h : Ready s x i) (hg : GangOk s x)
    (hw : (s.dev.view x.agent).regsWf = true) (hu : w.u = true) :
    ∃ t, s.runLanes i eff = .next t ∧
      WroteS s t x w.d.toNat (uniValue wide signed (f x s.dev x.lead).1) (f x s.dev x.lead).2 := by
  have hp := s.wroteS x i w.d.toNat (uniValue wide signed (f x s.dev x.lead).1) (f x s.dev x.lead).2 h.1.1 hg h.1.pops hw
  refine ⟨_, s.runLanes_ok x i eff _ h (he.trans ?_), hp⟩
  simp only [putA, hu, if_true]

/-- A word that marks d in each lane and fills it later. -/
theorem State.laterA_lanes (s : State) (x : Issue) (i : Instr) (w : AWord) (wide : Bool) (f : Issue → Device → Nat → LaneVal) (k : Sets)
    (eff : Issue → Device → Eff) (he : eff x s.dev = laterA w x s.dev wide k (f x s.dev)) (h : Ready s x i) (hg : GangOk s x)
    (hw : (s.dev.view x.agent).regsWf = true) (hu : w.u = false) (hd : (operands i).vd ≠ []) :
    ∃ t, s.runLanes i eff = .next t ∧
      MarkedLanes s t x w.d.toNat wide (fun l => (f x s.dev l).1) (orFlags (x.lanesWith (f x s.dev))) := by
  have hp := s.markedLanes x i w.d.toNat wide (fun l => (f x s.dev l).1) (orFlags (x.lanesWith (f x s.dev))) k h.1.1 hg
      (h.1.lanes.resolve_right (fun e => hd e.2)) hw
  refine ⟨_, s.runLanes_ok x i eff _ h (he.trans ?_), hp⟩
  simp only [laterA, hu, lanesWith_vals]; rfl

theorem State.laterA_uni (s : State) (x : Issue) (i : Instr) (w : AWord) (wide : Bool) (f : Issue → Device → Nat → LaneVal) (k : Sets)
    (eff : Issue → Device → Eff) (he : eff x s.dev = laterA w x s.dev wide k (f x s.dev)) (h : Ready s x i) (hg : GangOk s x)
    (hw : (s.dev.view x.agent).regsWf = true) (hu : w.u = true) :
    ∃ t, s.runLanes i eff = .next t ∧ MarkedS s t x w.d.toNat (f x s.dev x.lead).1 (f x s.dev x.lead).2 := by
  have hp := s.markedS x i w.d.toNat (f x s.dev x.lead).1 (f x s.dev x.lead).2 k h.1.1 hg h.1.pops hw
  refine ⟨_, s.runLanes_ok x i eff _ h (he.trans ?_), hp⟩
  simp only [laterA, hu, if_true]

/-- A word that writes a predicate: each lane's value, or the leading lane's in the uniform form. -/
theorem State.predA_lanes (s : State) (x : Issue) (i : Instr) (w : AWord) (p : BitVec 3) (f : Issue → Device → Nat → Bool × BitVec 5)
    (eff : Issue → Device → Eff) (he : eff x s.dev = predA w x s.dev p (f x s.dev)) (h : Ready s x i) (hg : GangOk s x)
    (hw : (s.dev.view x.agent).regsWf = true) :
    ∃ t, s.runLanes i eff = .next t ∧
      WroteP s t x p.toNat (fun l => (f x s.dev (if w.u then x.lead else l)).1)
        (x.act.foldl (fun m l => m ||| (f x s.dev (if w.u then x.lead else l)).2) 0) := by
  have hp := s.wroteP x i p.toNat (fun l => (f x s.dev (if w.u then x.lead else l)).1)
    (x.act.foldl (fun m l => m ||| (f x s.dev (if w.u then x.lead else l)).2) 0) h.1.1 hg h.1.pops hw
  refine ⟨_, s.runLanes_ok x i eff _ h (he.trans ?_), hp⟩
  unfold predA
  cases w.u <;> simp only [List.foldl_map, List.map_map, Function.comp_def, if_true, Bool.false_eq_true, if_false]

end Sys2Proof.Machine
end

