-- ==== Sys2Proof/Laws/Elements.lean ====
section
/-! SUPPORT. Elements of packed values: what the integer family's operation on each element leaves in each element. -/

namespace Sys2Proof.Machine

theorem element_toNat (n : Nat) (v : DWord) (i : Nat) : (element n v i).toNat = elemAt n v i := by
  simp [element, elemAt, Nat.shiftRight_eq_div_pow]

theorem elemAt_lt (n : Nat) (v : DWord) (i : Nat) : elemAt n v i < 2 ^ n := Nat.mod_lt _ (Nat.two_pow_pos n)

theorem joinFold (w : Nat) (es : List Nat) (h : ∀ e ∈ es, e < 2 ^ w) (i : Nat) (hi : i < es.length) :
    es.foldr (fun e acc => e + 2 ^ w * acc) 0 / 2 ^ (w * i) % 2 ^ w = es[i] := by
  induction es generalizing i with
  | nil => simp at hi
  | cons e es ih =>
    have he := h e List.mem_cons_self
    cases i with
    | zero => simp [Nat.add_mul_mod_self_left, Nat.mod_eq_of_lt he]
    | succ i =>
      simp only [List.foldr_cons, List.getElem_cons_succ]
      rw [show w * (i + 1) = w + w * i by ring, Nat.pow_add, ← Nat.div_div_eq_div_mul, Nat.add_mul_div_left _ _ (Nat.two_pow_pos w),
        Nat.div_eq_of_lt he, Nat.zero_add]
      exact ih (fun e he => h e (List.mem_cons_of_mem _ he)) i (by simpa using hi)

theorem joinFold_lt (w : Nat) (es : List Nat) (h : ∀ e ∈ es, e < 2 ^ w) :
    es.foldr (fun e acc => e + 2 ^ w * acc) 0 < 2 ^ (w * es.length) := by
  induction es with
  | nil => simp
  | cons e es ih =>
    have he := h e List.mem_cons_self
    have hi := ih (fun e he => h e (List.mem_cons_of_mem _ he))
    simp only [List.foldr_cons, List.length_cons]
    rw [show w * (es.length + 1) = w + w * es.length by ring, Nat.pow_add]
    calc e + 2 ^ w * _ < 2 ^ w + 2 ^ w * es.foldr (fun e acc => e + 2 ^ w * acc) 0 := by omega
      _ = 2 ^ w * (es.foldr (fun e acc => e + 2 ^ w * acc) 0 + 1) := by ring
      _ ≤ 2 ^ w * 2 ^ (w * es.length) := Nat.mul_le_mul_left _ hi

theorem joinElems_toNat (w : Nat) (es : List Nat) (h : ∀ e ∈ es, e < 2 ^ w) (hl : w * es.length ≤ 64) :
    (joinElems w es).toNat = es.foldr (fun e acc => e + 2 ^ w * acc) 0 := by
  unfold joinElems
  rw [BitVec.toNat_ofNat]
  exact Nat.mod_eq_of_lt (lt_of_lt_of_le (joinFold_lt w es h) (Nat.pow_le_pow_right (by omega) hl))

/-- A type's elements fill 64 bits or 32 (R61). -/
theorem typeBits (t : BitVec 3) : elemWidth t * elemCount t = if wideT t then 64 else 32 := by
  revert t; decide

/-- An operation whose results fit leaves, in each element, its result. -/
theorem perElem_element (t : BitVec 3) (f : Nat → Nat → Nat → Nat → Nat) (a b d : DWord)
    (hf : ∀ i, f (elemWidth t) (elemAt (elemWidth t) a i) (elemAt (elemWidth t) b i) (elemAt (elemWidth t) d i) < 2 ^ elemWidth t)
    (i : Nat) (hi : i < elemCount t) :
    (element (elemWidth t) (perElem t f a b d) i).toNat =
      f (elemWidth t) (element (elemWidth t) a i).toNat (element (elemWidth t) b i).toNat (element (elemWidth t) d i).toNat := by
  have hb := typeBits t
  have hl : ∀ e ∈ (List.range (elemCount t)).map (fun i => f (elemWidth t) (elemAt (elemWidth t) a i) (elemAt (elemWidth t) b i)
      (elemAt (elemWidth t) d i)), e < 2 ^ elemWidth t := by
    intro e he; obtain ⟨i, -, rfl⟩ := List.mem_map.mp he; exact hf i
  rw [element_toNat, elemAt, perElem, joinElems_toNat _ _ hl (by simp; split at hb <;> omega),
    joinFold _ _ hl i (by simpa using hi)]
  simp [element_toNat]

/-- A packed result of 32 bits has zeros above. -/
theorem perElem_narrow (t : BitVec 3) (f : Nat → Nat → Nat → Nat → Nat) (a b d : DWord)
    (hf : ∀ i, f (elemWidth t) (elemAt (elemWidth t) a i) (elemAt (elemWidth t) b i) (elemAt (elemWidth t) d i) < 2 ^ elemWidth t) :
    narrow (wideT t) (perElem t f a b d) = perElem t f a b d := by
  have hb := typeBits t
  have hl : ∀ e ∈ (List.range (elemCount t)).map (fun i => f (elemWidth t) (elemAt (elemWidth t) a i) (elemAt (elemWidth t) b i)
      (elemAt (elemWidth t) d i)), e < 2 ^ elemWidth t := by
    intro e he; obtain ⟨i, -, rfl⟩ := List.mem_map.mp he; exact hf i
  unfold narrow
  split
  · rfl
  · next hw =>
    rw [if_neg hw] at hb
    have h1 : (perElem t f a b d).toNat < 2 ^ 32 := by
      rw [perElem, joinElems_toNat _ _ hl (by simp; omega)]
      have := joinFold_lt _ _ hl
      simpa [hb] using this
    apply BitVec.eq_of_toNat_eq
    simp only [zext, bitsOf, BitVec.toNat_setWidth, BitVec.extractLsb'_toNat, Nat.shiftRight_zero]
    omega

/-- The low element of a value is its low half as it stands. -/
theorem element_low (n : Nat) (v : DWord) (i : Nat) (h : n * i + n ≤ 32) (u : DWord) (hu : bitsOf u 0 32 = bitsOf v 0 32) :
    element n u i = element n v i := by
  apply BitVec.eq_of_getLsbD_eq
  intro j hj
  have e := congrArg (fun b => b.getLsbD (n * i + j)) hu
  simp only [bitsOf, BitVec.getLsbD_extractLsb', Nat.zero_add] at e
  rw [decide_eq_true (by omega), Bool.true_and, Bool.true_and] at e
  simp only [element, BitVec.getLsbD_extractLsb', hj, decide_true, Bool.true_and]
  exact e

/-- An integer word completes, when its operation on naturals is the one on bit vectors. -/
theorem integerWord_of (mk : AWord → Instr) (f : BitVec 3 → Nat → Nat → Nat → Nat → Nat)
    (op : BitVec 3 → (n : Nat) → BitVec n → BitVec n → BitVec n → BitVec n)
    (hx : ∀ w s, exec (mk w) s = s.runLanes (mk w) (intEff w (f w.t)))
    (hd : ∀ w, w.u = false → (operands (mk w)).vd ≠ [])
    (hf : ∀ (t : BitVec 3) (a b d : BitVec (elemWidth t)),
      f t (elemWidth t) a.toNat b.toNat d.toNat = (op t (elemWidth t) a b d).toNat) : IntegerWord mk op := by
  intro s x w hr hg hw wide a b d
  have hfit : ∀ (p q r : DWord) (i : Nat), f w.t (elemWidth w.t) (elemAt (elemWidth w.t) p i) (elemAt (elemWidth w.t) q i)
      (elemAt (elemWidth w.t) r i) < 2 ^ elemWidth w.t := by
    intro p q r i
    rw [← element_toNat, ← element_toNat, ← element_toNat, hf]
    exact BitVec.isLt _
  have hel : ∀ (p q r : DWord), Elementwise w.t (op w.t) p q r (perElem w.t (f w.t) p q r) := by
    intro p q r i hi
    apply BitVec.eq_of_toNat_eq
    rw [perElem_element _ _ _ _ _ (hfit p q r) i hi, hf]
  let F : Issue → Device → Nat → LaneVal := fun x d l =>
    (perElem w.t (f w.t) (w.aVal x.view (d.view x.agent) wide l) (w.bVal (intImm w.t) x.view (d.view x.agent) wide l) (w.dVal x.view wide l), 0)
  have hflags : orFlags (x.lanesWith (F x s.dev)) = 0 := by
    simp only [orFlags, Issue.lanesWith, F, List.foldl_map]
    induction x.act with
    | nil => rfl
    | cons l ls ih => simp
  cases hu : w.u with
  | false =>
    obtain ⟨t, ht, hwr⟩ := s.putA_lanes x (mk w) w wide (w.t == 0) F (intEff w (f w.t)) rfl hr hg hw hu (hd w hu)
    rw [hflags] at hwr
    refine ⟨t, fun l => narrow wide (F x s.dev l).1, (hx w s).trans ht, fun _ => ⟨hwr, fun l _ => ?_⟩, by simp⟩
    have := perElem_narrow w.t (f w.t) (a l) (b l) (d l) (hfit _ _ _)
    show Elementwise _ _ _ _ _ (narrow wide _)
    rw [this]
    exact hel _ _ _
  | true =>
    obtain ⟨t, ht, hwr⟩ := s.putA_uni x (mk w) w wide (w.t == 0) F (intEff w (f w.t)) rfl hr hg hw hu
    refine ⟨t, fun _ => uniValue wide (w.t == 0) (F x s.dev x.lead).1, (hx w s).trans ht, by simp, fun _ => ⟨hwr, ?_, ?_⟩⟩
    · have hlow : ∀ i < elemCount w.t, element (elemWidth w.t) (uniValue wide (w.t == 0) (F x s.dev x.lead).1) i =
          element (elemWidth w.t) (F x s.dev x.lead).1 i := by
        intro i hi
        unfold uniValue
        split
        · rfl
        · next hn =>
          have hb := typeBits w.t
          rw [if_neg hn] at hb
          have hle : elemWidth w.t * i + elemWidth w.t ≤ 32 := by
            calc elemWidth w.t * i + elemWidth w.t = elemWidth w.t * (i + 1) := by ring
              _ ≤ elemWidth w.t * elemCount w.t := Nat.mul_le_mul_left _ hi
              _ = 32 := hb
          split
          · refine element_low _ _ i hle _ ?_
            apply BitVec.eq_of_getLsbD_eq
            intro j hj
            simp only [bitsOf, sext, BitVec.getLsbD_extractLsb', BitVec.getLsbD_signExtend, hj, decide_true, Bool.true_and, Nat.zero_add, if_true]
            simp [show j < 64 by omega]
          · refine element_low _ _ i hle _ ?_
            apply BitVec.eq_of_getLsbD_eq
            intro j hj
            simp only [bitsOf, zext, BitVec.getLsbD_extractLsb', BitVec.getLsbD_setWidth, hj, decide_true, Bool.true_and, Nat.zero_add]
            simp [show j < 64 by omega]
      intro i hi
      rw [hlow i hi]
      exact hel _ _ _ i hi
    · intro hn
      have hn' : wide = false := hn
      have low32 : ∀ (y : DWord) (z : DWord), (z = sext (bitsOf y 0 32) ∨ z = zext (bitsOf y 0 32)) → bitsOf z 0 32 = bitsOf y 0 32 := by
        intro y z hz
        apply BitVec.eq_of_getLsbD_eq
        intro j hj
        rcases hz with rfl | rfl
        · simp only [bitsOf, sext, BitVec.getLsbD_extractLsb', BitVec.getLsbD_signExtend, hj, decide_true, Bool.true_and, Nat.zero_add, if_true]
          simp [show j < 64 by omega]
        · simp only [bitsOf, zext, BitVec.getLsbD_extractLsb', BitVec.getLsbD_setWidth, hj, decide_true, Bool.true_and, Nat.zero_add]
          simp [show j < 64 by omega]
      simp only [uniValue, hn', Bool.false_eq_true, if_false, beq_iff_eq]
      split
      · rw [low32 _ _ (.inl rfl)]
      · rw [low32 _ _ (.inr rfl)]

end Sys2Proof.Machine
end

