-- ==== Sys2Proof/Laws/Memory.lean ====
section
/-! SUPPORT. Memory: every operation keeps the canonical form, a byte written reads back, and other bytes stay. -/

namespace Sys2Proof.Machine

/-! Operations that leave the bytes alone. -/

@[simp] theorem Device.l2Insert_mem (d : Device) (n : Nat) (b : Option (List Byte)) : (d.l2Insert n b).mem = d.mem := rfl
@[simp] theorem Device.l2Insert_scratch (d : Device) (n : Nat) (b : Option (List Byte)) :
    (d.l2Insert n b).scratch = d.scratch := rfl
@[simp] theorem Device.l2Insert_blocks (d : Device) (n : Nat) (b : Option (List Byte)) :
    (d.l2Insert n b).blocks = d.blocks := rfl

@[simp] theorem Device.touch_mem (d : Device) (w : Bool) (n : Nat) : (d.touch w n).mem = d.mem := rfl
@[simp] theorem Device.touch_scratch (d : Device) (w : Bool) (n : Nat) : (d.touch w n).scratch = d.scratch := rfl
@[simp] theorem Device.touch_blocks (d : Device) (w : Bool) (n : Nat) : (d.touch w n).blocks = d.blocks := rfl

@[simp] theorem Device.fillEntry_mem (d : Device) (w : Bool) (l : Loc) : (d.fillEntry w l).mem = d.mem := by
  cases l <;> try rfl
  unfold Device.fillEntry; dsimp only; split <;> rfl
@[simp] theorem Device.fillEntry_scratch (d : Device) (w : Bool) (l : Loc) : (d.fillEntry w l).scratch = d.scratch := by
  cases l <;> try rfl
  unfold Device.fillEntry; dsimp only; split <;> rfl

@[simp] theorem Device.modEntries_mem (d : Device) (ks : List StashEntry) (n : Nat) (f : StashMap → (Nat → Bool) → StashMap) :
    (d.modEntries ks n f).mem = d.mem := by
  unfold Device.modEntries; split <;> rfl
@[simp] theorem Device.modEntries_scratch (d : Device) (ks : List StashEntry) (n : Nat) (f : StashMap → (Nat → Bool) → StashMap) :
    (d.modEntries ks n f).scratch = d.scratch := by
  unfold Device.modEntries; split <;> rfl
@[simp] theorem Device.unfill_mem (d : Device) (ks : List StashEntry) (n : Nat) : (d.unfill ks n).mem = d.mem := by
  simp [Device.unfill]
@[simp] theorem Device.unfill_scratch (d : Device) (ks : List StashEntry) (n : Nat) : (d.unfill ks n).scratch = d.scratch := by
  simp [Device.unfill]
@[simp] theorem Device.cleanEntries_mem (d : Device) (ks : List StashEntry) (n : Nat) : (d.cleanEntries ks n).mem = d.mem := by
  simp [Device.cleanEntries]
@[simp] theorem Device.cleanEntries_scratch (d : Device) (ks : List StashEntry) (n : Nat) : (d.cleanEntries ks n).scratch = d.scratch := by
  simp [Device.cleanEntries]

@[simp] theorem Device.cured_mem (d : Device) (ls : List Loc) : (d.cured ls).mem = d.mem := by
  unfold Device.cured; split <;> rfl
@[simp] theorem Device.cured_scratch (d : Device) (ls : List Loc) : (d.cured ls).scratch = d.scratch := by
  unfold Device.cured; split <;> rfl

@[simp] theorem Device.endIdle_mem (d : Device) (f : Nat → Bool) : (d.endIdle f).mem = d.mem := rfl
@[simp] theorem Device.endIdle_scratch (d : Device) (f : Nat → Bool) : (d.endIdle f).scratch = d.scratch := rfl

@[simp] theorem Device.wakeLine_mem (d : Device) (n : Nat) : (d.wakeLine n).mem = d.mem := by
  unfold Device.wakeLine; dsimp only; split <;> rfl
@[simp] theorem Device.wakeLine_scratch (d : Device) (n : Nat) : (d.wakeLine n).scratch = d.scratch := by
  unfold Device.wakeLine; dsimp only; split <;> rfl

/-- A fold of steps that keep a property keeps it. -/
theorem foldl_keeps {α β : Type} (P : β → Prop) (f : β → α → β) (l : List α) (h : ∀ b a, P b → P (f b a)) (b : β) (hb : P b) :
    P (l.foldl f b) := by
  induction l generalizing b with
  | nil => exact hb
  | cons a l ih => exact ih _ (h b a hb)

/-- A fold of steps that leave a field alone leaves it alone. -/
theorem foldl_field {α β γ : Type} (g : β → γ) (f : β → α → β) (l : List α) (h : ∀ b a, g (f b a) = g b) (b : β) :
    g (l.foldl f b) = g b := by
  induction l generalizing b with
  | nil => rfl
  | cons a l ih => rw [List.foldl_cons, ih, h]

@[simp] theorem Device.touchLoads_mem (d : Device) (ls : List Loc) : (d.touchLoads ls).mem = d.mem := by
  unfold Device.touchLoads
  rw [foldl_field Device.mem _ _ (by simp), foldl_field Device.mem _ _ (by simp)]
@[simp] theorem Device.touchLoads_scratch (d : Device) (ls : List Loc) : (d.touchLoads ls).scratch = d.scratch := by
  unfold Device.touchLoads
  rw [foldl_field Device.scratch _ _ (by simp), foldl_field Device.scratch _ _ (by simp)]

/-! The canonical form. -/

theorem Device.memWf_of_eq {d e : Device} (hm : e.mem = d.mem) (hs : e.scratch = d.scratch) (h : d.memWf = true) :
    e.memWf = true := by
  simpa [Device.memWf, hm, hs] using h

theorem Device.setByte_memWf (d : Device) (l : Loc) (x : Byte) (h : d.memWf = true) : (d.setByte l x).memWf = true := by
  simp only [Device.memWf, Memory.wf, Bool.and_eq_true] at h ⊢
  unfold Device.setByte
  split
  · exact ⟨Fmap.wf_set 0 d.mem _ x h.1, h.2⟩
  · exact ⟨h.1, Fmap.wf_set 0 d.scratch _ x h.2⟩
  · exact h
  · exact h

/-- Stores keep memory in its canonical form. -/
theorem Device.storeAll_memWf (d : Device) (ws : List (Loc × Byte)) (h : d.memWf = true) : (d.storeAll ws).memWf = true := by
  have keep : ∀ {α : Type} (f : Device → α → Device) (l : List α) (d : Device), (∀ d a, (f d a).mem = d.mem) →
      (∀ d a, (f d a).scratch = d.scratch) → d.memWf = true → (l.foldl f d).memWf = true := by
    intro α f l d hm hs hd
    exact Device.memWf_of_eq (foldl_field Device.mem f l hm d) (foldl_field Device.scratch f l hs d) hd
  unfold Device.storeAll
  dsimp only
  have h3 := foldl_keeps (fun d : Device => d.memWf = true) (fun d (p : Loc × Byte) => d.setByte p.1 p.2) ws
    (fun d p hd => d.setByte_memWf p.1 p.2 hd) _
    (keep (fun d l => d.fillEntry true l) (ws.map Prod.fst) _ (by simp) (by simp)
      (keep (fun d n => d.touch true n) (d.linesOf (ws.map Prod.fst)) d (by simp) (by simp) h))
  have h4 := keep (fun d n => d.unfill (entriesOf (ws.map Prod.fst)) n) (d.linesOf (ws.map Prod.fst)) _ (by simp) (by simp)
    (Device.memWf_of_eq (Device.cured_mem _ (ws.map Prod.fst)) (Device.cured_scratch _ _) h3)
  split
  · exact h4
  · exact keep _ _ _ (by simp) (by simp) h4

theorem Device.storeValue_memWf (d : Device) (ls : List Loc) (x : DWord) (h : d.memWf = true) :
    (d.storeValue ls x).memWf = true := Device.storeAll_memWf d _ h
/-- So do those of the distributor and the Hamada cores. -/
theorem Device.errorMet_mem (d : Device) (u : Piece) : (d.errorMet u).mem = d.mem := by
  unfold Device.errorMet Device.logPiece Device.logEntry; dsimp only; split <;> rfl
theorem Device.errorMet_scratch (d : Device) (u : Piece) : (d.errorMet u).scratch = d.scratch := by
  unfold Device.errorMet Device.logPiece Device.logEntry; dsimp only; split <;> rfl
theorem Device.firmNow_memWf (d : Device) (ws : List (Loc × Byte)) (h : d.memWf = true) : (d.firmNow ws).memWf = true := by
  have h1 : ((d.hostGives (ws.map Prod.fst)).storeAll ws).memWf = true := Device.storeAll_memWf _ ws h
  unfold Device.firmNow
  dsimp only
  split
  · exact Device.memWf_of_eq (Device.errorMet_mem _ _) (Device.errorMet_scratch _ _) h1
  · exact h1
theorem Device.firmFlush_memWf (wss : List (List (Loc × Byte))) : ∀ d : Device, d.memWf = true → (d.firmFlush wss).memWf = true := by
  induction wss with
  | nil => exact fun d h => h
  | cons ws rest ih =>
    intro d h
    unfold Device.firmFlush
    split
    · exact h
    · exact ih _ (d.firmNow_memWf ws h)
theorem Device.firmStore_memWf (d : Device) (ws : List (Loc × Byte)) (h : d.memWf = true) : (d.firmStore ws).memWf = true :=
  Device.firmFlush_memWf _ d h

/-- Reset leaves memory with nothing listed. -/
theorem State.reset_memWf : State.reset.dev.memWf = true := rfl

/-! Read after write. -/

/-- A location that a mapping does not move. -/
theorem Device.settle_mem (d : Device) (pa : Nat) : d.settle (.mem pa) = .mem pa := rfl

/-- A byte written to memory reads back, and every other byte of memory stays. -/
theorem Device.byteAt_setByte_mem (d : Device) (pa pb : Nat) (x : Byte) (h : d.memWf = true) :
    (d.setByte (.mem pa) x).byteAt (.mem pb) = if pb = pa then x else d.byteAt (.mem pb) := by
  simp only [Device.memWf, Memory.wf, Bool.and_eq_true] at h
  simp only [Device.setByte, Device.byteAt, Device.settle]
  split
  · next e => subst e; exact Fmap.get_set_same 0 none d.mem pb x h.1
  · next e => exact Fmap.get_set_other 0 none d.mem pa pb x h.1 e

end Sys2Proof.Machine
end

