-- ==== Sys2Proof/Laws/Xmss.lean ====
section
/-! SUPPORT. What a key signs verifies under its public key (R438 to R440). -/

namespace Sys2Proof.Machine

theorem lanesOf_length (f : Nat → Nat → DWord) : (lanesOf f).length = 25 := by simp [lanesOf]

theorem keccakF_length (a : List DWord) (h : a.length = 25) : (keccakF a).length = 25 := by
  unfold keccakF
  generalize keccakConsts = ks
  induction ks generalizing a with
  | nil => exact h
  | cons k ks ih =>
    rw [List.foldl_cons]
    exact ih _ (by simp [keccakChi, lanesOf_length])

/-- A digest has 32 bytes. -/
theorem shake256_length (m : List Byte) : (shake256 m).length = 32 := by
  unfold shake256
  dsimp only
  generalize (shakePad m).length / shakeRate = n
  have h : ∀ (xs : List Nat) (f : List DWord → Nat → List DWord) (s : List DWord), (∀ s i, (f s i).length = 25) → s.length = 25 →
      (xs.foldl f s).length = 25 := by
    intro xs f
    induction xs with
    | nil => exact fun s _ h => h
    | cons x xs ih => exact fun s hf _ => ih _ hf (hf s x)
  have hl := h (List.range n) _ (List.replicate 25 0) (fun s i => keccakF_length ((List.range 25).map (fun k => (s[k]?).getD 0 ^^^
    (fun (bs : List Byte) (k : Nat) => if k < 17 then BitVec.ofNat 64 (bytesNat ((bs.drop (8 * k)).take 8)) else 0)
      (((shakePad m).drop (shakeRate * i)).take shakeRate) k)) (by simp)) (by simp)
  generalize (List.range n).foldl _ (List.replicate 25 (0 : DWord)) = s at hl ⊢
  rw [List.length_flatMap]
  have : ((s.take 4).map (fun x => (bytesOf 8 x).length)) = (s.take 4).map (fun _ => 8) := by
    apply List.map_congr_left; intro x _; simp [bytesOf]
  rw [this]
  simp [hl]

theorem toByte_length (n x : Nat) : (toByte n x).length = n := by simp [toByte]
theorem xmssHash_length (k : Nat) (key m : List Byte) : (xmssHash k key m).length = 32 := shake256_length _
theorem randHash_length (seed : List Byte) (x : XmssAdrs) (l r : List Byte) : (randHash seed x l r).length = 32 := xmssHash_length ..

theorem wotsChain_add (seed : List Byte) (ots i n m k : Nat) (v : List Byte) :
    wotsChain seed ots i (n + m) k v = wotsChain seed ots i m (k + n) (wotsChain seed ots i n k v) := by
  induction n generalizing k v with
  | zero => simp [wotsChain]
  | succ n ih =>
    rw [Nat.succ_add]
    simp only [wotsChain]
    rw [ih]
    congr 1
    omega

theorem wotsChain_length (seed : List Byte) (ots i n k : Nat) (v : List Byte) (h : v.length = 32) :
    (wotsChain seed ots i n k v).length = 32 := by
  induction n generalizing k v with
  | zero => exact h
  | succ n ih => exact ih _ _ (xmssHash_length ..)

theorem lTree_length (seed : List Byte) (ots fuel : Nat) : ∀ (level : Nat) (vs : List (List Byte)), vs ≠ [] → (∀ v ∈ vs, v.length = 32) →
    (lTree seed ots fuel level vs).length = 32 := by
  induction fuel with
  | zero =>
    intro level vs hn hv
    obtain ⟨v, vs, rfl⟩ := List.exists_cons_of_ne_nil hn
    exact hv v List.mem_cons_self
  | succ fuel ih =>
    intro level vs hn hv
    unfold lTree
    split
    · obtain ⟨v, vs, rfl⟩ := List.exists_cons_of_ne_nil hn
      exact hv v List.mem_cons_self
    · next hl =>
      apply ih
      · have : 0 < vs.length / 2 := by omega
        split
        · simp
        · simp; omega
      · intro v hm
        have hup : ∀ v ∈ (List.range (vs.length / 2)).map (fun i =>
            randHash seed { type := 1, a := ots, b := level, c := i } ((vs[2 * i]?).getD []) ((vs[2 * i + 1]?).getD [])), v.length = 32 := by
          intro v hv
          obtain ⟨i, -, rfl⟩ := List.mem_map.mp hv
          exact randHash_length ..
        split at hm
        · rcases List.mem_append.mp hm with h | h
          · exact hup v h
          · rw [List.mem_singleton.mp h, List.getElem?_eq_getElem (by omega)]
            exact hv _ (List.getElem_mem _)
        · exact hup v hm

theorem XmssKey.leaf_length (k : XmssKey) (ots : Nat) : (k.leaf ots).length = 32 := by
  apply lTree_length
  · simp [wotsLen]
  · intro v hv
    obtain ⟨i, -, rfl⟩ := List.mem_map.mp hv
    exact wotsChain_length _ _ _ _ _ _ (xmssHash_length ..)

theorem XmssKey.node_length (k : XmssKey) (l i : Nat) : (k.node l i).length = 32 := by
  cases l with
  | zero => exact k.leaf_length i
  | succ l => exact randHash_length ..

theorem wotsDigits_length (m : List Byte) (h : m.length = 32) : (wotsDigits m).length = wotsLen := by
  simp [wotsDigits, wotsLen, List.length_flatMap, h]

theorem wotsDigits_le (m : List Byte) : ∀ x ∈ wotsDigits m, x ≤ 15 := by
  intro x hx
  simp only [wotsDigits, List.mem_append, List.mem_flatMap, List.mem_cons, List.not_mem_nil, or_false] at hx
  rcases hx with ⟨b, -, rfl | rfl⟩ | rfl | rfl | rfl
  · have := b.isLt; omega
  all_goals omega

/-- Strings of 32 bytes one after another. -/
theorem flatten_piece (xs : List (List Byte)) (h : ∀ x ∈ xs, x.length = 32) (post : List Byte) (i : Nat) (hi : i < xs.length) :
    ((xs.flatten ++ post).drop (32 * i)).take 32 = xs[i] := by
  induction xs generalizing i with
  | nil => simp at hi
  | cons x xs ih =>
    have hx := h x List.mem_cons_self
    cases i with
    | zero => simp [hx]
    | succ i =>
      rw [List.flatten_cons, List.append_assoc, show 32 * (i + 1) = x.length + 32 * i by omega, List.drop_length_add_append]
      exact ih (fun y hy => h y (List.mem_cons_of_mem _ hy)) i (by simpa using hi)

theorem pieces32_append (pre : List Byte) (xs : List (List Byte)) (post : List Byte) (h : ∀ x ∈ xs, x.length = 32) :
    pieces32 (pre ++ (xs.flatten ++ post)) pre.length xs.length = xs := by
  apply List.ext_getElem
  · simp [pieces32]
  · intro i h1 h2
    simp only [pieces32, List.getElem_map, List.getElem_range]
    rw [List.drop_length_add_append]
    exact flatten_piece xs h post i h2

theorem toByte_four (x : Nat) (h : x < 2 ^ 32) : (toByte 4 x).foldl (fun acc b => 256 * acc + b.toNat) 0 = x := by
  simp [toByte, List.range_succ]
  omega

/-- The nodes beside a leaf's path lead to the node above it. -/
theorem XmssKey.climb (k : XmssKey) (n : Nat) : ∀ l i,
    xmssClimb k.seed ((List.range n).map (fun j => k.node (l + j) (i / 2 ^ j + 1 - 2 * (i / 2 ^ j % 2)))) l i (k.node l i) =
      k.node (l + n) (i / 2 ^ n) := by
  induction n with
  | zero => intro l i; simp [xmssClimb]
  | succ n ih =>
    intro l i
    rw [List.range_succ_eq_map]
    simp only [List.map_cons, List.map_map, xmssClimb, Nat.pow_zero, Nat.div_one, Nat.add_zero]
    have hnode : (if i % 2 == 0 then randHash k.seed { type := 2, a := 0, b := l, c := i / 2 } (k.node l i) (k.node l (i + 1 - 2 * (i % 2)))
        else randHash k.seed { type := 2, a := 0, b := l, c := i / 2 } (k.node l (i + 1 - 2 * (i % 2))) (k.node l i)) = k.node (l + 1) (i / 2) := by
      show _ = randHash _ _ _ _
      rcases Nat.mod_two_eq_zero_or_one i with h | h
      · simp only [h, beq_self_eq_true, if_true]
        congr 2 <;> omega
      · simp only [h]
        rw [if_neg (by simp)]
        congr 2 <;> omega
    rw [hnode]
    have := ih (l + 1) (i / 2)
    rw [show l + (n + 1) = l + 1 + n by omega, Nat.pow_succ', ← Nat.div_div_eq_div_mul, ← this]
    congr 1
    apply List.map_congr_left
    intro j _
    simp only [Function.comp_apply, Nat.succ_eq_add_one]
    rw [show l + (j + 1) = l + 1 + j by omega, Nat.pow_succ', ← Nat.div_div_eq_div_mul]

/-- What a key signs with one of its indices verifies under its public key. -/
theorem XmssKey.verify_sign (k : XmssKey) (height idx : Nat) (m : List Byte) (hs : k.seed.length = 32) (hh : height ≤ 32) (hi : idx < 2 ^ height) :
    xmssVerify height (k.pub height) m (k.sign height idx m) = true := by
  have hi32 : idx < 2 ^ 32 := lt_of_lt_of_le hi (Nat.pow_le_pow_right (by omega) hh)
  have hroot := k.node_length height 0
  have hr : (xmssHash 3 k.prf (toByte 32 idx)).length = 32 := xmssHash_length ..
  unfold XmssKey.sign XmssKey.pub
  dsimp only
  generalize hrd : xmssHash 3 k.prf (toByte 32 idx) = r at hr ⊢
  generalize hroot' : k.node height 0 = root at hroot ⊢
  set dg := xmssDigest r root idx m with hdg
  have hdl : dg.length = 32 := xmssHash_length ..
  have hots : (k.ots idx dg).length = wotsLen := by simp [XmssKey.ots, wotsDigits_length dg hdl]
  have hots32 : ∀ x ∈ k.ots idx dg, x.length = 32 := by
    intro x hx
    simp only [XmssKey.ots, List.mem_mapIdx] at hx
    obtain ⟨i, hi, rfl⟩ := hx
    exact wotsChain_length _ _ _ _ _ _ (xmssHash_length ..)
  have hpl : (k.path height idx).length = height := by simp [XmssKey.path]
  have hp32 : ∀ x ∈ k.path height idx, x.length = 32 := by
    intro x hx
    obtain ⟨l, -, rfl⟩ := List.mem_map.mp hx
    exact k.node_length ..
  have flen : ∀ xs : List (List Byte), (∀ x ∈ xs, x.length = 32) → xs.flatten.length = 32 * xs.length := by
    intro xs h
    induction xs with
    | nil => rfl
    | cons x xs ih => simp [h x List.mem_cons_self, ih (fun y hy => h y (List.mem_cons_of_mem _ hy))]; omega
  have hof := flen _ hots32
  have hpf := flen _ hp32
  have h4 : (toByte 4 idx).length = 4 := toByte_length ..
  have hsig : xmssSig idx r (k.ots idx dg) (k.path height idx) =
      toByte 4 idx ++ (r ++ ((k.ots idx dg).flatten ++ (k.path height idx).flatten)) := by simp [xmssSig, List.append_assoc]
  have hidx : (List.take 4 (xmssSig idx r (k.ots idx dg) (k.path height idx))).foldl (fun acc b => 256 * acc + b.toNat) 0 = idx := by
    rw [hsig, List.take_left' h4, toByte_four idx hi32]
  have hrr : ((xmssSig idx r (k.ots idx dg) (k.path height idx)).drop 4).take 32 = r := by
    rw [hsig, List.drop_left' h4, List.take_left' hr]
  have hpk : xmssPublic root k.seed = toByte 4 0x12 ++ (root ++ (k.seed ++ [])) := by simp [xmssPublic, List.append_assoc]
  have hpr : ((xmssPublic root k.seed).drop 4).take 32 = root := by
    rw [hpk, List.drop_left' (toByte_length ..), List.take_left' hroot]
  have hps : ((xmssPublic root k.seed).drop 36).take 32 = k.seed := by
    have h36 : (toByte 4 0x12 ++ root).length = 36 := by simp [toByte_length, hroot]
    rw [hpk, ← List.append_assoc, List.drop_left' h36, List.take_left' hs]
  have hpt : (xmssPublic root k.seed).take 4 = toByte 4 0x12 := by rw [hpk, List.take_left' (toByte_length ..)]
  have hplen : (xmssPublic root k.seed).length = 68 := by simp [xmssPublic, toByte_length, hroot, hs]
  have hslen : (xmssSig idx r (k.ots idx dg) (k.path height idx)).length = 36 + 32 * (wotsLen + height) := by
    rw [hsig]; simp only [List.length_append, h4, hr, hof, hpf, hots, hpl]; omega
  have hpieces : pieces32 (xmssSig idx r (k.ots idx dg) (k.path height idx)) 36 wotsLen = k.ots idx dg := by
    have h36 : (toByte 4 idx ++ r).length = 36 := by simp [h4, hr]
    have := pieces32_append (toByte 4 idx ++ r) (k.ots idx dg) (k.path height idx).flatten hots32
    rw [h36, hots, List.append_assoc] at this
    rw [hsig]; exact this
  have hside : pieces32 (xmssSig idx r (k.ots idx dg) (k.path height idx)) (36 + 32 * wotsLen) height = k.path height idx := by
    have hpre : (toByte 4 idx ++ (r ++ (k.ots idx dg).flatten)).length = 36 + 32 * wotsLen := by
      simp only [List.length_append, h4, hr, hof, hots]; omega
    have := pieces32_append (toByte 4 idx ++ (r ++ (k.ots idx dg).flatten)) (k.path height idx) [] hp32
    rw [hpre, hpl, List.append_nil] at this
    rw [hsig]
    simpa [List.append_assoc] using this
  have hends : (List.zip (wotsDigits dg) (k.ots idx dg)).mapIdx (fun i p => wotsChain k.seed idx i (15 - p.1) p.1 p.2) =
      (List.range wotsLen).map (fun i => wotsChain k.seed idx i 15 0 (k.start idx i)) := by
    apply List.ext_getElem
    · simp [wotsDigits_length dg hdl, hots]
    · intro i h1 h2
      have hd := wotsDigits_length dg hdl
      have hi67 : i < wotsLen := by simpa using h2
      simp only [List.getElem_mapIdx, List.getElem_zip, List.getElem_map, List.getElem_range, XmssKey.ots]
      have hle := wotsDigits_le dg (wotsDigits dg)[i] (List.getElem_mem (by omega))
      have := wotsChain_add k.seed idx i (wotsDigits dg)[i] (15 - (wotsDigits dg)[i]) 0 (k.start idx i)
      rw [show (wotsDigits dg)[i] + (15 - (wotsDigits dg)[i]) = 15 by omega, Nat.zero_add] at this
      exact this.symm
  have hleaf : wotsLeaf k.seed idx ((List.range wotsLen).map (fun i => wotsChain k.seed idx i 15 0 (k.start idx i))) = k.leaf idx := rfl
  have hclimb : xmssClimb k.seed (k.path height idx) 0 idx (k.leaf idx) = root := by
    have := k.climb height 0 idx
    simp only [Nat.zero_add, Nat.div_eq_of_lt hi] at this
    rw [← hroot']
    exact this
  unfold xmssVerify
  dsimp only
  rw [hpr, hps, hidx, hrr, hpt, hplen, hslen, hpieces, hside, ← hdg, hends, hleaf, hclimb]
  simp [hi]

end Sys2Proof.Machine
end

