-- ==== Sys2Proof/Tests/Slice0.lean ====
section
/-! SUPPORT. Tests of the model: words that are refused, words that the spec writes out, one step of instructions with the results that
the spec's own examples give, and for every statement with hypotheses a state that meets them. -/

namespace Sys2Proof.Tests

open Machine

set_option maxRecDepth 100000
set_option Elab.async false

/-! A small machine: one block of one group, whose slice 0 is live with its four lanes, in issue at packet 0. -/

/-- Only slice 0 is live. -/
def oneSlice (g : Group) : Group :=
  { g with slices := g.slices.mapIdx (fun i u => if i = 0 then u else { u with mask := 0, live := 0 }) }

/-- The device with a `nop` placed, and slice 0 of its group live. -/
def demoDev : Device := (State.reset.withFetchWord 32 0x01000000).dev.modGroup 0 0 oneSlice
/-- A device whose agent a has a packet in issue. -/
def issuing (a : Agent) (d : Device) : State := { dev := d, iss := some (d.issueOf a [0]), agenda := [], turn := 0 }
/-- The machine with its group altered, and slice 0 in issue. -/
def demo (f : Group → Group) : State := issuing (.group 0 0) (demoDev.modGroup 0 0 f)
/-- Bytes of memory. -/
def withBytes (pa : Nat) (bs : List Byte) (d : Device) : Device := { d with mem := Fmap.setAll 0 d.mem (bs.mapIdx (fun i b => (pa + i, b))) }
/-- The same with its memory altered too. -/
def demoMem (pa : Nat) (bs : List Byte) (f : Group → Group) : State := issuing (.group 0 0) ((withBytes pa bs demoDev).modGroup 0 0 f)
/-- A block whose stash has 16 KiB and holds bytes. -/
def demoStash (off : Nat) (bs : List Byte) (f : Group → Group) : State :=
  issuing (.group 0 0) ((demoDev.modBlock 0 (fun b =>
    { b with stashBytes := 16384, stash := Fmap.setAll 0 [] (bs.mapIdx (fun i x => (off + i, x))) })).modGroup 0 0 f)
/-- Bytes of memory and of the stash after a step. -/
def memNow (pa n : Nat) (t : State) : List Byte := (List.range n).map (fun i => t.dev.byteAt (.mem (pa + i)))
def stashNow (off n : Nat) (t : State) : List Byte := (List.range n).map (fun i => t.dev.byteAt (.stash 0 (off + i)))
/-- The cause, and whether the group runs in its handler or its launch has failed. -/
def failedNow (t : State) : Bool := (t.dev.ctx 0).state == .failed

/-- v registers of lane 0. -/
def lane0 (vs : List (Nat × Word)) (g : Group) : Group := { g with v := Fmap.setAll 0 g.v (vs.map (fun p => (p.1 * 256, p.2))) }
/-- A v register of the first lanes. -/
def lanes (r : Nat) (vs : List Word) (g : Group) : Group := { g with v := Fmap.setAll 0 g.v (vs.mapIdx (fun l x => (r * 256 + l, x))) }
/-- s registers. -/
def sregs (xs : List (Nat × DWord)) (g : Group) : Group := { g with s := Fmap.setAll 0 g.s xs }
/-- A predicate of lanes. -/
def preds (p : Nat) (ls : List Nat) (g : Group) : Group := { g with p := Fmap.setAll false g.p (ls.map (fun l => (p * 256 + l, true))) }

/-- The state after the instruction that these words are. -/
def after (w0 w1 : Word) (s : State) : Option State :=
  match decode w0 (some w1) with
  | .ok i => match exec i s with | .next t => some t | _ => none
  | .error _ => none

/-- What a v register of a lane holds once the fills still to come have been written. -/
def vNow (r l : Nat) (t : State) : Word :=
  match (t.dev.fills.flatMap Fill.v).find? (fun p => p.1 == r * 256 + l) with
  | some p => p.2
  | none => (t.dev.view (.group 0 0)).vAt r l
/-- The same of an s register. -/
def sNow (r : Nat) (t : State) : DWord :=
  match (t.dev.fills.flatMap Fill.s).find? (fun p => p.1 == r) with
  | some p => p.2
  | none => (t.dev.view (.group 0 0)).sAt r
/-- A predicate of a lane. -/
def pNow (p l : Nat) (t : State) : Bool := (t.dev.view (.group 0 0)).pAt p l
/-- The sticky flags, with those of fills still to come. -/
def flagsNow (t : State) : Flags := t.dev.fills.foldl (fun m f => m ||| f.flags) (t.dev.view (.group 0 0)).flags

/-- Lane 0 of v register r after these words on these registers of lane 0. -/
def gives (w0 w1 : Word) (vs : List (Nat × Word)) (r : Nat) : Option Word := (after w0 w1 (demo (lane0 vs))).map (vNow r 0)

abbrev nopWord : Word := 0x01000000

/-! Integers: the example of R141 to R144. -/

def intRegs : List (Nat × Word) := [(1, 0x7F8001FE), (2, 0x0180FF03)]
theorem test_add_i8x4 : gives 0x100C10A0 nopWord intRegs 3 = some 0x80000001 := by decide +kernel
/-- The product that the example prints, 53 969 558 271 430 650, is that of 0x0180FB03 (25 230 083). -/
theorem test_mulhi_n32 : gives 0x13101088 nopWord [(1, 0x7F8001FE), (2, 0x0180FB03)] 4 = some 0x00BFBD06 := by decide +kernel
theorem test_bfx_i32 : gives 0xA1141000 0x03000404 intRegs 5 = some 0xFFFFFFFF := by decide +kernel
theorem test_clz_n32 : gives 0x24181008 nopWord intRegs 6 = some 1 := by decide +kernel
theorem test_cmp_gt_i32 : (after 0x26501080 nopWord (demo (lane0 intRegs))).map (pNow 2 0) = some true := by decide +kernel
theorem test_sel : (after 0x271C1090 nopWord (demo (fun g => preds 2 [0] (lane0 intRegs g)))).map (vNow 7 0) = some 0x7F8001FE := by
  decide +kernel

/-- Worked from R141: the low word of 0x10001 * 0x10001; 5 - 7; the signed extremes of 0xFFFFFFFF (-1) and 1; -(-2^31). -/
theorem test_mul_i32 : gives 0x120C1080 nopWord [(1, 0x10001), (2, 0x10001)] 3 = some 0x00020001 := by decide +kernel
theorem test_sub_i32 : gives 0x110C1080 nopWord [(1, 5), (2, 7)] 3 = some 0xFFFFFFFE := by decide +kernel
theorem test_mad_i32 : gives 0x140C1080 nopWord [(1, 3), (2, 4), (3, 5)] 3 = some 17 := by decide +kernel
theorem test_min_i32 : gives 0x150C1080 nopWord [(1, 0xFFFFFFFF), (2, 1)] 3 = some 0xFFFFFFFF := by decide +kernel
theorem test_max_n32 : gives 0x160C1088 nopWord [(1, 0xFFFFFFFF), (2, 1)] 3 = some 0xFFFFFFFF := by decide +kernel
theorem test_abs_i32 : gives 0x170C1000 nopWord [(1, 0x80000000)] 3 = some 0x80000000 := by decide +kernel
theorem test_neg_i32 : gives 0x180C1000 nopWord [(1, 1)] 3 = some 0xFFFFFFFF := by decide +kernel
/-- Worked from R142: a count of 32 leaves 0, or the sign; rotation takes the count modulo 32. -/
theorem test_shl_by_width : gives 0x1D0C1088 nopWord [(1, 1), (2, 32)] 3 = some 0 := by decide +kernel
theorem test_shr_n32 : gives 0x1E0C1088 nopWord [(1, 0x80000000), (2, 31)] 3 = some 1 := by decide +kernel
theorem test_sra_by_width : gives 0x1F0C1080 nopWord [(1, 0x80000000), (2, 40)] 3 = some 0xFFFFFFFF := by decide +kernel
theorem test_rot_by_33 : gives 0x200C1088 nopWord [(1, 0x80000001), (2, 33)] 3 = some 3 := by decide +kernel
theorem test_popc_ctz : (gives 0x230C1008 nopWord [(1, 0xF0F0)] 3, gives 0x250C1008 nopWord [(1, 0x50)] 3) = (some 8, some 4) := by
  decide +kernel
theorem test_bfi_n32 : gives 0xA20C1008 0x03000804 [(1, 0xABC), (3, 0xFFFFFFFF)] 3 = some 0xFFFFFBCF := by decide +kernel
theorem test_logic : (gives 0x190C1088 nopWord [(1, 0xC), (2, 0xA)] 3, gives 0x1A0C1088 nopWord [(1, 0xC), (2, 0xA)] 3,
    gives 0x1B0C1088 nopWord [(1, 0xC), (2, 0xA)] 3, gives 0x1C0C1008 nopWord [(1, 0xC)] 3) =
    (some 8, some 0xE, some 6, some 0xFFFFFFF3) := by decide +kernel

/-! Floats: the example of R146 to R154. -/

def floatRegs : List (Nat × Word) :=
  [(1, 0x3F800000), (2, 0x33800000), (4, 0xBF800000), (6, 0x7FC00000), (8, 0x3E800000), (9, 0x40403FC0), (10, 0xBF004000)]
theorem test_fadd_rd : (after 0x280C10A8 nopWord (demo (lane0 floatRegs))).map (fun t => (vNow 3 0 t, flagsNow t)) =
    some (0x3F800000, 1) := by decide +kernel
theorem test_fma_f32 : gives 0x2B101080 nopWord floatRegs 4 = some 0xBF7FFFFF := by decide +kernel
theorem test_fmax_quiet_nan : (after 0x2D141180 nopWord (demo (lane0 floatRegs))).map (fun t => (vNow 5 0 t, flagsNow t)) =
    some (0x3F800000, 0) := by decide +kernel
theorem test_fdot2_bf16x2 : gives 0x34209290 nopWord floatRegs 8 = some 0x3FE00000 := by decide +kernel
theorem test_fpack_f16x2 : (after 0x352C1088 nopWord (demo (lane0 floatRegs))).map (fun t => (vNow 11 0 t, flagsNow t)) =
    some (0x00013C00, 0) := by decide +kernel
theorem test_getsv_fflags : (after 0x6630A000 nopWord (demo (fun g => { g with flags := 1 }))).map (vNow 12 0) = some 1 := by
  decide +kernel
/-- Worked from R146 to R152: 1 - 1 is +0; 3 * 0.5 is 1.5; -0 lies below +0; 1.0 is positive and normal, bit 8; 1.5 * 2^2 is 6;
2.5 is nearest to the even 2; two halves widen. -/
theorem test_fsub_f32 : gives 0x290C1080 nopWord [(1, 0x3F800000), (2, 0x3F800000)] 3 = some 0 := by decide +kernel
theorem test_fmul_immediate : gives 0xAA144000 0x033F0000 [(4, 0x40400000)] 5 = some 0x3FC00000 := by decide +kernel
theorem test_fmin_zeros : gives 0x2C0C1080 nopWord [(1, 0), (2, 0x80000000)] 3 = some 0x80000000 := by decide +kernel
theorem test_fneg_fabs : (gives 0x2E0C1000 nopWord [(1, 0x7FC00000)] 3, gives 0x2F0C1000 nopWord [(1, 0xBF800000)] 3) =
    (some 0xFFC00000, some 0x3F800000) := by decide +kernel
theorem test_fclass_one : gives 0x310C1000 nopWord [(1, 0x3F800000)] 3 = some 0x100 := by decide +kernel
theorem test_fscale_f32 : gives 0x320C1080 nopWord [(1, 0x3FC00000), (2, 2)] 3 = some 0x40C00000 := by decide +kernel
theorem test_frnd_tie : gives 0x330C1000 nopWord [(1, 0x40200000)] 3 = some 0x40000000 := by decide +kernel
theorem test_funpk_f16x2 : (after 0x36101008 nopWord (demo (lane0 [(1, 0x40003C00)]))).map (fun t => (vNow 4 0 t, vNow 5 0 t)) =
    some (0x3F800000, 0x40000000) := by decide +kernel
/-- R149: `lt` of 1.0 and 2.0. -/
theorem test_fcmp_lt : (after 0x30481080 nopWord (demo (lane0 [(1, 0x3F800000), (2, 0x40000000)]))).map (pNow 2 0) = some true := by
  decide +kernel
/-- The example of R157. -/
theorem test_cvt_i32_rz : (after 0x3C081A10 nopWord (demo (lane0 [(1, 0xC0300000)]))).map (fun t => (vNow 2 0 t, flagsNow t)) =
    some (0xFFFFFFFE, 1) := by decide +kernel
theorem test_cvt_n32_rz : (after 0x3C0C1A18 nopWord (demo (lane0 [(1, 0xC0300000)]))).map (fun t => (vNow 3 0 t, flagsNow t)) =
    some (0, 16) := by decide +kernel
/-- The example of the correctly rounded functions, and 1/4, 2^2 and log2 4 (R252). -/
theorem test_frsq_fsqrt : (gives 0x380C1000 nopWord [(1, 0x40800000)] 3, gives 0x39081000 nopWord [(1, 0x40800000)] 2) =
    (some 0x3F000000, some 0x40000000) := by decide +kernel
theorem test_frcp_fexp2_flog2 : (gives 0x37081000 nopWord [(1, 0x40800000)] 2, gives 0x3A081000 nopWord [(1, 0x40000000)] 2,
    gives 0x3B081000 nopWord [(1, 0x40800000)] 2) = (some 0x3E800000, some 0x40800000, some 0x40000000) := by decide +kernel
/-- The example of R258: BFP4 of 3.0, -0.75, 0.1, 7.5 and zeros, with the scale in the low byte and the mantissa above it (R158). -/
theorem test_bfp_block :
    let r := bfpConvert 4 ([0x40400000, 0xBF400000, 0x3DCCCCCD, 0x40F00000].map FFmt.f32.decode ++ List.replicate 12 (.fin false 0 0))
    (r.scale, r.mants, r.flags) = (0x82, [3, -1, 0, 7] ++ List.replicate 12 0, fInexact ||| fUnderflow) := by decide +kernel

/-! Moves: the example of R162. -/
theorem test_movi_f32 : gives 0xC1041000 0x033FC000 [] 1 = some 0x3FC00000 := by decide +kernel
theorem test_mov_n32_s5 : (after 0x400C5048 nopWord (demo (sregs [(5, 7)]))).map (vNow 3 0) = some 7 := by decide +kernel

/-! Lanes: the examples of R265, R271, R272, R275, R276 and R278. -/
theorem test_lmov_xor : (after 0xC20C1008 0x03000101 (demo (lanes 1 [0, 10, 20, 30]))).map (fun t => (List.range 4).map (fun l => vNow 3 l t)) =
    some [10, 0, 30, 20] := by decide +kernel
theorem test_bcast : (after 0xC31C3008 0x03000002 (demo (lanes 3 [10, 0, 30, 20]))).map (sNow 7) = some 30 := by decide +kernel
theorem test_vred_add_tree : (after 0x440C1000 nopWord (demo (lanes 1 [0x4B800000, 0x3F800000, 0x3F800000, 0x3F800000]))).map
    (fun t => (vNow 3 0 t, flagsNow t)) = some (0x4B800001, 1) := by decide +kernel
theorem test_vscan_add_excl_w32 : (after 0x45102708 nopWord (demo (lanes 2 [2, 0, 1, 3]))).map (fun t => (List.range 4).map (fun l => vNow 4 l t)) =
    some [0, 2, 2, 3] := by decide +kernel
theorem test_vote_ballot : (after 0x46143C80 nopWord (demo (preds 3 [1]))).map (fun t => (vNow 5 0 t, vNow 5 1 t)) = some (2, 0) := by
  decide +kernel
theorem test_sample : (after 0x47181090 nopWord (demo (fun g => sregs [(2, 0x3F000000)] (lanes 1 [0x3F000000, 0, 0x3FC00000, 0x40000000] g)))).map
    (fun t => (vNow 6 0 t, pNow 2 0 t)) = some (3, false) := by decide +kernel

/-! Byte strings: the examples of R345 to R348. -/
def textRegs : List (Nat × Word) := [(1, 0x656E7564), (2, 0x74737564)]
theorem test_bcmp : (gives 0x600C1080 nopWord textRegs 3, gives 0x60101098 nopWord textRegs 4) = (some 3, some 2) := by decide +kernel
theorem test_bfind_byte : gives 0xE1141000 0x0300006E textRegs 5 = some 0x0402 := by decide +kernel
theorem test_bperm : gives 0xE2181000 0x03000123 textRegs 6 = some 0x64756E65 := by decide +kernel
/-- The check value of CRC-32C of "123456789", 0xE3069283, is the complement of the last result. -/
theorem test_hcrc_check_value : ((gives 0x63241258 nopWord [(1, 0x34333231), (9, 0xFFFFFFFF)] 9).bind
    (fun c => gives 0x63242258 nopWord [(2, 0x38373635), (9, c)] 9)).bind (fun c => gives 0x63243240 nopWord [(3, 0x39), (9, c)] 9) =
    some 0x1CF96D7C := by decide +kernel
theorem test_hmix_zero : gives 0x64102000 nopWord [] 4 = some 0 := by decide +kernel

/-! Curve keys: the examples of R188, R192 and R195. -/
theorem test_ckpack : gives 0xE7101000 0x03230000 [(1, 6), (2, 14)] 4 = some 0xBC := by decide +kernel
theorem test_ckadd_wraps : (after 0xE9304200 0x03230000 (demo (lane0 [(4, 0xBC), (8, 3), (9, 3)]))).map
    (fun t => (vNow 12 0 t, (t.dev.view (.group 0 0)).ckfAt 0)) = some (0x43, 2) := by decide +kernel
theorem test_ckadd_clamps : gives 0xE9404200 0x03230001 [(4, 0xBC), (8, 3), (9, 3)] 16 = some 0xEB := by decide +kernel
def boxRegs : List (Nat × Word) := [(4, 0x10), (8, 0x0C), (12, 0x33)]
theorem test_cknext : (after 0xED404200 0x03230001 (demo (lane0 boxRegs))).map (fun t => (vNow 16 0 t, pNow 1 0 t)) = some (0x18, true) := by
  decide +kernel
theorem test_ckprev : (after 0xEE504200 0x03230002 (demo (lane0 boxRegs))).map (fun t => (vNow 20 0 t, pNow 2 0 t)) = some (0x0F, true) := by
  decide +kernel
theorem test_cklvl : gives 0xF0604200 0x03230000 boxRegs 24 = some 3 := by decide +kernel

/-! Memory: the examples of R166 to R168, R235, R237, R248, R304 and R314. -/
theorem test_ld_i8 : (after 0xC8081000 0x03800000 (demoMem 0x20000 [0x9C] (sregs [(1, 0x20000)]))).map (vNow 2 0) = some 0xFFFFFF9C := by
  decide +kernel
theorem test_st_b16 : (after 0xC9243040 0x03260003 (demo (fun g => { sregs [(3, 0x20000)] (lane0 [(1, 4), (9, 0xABCD)] g) with
    slices := g.slices.mapIdx (fun i u => if i = 0 then { u with mask := 1 } else u) }))).map (memNow 0x20009 4) =
    some [0, 0xCD, 0xAB, 0] := by decide +kernel
/-- Lane 0's word at 1 mod 4 traps: with no handler the launch fails. -/
theorem test_stl_misalign : (after 0xCC102040 0x03D20000 (demo (sregs [(2, 0x20001)]))).map failedNow = some true := by decide +kernel
theorem test_ldl : (after 0xCB0C2040 0x03C50001 (demoMem 0x20080 [1, 2, 3, 4] (fun g => sregs [(2, 0x20000)] (lanes 1 [0, 4, 8, 12] g)))).map
    (vNow 3 0) = some 0x04030201 := by decide +kernel
theorem test_atom_add : (after 0xD60C2040 0x03500000 (demoMem 0x20000 [5] (fun g => sregs [(2, 0x20000)] (lanes 3 [1, 1, 1, 1] g)))).map
    (fun t => ((List.range 4).map (fun l => vNow 3 l t), memNow 0x20000 1 t)) = some ([5, 6, 7, 8], [9]) := by decide +kernel
theorem test_red_ord_stages : (after 0xD7142068 0x03500000 (demo (fun g => sregs [(2, 0x20000)] (lanes 1 [0, 4, 8, 12] g)))).map
    (fun t => ((t.dev.ctx 0).staged.length, memNow 0x20000 4 t)) = some (4, [0, 0, 0, 0]) := by decide +kernel
theorem test_kvx : (after 0xD51870C2 0x03600000 (demoStash 0x800 ([2] ++ List.replicate 15 0 ++
      bytesOf 4 0 ++ bytesOf 4 256 ++ bytesOf 8 64 ++ bytesOf 16 0x100000 ++ bytesOf 4 256 ++ bytesOf 4 128 ++ bytesOf 8 64 ++ bytesOf 16 0x200000)
    (fun g => sregs [(7, 0xFE00000000000800)] (lanes 3 [300, 384] g)))).map
    (fun t => ([vNow 6 0 t, vNow 7 0 t, vNow 6 1 t, vNow 7 1 t], [pNow 2 0 t, pNow 2 1 t])) =
    some ([0x00200B00, 0, 0, 0], [true, false]) := by decide +kernel
theorem test_cksplit : (after 0xEF0C0200 0x03250010 (demoStash 0 [] (lane0 [(8, 3), (12, 0x403)]))).map
    (fun t => (vNow 3 0 t, stashNow 0x200 1 t, stashNow 0x210 1 t, stashNow 0x220 1 t, stashNow 0x3F0 2 t)) =
    some (0x110, [3], [7], [0x12], [0x03, 0x04]) := by decide +kernel

/-! Control: the examples of R335, R42, R338 and R343. -/
theorem test_call_parts_lanes : (after 0x07280003 nopWord (demo (preds 1 [0, 2]))).map (fun t =>
    let u := (t.dev.view (.group 0 0)).slice 0
    (u.pc, u.mask, u.lk, u.stack)) = some (3, 5, 1, [{ path := true, pc := 1, mask := 10, fmt := 0 }]) := by decide +kernel
theorem test_join_takes_the_other_path : (after 0x09000000 nopWord (demo (fun g => { g with slices := g.slices.mapIdx (fun i u =>
    if i = 0 then { u with mask := 5, stack := [{ path := true, pc := 1, mask := 10, fmt := 0 }] } else u) }))).map (fun t =>
    let u := (t.dev.view (.group 0 0)).slice 0
    (u.pc, u.mask, u.stack)) = some (1, 10, [{ path := false, pc := 0, mask := 15, fmt := 0 }]) := by decide +kernel
theorem test_exit_ends_the_group : (after 0x0B000000 nopWord (demo id)).map (fun t => ((t.dev.block 0).group 0).exited) = some true := by
  decide +kernel
theorem test_bkpt_fails_the_launch_without_handler : (after 0x0E000007 nopWord (demo id)).map failedNow = some true := by decide +kernel
/-- With a handler set, BKPT's cause 0x15 and its code 7 stand in CAUSE, EPC names the packet, and the group is privileged. -/
theorem test_bkpt_enters_the_handler : (after 0x0E000007 nopWord (issuing (.group 0 0)
    (demoDev.modCtx 0 (fun k => { k with trapDefault := false, trapvec := 0x2000 })))).map (fun t =>
    let g := t.dev.view (.group 0 0)
    (bitsOf g.cause 0 8, bitsOf g.cause 16 16, g.epc, g.priv, g.inHandler)) = some (Cause.bkpt.code, 7, 0, true, true) := by decide +kernel
theorem test_regang_ends_parting : (after 0x0A000000 nopWord (demo (fun g => g.modSlice 0 (fun u => { u with parted := true })))).map
    (fun t => ((t.dev.view (.group 0 0)).slice 0).parted) = some false := by decide +kernel
theorem test_region_counts : (after 0x0D000000 nopWord (demo id)).map (fun t => (t.dev.view (.group 0 0)).recCnt) = some 1 := by decide +kernel
theorem test_halt_in_user_mode : (after 0x7F700000 nopWord (issuing (.group 0 0)
    (demoDev.modCtx 0 (fun k => { k with trapDefault := false, trapvec := 0x2000 })))).map (fun t =>
    bitsOf (t.dev.view (.group 0 0)).cause 0 8) = some Cause.priv.code := by decide +kernel

/-! The step: an `add` whose packet is fetched, and the program that is placed. -/
theorem test_step_runs_the_placed_word : (match step (State.reset.withFetchWord 64 0x0300000790080000) with
    | .next t => (((t.dev.view (.group 0 0)).vAt 2 0), ((t.dev.view (.group 0 0)).slice 0).pc)
    | _ => (0, 0)) = (7, 1) := by decide +kernel


/-! Well-formedness: for each check of a row (`rowOk`) and of an entry (`legal`), an instruction that passes it beside one that differs in
what the check looks at and is refused. -/

def a0 : AWord := { c := false, d := 0, a := 0, b := 0, t := 0, ea := false, eb := false, u := false, ext := none }
def b0 : BWord := { c := false, p := 0, neg := false, cond := false, off := 0 }
def m0 : MWord := { c := false, d := 0, base := 0, index := 0, func := 0, size := 3, scope := 0, order := 0, hint := 0, ea := false, u := true, off := 0 }
def k0 : KWord := { c := false, d := 0, a := 0, b := 0, func := 0, dims := 0, bits := 2, op := 0 }
def q0 : QWord := { c := false, n6 := 0, m2 := 0, fmt := 0, core := 0, ctx := false, low := 0, pay := 0 }
def y0 : YWord := { c := false, d := 0, a := 0, imm := 0 }
def tells (L : List (Instr × Instr)) : Bool := L.all (fun p => p.1.wellFormed && !p.2.wellFormed)

/-- B words: bits that must be zero, a bare word with a condition, an unconditional word with a predicate, `brs` without its bit. -/
theorem test_ill_formed_B : tells [
    (.brs { b0 with cond := true }, .brs b0), (.bri b0, .bri { b0 with off := 1 }), (.ret b0, .ret { b0 with off := 1 }),
    (.join b0, .join { b0 with cond := true }), (.regang { b0 with off := 1 }, .regang { b0 with off := 2 }), (.exit b0, .exit { b0 with off := 1 }),
    (.yield b0, .yield { b0 with p := 1 }), (.region b0, .region { b0 with neg := true }), (.bkpt { b0 with off := 0xFFFF }, .bkpt { b0 with off := 0x10000 }),
    (.trapi b0, .trapi { b0 with off := 0x10000 }), (.br b0, .br { b0 with p := 1 }), (.call b0, .call { b0 with neg := true })] = true := by decide +kernel
/-- A words: unary words with b, Eb or an immediate; types that the entry does not list; immediates outside the type or beside b. -/
theorem test_ill_formed_A : tells [
    (.abs a0, .abs { a0 with b := 1 }), (.abs a0, .abs { a0 with t := 1 }), (.neg a0, .neg { a0 with eb := true }), (.popc a0, .popc { a0 with ext := some 0 }),
    (.add { a0 with t := 2, ext := some 0xFFFF }, .add { a0 with t := 2, ext := some 0x10000 }),
    (.and { a0 with t := 5, ext := some 0xFF }, .and { a0 with t := 5, ext := some 0x100 }),
    (.mad { a0 with ext := some 1 }, .mad { a0 with b := 1, ext := some 1 }), (.bfx { a0 with t := 7 }, .bfx { a0 with t := 2 }),
    (.cmp { a0 with d := 5 }, .cmp { a0 with d := 6 }), (.sel { a0 with ext := some 1 }, .sel { a0 with eb := true, ext := some 1 }),
    (.fadd { a0 with t := 5 }, .fadd { a0 with t := 6 }), (.fadd { a0 with t := 1, ext := some 0xFFFF }, .fadd { a0 with t := 1, ext := some 0x10000 }),
    (.fmin { a0 with t := 2 }, .fmin { a0 with t := 3 }), (.fneg { a0 with t := 2 }, .fneg { a0 with t := 3 }), (.fcmp a0, .fcmp { a0 with t := 1 }),
    (.fcmp { a0 with d := 6 }, .fcmp { a0 with d := 7 }), (.fscale { a0 with t := 2, ext := some 0xFFFF }, .fscale { a0 with t := 2, ext := some 0x10000 }),
    (.frnd { a0 with t := 5 }, .frnd { a0 with t := 7 }), (.fdot2 { a0 with t := 1 }, .fdot2 a0), (.fpack { a0 with t := 2 }, .fpack { a0 with t := 3 }),
    (.funpk { a0 with t := 1 }, .funpk a0), (.frcp a0, .frcp { a0 with u := true }), (.cvt { a0 with b := 8 }, .cvt { a0 with b := 8, ext := some 0 }),
    (.cvt { a0 with b := 0x28, t := 1 }, .cvt { a0 with b := 8, t := 1 }), (.cvt { a0 with b := 8 }, .cvt { a0 with b := 9 }), (.cvt { a0 with b := 8 }, .cvt { a0 with b := 56 }),
    (.cvtbfp { a0 with t := 6, b := 1 }, .cvtbfp { a0 with t := 7, b := 1 }), (.cvtbfp a0, .cvtbfp { a0 with b := 2 }),
    (.fmtset { a0 with u := true }, .fmtset { a0 with u := true, d := 1 }), (.fmtset { a0 with ext := some 1 }, .fmtset a0), (.fmtget a0, .fmtget { a0 with a := 1 }),
    (.mov { a0 with b := 1 }, .mov { a0 with b := 1, u := true }), (.mov a0, .mov { a0 with b := 2 }), (.movi { a0 with ext := some 0 }, .movi a0),
    (.movi { a0 with a := 1, t := 2, ext := some 0 }, .movi { a0 with a := 1, t := 3, ext := some 0 }), (.lmov a0, .lmov { a0 with u := true }),
    (.bcast { a0 with t := 6 }, .bcast { a0 with t := 5 }), (.vred { a0 with a := 55, b := 48 }, .vred { a0 with a := 56, b := 48 }),
    (.vred { a0 with b := 4 }, .vred { a0 with b := 5 }), (.vscan { a0 with b := 2 }, .vscan { a0 with b := 3 }), (.vscan { a0 with b := 48 }, .vscan { a0 with b := 56 }),
    (.vote { a0 with a := 7 }, .vote { a0 with a := 8 }), (.vote { a0 with b := 3 }, .vote { a0 with b := 4 }), (.sample a0, .sample { a0 with ext := some 0 }),
    (.getsv { a0 with a := 12 }, .getsv { a0 with a := 13 }), (.bcmp { a0 with t := 3 }, .bcmp { a0 with t := 4 }), (.bfind { a0 with t := 2 }, .bfind { a0 with t := 3 }),
    (.bperm a0, .bperm { a0 with t := 1 }), (.hcrc a0, .hcrc { a0 with u := true }), (.acstep a0, .acstep { a0 with b := 1, ext := some 0 }),
    (.hmix a0, .hmix { a0 with b := 1 })] = true := by decide +kernel
/-- M words: fields of the row, then sizes, scopes, orders and hints that the entry does not list. -/
theorem test_ill_formed_M : tells [
    (.ld { m0 with size := 5 }, .ld { m0 with size := 6 }), (.ld m0, .ld { m0 with func := 1 }), (.ld { m0 with order := 1, scope := 7 }, .ld { m0 with scope := 7 }),
    (.ld { m0 with order := 1 }, .ld { m0 with order := 2 }), (.ld { m0 with hint := 2 }, .ld { m0 with hint := 3 }), (.st { m0 with order := 2 }, .st { m0 with order := 1 }),
    (.st m0, .st { m0 with size := 4 }), (.st { m0 with scope := 5 }, .st { m0 with scope := 7 }), (.ldc m0, .ldc { m0 with scope := 1 }),
    (.ldl { m0 with size := 6, u := false }, .ldl { m0 with size := 6 }), (.stl { m0 with size := 6, u := false }, .stl { m0 with u := false }),
    (.cp { m0 with size := 0, d := 61 }, .cp { m0 with size := 0, d := 62 }), (.cp { m0 with size := 0, func := 1 }, .cp { m0 with size := 0, func := 2 }),
    (.cpclose m0, .cpclose { m0 with base := 1 }), (.cpclose m0, .cpclose { m0 with off := 1 }), (.cpwait { m0 with scope := 1, order := 1 }, .cpwait { m0 with order := 1 }),
    (.qld { m0 with size := 5 }, .qld m0), (.qld { m0 with size := 2, d := 7 }, .qld { m0 with size := 2, d := 8 }), (.stmap { m0 with size := 6 }, .stmap m0),
    (.stunmap { m0 with order := 2 }, .stunmap { m0 with order := 3 }), (.stfl m0, .stfl { m0 with index := 1 }), (.pref { m0 with size := 6 }, .pref { m0 with size := 6, d := 1 }),
    (.kvx { m0 with func := 6 }, .kvx { m0 with func := 7 }), (.kvx m0, .kvx { m0 with size := 2 }), (.atom { m0 with func := 7 }, .atom { m0 with func := 7, d := 63 }),
    (.atom { m0 with func := 10, size := 2 }, .atom { m0 with func := 10 }), (.atom { m0 with func := 20 }, .atom { m0 with func := 16 }), (.atom m0, .atom { m0 with func := 11 }),
    (.atom { m0 with scope := 7, order := 3 }, .atom { m0 with scope := 7, order := 2 }), (.atom m0, .atom { m0 with size := 1 }),
    (.atomOrdAdd { m0 with scope := 4, u := false, func := 32 }, .atomOrdAdd { m0 with scope := 4, func := 32 }), (.red m0, .red { m0 with func := 6 }),
    (.redOrd { m0 with scope := 4, u := false, func := 32 }, .redOrd { m0 with scope := 5, u := false, func := 32 }),
    (.redOrd { m0 with scope := 4, u := false, func := 40, size := 2 }, .redOrd { m0 with scope := 4, u := false, func := 40 }),
    (.append { m0 with size := 2, scope := 4, u := false }, .append { m0 with scope := 4, u := false }),
    (.appendDecl { m0 with size := 2, scope := 4, u := false, func := 1 }, .appendDecl { m0 with size := 2, scope := 4, u := false, func := 1, d := 1 }),
    (.eflush { m0 with scope := 4, order := 2, u := false }, .eflush { m0 with scope := 4, order := 1, u := false }),
    (.fence { m0 with size := 0, order := 1, u := false }, .fence { m0 with size := 0, u := false }),
    (.barSync { m0 with size := 0, scope := 1, order := 3, d := 23 }, .barSync { m0 with size := 0, scope := 1, order := 3, d := 24 }),
    (.barArrive { m0 with size := 0, scope := 2, order := 2, d := 31, func := 1 }, .barArrive { m0 with size := 0, scope := 2, order := 2, d := 32, func := 1 }),
    (.barWait { m0 with size := 0, scope := 1, order := 1, u := false, func := 2 }, .barWait { m0 with size := 0, scope := 1, order := 1, func := 2 }),
    (.pbarArrive { m0 with size := 0, scope := 1, order := 2, u := false, d := 15 }, .pbarArrive { m0 with size := 0, scope := 1, order := 2, u := false, d := 16 }),
    (.pbarWait { m0 with size := 0, scope := 2, u := false, base := 1, func := 2 }, .pbarWait { m0 with size := 0, scope := 1, u := false, base := 1, func := 2 }),
    (.monwait m0, .monwait { m0 with order := 2 }), (.monwait { m0 with func := 1 }, .monwait { m0 with func := 2 }), (.monwake { m0 with size := 6 }, .monwake m0),
    (.drain { m0 with scope := 5, order := 3 }, .drain { m0 with scope := 4, order := 3 }), (.wkset m0, .wkset { m0 with size := 2 }), (.wkadd m0, .wkadd { m0 with func := 4 }),
    (.wkstat m0, .wkstat { m0 with d := 1 }), (.wksetImg { m0 with func := 4 }, .wksetImg m0), (.wkstatImg { m0 with func := 4 }, .wkstatImg { m0 with func := 4, u := false }),
    (.wknext { m0 with size := 0, u := false, func := 48 }, .wknext { m0 with size := 0, u := false, func := 56 }),
    (.wkdone { m0 with size := 0, u := false }, .wkdone m0), (.wkmap { m0 with size := 0, u := false }, .wkmap { m0 with size := 0, u := false, base := 1 }),
    (.wkres { m0 with size := 6 }, .wkres m0)] = true := by decide +kernel
/-- K, Q and Y words. -/
theorem test_ill_formed_KQY : tells [
    (.ckpack k0, .ckpack { k0 with b := 1 }), (.ckpack k0, .ckpack { k0 with op := 1 }), (.ckadd { k0 with op := 1 }, .ckadd { k0 with op := 2 }),
    (.ckcmp { k0 with op := 5 }, .ckcmp { k0 with op := 6 }), (.ckcmp { k0 with d := 7 }, .ckcmp { k0 with d := 8 }), (.cknext { k0 with op := 15 }, .cknext { k0 with op := 16 }),
    (.cksplit { k0 with op := 4 }, .cksplit { k0 with op := 3 }), (.cklvl k0, .cklvl { k0 with func := 1 }),
    (.minit { q0 with low := 16, pay := 0x40000 }, .minit { q0 with low := 1 }), (.minit q0, .minit { q0 with n6 := 1 }), (.mtile { q0 with m2 := 2 }, .mtile { q0 with m2 := 3 }),
    (.mma { q0 with fmt := 10 }, .mma { q0 with fmt := 11 }), (.mma { q0 with pay := 0x0DC000 }, .mma { q0 with pay := 0x0E0000 }), (.mma q0, .mma { q0 with low := 1 }),
    (.crmm { q0 with low := 1 }, .crmm { q0 with low := 2 }), (.mwait q0, .mwait { q0 with pay := 1 }), (.mdrain { q0 with low := 1 }, .mdrain { q0 with low := 1, n6 := 1 }),
    (.mdrain { q0 with m2 := 2 }, .mdrain { q0 with m2 := 3 }), (.mload { q0 with low := 2 }, .mload { q0 with low := 1 }), (.crdrain { q0 with low := 1 }, .crdrain { q0 with low := 2 }),
    (.crload { q0 with m2 := 2 }, .crload { q0 with m2 := 2, low := 2 }), (.crmerge q0, .crmerge { q0 with m2 := 3 }), (.crstat q0, .crstat { q0 with pay := 0x10 }),
    (.csrr { y0 with imm := 12 }, .csrr { y0 with imm := 13 }), (.csrr { y0 with a := 1 }, .csrr { y0 with a := 1, imm := 1 }), (.csrw { y0 with imm := 1 }, .csrw y0),
    (.csrwWaypart y0, .csrwWaypart { y0 with imm := 1 }), (.tret y0, .tret { y0 with imm := 1 }), (.halt y0, .halt { y0 with a := 1 }), (.tlbinv { y0 with a := 1, imm := 1 }, .tlbinv { y0 with a := 1 }),
    (.tlbinv y0, .tlbinv { y0 with imm := 2 }), (.cacheopAlloc y0, .cacheopAlloc { y0 with imm := 1 }), (.cacheopWb { y0 with imm := 1 }, .cacheopWb y0),
    (.cacheopInv { y0 with imm := 2 }, .cacheopInv y0), (.cacheopWbinv { y0 with imm := 3 }, .cacheopWbinv y0), (.cacheopWbWay { y0 with imm := 4 }, .cacheopWbWay y0),
    (.cacheopInvWay { y0 with imm := 5 }, .cacheopInvWay y0), (.cacheopWbinvWay { y0 with imm := 6 }, .cacheopWbinvWay y0), (.launch { y0 with a := 5 }, .launch { y0 with d := 1 }),
    (.idle { y0 with imm := 255 }, .idle { y0 with a := 1 }), (.mfreeze { y0 with imm := 32 }, .mfreeze { y0 with imm := 1 }), (.mthaw y0, .mthaw { y0 with d := 1 })] = true := by
  decide +kernel

/-! Decoding: for every family a word that the spec writes out (or, where it writes none, its fields from the format and the table row) is
the instruction that it stands for. -/

def isRow (w0 : Word) (w1 : Option Word) (p : Instr → Bool) : Bool := match decode w0 w1 with | .ok i => p i | .error _ => false
/-- `add.i32 v4, q0!, q1`; `add.i32 v4, v1, -3`; `fmul.f32 v5, v4, 0.5`; `vote`; `getsv`; `bkpt`. -/
theorem test_decode_A_and_B :
    (isRow 0x10138E44 none (fun i => i == .add { a0 with d := 4, a := 56, b := 57, ea := true }) &&
     isRow 0x90101000 (some 0x03FFFFFD) (fun i => i == .add { a0 with d := 4, a := 1, ext := some 0xFFFFFD }) &&
     isRow 0xAA144000 (some 0x033F0000) (fun i => i == .fmul { a0 with d := 5, a := 4, ext := some 0x3F0000 }) &&
     isRow 0x380C1000 none (fun i => i == .frsq { a0 with d := 3, a := 1 }) && isRow 0x46143C80 none (fun i => i == .vote { a0 with d := 5, a := 3, b := 50 }) &&
     isRow 0x66042001 none (fun i => i == .getsv { a0 with d := 1, a := 2, u := true }) && isRow 0x64102000 none (fun i => i == .hmix { a0 with d := 4, a := 2 }) &&
     isRow 0x04480009 none (fun i => i == .br { b0 with p := 2, cond := true, off := 9 }) && isRow 0x0E000007 none (fun i => i == .bkpt { b0 with off := 7 })) = true := by
  decide +kernel
/-- `ld`, `bar.arrive`, `qld`, `drain`, the walker's `wkset` and `wknext`, `ckpack` and `cksplit`. -/
theorem test_decode_M_and_K :
    (isRow 0xC8142000 (some 0x03400010) (fun i => i == .ld { m0 with d := 5, base := 2, size := 2, u := false, off := 16 }) &&
     isRow 0xDB680241 (some 0x030A1000) (fun i => i == .barArrive { m0 with d := 26, index := 9, func := 1, size := 0, scope := 2, order := 2 }) &&
     isRow 0xDF200000 (some 0x03771000) (fun i => i == .drain { m0 with d := 8, scope := 5, order := 3 }) &&
     isRow 0xF1000FC0 (some 0x03601008) (fun i => i == .wkset { m0 with index := 63, off := 8 }) &&
     isRow 0xE7101000 (some 0x03230000) (fun i => i == .ckpack { k0 with d := 4, a := 1, dims := 1, bits := 3 }) &&
     isRow 0xEF0C0200 (some 0x03230008) (fun i => i == .cksplit { k0 with d := 3, b := 8, dims := 1, bits := 3, op := 8 })) = true := by decide +kernel
/-- `mma`, `crstat`, `launch`, `idle`, `tlbinv.page`. -/
theorem test_decode_Q_and_Y :
    (isRow 0xF827E100 (some 0x03010485) (fun i => i == .mma { q0 with n6 := 31, m2 := 2, fmt := 1, pay := 0x010485 }) &&
     isRow 0xF8A000A0 (some 0x0310000F) (fun i => i == .crstat { q0 with core := 2, ctx := true, pay := 0x10000F }) &&
     isRow 0x7F500500 none (fun i => i == .launch { y0 with a := 5 }) && isRow 0x7F600004 none (fun i => i == .idle { y0 with imm := 4 }) &&
     isRow 0x7F300601 none (fun i => i == .tlbinv { y0 with a := 6, imm := 1 })) = true := by decide +kernel
/-- Reserved opcodes and sub-ops name no row (R71); a `nop` with bits set and a `guard` without its chain bit are refused (R72, R73). -/
theorem test_decode_reserved : ([0x00000000, 0x79000000, 0x7E000000, 0x7FA00000, 0x7FF00000, 0x01000001, 0x02200000].all (fun w =>
    !isRow w none (fun _ => true)) && !isRow 0xF8B00000 (some 0x03000000) (fun _ => true) && !isRow 0x48142000 none (fun _ => true)) = true := by decide +kernel


/-! States that meet the hypotheses of the statements. A theorem `witness_<statement>` names them. -/

/-- A Bool for `Ready`, `GangOk` and canonical registers. -/
def fits (s : State) (x : Issue) (i : Instr) : Bool :=
  decide (x.verdict s.dev i = .go) && decide (x.act ≠ []) && s.dev.has x.agent && decide (x.slices ≠ []) && decide x.slices.Nodup &&
    x.slices.all (fun j => decide (j < 64) && decide (j < (s.dev.view x.agent).slices.length)) && (s.dev.view x.agent).regsWf

/-- What most statements suppose. -/
def Fit (s : State) (x : Issue) (i : Instr) : Prop := Ready s x i ∧ GangOk s x ∧ (s.dev.view x.agent).regsWf = true

theorem fit_of {s : State} {x : Issue} {i : Instr} (hs : s.iss = some x) (h : fits s x i = true) : Fit s x i := by
  simp only [fits, Bool.and_eq_true, decide_eq_true_eq, List.all_eq_true] at h
  obtain ⟨⟨⟨⟨⟨⟨hv, ha⟩, hh⟩, hne⟩, hnd⟩, hl⟩, hw⟩ := h
  exact ⟨⟨⟨hs, hv⟩, ha⟩, ⟨hh, hne, hnd, fun j hj => hl j hj⟩, hw⟩

theorem Fit.cleared {s : State} {x : Issue} {i : Instr} (h : Fit s x i) : Cleared s x i := h.1.1

/-- Every instruction of a list fits. -/
theorem fits_all {s : State} {x : Issue} (hs : s.iss = some x) (L : List Instr) (h : L.all (fits s x) = true) : ∀ i ∈ L, Fit s x i :=
  fun i hi => fit_of hs (List.all_eq_true.mp h i hi)

/-- The issue of the small machine's group. -/
def demoX (f : Group → Group) : Issue := (demoDev.modGroup 0 0 f).issueOf (.group 0 0) [0]

/-- An A word from v1 and v2, or from s registers for the gang. -/
def aw (t : BitVec 3) (u : Bool) : AWord := { c := false, d := 4, a := 2, b := if u then 6 else 0, t := t, ea := false, eb := false, u := u, ext := none }

theorem witness_IntegerArithmeticWritesEachElement : ∀ i ∈ [false, true].flatMap (fun u =>
      [Instr.add (aw 0 u), .sub (aw 1 u), .mul (aw 6 u), .mulhi (aw 7 u), .mad (aw 0 u), .min (aw 2 u), .max (aw 5 u),
        .abs { aw 0 u with b := 0 }, .neg { aw 0 u with b := 0 }]), Fit (demo id) (demoX id) i :=
  fits_all rfl _ (by decide +kernel)
theorem witness_LogicalAndShiftWordsWriteEachElement : ∀ i ∈ [false, true].flatMap (fun u =>
      [Instr.and (aw 0 u), .or (aw 1 u), .xor (aw 6 u), .not { aw 0 u with b := 0 }, .shl (aw 0 u), .shr (aw 2 u), .sra (aw 5 u), .rot (aw 7 u)]),
    Fit (demo id) (demoX id) i :=
  fits_all rfl _ (by decide +kernel)
theorem witness_BitFieldWordsWriteEachElement : ∀ i ∈ [false, true].flatMap (fun u =>
      [Instr.bfx (aw 0 u), .bfi (aw 7 u), .popc { aw 0 u with b := 0 }, .clz { aw 6 u with b := 0 }, .ctz { aw 5 u with b := 0 }]),
    Fit (demo id) (demoX id) i :=
  fits_all rfl _ (by decide +kernel)
theorem witness_CompareAndSelectWriteTheirResults : ∀ i ∈ [false, true].flatMap (fun u => [Instr.cmp (aw 0 u), .sel (aw 0 u)]),
    Fit (demo id) (demoX id) i :=
  fits_all rfl _ (by decide +kernel)
theorem witness_FloatSumsAndProductsAreRoundedOnce : ∀ i ∈ [false, true].flatMap (fun u =>
      [Instr.fadd (aw 0 u), .fsub (aw 1 u), .fmul (aw 2 u), .fma (aw 5 u), .fdot2 (aw 1 u)]), Fit (demo id) (demoX id) i :=
  fits_all rfl _ (by decide +kernel)
theorem witness_FloatSelectionsSignsAndClasses : ∀ i ∈ [false, true].flatMap (fun u =>
      [Instr.fmin (aw 0 u), .fmax (aw 1 u), .fneg { aw 2 u with b := 0 }, .fabs { aw 0 u with b := 0 }, .fclass { aw 0 u with b := 0 }]),
    Fit (demo id) (demoX id) i :=
  fits_all rfl _ (by decide +kernel)
theorem witness_FloatComparisonFollowsItsTable : ∀ i ∈ [Instr.fcmp (aw 0 false), .fcmp (aw 0 true)], Fit (demo id) (demoX id) i :=
  fits_all rfl _ (by decide +kernel)
theorem witness_FloatScalingAndPackingWords : ∀ i ∈ [false, true].flatMap (fun u =>
      [Instr.fscale (aw 0 u), .frnd { aw 0 u with b := 0 }, .fpack (aw 1 u), .funpk { aw 2 u with b := 0 }]), Fit (demo id) (demoX id) i :=
  fits_all rfl _ (by decide +kernel)
/-- `cvt.i32.f32`, `cvt.f32.i64` and the uniform form. -/
theorem witness_ConversionsFollowTheirTable : ∀ i ∈ [Instr.cvt { aw 0 false with b := 0x28 }, .cvt { aw 0 false with b := 6 },
    .cvt { aw 0 true with b := 0x28 }], Fit (demo id) (demoX id) i :=
  fits_all rfl _ (by decide +kernel)
theorem witness_RootsAndReciprocalsAreCorrectlyRounded : ∀ i ∈ [Instr.frcp (aw 0 false), .fsqrt (aw 0 false), .frsq (aw 0 false)],
    Fit (demo id) (demoX id) i :=
  fits_all rfl _ (by decide +kernel)
theorem witness_LogarithmAndPowerOfTwoAtLimitsAndExactPoints : ∀ i ∈ [Instr.flog2 (aw 0 false), .fexp2 (aw 0 false)],
    Fit (demo id) (demoX id) i :=
  fits_all rfl _ (by decide +kernel)
theorem witness_BlockFloatConversionFollowsItsRule : ∀ i ∈ [Instr.cvtbfp (aw 2 false), .cvtbfp { aw 6 false with b := 1 }],
    Fit (demo id) (demoX id) i :=
  fits_all rfl _ (by decide +kernel)
/-- A group whose queue 0 holds an entry. -/
def queued (g : Group) : Group := { g with queues := g.queues.mapIdx (fun i u => if i = 0 then { u with entries := [{ words := [], filled := true, err := [] }] } else u) }
theorem witness_MovesWriteTheirSource : (∀ i ∈ [Instr.mov (aw 0 false), .mov { aw 6 false with b := 1 }, .mov { aw 0 true with b := 0 },
    .movi { aw 0 false with a := 0, ext := some 1 }, .movi { aw 2 true with a := 1, b := 0, ext := some 5 }], Fit (demo id) (demoX id) i) ∧
    ∀ i ∈ [Instr.mov { aw 0 false with a := 56 }], Fit (demo queued) (demoX queued) i :=
  ⟨fits_all rfl _ (by decide +kernel), fits_all rfl _ (by decide +kernel)⟩
theorem witness_FormatWordsSetAndReadFmt : ∀ i ∈ [Instr.fmtset { aw 0 true with d := 0, b := 0 }, .fmtset { aw 0 false with d := 0, a := 0, ext := some 2 },
    .fmtget { aw 0 false with a := 0 }, .fmtget { aw 0 true with a := 0, b := 0 }], Fit (demo id) (demoX id) i :=
  fits_all rfl _ (by decide +kernel)
/-- Every code, and the flags while a fill that may set some is still to come. -/
theorem witness_SystemValuesAreReadAndCleared :
    (∀ i ∈ (List.range 13).flatMap (fun n => [Instr.getsv { aw 0 false with a := BitVec.ofNat 6 n }, .getsv { aw 0 true with a := BitVec.ofNat 6 n, b := 0 }]),
      Fit (demo id) (demoX id) i) :=
  fits_all rfl _ (by decide +kernel)


/-- The gang in issue is every live slice of a group that has joined nothing, and its slices agree on their counts. -/
def wholeB (s : State) (x : Issue) : Bool :=
  let g := s.dev.view x.agent
  x.agent.isGroup && !g.inHandler && g.laneInsts.isEmpty && g.grpInsts.isEmpty && g.liveSlices.all (fun i => x.slices.contains i) &&
    x.slices.all (fun i => (g.slice i).laneCnt == 0 && (g.slice i).grpCnt == x.grpNo g)

theorem whole_of {s : State} {x : Issue} (hg : GangOk s x) (h : wholeB s x = true) (i : Instr) :
    (JoinsLane s x i 0 ∧ LastOfLane s x 0) ∧ ActsNow s x i := by
  simp only [wholeB, Bool.and_eq_true, Bool.not_eq_true', List.isEmpty_iff, List.all_eq_true, List.contains_iff_mem, beq_iff_eq] at h
  obtain ⟨⟨⟨⟨⟨ha, hh⟩, hl⟩, hi⟩, hs⟩, hc⟩ := h
  refine ⟨⟨⟨hg, ha, hh, fun j m => (hc j m).1, ?_, ?_⟩, fun j m => .inl (hs j m)⟩, hg, fun _ => ⟨hh, fun j m => (hc j m).2, ?_, ?_, fun j m => .inl (hs j m)⟩⟩
  · rw [hl]; exact List.nodup_nil
  · rw [hl]; exact fun y hy => (List.not_mem_nil hy).elim
  · rw [hi]; exact List.nodup_nil
  · rw [hi]; exact fun y hy => (List.not_mem_nil hy).elim

/-- The same with the gang's well-formedness, for a list of instructions. -/
theorem whole_all {s : State} {x : Issue} (hs : s.iss = some x) (L : List Instr) (h : L.all (fits s x) = true) (hw : wholeB s x = true) :
    ∀ i ∈ L, Fit s x i ∧ JoinsLane s x i 0 ∧ LastOfLane s x 0 :=
  fun i hi => ⟨fits_all hs L h i hi, (whole_of (fits_all hs L h i hi).2.1 hw i).1⟩

theorem witness_LaneMovesAndBroadcasts : ∀ i ∈ [Instr.lmov { aw 1 false with b := 0, ext := some 0x101 }, .lmov (aw 6 false),
    .bcast { aw 0 false with b := 6, ext := none }], Fit (demo id) (demoX id) i ∧ JoinsLane (demo id) (demoX id) i 0 ∧ LastOfLane (demo id) (demoX id) 0 :=
  whole_all rfl _ (by decide +kernel) (by decide +kernel)
/-- Every operation of each word, at the least and the greatest width. -/
theorem witness_ReductionsScansAndVotes : ∀ i ∈ [0, 48].flatMap (fun n => (List.range 5).map (fun o => Instr.vred { aw 0 false with b := BitVec.ofNat 6 (n + o) }) ++
      [0, 1, 2, 4, 5, 6].flatMap (fun o => [Instr.vscan { aw 0 false with b := BitVec.ofNat 6 (n + o) }, .vscan { aw 1 false with b := BitVec.ofNat 6 (n + o) }]) ++
      (List.range 4).map (fun o => Instr.vote { aw 0 false with b := BitVec.ofNat 6 (n + o) })),
    Fit (demo id) (demoX id) i ∧ JoinsLane (demo id) (demoX id) i 0 ∧ LastOfLane (demo id) (demoX id) 0 :=
  whole_all rfl _ (by decide +kernel) (by decide +kernel)
theorem witness_SamplingPicksByPrefix : ∀ i ∈ [Instr.sample { aw 2 false with b := 2 }],
    Fit (demo id) (demoX id) i ∧ JoinsLane (demo id) (demoX id) i 0 ∧ LastOfLane (demo id) (demoX id) 0 :=
  whole_all rfl _ (by decide +kernel) (by decide +kernel)

/-- Slices 0 and 1 live, with slice 0 alone in issue. -/
def pairDev : Device := (State.reset.withFetchWord 32 0x01000000).dev.modGroup 0 0 (fun g =>
  { g with slices := g.slices.mapIdx (fun i u => if i ≤ 1 then u else { u with mask := 0, live := 0 }) })
def pair : State := issuing (.group 0 0) pairDev
def pairX : Issue := pairDev.issueOf (.group 0 0) [0]
/-- The gang of slice 1 has issued the word already, with one lane in act. -/
def laneInst (i : Instr) : LaneInst :=
  { k := 0, word := i, issued := 2, acts := 0x10, a := [(4, 7)], b := [], preds := 0, uni := [(1, true, 7)] }
def joined (i : Instr) : State := issuing (.group 0 0) (pairDev.modGroup 0 0 (fun g => { g with laneInsts := [laneInst i] }))
def joinedX (i : Instr) : Issue := (pairDev.modGroup 0 0 (fun g => { g with laneInsts := [laneInst i] })).issueOf (.group 0 0) [0]
/-- A group whose gang in issue is slice 0, among two live slices, and which has begun at most instance 0, with the same word, for slice 1. -/
def secondB (s : State) (x : Issue) (i : Instr) : Bool :=
  let g := s.dev.view x.agent
  x.agent.isGroup && !g.inHandler && x.slices == [0] && (g.slice 0).laneCnt == 0 && g.laneInsts.all (fun y => y == laneInst i) &&
    g.laneInsts.length ≤ 1 && g.liveSlices == [0, 1]
theorem second_of {s : State} {x : Issue} {i : Instr} (hg : GangOk s x) (h : secondB s x i = true) :
    JoinsLane s x i 0 ∧ (LastOfLane s x 0 ↔ (s.dev.view x.agent).laneInsts ≠ []) := by
  simp only [secondB, Bool.and_eq_true, Bool.not_eq_true', List.all_eq_true, beq_iff_eq, decide_eq_true_eq] at h
  obtain ⟨⟨⟨⟨⟨⟨ha, hh⟩, hs⟩, hc⟩, hy⟩, hn⟩, hl⟩ := h
  refine ⟨⟨hg, ha, hh, ?_, ?_, fun y m => ?_⟩, fun h0 hnil => ?_, fun hne j hj => ?_⟩
  · rw [hs]; exact fun j m => List.mem_singleton.mp m ▸ hc
  · match hL : (s.dev.view x.agent).laneInsts with
    | [] => exact List.nodup_nil
    | [y] => exact List.nodup_singleton _
    | y :: z :: r => rw [hL] at hn; simp at hn
  · rw [hy y m, hs]
    refine if_pos rfl ▸ ⟨by simp [laneInst, sameWords], fun j hj => ?_, fun l hl => ?_⟩
    · rw [List.mem_singleton.mp hj]
      exact (by decide +kernel : bitOf (2 : BitVec 64) 0 = false)
    · exact (by decide +kernel : ∀ l < 256, bitOf (0x10 : BitVec 256) l = true → bitOf (2 : BitVec 64) (l / 4) = true) l hl
  · rcases h0 1 (by rw [hl]; decide) with h1 | ⟨y, m, -⟩
    · rw [hs] at h1; exact absurd h1 (by decide)
    · rw [hnil] at m; exact List.not_mem_nil m
  · rw [hl] at hj
    simp only [List.mem_cons, List.not_mem_nil, or_false] at hj
    rcases hj with rfl | rfl
    · exact .inl (by rw [hs]; exact List.mem_singleton.mpr rfl)
    · obtain ⟨y, m⟩ := List.exists_mem_of_ne_nil _ hne
      exact .inr ⟨y, m, by rw [hy y m]; rfl, by rw [hy y m]; exact (by decide +kernel : bitOf (2 : BitVec 64) 1 = true)⟩
theorem witness_LaneWordsWaitForEverySlice : groupWide (.vred (aw 0 false)) = true ∧ Fit pair pairX (.vred (aw 0 false)) ∧
    JoinsLane pair pairX (.vred (aw 0 false)) 0 ∧ ¬ LastOfLane pair pairX 0 :=
  have f : Fit pair pairX (.vred (aw 0 false)) := fit_of rfl (by decide +kernel)
  have h := second_of f.2.1 (by decide +kernel)
  ⟨by decide +kernel, f, h.1, fun l => h.2.mp l (by decide +kernel)⟩
/-- The words of the group's lanes as the second of two gangs issues them. -/
theorem witness_LaneWords_second : ∀ i ∈ [Instr.vred (aw 0 false), .vscan (aw 0 false), .vote (aw 0 false), .lmov (aw 0 false), .bcast (aw 0 false),
    .sample { aw 2 false with b := 2 }], Fit (joined i) (joinedX i) i ∧ JoinsLane (joined i) (joinedX i) i 0 ∧ LastOfLane (joined i) (joinedX i) 0 := by
  intro i hi
  have h := (by decide +kernel : ∀ i ∈ [Instr.vred (aw 0 false), .vscan (aw 0 false), .vote (aw 0 false), .lmov (aw 0 false), .bcast (aw 0 false),
    .sample { aw 2 false with b := 2 }], (fits (joined i) (joinedX i) i && secondB (joined i) (joinedX i) i &&
      !((joined i).dev.view (joinedX i).agent).laneInsts.isEmpty) = true) i hi
  simp only [Bool.and_eq_true, Bool.not_eq_true', List.isEmpty_eq_false_iff] at h
  have f : Fit (joined i) (joinedX i) i := fit_of rfl h.1.1
  have q := second_of f.2.1 h.1.2
  exact ⟨f, q.1, q.2.mpr h.2⟩

theorem witness_ByteStringWordsFollowTheirTables : ∀ i ∈ (List.range 4).flatMap (fun n => [Instr.bcmp { aw 0 false with t := BitVec.ofNat 3 n },
      .bfind { aw 0 false with t := BitVec.ofNat 3 (n % 3) }, .bperm (aw 0 false), .hcrc { aw 0 false with t := BitVec.ofNat 3 n }]),
    Fit (demo id) (demoX id) i :=
  fits_all rfl _ (by decide +kernel)
theorem witness_HashMixFollowsItsFormulaAndIsABijection : ∀ i ∈ [Instr.hmix (aw 0 false), .hmix { aw 0 true with b := 0 }],
    Fit (demo id) (demoX id) i :=
  fits_all rfl _ (by decide +kernel)

/-- A K word on quads v4 and v8, with d = 2 and b = 4. -/
def kw : KWord := { c := false, d := 16, a := 4, b := 8, func := 0, dims := 1, bits := 3, op := 0 }
theorem key_of {s : State} {x : Issue} {i : Instr} (h : Fit s x i) : KeyReady s x kw i := ⟨h.1, h.2.1, h.2.2, by decide⟩
theorem witness_CurveKeysPackAndMoveEachAxis : (∀ i ∈ [Instr.ckpack { kw with b := 0 }, .ckadd kw, .cksub { kw with op := 1 }, .ckunpk { kw with b := 0 }],
      Fit (demo id) (demoX id) i) ∧
    let big : KWord := { kw with dims := 7, bits := 31 }
    128 < big.dim * big.nbits ∧ ∀ i ∈ [Instr.ckpack { big with b := 0 }, .ckunpk { big with b := 0 }, .ckadd big, .cksub big, .ckcmp { big with d := 0 }, .ckbox big, .cknext big, .ckprev big,
      .cksplit { big with a := 0, op := 4 }, .cklvl big], Fit (demo id) (demoX id) i :=
  ⟨fits_all rfl _ (by decide +kernel), by decide, fits_all rfl _ (by decide +kernel)⟩
theorem witness_CurveKeysCompareAndFindTheirNeighbours : ∀ i ∈ [Instr.ckcmp { kw with d := 1 }, .cklvl kw, .ckbox kw, .cknext kw, .ckprev { kw with op := 8 }],
    Fit (demo id) (demoX id) i ∧ KeyReady (demo id) (demoX id) kw i :=
  fun i hi => ⟨fits_all (s := demo id) (x := demoX id) rfl _ (by decide +kernel) i hi, key_of (fits_all rfl _ (by decide +kernel) i hi)⟩


/-! Memory. -/

/-- No engine owns a line, the host caches none, and nothing is under test. -/
def idleEngines (d : Device) : Bool :=
  d.copies.isEmpty && d.cores.all (fun k => k.crest.all (fun x => x.ops.isEmpty)) && d.ham.testing.isEmpty && d.fab.hostLines.isEmpty

theorem owned_free {d : Device} (h : idleEngines d = true) (n : Nat) : d.owned n = false := by
  simp only [idleEngines, Bool.and_eq_true, List.isEmpty_iff, List.all_eq_true] at h
  obtain ⟨⟨⟨hc, hk⟩, -⟩, -⟩ := h
  simp only [Device.owned, hc, List.any_nil, Bool.false_or, List.any_eq_false]
  intro k hkm hany
  obtain ⟨x, hx, ho⟩ := List.any_eq_true.mp hany
  rw [hk k hkm x hx] at ho
  cases ho

theorem held_free {d : Device} (h : idleEngines d = true) (ls : List Loc) : d.held ls = false := by
  have hn := owned_free h
  simp only [idleEngines, Bool.and_eq_true, List.isEmpty_iff] at h
  simp [Device.held, Device.heldLines, Device.underTest, hn, h.1.2, h.2]

def answersB (d : Device) (l : Loc) : Bool :=
  !isRemote l && (match l with | .reduction _ => false | _ => true) && !d.lostByte l

theorem answers_of {d : Device} {l : Loc} (h : answersB d l = true) : d.answers l := by
  simp only [answersB, Bool.and_eq_true, Bool.not_eq_true'] at h
  refine ⟨h.1.1, ?_, h.2⟩
  rintro o rfl
  exact Bool.noConfusion h.1.2

def reachB (d : Device) (a : Agent) (priv : Bool) (k : Acc) (ea : DWord) (n : Nat) (ls : List Loc) : Bool :=
  match d.reach a priv k ea n with | .ok m => decide (m = ls) | .error _ => false

theorem reach_of {d : Device} {a : Agent} {priv : Bool} {k : Acc} {ea : DWord} {n : Nat} {ls : List Loc} (h : reachB d a priv k ea n ls = true) :
    d.reach a priv k ea n = .ok ls := by
  unfold reachB at h
  split at h
  · next m hm => rw [hm, of_decide_eq_true h]
  · cases h

def reachesB (s : State) (x : Issue) (k : Acc) (n : Nat) (lanes : List Nat) (ea : Nat → DWord) (ls : Nat → List Loc) : Bool :=
  lanes.all (fun l => reachB s.dev x.agent x.view.priv k (ea l) n (ls l) && (ls l).all (answersB s.dev)) && !s.dev.held (lanes.flatMap ls)

theorem reaches_of {s : State} {x : Issue} {k : Acc} {n : Nat} {lanes : List Nat} {ea : Nat → DWord} {ls : Nat → List Loc}
    (h : reachesB s x k n lanes ea ls = true) : Reaches s x k n lanes ea ls := by
  simp only [reachesB, Bool.and_eq_true, Bool.not_eq_true', List.all_eq_true] at h
  exact ⟨fun l hl => ⟨reach_of (h.1 l hl).1, fun m hm => answers_of ((h.1 l hl).2 m hm)⟩, h.2⟩

/-- The small machine with s2 = 0x20000 and v1 = 0, 8, 16, 24 in the lanes of slice 0, whose words lie at `words`. -/
def memRegs (g : Group) : Group := sregs [(2, 0x20000)] (lanes 1 [0, 8, 16, 24] g)
def words (n l : Nat) : List Loc := (List.range n).map (fun i => Loc.mem (0x20000 + 8 * l + i))
/-- An M word on [s2 + v1] or, for the gang, [s2 + s0]. -/
def mw (size : BitVec 3) (u : Bool) : MWord :=
  { c := false, d := 4, base := 2, index := if u then 0 else 1, func := 0, size := size, scope := 0, order := 0, hint := 0, ea := false, u := u, off := 0 }
/-- The same with s2 odd. -/
def oddRegs (g : Group) : Group := sregs [(2, 0x20001)] g

theorem witness_SplitStoresTheCoverOfTheBox :
    let s := demoStash 0 [] (lane0 [(8, 3), (12, 0x403)])
    let w : KWord := { kw with d := 3, a := 0, b := 8, bits := 5, op := 16 }
    ∃ x, s.iss = some x ∧ KeyReady s x w (.cksplit w) ∧ x.agent = .group 0 0 ∧ s.dev.filesWf = true ∧
      (∀ i < 8, x.view.vIsEmpty (w.b.toNat + i) (x.lead / 4) = false) ∧ w.op.toNat * 32 + 512 ≤ (s.dev.block 0).stashBytes ∧
      s.dev.held ((List.range 512).map (fun i => Loc.stash 0 (w.op.toNat * 32 + i))) = false ∧ s.dev.memWf = true :=
  have h := fit_of (s := demoStash 0 [] (lane0 [(8, 3), (12, 0x403)])) rfl (i := .cksplit { kw with d := 3, a := 0, b := 8, bits := 5, op := 16 })
    (by decide +kernel)
  ⟨_, rfl, ⟨h.1, h.2.1, h.2.2, by decide⟩, rfl, by decide +kernel, by decide +kernel, by decide +kernel, held_free (by decide +kernel) _, by decide +kernel⟩

theorem witness_LoadsFillTheirDestination :
    let s := demo memRegs
    let x := demoX memRegs
    (∀ u : Bool, Fit s x (.ld (mw 2 u)) ∧ Reaches s x .sum 4 (x.accessing u) ((mw 2 u).address s x) (words 4)) ∧
    (∀ u : Bool, Fit s x (.ld (mw 5 u)) ∧ Reaches s x .load 2 (x.accessing u) ((mw 5 u).address s x) (words 2)) ∧
    Fit s x (.ldl (mw 6 false)) ∧ (∀ l ∈ x.act, ((mw 6 false).address s x l).toNat % 4 = 0) ∧
      Reaches s x .load 4 x.act ((mw 6 false).address s x) (words 4) ∧
    (∀ u : Bool, Fit s x (.pref { mw 6 u with d := 0 })) ∧
    Fit (demo oddRegs) (demoX oddRegs) (.ldl (mw 6 false)) ∧ (demoX oddRegs).act = [] ++ 0 :: [1, 2, 3] ∧
      ((mw 6 false).address (demo oddRegs) (demoX oddRegs) 0).toNat % 4 ≠ 0 :=
  ⟨fun u => by cases u <;> exact ⟨fit_of rfl (by decide +kernel), reaches_of (by decide +kernel)⟩,
   fun u => by cases u <;> exact ⟨fit_of rfl (by decide +kernel), reaches_of (by decide +kernel)⟩,
   fit_of rfl (by decide +kernel), by decide +kernel, reaches_of (by decide +kernel),
   fun u => by cases u <;> exact fit_of rfl (by decide +kernel), fit_of rfl (by decide +kernel), by decide +kernel, by decide +kernel⟩

/-- A launch whose constant window is the 16 bytes at 0x20000. -/
def windowed : State := issuing (.group 0 0) ((demoDev.modCtx 0 (fun k => { k with packet := { k.packet with cwinBase := 0x20000, cwinLen := 16 } })).modGroup 0 0
  (fun g => lanes 1 [0, 4, 8, 12] g))
def windowedX : Issue := windowed.dev.issueOf (.group 0 0) [0]
/-- The last lane's word ends at the end of the window; one byte further it passes it. -/
theorem witness_LoadsFillTheirDestination_constants :
    let s := windowed
    let x := windowedX
    let p := (s.dev.ctx (s.dev.ctxOf x.agent)).packet
    let w : MWord := { mw 2 false with base := 0 }
    Fit s x (.ldc w) ∧ (∀ l ∈ x.accessing w.u, (w.address s x l).toNat + sizeBytes w.size ≤ p.cwinLen) ∧
      Reaches s x .load (sizeBytes w.size) (x.accessing w.u) (fun l => p.cwinBase + w.address s x l) (fun l => (List.range 4).map (fun i => Loc.mem (0x20000 + 4 * l + i))) ∧
    let w' : MWord := { w with off := 4 }
    Fit s x (.ldc w') ∧ x.accessing w'.u = 0 :: [1, 2, 3] ∧ p.cwinLen < (w'.address s x 0).toNat + sizeBytes w'.size :=
  ⟨fit_of rfl (by decide +kernel), by decide +kernel, reaches_of (by decide +kernel), fit_of rfl (by decide +kernel), by decide +kernel, by decide +kernel⟩

theorem witness_StoresWriteTheirBytes :
    let s := demo memRegs
    let x := demoX memRegs
    s.dev.memWf = true ∧ s.dev.filesWf = true ∧ s.dev.fab.remotes = [] ∧
    (∀ u : Bool, Fit s x (.st (mw 3 u)) ∧ Reaches s x .store 8 (x.accessing u) ((mw 3 u).address s x) (words 8)) ∧
    Fit s x (.stl (mw 6 false)) ∧ (∀ l ∈ x.act, ((mw 6 false).address s x l).toNat % 4 = 0) ∧
      Reaches s x .store 4 x.act ((mw 6 false).address s x) (words 4) ∧
    Fit (demo oddRegs) (demoX oddRegs) (.stl (mw 6 false)) ∧ (demoX oddRegs).act = [] ++ 0 :: [1, 2, 3] ∧
      ((mw 6 false).address (demo oddRegs) (demoX oddRegs) 0).toNat % 4 ≠ 0 :=
  ⟨by decide +kernel, by decide +kernel, rfl, fun u => by cases u <;> exact ⟨fit_of rfl (by decide +kernel), reaches_of (by decide +kernel)⟩,
   fit_of rfl (by decide +kernel), by decide +kernel, reaches_of (by decide +kernel), fit_of rfl (by decide +kernel), by decide +kernel, by decide +kernel⟩

/-- A list of two extents at stash 0x800. -/
def extents : List Byte := [2] ++ List.replicate 15 0 ++
  bytesOf 4 0 ++ bytesOf 4 256 ++ bytesOf 8 64 ++ bytesOf 16 0x100000 ++ bytesOf 4 256 ++ bytesOf 4 128 ++ bytesOf 8 64 ++ bytesOf 16 0x200000
def listed : State := demoStash 0x800 extents (fun g => sregs [(7, 0xFE00000000000800)] (lanes 3 [300, 384] g))
def listedX : Issue := listed.dev.issueOf (.group 0 0) [0]
theorem witness_TokenPositionsFollowTheExtents : ∀ u : Bool,
    let w : MWord := { mw 3 u with base := 7, index := if u then 0 else 3, func := 2 }
    Fit listed listedX (.kvx w) ∧ listedX.agent.blk? = some 0 ∧
      listedX.view.sAt w.base.toNat + w.off.signExtend 64 * 8 = BitVec.ofNat 64 (0xFE * 2 ^ 56 + 0x800) ∧
      (let n := (listed.dev.byteAt (.stash 0 0x800)).toNat % 32
       n = 2 ∧ 0x800 + 16 + 32 * n ≤ (listed.dev.block 0).stashBytes ∧
       listed.dev.held ((List.range (16 + 32 * n)).map (fun i => Loc.stash 0 (0x800 + i))) = false) :=
  fun u => by cases u <;> exact ⟨fit_of rfl (by decide +kernel), rfl, by decide +kernel, by decide +kernel, by decide +kernel, held_free (by decide +kernel) _⟩


/-- A constant window of 274 bytes at 0x20000 that holds an automaton of one class and one state. -/
def autoDev (classes : Byte) : Device :=
  (withBytes 0x20100 [classes, 0, 1, 0] demoDev).modCtx 0 (fun k => { k with packet := { k.packet with cwinBase := 0x20000, cwinLen := 274 } })
def auto : State := issuing (.group 0 0) (autoDev 1)
def autoX : Issue := (autoDev 1).issueOf (.group 0 0) [0]
def autoLoc (o : Nat) : Loc := .mem (0x20000 + o)
/-- The word with all operands 0: table 0, state 0, one byte. -/
def autoW : AWord := { aw 0 false with d := 4, a := 2, b := 3 }
theorem auto_window : (List.range 274).all (fun o => (List.range 8).all (fun k => decide (274 < o + (k + 1)) ||
    reachB auto.dev autoX.agent autoX.view.priv .load (0x20000 + BitVec.ofNat 64 o) (k + 1) ((List.range (k + 1)).map (fun i => autoLoc (o + i))))) = true := by
  decide +kernel
theorem witness_AutomatonStepReadsItsTable :
    let s := auto
    let x := autoX
    let p := (s.dev.ctx (s.dev.ctxOf x.agent)).packet
    let b := autoW.bVal zext x.view (s.dev.view x.agent) false
    let byte := fun o => (s.dev.byteAt (autoLoc o)).toNat
    let half := fun o => byte o + 256 * byte (o + 1)
    Fit s x (.acstep autoW) ∧ p.cwinLen = 274 ∧ p.cwinBase = 0x20000 ∧
    (∀ o k, 0 < k → k ≤ 8 → o + k ≤ p.cwinLen →
      s.dev.reach x.agent x.view.priv .load (p.cwinBase + BitVec.ofNat 64 o) k = .ok ((List.range k).map (fun i => autoLoc (o + i)))) ∧
    (∀ os : List Nat, s.dev.held (os.map autoLoc) = false) ∧ (∀ o < p.cwinLen, s.dev.answers (autoLoc o)) ∧
    ((∀ l ∈ x.act, b l = 0) ∧ byte 256 = 1 ∧ byte 257 = 0 ∧ half 258 = 1 ∧ (∀ i < 12, byte (260 + i) = 0) ∧
      272 + 2 * (half 258 * byte 256) ≤ p.cwinLen) ∧
    (∀ k, (k < 256 → byte k < byte 256) ∧ (k < half 258 * byte 256 → half (272 + 2 * k) % 32768 < half 258)) := by
  refine ⟨fit_of rfl (by decide +kernel), by decide +kernel, by decide +kernel, ?_, fun os => held_free (by decide +kernel) _, ?_,
    by decide +kernel, ?_⟩
  · intro o k h0 h8 hl
    have hl' : o + k ≤ 274 := hl
    have h1 := List.all_eq_true.mp auto_window o (List.mem_range.mpr (by omega))
    have h2 := List.all_eq_true.mp h1 (k - 1) (List.mem_range.mpr (by omega))
    have hk : k - 1 + 1 = k := by omega
    rw [hk] at h2
    rcases Bool.or_eq_true_iff.mp h2 with h3 | h3
    · exact absurd (of_decide_eq_true h3) (by omega)
    · exact reach_of h3
  · intro o ho
    have hb : (List.range 274).all (fun o => answersB auto.dev (autoLoc o)) = true := by decide +kernel
    exact answers_of (List.all_eq_true.mp hb o (List.mem_range.mpr ho))
  · have h1 : ∀ k < 256, (auto.dev.byteAt (autoLoc k)).toNat = 0 := by decide +kernel
    have h2 : (auto.dev.byteAt (autoLoc 256)).toNat = 1 := by decide +kernel
    have h3 : (auto.dev.byteAt (autoLoc 258)).toNat + 256 * (auto.dev.byteAt (autoLoc 259)).toNat = 1 := by decide +kernel
    have h4 : ((auto.dev.byteAt (autoLoc 272)).toNat + 256 * (auto.dev.byteAt (autoLoc 273)).toNat) % 32768 = 0 := by decide +kernel
    intro k
    dsimp only
    simp only [show (258 : Nat) + 1 = 259 from rfl, h2, h3]
    refine ⟨fun hk => by rw [h1 k hk]; decide, fun hk => ?_⟩
    obtain rfl : k = 0 := by omega
    exact lt_of_eq_of_lt h4 Nat.one_pos
/-- No classes: the first lane's table traps. -/
theorem witness_AutomatonStepReadsItsTable_empty :
    let s := issuing (.group 0 0) (autoDev 0)
    let x := (autoDev 0).issueOf (.group 0 0) [0]
    Fit s x (.acstep autoW) ∧ x.act = 0 :: [1, 2, 3] ∧ (s.dev.byteAt (autoLoc 256)).toNat = 0 :=
  ⟨fit_of rfl (by decide +kernel), by decide +kernel, by decide +kernel⟩


/-- Hypotheses on memory and engines that hold of the small machine. -/
theorem witness_AtomicsReadModifyWriteInLaneOrder :
    let s := demo memRegs
    let x := demoX memRegs
    s.dev.memWf = true ∧ s.dev.filesWf = true ∧ s.dev.fab.remotes = [] ∧
    (∀ u : Bool, let w : MWord := { mw 3 u with scope := 4 }
      (∀ i ∈ [Instr.atom w, .red w], Fit s x i) ∧ Reaches s x .atomic 8 (x.accessing u) (w.address s x) (words 8) ∧
        ∀ l ∈ x.accessing u, (w.address s x l).toNat % sizeBytes w.size = 0) ∧
    (let w : MWord := { mw 2 false with scope := 4 }
     let s := demo oddRegs
     let x := demoX oddRegs
     (∀ i ∈ [Instr.atom w, .red w], Fit s x i) ∧ Reaches s x .atomic 4 (x.accessing false) (w.address s x) (fun _ => (List.range 4).map (fun i => Loc.mem (0x20001 + i))) ∧
       x.accessing w.u = [] ++ 0 :: [1, 2, 3] ∧ (w.address s x 0).toNat % sizeBytes w.size ≠ 0) :=
  ⟨by decide +kernel, by decide +kernel, rfl, fun u => by
    cases u <;> exact ⟨fits_all rfl _ (by decide +kernel), reaches_of (by decide +kernel), by decide +kernel⟩,
   fits_all rfl _ (by decide +kernel), reaches_of (by decide +kernel), by decide +kernel, by decide +kernel⟩
/-- A launch whose promise was granted, with `red.fadd`. -/
theorem witness_AtomicsReadModifyWriteInLaneOrder_promise :
    let d := (demoDev.modCtx 0 (fun k => { k with promise := true })).modGroup 0 0 memRegs
    let s := issuing (.group 0 0) d
    let x := d.issueOf (.group 0 0) [0]
    let w : MWord := { mw 2 false with scope := 4, func := 8 }
    ∀ i ∈ [Instr.atom w, .red w], s.iss = some x ∧ x.staticCause s.dev i = none ∧ x.dynVerdict s.dev i = .go ∧
      (s.dev.ctx (s.dev.ctxOf x.agent)).promise = true ∧ (i = .red w → bitsOf w.func 0 4 = 8) := by
  intro d s x w
  have h : ∀ i ∈ [Instr.atom w, .red w], x.staticCause s.dev i = none ∧ x.dynVerdict s.dev i = .go := by decide +kernel
  exact fun i hi => ⟨rfl, (h i hi).1, (h i hi).2, by decide +kernel, fun _ => by decide⟩

/-- An address that names one location of ordinary memory. -/
theorem witness_OrderedFormsStageAndClaim :
    let s := demo memRegs
    let x := demoX memRegs
    let c := s.dev.ctxOf x.agent
    let g := s.dev.view x.agent
    let ordinary := fun (ea : DWord) (n pa : Nat) => bitsOf ea 56 8 = 0 ∧ (s.dev.ctx c).inScratch ea.toNat = false ∧ ea.toNat % n = 0 ∧
      s.dev.reach x.agent g.priv .atomic ea n = .ok ((List.range n).map (fun i => .mem (pa + i)))
    (let w : MWord := { mw 2 false with scope := 4, func := 0x28 }
     Fit s x (.redOrd w) ∧ x.agent = .group 0 0 ∧ (∀ l ∈ x.act, ordinary (w.address s x l) 4 (0x20000 + 8 * l)) ∧ Fmap.wf 0 g.ordSeq = true ∧
       (∀ l ∈ x.act, Fmap.get 0 g.ordSeq l + 1 < 2 ^ 32) ∧ c < s.dev.ctxs.length) ∧
    Fit s x (.eflush { mw 3 false with d := 0, base := 0, index := 0, scope := 4, order := 2 }) ∧
    (let w : MWord := { mw 2 false with index := 63, scope := 4 }
     let ea := w.addrFull (x.view.sAt w.base.toNat) (x.view.sAt w.index.toNat)
     Fit s x (.append w) ∧ Fit s x (.atomOrdAdd { w with func := 0x20 }) ∧ Fit s x (.appendDecl { w with d := 0, func := 1 }) ∧
       (∀ i, ActsNow s x i) ∧ ordinary ea 16 0x20000 ∧ ordinary ea 4 0x20000 ∧ ((s.dev.ctx c).stream ea).past = []) :=
  have f : Fit (demo memRegs) (demoX memRegs) (.append { mw 2 false with index := 63, scope := 4 }) := fit_of rfl (by decide +kernel)
  have a : ∀ i, ActsNow (demo memRegs) (demoX memRegs) i := fun i => (whole_of f.2.1 (by decide +kernel) i).2
  have r : ∀ l ∈ (demoX memRegs).act, reachB (demo memRegs).dev (demoX memRegs).agent ((demo memRegs).dev.view (demoX memRegs).agent).priv .atomic
      (MWord.address { mw 2 false with scope := 4, func := 0x28 } (demo memRegs) (demoX memRegs) l) 4
      ((List.range 4).map (fun i => .mem (0x20000 + 8 * l + i))) = true := by decide +kernel
  ⟨⟨fit_of rfl (by decide +kernel), rfl,
     fun l hl => ⟨(by decide +kernel : ∀ l ∈ (demoX memRegs).act, bitsOf (MWord.address { mw 2 false with scope := 4, func := 0x28 } (demo memRegs) (demoX memRegs) l) 56 8 = 0) l hl,
       by rw [Ctx.inScratch]; decide +kernel +revert,
       (by decide +kernel : ∀ l ∈ (demoX memRegs).act, (MWord.address { mw 2 false with scope := 4, func := 0x28 } (demo memRegs) (demoX memRegs) l).toNat % 4 = 0) l hl,
       reach_of (r l hl)⟩,
     by decide +kernel, by decide +kernel, by decide +kernel⟩,
   fit_of rfl (by decide +kernel),
   f, fit_of rfl (by decide +kernel), fit_of rfl (by decide +kernel), a,
   ⟨by decide +kernel, by decide +kernel, by decide +kernel, reach_of (by decide +kernel)⟩,
   ⟨by decide +kernel, by decide +kernel, by decide +kernel, reach_of (by decide +kernel)⟩, by decide +kernel⟩
/-- `eflush.wait` in a concurrent launch. -/
theorem witness_OrderedFormsStageAndClaim_wait :
    let d := demoDev.modCtx 0 (fun k => { k with packet := { k.packet with cls := 0 } })
    let s := issuing (.group 0 0) d
    let x := d.issueOf (.group 0 0) [0]
    Fit s x (.eflush { mw 3 false with d := 0, base := 0, index := 0, func := 1, scope := 4, order := 1 }) ∧ ∀ i, ActsNow s x i :=
  have f := fit_of (s := issuing (.group 0 0) (demoDev.modCtx 0 (fun k => { k with packet := { k.packet with cls := 0 } }))) rfl
    (i := .eflush { mw 3 false with d := 0, base := 0, index := 0, func := 1, scope := 4, order := 1 }) (by decide +kernel)
  ⟨f, fun i => (whole_of f.2.1 (by decide +kernel) i).2⟩

/-- A copy of two rows of four bytes, 1024 apart (R237). -/
def copyRegs (g : Group) : Group := sregs [(4, 0x20000), (8, 0x400), (9, 0x200000004), (10, 0x400000400)] g
def copyDev : Device := (demoDev.modBlock 0 (fun b => { b with stashBytes := 16384 })).modGroup 0 0 copyRegs
def copyS : State := issuing (.group 0 0) copyDev
def copyX : Issue := copyDev.issueOf (.group 0 0) [0]
def cpW (out : Bool) : MWord := { mw 0 true with d := 8, base := 4, index := 63, func := if out then 1 else 0 }
theorem copy_reaches (out : Bool) : (List.range 2).all (fun r => (List.range 4).all (fun i =>
    let va := (cpW out).addrFull (copyX.view.sAt 4) (copyX.view.sAt 63) + BitVec.ofNat 64 r * sext (bitsOf (copyX.view.sAt 10) 0 32) + BitVec.ofNat 64 i
    decide (bitsOf va 56 8 = 0) && reachB copyS.dev copyX.agent (copyS.dev.view copyX.agent).priv (if out then .store else .load) va 1
      [Loc.mem (0x20000 + 1024 * r + i)])) = true := by
  cases out <;> decide +kernel
theorem witness_CopiesAndQueueLoadsAreHandedToTheirEngines :
    (∀ out : Bool, let w := cpW out
      Fit copyS copyX (.cp w) ∧ (∀ i, ActsNow copyS copyX i) ∧
      (let a := fun i => copyX.view.sAt (w.d.toNat + i)
       bitsOf (a 0) 32 32 = 0 ∧ (bitsOf (a 1) 0 32).toNat = 4 ∧ (bitsOf (a 1) 32 32).toNat = 2 ∧ (bitsOf (a 2) 32 32).toNat = 4 ∧
         (bitsOf (a 0) 0 32).toNat = 0x400) ∧
      (∀ r < 2, ∀ i < 4, let va := w.addrFull (copyX.view.sAt 4) (copyX.view.sAt 63) + BitVec.ofNat 64 r * sext (bitsOf (copyX.view.sAt 10) 0 32) + BitVec.ofNat 64 i
        bitsOf va 56 8 = 0 ∧ isRemote (Loc.mem (0x20000 + 1024 * r + i)) = false ∧ 128 ≤ 0x400 + r * 4 + i ∧ 0x400 + r * 4 + i < (copyS.dev.block 0).stashBytes ∧
        copyS.dev.reach copyX.agent (copyS.dev.view copyX.agent).priv (if out then .store else .load) va 1 = .ok [Loc.mem (0x20000 + 1024 * r + i)]) ∧
      copyS.dev.copies.length < 256 ∧ ∀ n, copyS.dev.owned n = false) ∧
    (∀ i ∈ [Instr.cpclose { mw 3 true with d := 12, base := 0 }, .cpwait { mw 3 true with d := 0, base := 0, index := 12, scope := 1, order := 1 }],
      Fit copyS copyX i) ∧ ∀ i, ActsNow copyS copyX i := by
  have f : ∀ out, Fit copyS copyX (.cp (cpW out)) := fun out => by cases out <;> exact fit_of rfl (by decide +kernel)
  have a : ∀ i, ActsNow copyS copyX i := fun i => (whole_of (f false).2.1 (by decide +kernel) i).2
  have sb : (copyS.dev.block 0).stashBytes = 16384 := by decide +kernel
  refine ⟨fun out => ⟨f out, a, by cases out <;> decide +kernel, ?_, by decide +kernel, owned_free (by decide +kernel)⟩, fits_all rfl _ (by decide +kernel), a⟩
  intro r hr i hi
  have h := List.all_eq_true.mp (List.all_eq_true.mp (copy_reaches out) r (List.mem_range.mpr hr)) i (List.mem_range.mpr hi)
  simp only [Bool.and_eq_true, decide_eq_true_eq] at h
  exact ⟨h.1, rfl, by omega, by rw [sb]; omega, reach_of h.2⟩
/-- An access slice with `qld`, for a group of its launch and for a slot past them; s3 = 0x20000 and a stride of 64. -/
def accessDev : Device := ((State.reset.withFetchWord 32 0x01000000).dev.modBlock 0 (fun b =>
  { b with access := some { Thread.fresh 0 0 with s := Fmap.setAll 0 [] [(3, 0x20000), (5, 0x40)] } }))
def qldW (slot : BitVec 6) : MWord := { mw 2 true with d := 2, base := 3, index := 5, func := slot }
theorem qld_reaches : (List.range 256).all (fun l => reachB accessDev (.access 0) false .load (0x20000 + BitVec.ofNat 64 l * 0x40) 4
    ((List.range 4).map (fun i => Loc.mem (0x20000 + 64 * l + i))) && ((List.range 4).map (fun i => Loc.mem (0x20000 + 64 * l + i))).all (answersB accessDev)) = true := by
  decide +kernel
theorem witness_CopiesAndQueueLoadsAreHandedToTheirEngines_queues :
    let s := issuing (.access 0) accessDev
    let x := accessDev.issueOf (.access 0) [0]
    (∀ i ∈ [Instr.qld (qldW 0), .qld (qldW 1)], Fit s x i) ∧ (s.dev.ctx (s.dev.block 0).ctx).packet.groups = 1 ∧
    ∀ l < 256, let ls := (List.range 4).map (fun i => Loc.mem (0x20000 + 64 * l + i))
      s.dev.reach x.agent x.view.priv .load (x.view.sAt 3 + BitVec.ofNat 64 l * x.view.sAt 5 + (qldW 0).off.signExtend 64 * BitVec.ofNat 64 (sizeBytes (qldW 0).size))
        (sizeBytes (qldW 0).size) = .ok ls ∧ ∀ m ∈ ls, s.dev.answers m := by
  refine ⟨fits_all rfl _ (by decide +kernel), by decide +kernel, fun l hl => ?_⟩
  have h := List.all_eq_true.mp qld_reaches l (List.mem_range.mpr hl)
  simp only [Bool.and_eq_true] at h
  refine ⟨?_, fun m hm => answers_of (List.all_eq_true.mp h.2 m hm)⟩
  have e : (accessDev.issueOf (.access 0) [0]).view.sAt 3 = 0x20000 ∧ (accessDev.issueOf (.access 0) [0]).view.sAt 5 = 0x40 ∧
      (qldW 0).off.signExtend 64 * BitVec.ofNat 64 (sizeBytes (qldW 0).size) = 0#64 ∧ (accessDev.issueOf (.access 0) [0]).view.priv = false := by decide +kernel
  have r := reach_of h.1
  rw [e.1, e.2.1, e.2.2.1, e.2.2.2, BitVec.add_zero]
  exact r


/-- s16 maps 256 bytes at stash 0x1000; s17 names the mapping; s4 = 0x20000. -/
def mapRegs (g : Group) : Group := sregs [(4, 0x20000), (16, 0x10000001000), (17, 0x1000)] g
def aMap : StashMap := { off := 0x1000, len := 256, lines := [0x400, 0x401], filled := [(0, true)], dirty := [(0, true)] }
def mapDev (maps : List StashMap) : Device := (demoDev.modBlock 0 (fun b => { b with stashBytes := 16384, maps := maps })).modGroup 0 0 mapRegs
def mapS (maps : List StashMap) : State := issuing (.group 0 0) (mapDev maps)
def mapX (maps : List StashMap) : Issue := (mapDev maps).issueOf (.group 0 0) [0]
def stmapW : MWord := { mw 6 true with d := 16, base := 4, index := 63 }
def stflW : MWord := { mw 3 true with d := 16, base := 0, scope := 1, order := 2 }
theorem witness_StashMappingsStandForMemory :
    (let s := mapS []
     let x := mapX []
     let ea := stmapW.addrFull (x.view.sAt stmapW.base.toNat) (x.view.sAt stmapW.index.toNat)
     Fit s x (.stmap stmapW) ∧ (∀ i, ActsNow s x i) ∧ s.dev.filesWf = true ∧ ea.toNat % 128 = 0 ∧ (bitsOf (x.view.sAt 16) 0 32).toNat = 0x1000 ∧
       (bitsOf (x.view.sAt 16) 32 32).toNat = 256 ∧ (s.dev.block 0).maps = [] ∧
       ∀ i < 2, bitsOf (ea + BitVec.ofNat 64 (i * 128)) 56 8 = 0 ∧ (s.dev.ctx (s.dev.block 0).ctx).inScratch (ea + BitVec.ofNat 64 (i * 128)).toNat = false ∧
         s.dev.held [.mem ((0x400 + i) * 128)] = false ∧
         s.dev.reach x.agent (s.dev.view x.agent).priv .atomic (ea + BitVec.ofNat 64 (i * 128)) 1 = .ok [.mem ((0x400 + i) * 128)]) ∧
    (let s := mapS [aMap]
     let x := mapX [aMap]
     Fit s x (.stfl stflW) ∧ Fit s x (.stunmap { stflW with d := 17 }) ∧ (∀ i, ActsNow s x i) ∧ s.dev.filesWf = true ∧ s.dev.fab.remotes = [] ∧
       (bitsOf (x.view.sAt 16) 0 32).toNat + (bitsOf (x.view.sAt 16) 32 32).toNat ≤ (s.dev.block 0).stashBytes ∧
       bitsOf (x.view.sAt 17) 32 32 = 0 ∧ (bitsOf (x.view.sAt 17) 0 32).toNat = aMap.off ∧ (s.dev.block 0).maps = [] ++ aMap :: [] ∧ aMap.len % 128 = 0) := by
  have f : Fit (mapS []) (mapX []) (.stmap stmapW) := fit_of rfl (by decide +kernel)
  have f2 : Fit (mapS [aMap]) (mapX [aMap]) (.stfl stflW) := fit_of rfl (by decide +kernel)
  refine ⟨⟨f, fun i => (whole_of f.2.1 (by decide +kernel) i).2, by decide +kernel, by decide +kernel, by decide +kernel, by decide +kernel, by decide +kernel, ?_⟩,
    f2, fit_of rfl (by decide +kernel), fun i => (whole_of f2.2.1 (by decide +kernel) i).2, by decide +kernel, rfl, by decide +kernel, by decide +kernel,
    by decide +kernel, by decide +kernel, by decide +kernel⟩
  intro i hi
  have hr : ∀ i < 2, reachB (mapS []).dev (mapX []).agent ((mapS []).dev.view (mapX []).agent).priv .atomic
      (stmapW.addrFull ((mapX []).view.sAt stmapW.base.toNat) ((mapX []).view.sAt stmapW.index.toNat) + BitVec.ofNat 64 (i * 128)) 1
      [.mem ((0x400 + i) * 128)] = true := by decide +kernel
  exact ⟨(by decide +kernel : ∀ i < 2, bitsOf (stmapW.addrFull ((mapX []).view.sAt stmapW.base.toNat) ((mapX []).view.sAt stmapW.index.toNat) + BitVec.ofNat 64 (i * 128)) 56 8 = 0) i hi,
    (by decide +kernel : ∀ i < 2, ((mapS []).dev.ctx ((mapS []).dev.block 0).ctx).inScratch
      (stmapW.addrFull ((mapX []).view.sAt stmapW.base.toNat) ((mapX []).view.sAt stmapW.index.toNat) + BitVec.ofNat 64 (i * 128)).toNat = false) i hi,
    held_free (by decide +kernel) _, reach_of (hr i hi)⟩

/-- `bar.sync.blk 5` with the default count, `bar.arrive.blk 23, s9` and `bar.arrive.clu 31, s9` with s9 = 16, `bar.wait.blk 0`. -/
def barW (d : RegNo) (func : BitVec 6) (u : Bool) : MWord :=
  { mw 0 u with d := d, base := 0, index := if u then 9 else 0, func := func, scope := if d.toNat < 24 then 1 else 2,
                order := if func = 0 then 3 else if func = 1 then 2 else 1 }
def barRegs (g : Group) : Group := sregs [(9, 16)] g
/-- A Bool for a barrier that is there, with canonical counts. -/
def barOkB (d : Device) (n id : Nat) : Bool :=
  let slice := fun (u : Slice) => Fmap.wf 0 u.barPhase && Fmap.wf 0 u.barCnt
  (decide (24 ≤ id) || decide (id < (d.block n).bars.length)) &&
  (decide (id < 24) || ((d.barBlocks n id).contains n && ((d.sets[(d.block n).cset]?).getD default).bars.length == 8 &&
    (d.barBlocks n id).all (fun m => decide (m < d.blocks.length) && (d.block m).cset == (d.block n).cset) &&
    (List.range d.blocks.length).all (fun m => (d.block m).cset != (d.block n).cset || (d.barBlocks n id).contains m))) &&
  Fmap.wf default (d.bar n id).wanted && Fmap.wf 0 (d.bar n id).issued && slice default && d.blocks.all (fun b => b.groups.all (fun g => g.slices.all slice))
theorem slices_all {P : Slice → Prop} {d : Device} (h0 : P default) (h : ∀ b ∈ d.blocks, ∀ g ∈ b.groups, ∀ u ∈ g.slices, P u) (m k i : Nat) :
    P (((d.block m).group k).slice i) := by
  have hd : (default : Group).slices = [] := rfl
  have hb0 : (default : Block).groups = [] := rfl
  unfold Group.slice Block.group Device.block
  cases hb : d.blocks[m]? with
  | none => simpa [hb0, hd] using h0
  | some b =>
    cases hg : b.groups[k]? with
    | none => simpa [hg, hd] using h0
    | some g =>
      cases hs : g.slices[i]? with
      | none => simpa [hg, hs] using h0
      | some u => simpa [hg, hs] using h b (List.mem_of_getElem? hb) g (List.mem_of_getElem? hg) u (List.mem_of_getElem? hs)
theorem barOk_of {d : Device} {n id : Nat} (h : barOkB d n id = true) : d.barOk n id := by
  simp only [barOkB, Bool.and_eq_true, Bool.or_eq_true, decide_eq_true_eq, List.all_eq_true, List.contains_iff_mem, beq_iff_eq, List.mem_range,
    bne_iff_ne, ne_eq] at h
  obtain ⟨⟨⟨⟨⟨h1, h2⟩, h3⟩, h4⟩, h5⟩, h6⟩ := h
  refine ⟨fun hid => h1.resolve_left (by omega), fun hid => ?_, h3, h4, slices_all (P := fun u => Fmap.wf 0 u.barPhase = true ∧ Fmap.wf 0 u.barCnt = true) h5 h6⟩
  obtain ⟨⟨⟨q1, q2⟩, q3⟩, q4⟩ := h2.resolve_left (by omega)
  exact ⟨q1, q2, q3, fun m hm he => (q4 m hm).resolve_left (fun hn => hn he)⟩
theorem witness_NamedBarriersCountGroupsAndReleaseWaiters :
    let s := demo barRegs
    let x := demoX barRegs
    (∀ i ∈ [Instr.barSync (barW 5 0 false), .barSync (barW 23 0 true), .barArrive (barW 23 1 true), .barArrive (barW 31 1 true), .barWait (barW 0 2 false)],
      Fit s x i) ∧ x.agent = .group 0 0 ∧ (s.dev.block 0).bars.length = 24 ∧ s.dev.barBlocks 0 31 = [0] ∧
    ((s.dev.sets[(s.dev.block 0).cset]?).getD default).bars.length = 8 ∧ s.dev.blocks.length = 1 ∧ (x.view.sAt 9).toNat = 16 ∧
    ∀ id ∈ [5, 23, 31], let X := s.dev.bar 0 id
      s.dev.barOk 0 id ∧ (∀ j ∈ x.slices, j ∈ (s.dev.view x.agent).liveSlices ∧ s.dev.counts 0 0 id j) ∧ X.form = none ∧
      ∀ j ∈ (s.dev.view x.agent).liveSlices, j ∈ x.slices := by
  refine ⟨fits_all rfl _ (by decide +kernel), rfl, by decide +kernel, by decide +kernel, by decide +kernel, by decide +kernel, by decide +kernel, ?_⟩
  unfold Device.counts
  exact fun id hid => ⟨barOk_of ((by decide +kernel : ∀ id ∈ [5, 23, 31], barOkB (demo barRegs).dev 0 id = true) id hid), by revert id; decide +kernel⟩
/-- A phase that slice 1's gang has begun in another form than slice 0's, and slice 0's late arrival in it. -/
def lateBar (own : Bool) : State :=
  let d := pairDev.modBar 0 5 (fun x => { x with issued := [(0, 2)], form := some (some 2) })
  issuing (.group 0 0) (d.modGroup 0 0 (fun g => g.modSlice 0 (fun u => { u with hold := .late 5 { form := if own then some 2 else none, pc := 0, idx := 0 } true })))
theorem witness_NamedBarriersCountGroupsAndReleaseWaiters_late :
    (lateBar true).dev.lates 0 5 = [] ++ (0, 0, 0) :: [] ∧ (lateBar true).dev.barOk 0 5 ∧
      Fmap.get 0 (((lateBar true).dev.block 0).group 0 |>.slice 0).barPhase 5 ≠ ((lateBar true).dev.bar 0 5).phases + 1 ∧
      ((lateBar true).dev.bar 0 5).form = some (some 2) ∧ (((lateBar true).dev.block 0).group 0).liveSlices = [0, 1] ∧
      ((lateBar false).dev.bar 0 5).form ≠ some none :=
  ⟨by decide +kernel, barOk_of (by decide +kernel), by decide +kernel⟩
/-- The gang's slice has arrived in the phase under way. -/
theorem witness_NamedBarriersCountGroupsAndReleaseWaiters_again :
    let f := fun g => (barRegs g).modSlice 0 (fun u => { u with barPhase := [(5, 1)] })
    Fit (demo f) (demoX f) (.barArrive (barW 5 1 false)) ∧ (demoX f).slices = 0 :: [] ∧
      Fmap.get 0 (((demo f).dev.view (demoX f).agent).slice 0).barPhase 5 = ((demo f).dev.bar 0 5).phases + 1 :=
  ⟨fit_of rfl (by decide +kernel), rfl, by decide +kernel⟩

/-- Slot 15 of the block's own stash, for a group and for its access slice. -/
def pbarW (func : BitVec 6) : MWord := { mw 0 false with d := 15, base := 0, index := 0, func := func, scope := 1, order := if func = 0 then 2 else 1 }
def stashDev : Device := demoDev.modBlock 0 (fun b => { b with stashBytes := 16384, access := some (Thread.fresh 0 0) })
theorem witness_PhaseBarriersCountInTheStash : ∀ a ∈ [Agent.group 0 0, .access 0],
    let s := issuing a stashDev
    let x := stashDev.issueOf a [0]
    (∀ i ∈ [Instr.pbarArrive (pbarW 0), .pbarWait (pbarW 2), .pbarWait (pbarW 3)], Fit s x i) ∧ x.agent.blk? = some 0 ∧ s.dev.memWf = true ∧
    s.dev.filesWf = true ∧ (s.dev.block 0).stashBytes ≠ 0 ∧
    let g := s.dev.view x.agent
    (a = .group 0 0 → (∀ j ∈ x.slices, j ∈ g.liveSlices ∧ Fmap.get 0 (g.slice j).pbarCnt 15 = Fmap.get 0 g.pbarDone 15) ∧
      (∀ j ∈ g.liveSlices, j ∈ x.slices) ∧ Fmap.wf 0 g.pbarDone = true ∧ ∀ j < 64, Fmap.wf 0 (g.slice j).pbarCnt = true) := by
  intro a ha
  simp only [List.mem_cons, List.not_mem_nil, or_false] at ha
  rcases ha with rfl | rfl
  · exact ⟨fits_all rfl _ (by decide +kernel), rfl, by decide +kernel, by decide +kernel, by decide +kernel,
      fun _ => ⟨by decide +kernel, by decide +kernel, by decide +kernel, by decide +kernel⟩⟩
  · exact ⟨fits_all rfl _ (by decide +kernel), rfl, by decide +kernel, by decide +kernel, by decide +kernel, fun h => by cases h⟩

/-- `monwait` on a word equal to s4, and on one that differs; an odd address; `fence`, `monwake` and `drain`. -/
def monRegs (v ea : DWord) (g : Group) : Group := sregs [(2, ea), (4, v)] g
def monW : MWord := { mw 2 true with scope := 5, order := 1 }
def monLocs (ea : DWord) : List Loc := (List.range 4).map (fun i => Loc.mem (ea.toNat + i))
theorem mon_fits (v ea : DWord) (h1 : fits (demo (monRegs v ea)) (demoX (monRegs v ea)) (.monwait monW) = true)
    (h2 : wholeB (demo (monRegs v ea)) (demoX (monRegs v ea)) = true)
    (h3 : reachesB (demo (monRegs v ea)) (demoX (monRegs v ea)) .load 4 [0] (fun _ => monW.addrFull ((demoX (monRegs v ea)).view.sAt 2) ((demoX (monRegs v ea)).view.sAt 0))
      (fun _ => monLocs ea) = true) (h4 : littleOf (demo (monRegs v ea)).dev.byteAt (monLocs ea) = 0) :
    Fit (demo (monRegs v ea)) (demoX (monRegs v ea)) (.monwait monW) ∧ (∀ i, ActsNow (demo (monRegs v ea)) (demoX (monRegs v ea)) i) ∧
    Reaches (demo (monRegs v ea)) (demoX (monRegs v ea)) .load 4 [0] (fun _ => monW.addrFull ((demoX (monRegs v ea)).view.sAt 2) ((demoX (monRegs v ea)).view.sAt 0))
      (fun _ => monLocs ea) ∧ littleOf (demo (monRegs v ea)).dev.byteAt (monLocs ea) = 0 :=
  have f := fit_of (s := demo (monRegs v ea)) (x := demoX (monRegs v ea)) rfl h1
  ⟨f, fun i => (whole_of f.2.1 h2 i).2, reaches_of h3, h4⟩
theorem witness_FencesMonitorsAndDrains :
    (∀ v ∈ [0, 7], ∀ ea ∈ [0x20000, 0x20001], Fit (demo (monRegs v ea)) (demoX (monRegs v ea)) (.monwait monW) ∧
      (∀ i, ActsNow (demo (monRegs v ea)) (demoX (monRegs v ea)) i) ∧
      Reaches (demo (monRegs v ea)) (demoX (monRegs v ea)) .load 4 [0] (fun _ => monW.addrFull ((demoX (monRegs v ea)).view.sAt 2) ((demoX (monRegs v ea)).view.sAt 0))
        (fun _ => monLocs ea) ∧ littleOf (demo (monRegs v ea)).dev.byteAt (monLocs ea) = 0) ∧
    (let s := demo (monRegs 0 0x20000)
     let x := demoX (monRegs 0 0x20000)
     s.dev.fab.remotes = [] ∧
     (∀ i ∈ [Instr.fence { mw 0 false with d := 0, base := 0, index := 0, scope := 5, order := 2 }, .monwake { mw 6 true with d := 0, scope := 5, order := 2 },
       .drain { mw 3 true with d := 12, base := 0, scope := 5, order := 3 }], Fit s x i) ∧
     s.dev.reach x.agent x.view.priv .load (MWord.addrFull { mw 6 true with d := 0, scope := 5, order := 2 } (x.view.sAt 2) (x.view.sAt 0)) 1 = .ok [.mem 0x20000] ∧
     (s.dev.ctx (s.dev.ctxOf x.agent)).failedMsg = false ∧ s.dev.ctxOf x.agent < s.dev.ctxs.length) := by
  constructor
  · intro v hv ea he
    simp only [List.mem_cons, List.not_mem_nil, or_false] at hv he
    rcases hv with rfl | rfl <;> rcases he with rfl | rfl <;>
      exact mon_fits _ _ (by decide +kernel) (by decide +kernel) (by decide +kernel) (by decide +kernel)
  · exact ⟨rfl, fits_all rfl _ (by decide +kernel), reach_of (by decide +kernel), by decide +kernel, by decide +kernel⟩
/-- A store of the group to another device is under way, or has failed: a `fence` word of a packet in issue waits, or traps. -/
theorem witness_FencesMonitorsAndDrains_waits : ∀ failed : Bool,
    let d : Device := { demoDev with fab := { demoDev.fab with remotes := [{ plainOp (some (.group 0 0)) 0 6 2 0 4 with failed := failed }] } }
    let w : MWord := { mw 0 false with d := 0, base := 0, index := 0, scope := 5, order := 2 }
    let x := d.issueOf (.group 0 0) [0]
    let it : Item := { idx := 0, instr := some (.fence w), chain := 0, guard := none, taken := false }
    Fit (issuing (.group 0 0) d) x (.fence w) ∧ it.instr = some (.fence w) ∧ (issuing (.group 0 0) d).iss = some x ∧ x.status = .run ∧
      w.scope = 5 ∧ w.order.getLsbD 1 = true ∧
      ∃ r ∈ (issuing (.group 0 0) d).dev.fab.remotes, r.agent = some (.group 0 0) ∧ r.kind = 2 ∧ r.failed = failed ∧ r.use = .done :=
  fun failed => by cases failed <;> exact ⟨fit_of rfl (by decide +kernel), rfl, rfl, rfl, rfl, by decide, by decide +kernel⟩
/-- A message of the launch has failed. -/
theorem witness_FencesMonitorsAndDrains_failed :
    let d := demoDev.modCtx 0 (fun k => { k with failedMsg := true })
    Fit (issuing (.group 0 0) d) (d.issueOf (.group 0 0) [0]) (.drain { mw 3 true with d := 12, base := 0, scope := 5, order := 3 }) ∧
      ((issuing (.group 0 0) d).dev.ctx 0).failedMsg = true :=
  ⟨fit_of rfl (by decide +kernel), by decide +kernel⟩


/-! Control. -/

/-- Conditional on p1, which holds in lanes 0 and 2, by +3. -/
def bw (cond : Bool) : BWord := { c := false, p := if cond then 1 else 0, neg := false, cond := cond, off := 3 }
/-- Two packets where s5 names packet 64. -/
def brRegs (g : Group) : Group := sregs [(5, 64), (6, 0x100000000)] (preds 1 [0, 2] g)
def briW (r : Nat) : BWord := { bw true with off := BitVec.ofNat 19 (r * 4096) }
def joinW : BWord := { bw false with off := 0 }
/-- The stack of slice 0 holds an entry, or sixteen. -/
def stacked (n : Nat) (g : Group) : Group :=
  (brRegs g).modSlice 0 (fun u => { u with mask := 5, stack := List.replicate n { path := true, pc := 1, mask := 10, fmt := 0 } })
theorem witness_ControlWordsMoveEachSlice :
    (∀ i ∈ [Instr.nop false, .guard { p := 1, neg := false, count := 0 }, .br (bw true), .br (bw false), .call (bw true), .ret { bw false with off := 0 },
      .bri (briW 5), .bri (briW 6), .join joinW], Fit (demo brRegs) (demoX brRegs) i) ∧
    bitsOf ((demoX brRegs).view.sAt (briW 5).sReg.toNat) 32 32 = 0 ∧ bitsOf ((demoX brRegs).view.sAt (briW 6).sReg.toNat) 32 32 ≠ 0 ∧
    (∃ j ∈ (demoX brRegs).slices, ((demoX brRegs).view.slice j).stack = []) ∧
    Fit (demo (stacked 1)) (demoX (stacked 1)) (.join joinW) ∧ (∀ j ∈ (demoX (stacked 1)).slices, ((demoX (stacked 1)).view.slice j).stack ≠ []) ∧
    (∀ i ∈ [Instr.br (bw true), .call (bw true)], Fit (demo (stacked 16)) (demoX (stacked 16)) i) ∧
    ∃ j ∈ (demoX (stacked 16)).slices, 16 ≤ ((demoX (stacked 16)).view.slice j).stack.length :=
  ⟨fits_all rfl _ (by decide +kernel), by decide +kernel, by decide +kernel, by decide +kernel, fit_of rfl (by decide +kernel), by decide +kernel,
   fits_all rfl _ (by decide +kernel), by decide +kernel⟩
/-- An `ext` that a word takes, and a stray one; a thread's branch. -/
theorem witness_ControlWordsMoveEachSlice_more :
    (∀ ok : Bool, let x := { demoX id with extOk := ok }
      Fit { demo id with iss := some x } x (.ext false 5)) ∧
    ∀ i ∈ [Instr.br (bw true), .br (bw false), .call (bw true)], Fit (issuing (.access 0) stashDev) (stashDev.issueOf (.access 0) [0]) i :=
  ⟨fun ok => by cases ok <;> exact fit_of rfl (by decide +kernel), fits_all rfl _ (by decide +kernel)⟩

/-- Slices 0 and 1 are parted, and were one gang before. -/
def partedPair (h1 : Hold) : Device := pairDev.modGroup 0 0 (fun g => { g with slices := g.slices.mapIdx (fun i u =>
  if i ≤ 1 then { u with parted := true, former := 3, hold := if i = 1 then h1 else u.hold } else u) })
theorem witness_RegangRegionAndYieldActOnTheirGroup :
    (∀ o ∈ [0, 1], Fit (demo id) (demoX id) (.regang { bw false with off := BitVec.ofNat 19 o })) ∧
    (∀ j ∈ (demoX id).slices, (((demo id).dev.view (demoX id).agent).slice j).parted = false) ∧
    (∀ h1 ∈ [Hold.free, .regang], let d := partedPair h1
      let s := issuing (.group 0 0) d
      let x := d.issueOf (.group 0 0) [0]
      Fit s x (.regang { bw false with off := 1 }) ∧
      let g := s.dev.view x.agent
      let mine := fun (j : Nat) => j < 64 ∧ j < g.slices.length ∧ bitOf (3 : BitVec 64) j = true ∧ (g.slice j).live ≠ 0
      (∀ j ∈ x.slices, mine j ∧ (g.slice j).parted = true) ∧ (∀ j < 64, mine j → (g.slice j).former = 3) ∧
      (∀ j < 64, (g.slice j).hold = .regang → mine j) ∧ ∃ j ∈ x.slices, ∀ k ∈ x.slices, k = j) ∧
    Fit (demo id) (demoX id) (.region joinW) ∧ Fit pair pairX (.region joinW) ∧ Fit (demo id) (demoX id) (.yield joinW) ∧
    (let g := (demo id).dev.view (demoX id).agent
     g.inHandler = false ∧ g.regInsts = [] ∧ (∀ j ∈ (demoX id).slices, j ∈ g.liveSlices ∧ (g.slice j).regCnt = 0) ∧ ∀ j < 64, (g.slice j).hold ≠ .region 0) ∧
    (let g := pair.dev.view pairX.agent
     g.inHandler = false ∧ g.regInsts = [] ∧ (∀ j ∈ pairX.slices, j ∈ g.liveSlices ∧ (g.slice j).regCnt = 0) ∧ ∃ j ∈ g.liveSlices, j ∉ pairX.slices) := by
  refine ⟨fun o ho => ?_, by decide +kernel, fun h hh => ?_, fit_of rfl (by decide +kernel), fit_of rfl (by decide +kernel), fit_of rfl (by decide +kernel),
    by decide +kernel, by decide +kernel⟩
  · exact fits_all (s := demo id) (x := demoX id) rfl ([0, 1].map (fun o => Instr.regang { bw false with off := BitVec.ofNat 19 o })) (by decide +kernel) _
      (List.mem_map_of_mem ho)
  · simp only [List.mem_cons, List.not_mem_nil, or_false] at hh
    rcases hh with rfl | rfl <;>
      exact ⟨fit_of rfl (by decide +kernel), by decide +kernel, by decide +kernel, by decide +kernel, by decide +kernel⟩

/-- A block with room for one spawned thread; s5 names packet 64, v0 and v1 (R338). -/
def spawnDev (cap : Nat) : Device := (demoDev.modBlock 0 (fun b => { b with spawnCap := cap })).modGroup 0 0
  (fun g => sregs [(5, 0x300000040), (6, 0x1000000000040)] (preds 1 [0, 2, 3] (preds 2 [0, 1, 2, 3] g)))
theorem witness_ExitAndSpawnEndLanes :
    (∀ i ∈ [Instr.exit joinW, .exit { bw true with off := 0 }], Fit (demo brRegs) (demoX brRegs) i) ∧ (demoX brRegs).agent = .group 0 0 ∧
    (let g := ((demo brRegs).dev.block 0).group 0
     g.exited = false ∧ g.laneInsts = [] ∧ g.grpInsts = [] ∧ g.regInsts = [] ∧ (∀ id < 32, Fmap.get 0 ((demo brRegs).dev.bar 0 id).issued 0 = 0) ∧
       ∀ j < 64, (g.slice j).hold ≠ .regang ∧ (g.slice j).pbarCnt = []) ∧
    (demo brRegs).dev.copying 0 0 = false ∧ (demo brRegs).dev.feeding 0 0 = false ∧
    (∀ i ∈ [Instr.exit joinW, .exit { bw true with off := 0 }], Fit (issuing (.access 0) stashDev) (stashDev.issueOf (.access 0) [0]) i) ∧
    (∀ cap ∈ [0, 1], Fit (issuing (.group 0 0) (spawnDev cap)) ((spawnDev cap).issueOf (.group 0 0) [0]) (.brs (briW 5))) ∧
    Fit (issuing (.group 0 0) (spawnDev 1)) ((spawnDev 1).issueOf (.group 0 0) [0]) (.brs (briW 6)) := by
  refine ⟨fits_all rfl _ (by decide +kernel), rfl, by decide +kernel, by decide +kernel, by decide +kernel, fits_all rfl _ (by decide +kernel), fun c hc => ?_,
    fit_of rfl (by decide +kernel)⟩
  simp only [List.mem_cons, List.not_mem_nil, or_false] at hc
  rcases hc with rfl | rfl <;> exact fit_of rfl (by decide +kernel)

/-! The matrix engine. A ridge thread drives context 0 of core 0; s4 = 0x20000 and s5 = 0x400010. -/

def ridgeDev (f : Crest → Crest) : Device :=
  let d := demoDev.modBlock 0 (fun b => { b with ridge := some { Thread.fresh 0 0 with s := Fmap.setAll 0 [] [(4, 0x20000), (5, 0x400010), (6, 8)] } })
  d.modCrest 0 0 (fun k => f { k with blk := some 0 })
def ridgeS (f : Crest → Crest) : State := issuing (.ridge 0) (ridgeDev f)
def ridgeX (f : Crest → Crest) : Issue := (ridgeDev f).issueOf (.ridge 0) [0]
/-- A Q word of shape 16x16 in f32 with no barrier and its A in v8; `.mem` and the like in the low bits. -/
def qw (low : BitVec 5) (pay : Payload) : QWord := { c := false, n6 := 0, m2 := 0, fmt := 0, core := 0, ctx := false, low := low, pay := pay }
def plain (k : Crest) : Crest := { k with mode := 1 }
def ranked (k : Crest) : Crest := { k with mode := 2, steps := 2 }
theorem witness_MatrixWordsActOnTheirContext :
    (∀ f ∈ [id, plain, ranked], ((ridgeS f).dev.crest 0 0).ops = [] ∧ ((ridgeS f).dev.crest 0 0).frozen = false ∧
      0 < (ridgeS f).dev.cores.length ∧ 0 < ((ridgeS f).dev.core 0).crest.length ∧ ((ridgeS f).dev.block 0).core = 0 ∧ ((ridgeS f).dev.block 0).ridgeCtx = 0) ∧
    (∀ i ∈ [Instr.minit (qw 0 0), .minit (qw 16 0x180000), .minit (qw 16 0), .crstat (qw 0 0x10000F)], Fit (ridgeS id) (ridgeX id) i) ∧
    (∀ i ∈ [Instr.mtile (qw 0 0x105000), .mma (qw 0 0x02010F), .mwait (qw 0 0), .mdrain (qw 0 0x02000F), .mdrain { qw 1 0x10000F with m2 := 0 },
      .mload (qw 0 0x100000)], Fit (ridgeS plain) (ridgeX plain) i) ∧
    (∀ i ∈ [Instr.mtile (qw 0 0x105000), .crmm (qw 0 0x02010F), .crmm (qw 1 0x02010F), .crdrain (qw 0 0x02000F), .crdrain (qw 1 0x10000F), .crload (qw 0 0x100000),
      .crload (qw 2 0x100000), .crmerge (qw 0 0x100000)], Fit (ridgeS ranked) (ridgeX ranked) i) := by
  refine ⟨fun f hf => ?_, fits_all rfl _ (by decide +kernel), fits_all rfl _ (by decide +kernel), fits_all rfl _ (by decide +kernel)⟩
  simp only [List.mem_cons, List.not_mem_nil, or_false] at hf
  rcases hf with rfl | rfl | rfl <;> decide +kernel
/-- The image that `crload` and `crmerge` read for one winner of each of 16 rows. -/
theorem witness_MatrixWordsActOnTheirContext_image :
    let ps := [(Loc.mem 0x20000, 0, 128)]
    (match (ridgeX ranked).image (ridgeS ranked).dev 0 ((ridgeS ranked).dev.crest 0 0) .load 0x20000 128 8 with | .ok q => decide (q = ps) | .error _ => false) = true ∧
      (ridgeS ranked).dev.linesHeld ((ridgeS ranked).dev.imageLines ps) = false := by
  refine ⟨by decide +kernel, ?_⟩
  have ho := owned_free (d := (ridgeS ranked).dev) (by decide +kernel)
  have hh : (ridgeS ranked).dev.fab.hostLines = [] := by decide +kernel
  simp [Device.linesHeld, ho, hh]

/-- One `mma` of 16x16 at the head, its words read or not, its steps done or not. -/
def mulOp (read : Bool) (step : Nat) : CrestOp := { CrestOp.fresh (.mma (qw 0 0x02010F)) (qw 0 0x02010F) with readsDone := read, step := step }
def lastOp : CrestOp := { CrestOp.fresh (.crmm (qw 1 0x02010F)) (qw 1 0x02010F) with readsDone := true, step := 2 }
def formOp (regs : Bool) : CrestOp :=
  if regs then { CrestOp.fresh (.mdrain (qw 0 0x02000F)) (qw 0 0x02000F) with dst := some (0, [8]) } else CrestOp.fresh (.mdrain (qw 1 0x10000F)) (qw 1 0x10000F)
theorem witness_TheMatrixEngineSumsOffersAndStops :
    (ridgeDev (fun k => { plain k with ops := [mulOp false 0] })).readable ((ridgeDev (fun k => { plain k with ops := [mulOp false 0] })).crest 0 0) = some 0 ∧
    (let k : Crest := { plain Crest.reset with ops := [{ mulOp true 0 with q := { qw 0 0x02010F with n6 := 4 } }] }
     k.tileReady = true ∧ 0 + 1 < opTiles { qw 0 0x02010F with n6 := 4 } ∧ Fmap.wf 0 k.bank = true) ∧
    ({ plain Crest.reset with ops := [mulOp true (opSteps (qw 0 0x02010F))] } : Crest).mulDone = true ∧
    ({ ranked Crest.reset with ops := [lastOp] } : Crest).mulDone = true ∧ bitOf lastOp.q.low 0 = true ∧
    (let d := ridgeDev (fun k => { plain k with ops := [formOp true] })
     d.drainReady (d.crest 0 0) = true ∧ (formOp true).dst = some (0, [8]) ∧ (formOp true).q.bar = 15 ∧ 0 < (d.block 0).groups.length ∧
       ((d.block 0).group 0).regsWf = true) ∧
    (formOp true).sent = false ∧ (formOp true).pieces = [] ∧
    (∀ frozen sent : Bool, ∀ pieces ∈ [[], [(Loc.mem 0x20000, 0, 4)], [(Loc.remote 6 0x100, 0, 4)]],
      let k : Crest := { plain Crest.reset with ops := [{ formOp false with sent := sent, pieces := pieces }], frozen := frozen }
      k.ops = { formOp false with sent := sent, pieces := pieces } :: [] ∧ isMul (formOp false).word = false ∧ isRegForm (formOp false).word = false ∧
        (formOp false).dst = none ∧ (formOp false).q.bar = 15) ∧
    (let d := ridgeDev (fun k => { plain k with ops := [{ mulOp true 0 with q := { qw 0 0x02010F with n6 := 4 } }] })
     let two := d.modCrest 0 1 (fun _ => d.crest 0 0)
     (two.crest 0 0).tileReady = true ∧ (two.crest 0 1).tileReady = true ∧ (two.core 0).lastCrest = 1) := by
  decide +kernel
/-- A cluster handler that freezes context 1 of core 0 and thaws it. -/
def handlerDev : Device := { demoDev with handlers := [(0, 0, { Thread.fresh 0 0 with priv := true, inHandler := true })] }
theorem witness_TheMatrixEngineSumsOffersAndStops_freeze : ∀ i ∈ [Instr.mfreeze { c := false, d := 0, a := 0, imm := 0x20 }, .mthaw { c := false, d := 0, a := 0, imm := 0x20 }],
    Fit (issuing (.handler 0) handlerDev) (handlerDev.issueOf (.handler 0) [0]) i :=
  fits_all rfl _ (by decide +kernel)


/-! The walker. A descriptor at 0x20000 of one point at 0x21000, with its map at 0x22000. -/

def reachOk (d : Device) (a : Agent) (priv : Bool) (k : Acc) (ea : DWord) : Bool := match d.reach a priv k ea 1 with | .ok _ => true | .error _ => false
theorem reachOk_of {d : Device} {a : Agent} {priv : Bool} {k : Acc} {ea : DWord} (h : reachOk d a priv k ea = true) : ∃ ls, d.reach a priv k ea 1 = .ok ls := by
  unfold reachOk at h
  split at h
  · next m hm => exact ⟨m, hm⟩
  · cases h
def setBytes : List Byte := bytesOf 4 1 ++ [2, 0, 0, 0] ++ bytesOf 8 0 ++ bytesOf 8 0x21000 ++ bytesOf 8 0x22000 ++ List.replicate 32 0
def walkRegs (g : Group) : Group := sregs [(2, 0x20000), (4, 0x21000), (5, 1), (6, 0x20001)] g
/-- The small machine whose block holds slot 1 with a point that is pending. -/
def aPoint : WPoint := { id := some 7, tiles := [(0x24000, 64)], record := 0x21000, unread := false, brought := [], dc := 0, t0 := 0, forced := false, fault := false, handed := false }
def aSlot : WSlot := { WSlot.reset with holder := some 0, serial := 1, desc := setBytes, points := [aPoint] }
def walkDev (u : WSlot) : Device := ((withBytes 0x20000 setBytes demoDev).modGroup 0 0 walkRegs).modWslot 0 1 (fun _ => u)
def walkS (u : WSlot) : State := issuing (.group 0 0) (walkDev u)
def walkX (u : WSlot) : Issue := (walkDev u).issueOf (.group 0 0) [0]
/-- A walker word on slot 1 at [s(base) + s63]. -/
def ww (base : RegNo) (d : RegNo) : MWord := { mw 3 true with d := d, base := base, index := 63, func := 1 }
def imgW (base : RegNo) : MWord := { ww base 0 with func := 5 }
theorem witness_WalkerSetsAreDeclaredAndCounted :
    (let s := walkS WSlot.reset
     let x := walkX WSlot.reset
     let ls := (List.range 64).map (fun i => Loc.mem (0x20000 + i))
     Fit s x (.wkset (ww 2 0)) ∧ (∀ i, ActsNow s x i) ∧ (s.dev.memWf = true ∧ s.dev.filesWf = true ∧ (s.dev.block 0).core = 0 ∧ s.dev.cores.length = 128 ∧
       (s.dev.core 0).walker.length = 4 ∧ (s.dev.wslot 0 1).holder = none ∧ ls.map s.dev.byteAt = setBytes ∧ (s.dev.wslot 0 1).waiting = []) ∧
       s.dev.reach x.agent x.view.priv .load ((ww 2 0).addrFull (x.view.sAt 2) (x.view.sAt 63)) 64 = .ok ls ∧ (∀ l ∈ ls, s.dev.answers l) ∧ s.dev.held ls = false ∧
       (∀ i < 32, ∃ m, s.dev.reach x.agent x.view.priv .load (BitVec.ofNat 64 (0x21000 + i)) 1 = .ok m) ∧
       (∀ i < 8, ∃ m, s.dev.reach x.agent x.view.priv .atomic (BitVec.ofNat 64 (0x22000 + i)) 1 = .ok m)) ∧
    (let s := walkS aSlot
     let x := walkX aSlot
     (∀ i ∈ [Instr.wkadd (ww 4 5), .wkdone { mw 0 false with d := 0, base := 0, index := 0, func := 1 }, .wkmap { mw 0 false with base := 0, index := 1, func := 1 },
         .wkstat (ww 2 0)], Fit s x i) ∧ (∀ i, ActsNow s x i) ∧ (s.dev.wslot 0 1).holder = some 0 ∧ (s.dev.wslot 0 1).waiting = [] ∧
       (s.dev.wslot 0 1).desc.length = 64) := by
  have f : Fit (walkS WSlot.reset) (walkX WSlot.reset) (.wkset (ww 2 0)) := fit_of rfl (by decide +kernel)
  have f2 : ∀ i ∈ [Instr.wkadd (ww 4 5), .wkdone { mw 0 false with d := 0, base := 0, index := 0, func := 1 }, .wkmap { mw 0 false with base := 0, index := 1, func := 1 },
         .wkstat (ww 2 0)], Fit (walkS aSlot) (walkX aSlot) i := fits_all rfl _ (by decide +kernel)
  have r : reachesB (walkS WSlot.reset) (walkX WSlot.reset) .load 64 [0] (fun _ => (ww 2 0).addrFull ((walkX WSlot.reset).view.sAt 2) ((walkX WSlot.reset).view.sAt 63))
      (fun _ => (List.range 64).map (fun i => Loc.mem (0x20000 + i))) = true := by decide +kernel
  have r' := (reaches_of r).1 0 (List.mem_singleton.mpr rfl)
  refine ⟨⟨f, fun i => (whole_of f.2.1 (by decide +kernel) i).2, by decide +kernel, r'.1, r'.2, held_free (by decide +kernel) _, fun i hi => ?_, fun i hi => ?_⟩,
    f2, fun i => (whole_of (f2 _ (List.mem_cons_self ..)).2.1 (by decide +kernel) i).2, by decide +kernel, by decide +kernel, by decide +kernel⟩
  · exact reachOk_of ((by decide +kernel : ∀ i < 32, reachOk (walkS WSlot.reset).dev (walkX WSlot.reset).agent (walkX WSlot.reset).view.priv .load
      (BitVec.ofNat 64 (0x21000 + i)) = true) i hi)
  · exact reachOk_of ((by decide +kernel : ∀ i < 8, reachOk (walkS WSlot.reset).dev (walkX WSlot.reset).agent (walkX WSlot.reset).view.priv .atomic
      (BitVec.ofNat 64 (0x22000 + i)) = true) i hi)

/-- The image forms, of a privileged group. -/
def privDev (u : WSlot) : Device := (walkDev u).modGroup 0 0 (fun g => { g with priv := true })
theorem witness_WalkerSetsAreDeclaredAndCounted_images :
    (∀ u ∈ [WSlot.reset, aSlot], Fit (issuing (.group 0 0) (privDev u)) ((privDev u).issueOf (.group 0 0) [0]) (.wksetImg (imgW 2)) ∧
      Fit (issuing (.group 0 0) (privDev u)) ((privDev u).issueOf (.group 0 0) [0]) (.wkstatImg (imgW 2)) ∧
      ∀ i, ActsNow (issuing (.group 0 0) (privDev u)) ((privDev u).issueOf (.group 0 0) [0]) i) ∧ aSlot.desc.length = 64 := by
  refine ⟨fun u hu => ?_, by decide⟩
  simp only [List.mem_cons, List.not_mem_nil, or_false] at hu
  rcases hu with rfl | rfl <;>
    exact ⟨fit_of rfl (by decide +kernel), fit_of rfl (by decide +kernel),
      fun i => (whole_of (fit_of (s := issuing (.group 0 0) (privDev _)) (i := .wkstatImg (imgW 2)) rfl (by decide +kernel)).2.1 (by decide +kernel) i).2⟩

/-- A word waits at the slot; the point is forced, or neither forced nor ready. -/
def waitingAt (p : WPoint) : WSlot := { aSlot with points := [p], waiting := [{ blk := 0, slot := 0, d := 1, p := 1, sC := 3, examined := true, ids := none }] }
theorem candidates_forced (p : WPoint) (hf : p.forced = true) (hh : p.handed = false) (ready : WPoint → Bool) (u : WSlot) (hu : u.points = [p]) :
    u.Candidates ready [0] := by
  have pend : ∀ i, u.isPending i ↔ i = 0 := by
    intro i
    simp only [WSlot.isPending, hu, List.length_singleton, WSlot.pt]
    constructor
    · exact fun h => by omega
    · rintro rfl; exact ⟨by omega, by simpa using hh⟩
  refine ⟨[0], [], rfl, by simp, by simp, fun i => ?_, fun i => ?_⟩
  · rw [pend, List.mem_singleton]
    exact ⟨fun h => ⟨h, by rw [h, WSlot.pt, hu]; simpa using hf⟩, fun h => h.1⟩
  · rw [pend]
    simp only [List.not_mem_nil, false_iff, not_and]
    rintro rfl h
    rw [WSlot.pt, hu] at h
    simp [hf] at h
theorem witness_WalkerExaminesAndHandsOut :
    (let w : MWord := { mw 0 false with d := 1, base := 0, index := 3, func := 9 }
     Fit (walkS aSlot) (walkX aSlot) (.wknext w) ∧ (∀ i, ActsNow (walkS aSlot) (walkX aSlot) i) ∧ (walkS aSlot).dev.memWf = true ∧ (walkS aSlot).dev.filesWf = true ∧
       ((walkS aSlot).dev.wslot 0 1).isPending 0) ∧
    (∀ u : Bool, Fit (walkS aSlot) (walkX aSlot) (.wkres { mw 6 u with d := 6, base := 2, index := 0 })) ∧
    (let s := walkS (waitingAt { aPoint with forced := true })
     s.dev.has (.group 0 0) = true ∧ s.dev.memWf = true ∧ s.dev.filesWf = true ∧ (s.dev.wslot 0 1).isPending 0 ∧
       ((s.dev.wslot 0 1).clock s.dev.now).Candidates (s.dev.pointReady 0 0) [0]) ∧
    (let u : WSlot := { aSlot with desc := bytesOf 4 1 ++ [2, 0, 0, 0] ++ bytesOf 4 5 ++ setBytes.drop 12, points := [{ aPoint with dc := 1 }] }
     u.waiting = [] ∧ u.isPending 0 ∧ u.timeBound = 5 ∧ u.timeBound ≤ 5 - (u.pt 0).t0) := by
  have f : Fit (walkS aSlot) (walkX aSlot) (.wknext { mw 0 false with d := 1, base := 0, index := 3, func := 9 }) := fit_of rfl (by decide +kernel)
  refine ⟨⟨f, fun i => (whole_of f.2.1 (by decide +kernel) i).2, by decide +kernel, by decide +kernel, by decide +kernel, by decide +kernel⟩,
    fun u => by cases u <;> exact fit_of rfl (by decide +kernel), ⟨by decide +kernel, by decide +kernel, by decide +kernel, ⟨by decide +kernel, by decide +kernel⟩, ?_⟩,
    by decide +kernel, ⟨by decide +kernel, by decide +kernel⟩, by decide +kernel, by decide +kernel⟩
  exact candidates_forced { aPoint with forced := true } rfl rfl _ _ (by decide +kernel)
/-- A prefetch of slot 1's point. -/
theorem witness_WalkerExaminesAndHandsOut_prefetch :
    let q : Prefetch := { core := 0, slot := 1, serial := 1, point := 0, blk := 0, va := 0x24000 }
    let d : Device := { walkDev aSlot with prefetches := [q] }
    d.prefetches[0]? = some q ∧ (d.wslot 0 1).waiting = [] ∧ reachOk d (.access 0) (d.ctx (d.block 0).ctx).privLaunch .load 0x24000 = true := by decide +kernel


/-! System words, of a privileged group. s1 and s2 hold operands. -/

def sysDev (a b : DWord) : Device := demoDev.modGroup 0 0 (fun g => { sregs [(1, a), (2, b)] g with priv := true })
def sysS (a b : DWord) : State := issuing (.group 0 0) (sysDev a b)
def sysX (a b : DWord) : Issue := (sysDev a b).issueOf (.group 0 0) [0]
def yw (d a : RegNo) (imm : BitVec 8) : YWord := { c := false, d := d, a := a, imm := imm }
/-- Every register, with a value within its limits and one outside (s1 = 128 and 2^32; s2 = 0 and 32). -/
theorem witness_ControlRegistersAndTheWordsThatEndOrHold :
    (∀ v ∈ [(128, 0), (0x100000000, 32)], (∀ i ∈ (Instr.csrr (yw 3 2 0)) :: (List.range 12).map (fun n => Instr.csrr (yw 3 0 (BitVec.ofNat 8 (n + 1)))) ++
      (List.range 12).map (fun n => Instr.csrw (yw 0 1 (BitVec.ofNat 8 (n + 1)))) ++
      [Instr.csrwWaypart (yw 2 1 0), .tret (yw 0 0 0), .tlbinv (yw 0 0 0), .tlbinv (yw 0 1 1), .idle (yw 0 0 4), .halt (yw 0 0 0)],
      Fit (sysS v.1 v.2) (sysX v.1 v.2) i)) ∧
    (let s := sysS 1 0
     let x := sysX 1 0
     Fit s x (.csrwWaypart (yw 2 1 0)) ∧ (x.view.sAt 1).toNat < 2 ^ 16 ∧ (x.view.sAt 1).getLsbD 0 = true ∧ s.dev.ham.fenced = [] ∧ s.dev.l2 = [] ∧
       Fmap.wf 0xFFFF s.dev.waypart = true ∧ s.dev.ctxOf x.agent < s.dev.ctxs.length ∧ s.dev.memWf = true ∧ (s.dev.ctx (s.dev.ctxOf x.agent)).requester = none ∧
       Fmap.wf 0 (s.dev.ctx (s.dev.ctxOf x.agent)).tables = true) ∧
    Fit (issuing (.handler 0) handlerDev) (handlerDev.issueOf (.handler 0) [0]) (.tret (yw 0 0 0)) := by
  refine ⟨fun v hv => ?_, ⟨fit_of rfl (by decide +kernel), by decide +kernel⟩, fit_of rfl (by decide +kernel)⟩
  simp only [List.mem_cons, List.not_mem_nil, or_false] at hv
  rcases hv with rfl | rfl <;> exact fits_all rfl _ (by decide +kernel)
/-- A line of 128 bytes at 0x20000: way 15 and way 16; a range of one line and of none; way 0 and way 1 of domain 0. -/
theorem witness_CacheWordsActOnLines :
    (∀ v ∈ [(0x20000, 15), (0x20000, 16), (0x20000, 128), (0x20001, 128), (1, 0)], ∀ i ∈ [Instr.cacheopAlloc (yw 2 1 0), .cacheopWb (yw 2 1 1), .cacheopInv (yw 2 1 2),
      .cacheopWbinv (yw 2 1 3), .cacheopWbWay (yw 2 1 4), .cacheopInvWay (yw 2 1 5), .cacheopWbinvWay (yw 2 1 6)], Fit (sysS v.1 v.2) (sysX v.1 v.2) i) ∧
    (let s := sysS 0x20000 15
     let x := sysX 0x20000 15
     s.dev.reach x.agent x.view.priv .store 0x20000 1 = .ok [.mem 0x20000] ∧ s.dev.ham.fenced = [] ∧ s.dev.memWf = true ∧ s.dev.filesWf = true ∧ s.dev.l2 = [] ∧
       (match s.dev.rangeRuns x.agent x.view.priv 2 0x20000 128 with | .ok r => decide (r = [(0x400, 1)]) | .error _ => false) = true) ∧
    ∀ p : Nat → Bool, (sysS 0x20000 15).dev.busyWhere p = false := by
  refine ⟨fun v hv => ?_, ⟨reach_of (by decide +kernel), by decide +kernel, by decide +kernel, by decide +kernel, by decide +kernel, by decide +kernel⟩, fun p => ?_⟩
  · simp only [List.mem_cons, List.not_mem_nil, or_false] at hv
    rcases hv with rfl | rfl | rfl | rfl | rfl <;> exact fits_all rfl _ (by decide +kernel)
  · have h : idleEngines (sysS 0x20000 15).dev = true := by decide +kernel
    simp only [idleEngines, Bool.and_eq_true, List.isEmpty_iff, List.all_eq_true] at h
    obtain ⟨⟨⟨hc, hk⟩, -⟩, hh⟩ := h
    simp only [Device.busyWhere, hc, hh, List.any_nil, Bool.false_or, Bool.or_false, List.any_eq_false]
    intro k hkm hany
    obtain ⟨x, hx, ho⟩ := List.any_eq_true.mp hany
    rw [hk k hkm x hx] at ho
    cases ho

/-- A word whose checks name a cause, one that cannot issue, a privileged one in user mode; `bkpt` and `trapi`. -/
theorem witness_TrapsSaveTheirCauseAndEnterTheHandler :
    (let i := Instr.abs (aw 1 false)
     (demo id).iss = some (demoX id) ∧ encode i ≠ [] ∧ (demoX id).verdict (demo id).dev i = .trap .illegal none) ∧
    (let f := fun g => ({ g with vEmpty := Fmap.set false g.vEmpty (2 * 64) true } : Group)
     (demo f).iss = some (demoX f) ∧ (demoX f).verdict (demo f).dev (.add { aw 0 false with ea := false }) = .wait) ∧
    (∀ i ∈ [Instr.csrr (yw 3 0 1), .csrw (yw 0 1 1), .csrwWaypart (yw 2 1 0), .tret (yw 0 0 0), .tlbinv (yw 0 0 0), .cacheopAlloc (yw 2 1 0), .cacheopWb (yw 2 1 1),
      .cacheopInv (yw 2 1 2), .cacheopWbinv (yw 2 1 3), .cacheopWbWay (yw 2 1 4), .cacheopInvWay (yw 2 1 5), .cacheopWbinvWay (yw 2 1 6), .halt (yw 0 0 0)],
      (demo id).iss = some (demoX id) ∧ ((demo id).dev.view (demoX id).agent).priv = false ∧ (demoX id).staticCause (demo id).dev i ≠ some .illegal ∧
        (demoX id).staticCause (demo id).dev i ≠ some .misalign) ∧
    ∀ i ∈ [Instr.bkpt { bw false with off := 7 }, .trapi { bw true with off := 0xFFFF }, .trapi (bw false)], Fit (demo brRegs) (demoX brRegs) i := by
  refine ⟨⟨rfl, by decide, by decide +kernel⟩, ⟨rfl, by decide +kernel⟩, fun i hi => ⟨rfl, by decide +kernel, ?_⟩, fits_all rfl _ (by decide +kernel)⟩
  have h : ∀ i ∈ [Instr.csrr (yw 3 0 1), .csrw (yw 0 1 1), .csrwWaypart (yw 2 1 0), .tret (yw 0 0 0), .tlbinv (yw 0 0 0), .cacheopAlloc (yw 2 1 0), .cacheopWb (yw 2 1 1),
      .cacheopInv (yw 2 1 2), .cacheopWbinv (yw 2 1 3), .cacheopWbWay (yw 2 1 4), .cacheopInvWay (yw 2 1 5), .cacheopWbinvWay (yw 2 1 6), .halt (yw 0 0 0)],
      (demoX id).staticCause (demo id).dev i ≠ some .illegal ∧ (demoX id).staticCause (demo id).dev i ≠ some .misalign := by decide +kernel
  exact h i hi
/-- A trap in user mode with and without a handler, in a handler, of a cluster handler, and a BKPT under the debug service. -/
theorem witness_TrapsSaveTheirCauseAndEnterTheHandler_entry :
    (let d := demoDev
     d.has (.group 0 0) = true ∧ (d.view (.group 0 0)).inHandler = false ∧ (d.ctx (d.ctxOf (.group 0 0))).trapDefault = true ∧ d.ctxOf (.group 0 0) < d.ctxs.length ∧
       d.memWf = true ∧ (d.ctx (d.ctxOf (.group 0 0))).requester = none) ∧
    (let d := demoDev.modCtx 0 (fun k => { k with trapDefault := false })
     d.has (.group 0 0) = true ∧ (d.view (.group 0 0)).inHandler = false ∧ (d.ctx (d.ctxOf (.group 0 0))).trapDefault = false) ∧
    (let d := demoDev.modGroup 0 0 (fun g => { g with inHandler := true })
     d.has (.group 0 0) = true ∧ (d.view (.group 0 0)).inHandler = true) ∧
    handlerDev.has (.handler 0) = true ∧ handlerDev.ctxOf (.handler 0) < handlerDev.ctxs.length ∧ handlerDev.memWf = true ∧
    (let d : Device := { demoDev with ham := { demoDev.ham with attached := [0] } }
     d.ctxOf (.group 0 0) ∈ d.ham.attached ∧ (d.view (.group 0 0)).inHandler = false) := by decide +kernel


/-! Launches. A launch packet of zeros but for its code base, groups, registers and grid lies at 0x20000. -/

def rangeB (d : Device) (c : Ctx) (die : Nat) (priv : Bool) (k : Acc) (va : DWord) (n : Nat) (ls : List Loc) : Bool :=
  match d.decodeRange c none die priv k va n with | .ok m => decide (m = ls) | .error _ => false
theorem range_of {d : Device} {c : Ctx} {die : Nat} {priv : Bool} {k : Acc} {va : DWord} {n : Nat} {ls : List Loc}
    (h : rangeB d c die priv k va n ls = true) : d.decodeRange c none die priv k va n = .ok ls := by
  unfold rangeB at h
  split at h
  · next m hm => rw [hm, of_decide_eq_true h]
  · cases h
def badB (d : Device) (c : Ctx) (die : Nat) (priv : Bool) (k : Acc) (va : DWord) (n : Nat) (e : Cause) : Bool :=
  match d.decodeRange c none die priv k va n with | .error (.trap x) => decide (x = e) | .error (.fault x) => decide (x = e) | .ok _ => false
theorem bad_of {d : Device} {c : Ctx} {die : Nat} {priv : Bool} {k : Acc} {va : DWord} {n : Nat} {e : Cause}
    (h : badB d c die priv k va n e = true) : d.decodeRange c none die priv k va n = .error (.trap e) ∨ d.decodeRange c none die priv k va n = .error (.fault e) := by
  unfold badB at h
  split at h
  · next x hm => left; rw [hm, of_decide_eq_true h]
  · next x hm => right; rw [hm, of_decide_eq_true h]
  · cases h
def memLocs (pa n : Nat) : List Loc := (List.range n).map (fun i => Loc.mem (pa + i))

def packetBytes : List Byte :=
  bytesOf 8 0x1000 ++ bytesOf 4 0 ++ bytesOf 4 0xFFFFFFFF ++ bytesOf 4 0xFFFFFFFF ++ [1, 7, 0x04, 0] ++ List.replicate 8 0 ++ bytesOf 4 2 ++ List.replicate 92 0
def launchDev : Device := (withBytes 0x20000 packetBytes demoDev).modGroup 0 0 (sregs [(1, 0x20000), (2, 0x20001)])
theorem witness_LaunchesAreAdmittedPlacedAndCompleted :
    (∀ a ∈ [(1 : RegNo), 2], Fit (issuing (.group 0 0) launchDev) (launchDev.issueOf (.group 0 0) [0]) (.launch (yw 0 a 0))) ∧
    (let x := launchDev.issueOf (.group 0 0) [0]
     launchDev.reach x.agent x.view.priv .load 0x20000 128 = .ok (memLocs 0x20000 128) ∧ (∀ l ∈ memLocs 0x20000 128, launchDev.answers l) ∧
       launchDev.held (memLocs 0x20000 128) = false ∧ launchDev.fab.remotes = [] ∧ (parsePacket ((memLocs 0x20000 128).map launchDev.byteAt)).replicate = 0 ∧
       (parsePacket ((memLocs 0x20000 128).map launchDev.byteAt)).fieldsOk = true) := by
  refine ⟨fun a ha => ?_, reach_of (by decide +kernel), fun l hl => ?_, held_free (by decide +kernel) _, by decide +kernel, by decide +kernel, by decide +kernel⟩
  · simp only [List.mem_cons, List.not_mem_nil, or_false] at ha
    rcases ha with rfl | rfl <;> exact fit_of rfl (by decide +kernel)
  · exact answers_of ((by decide +kernel : ∀ l ∈ memLocs 0x20000 128, answersB launchDev l = true) l hl)

/-- A second launch on the device, in some state. -/
def aPacket : Packet := parsePacket packetBytes
def heldDev (p : Packet) (st : LaunchState) : Device :=
  { demoDev with ctxs := demoDev.ctxs ++ [{ demoDev.ctx 0 with packet := p, state := st, placed := 0, statusLoc := some (.mem 0x20078) }] }
/-- Packets that pass the checks, with and without a dependency and a counter, and that fail each of them. -/
def goodPackets : List Packet :=
  [aPacket, { aPacket with done := 0x20000, depAddr := 0x20008, depVal := 0 }, { aPacket with depAddr := 0x20008, depVal := 1 }]
def badPackets : List (Packet × Cause) :=
  [({ aPacket with groups := 0 }, .illegal), ({ aPacket with done := 0x80000000 }, .xlate), ({ aPacket with depAddr := 0x20001 }, .misalign),
   ({ aPacket with spawn := 1, groups := 16 }, .capacity), ({ aPacket with cls := 0, grid := 100000 }, .capacity)]
theorem witness_LaunchesAreAdmittedPlacedAndCompleted_admission :
    (∀ p ∈ goodPackets ++ badPackets.map Prod.fst, let d := heldDev p .read
      1 < d.ctxs.length ∧ d.memWf = true ∧ (d.ctx 1).die = 0 ∧ (d.ctx 1).state = .read ∧ (d.ctx 0).state ≠ .read ∧ (d.ctx 1).packet.replicate = 0 ∧
        (d.ctx 1).requester = none) ∧
    (∀ p ∈ goodPackets, (heldDev p .read).admissionCause ((heldDev p .read).ctx 1) = none) ∧
    (∀ p ∈ badPackets, (heldDev p.1 .read).admissionCause ((heldDev p.1 .read).ctx 1) = some p.2) ∧
    (let p := { aPacket with depAddr := 0x20008, depVal := 0 }
     let d := heldDev p .waiting
     (d.ctx 1).state = .waiting ∧ d.depLocs (d.ctx 1) = some (memLocs 0x20008 8) ∧ (memLocs 0x20008 8).any isRemote = false ∧
       p.depVal.toNat % 2 ^ 63 ≤ (d.valueAt (memLocs 0x20008 8)).toNat % 2 ^ 63) := by decide +kernel

/-- Cluster sets of one, two and four blocks, of the parallel and the concurrent class. -/
def setPacket (code cls : BitVec 2) (grid : Nat) : Packet := { aPacket with csetCode := code, cls := cls, grid := grid }
def queuedDev (p : Packet) : Device := { heldDev p .queued with blocks := [], ctxs := [(heldDev p .queued).ctx 1] }
theorem witness_LaunchesAreAdmittedPlacedAndCompleted_placement :
    (∀ c ∈ [(0 : BitVec 2), 1, 2], let d := queuedDev (setPacket c 1 4)
      (d.dieFor (d.ctx 0)).isSome = true ∧ 0 < d.ctxs.length ∧ d.served 0 = some 0 ∧ (d.ctx 0).packet.concurrent = false ∧ (d.ctx 0).packet.replicate = 0) ∧
    (let d := queuedDev (setPacket 0 0 2)
     d.served 0 = some 0 ∧ (d.ctx 0).packet.concurrent = true ∧ (d.ctx 0).packet.replicate = 0 ∧ (d.ctx 0).placed = 0 ∧
       (Device.placeAll 0 ((d.ctx 0).packet.grid / (d.ctx 0).packet.setSize) d).isSome = true) := by decide +kernel


/-- A launch whose only block has ended, with its counter at 0x20000 or nowhere; a yelm former's built group and a partial one. -/
def endedDev (done : Nat) : Device :=
  ({ demoDev with blocks := demoDev.blocks.map (fun b => { b with ended := true }) } : Device).modCtx 0 (fun k => { k with packet := { k.packet with done := BitVec.ofNat 64 done } })
def aRecord : SpawnRec := { tid := 5, target := 3, fmt := 0, liveRegs := 0xFFFF, regs := List.replicate 16 9 }
def formerDev : Device := demoDev.modBlock 0 (fun b => { b with
  built := [{ target := 3, fmt := 0, recs := [aRecord], last := 0 }], formers := [{ target := 4, fmt := 0, recs := [aRecord], last := 0 }] })
theorem witness_LaunchesAreAdmittedPlacedAndCompleted_end :
    (∀ done ∈ [0, 0x20000, 0x80000000], let d := endedDev done
      let k := d.ctx 0
      0 < d.ctxs.length ∧ d.memWf = true ∧ d.filesWf = true ∧ k.state = .running ∧ k.staged = [] ∧ k.doneFault = none ∧ k.preempt = none ∧
        (∀ b ∈ d.blocks, b.ctx = 0 → b.ended = true) ∧ d.workLeft 0 = false ∧ k.packet.done = BitVec.ofNat 64 done) ∧
    (let d := endedDev 0x20000
     let ls := memLocs 0x20000 8
     d.decodeRange (d.ctx 0) none 0 false .store 0x20000 8 = .ok ls ∧ (∀ l ∈ ls, d.answers l) ∧ ls.length = 8 ∧ (ls.map d.cell).Nodup ∧
       d.ownedLocs ls = false) ∧
    (let d := endedDev 0x80000000
     d.decodeRange (d.ctx 0) none 0 false .store 0x80000000 8 = .error (.trap .xlate) ∨ d.decodeRange (d.ctx 0) none 0 false .store 0x80000000 8 = .error (.fault .xlate)) ∧
    (let d := formerDev
     let B := d.block 0
     0 < d.blocks.length ∧ B.built = [{ target := 3, fmt := 0, recs := [aRecord], last := 0 }] ∧ B.ended = false ∧ (d.ctx 0).preempt = none ∧
       aRecord.regs.length = 16 ∧ (B.groups.filter (fun g => !g.exited)).length < (d.ctx 0).packet.groups + 1 ∧ 1 ≤ B.groups.length ∧
       (∀ j < 1, j < B.groups.length ∧ (B.group j).exited = false) ∧ ¬ 1 < B.groups.length) ∧
    (let d : Device := { formerDev with now := 1000 }
     (d.block 0).formers[0]? = some { target := 4, fmt := 0, recs := [aRecord], last := 0 } ∧ (d.block 0).ended = false ∧
       (d.ctx (d.block 0).ctx).formto.toNat ≤ d.now - 0) := by
  refine ⟨by decide +kernel, ⟨range_of (by decide +kernel), fun l hl => ?_, by decide +kernel, by decide +kernel, by decide +kernel⟩, bad_of (by decide +kernel),
    by decide +kernel, by decide +kernel⟩
  exact answers_of ((by decide +kernel : ∀ l ∈ memLocs 0x20000 8, answersB (endedDev 0x20000) l = true) l hl)

/-! What waits for the core's units. -/

def aFill : Fill :=
  { agent := .group 0 0, issued := [0], v := [(256, 1), (257, 2)], vFull := [64], s := [(3, 4)], sFull := [3], flags := 1, sets := .flags, await := 0, tag := 0, vErr := [257], sErr := true }
def aQFill : QFill :=
  { blk := 0, slot := 0, q := 0, entry := 0, locs := List.replicate 256 (memLocs 0x20000 4), size := 2, await := 0, tag := 0, words := [], err := [], acq := false }
def aCopy (out : Bool) : CopyOp := { blk := 0, slot := 0, id := 1, out := out, pieces := [(.mem 0x20000, 0, 4)], lines := if out then [0x400] else [], bytes := [], sent := false, bad := false }
def aQueue : Queue := { base := 0, entries := [{ words := [], filled := false, err := [] }] }
def unitDev : Device :=
  { demoDev.modGroup 0 0 (fun g => { g with queues := [aQueue], openCopies := [1], batches := [(0, [1, 2])] }) with fills := [aFill], qfills := [aQFill], now := 1000 }
def movingDev (out : Bool) : Device := { unitDev.modBlock 0 (fun b => { b with stashBytes := 16384 }) with copies := [aCopy out] }
/-- Both ends of a copy's pairs answer, and none of its sources is written. -/
def pairsOk (d : Device) (c : CopyOp) : Bool :=
  (c.pieces.flatMap (pieceLocs c.blk)).all (fun p => answersB d p.1 && answersB d p.2 &&
    !((c.pieces.flatMap (pieceLocs c.blk)).map (fun q => d.cell (if c.out then q.1 else q.2))).contains (d.cell (if c.out then p.2 else p.1)))
theorem pairs_of {d : Device} {c : CopyOp} (h : pairsOk d c = true) :
    ∀ p ∈ c.pieces.flatMap (pieceLocs c.blk), d.answers p.1 ∧ d.answers p.2 ∧ d.cell (if c.out then p.2 else p.1) ∉
      (c.pieces.flatMap (pieceLocs c.blk)).map (fun q => d.cell (if c.out then q.1 else q.2)) := by
  intro p hp
  have hq := List.all_eq_true.mp h p hp
  simp only [Bool.and_eq_true, Bool.not_eq_true', List.contains_eq_mem, decide_eq_false_iff_not] at hq
  exact ⟨answers_of hq.1.1, answers_of hq.1.2, hq.2⟩
theorem queue_fill_fits : ∀ l < 256, ∃ ls, aQFill.locs[l]? = some ls ∧ ∀ m ∈ ls, unitDev.answers m :=
  fun _ hl => ⟨memLocs 0x20000 4, List.getElem?_replicate_of_lt hl, fun m hm =>
    answers_of ((by decide +kernel : ∀ m ∈ memLocs 0x20000 4, answersB unitDev m = true) m hm)⟩
theorem witness_UnitEventsCompleteWhatWaits :
    (unitDev.fills[0]? = some aFill ∧ unitDev.has aFill.agent = true ∧ aFill.agent.isGroup = true ∧ (unitDev.view aFill.agent).regsWf = true ∧
       (aFill.v.map Prod.fst).Nodup ∧ (aFill.s.map Prod.fst).Nodup ∧ ∀ q ∈ aFill.vErr, q ∈ aFill.v.map Prod.fst) ∧
    (unitDev.qfills[0]? = some aQFill ∧ unitDev.has (.group 0 0) = true ∧ aQFill.locs.length = 256 ∧ ((unitDev.block 0).group 0).queues[0]? = some aQueue ∧
       aQueue.base ≤ aQFill.entry ∧ aQFill.entry - aQueue.base < aQueue.entries.length) ∧
    unitDev.held aQFill.locs.flatten = false ∧
    (∀ out : Bool, (movingDev out).copies[0]? = some (aCopy out) ∧ (movingDev out).has (.group 0 0) = true ∧
      (∀ n ∈ (aCopy out).lines, n ∉ (movingDev out).fab.hostLines) ∧ (∀ p ∈ (aCopy out).pieces, isRemote p.1 = false) ∧ (movingDev out).memWf = true ∧
      (movingDev out).filesWf = true ∧
      (((aCopy out).pieces.flatMap (pieceLocs 0)).map (fun p => (movingDev out).cell (if out then p.1 else p.2))).Nodup) ∧
    ∀ out : Bool, ∀ p ∈ (aCopy out).pieces.flatMap (pieceLocs (aCopy out).blk), (movingDev out).answers p.1 ∧ (movingDev out).answers p.2 ∧
      (movingDev out).cell (if (aCopy out).out then p.2 else p.1) ∉
        ((aCopy out).pieces.flatMap (pieceLocs (aCopy out).blk)).map (fun q => (movingDev out).cell (if (aCopy out).out then q.1 else q.2)) :=
  ⟨by decide +kernel, by decide +kernel, held_free (by decide +kernel) _, by decide +kernel, fun out =>
    pairs_of ((by decide +kernel : ∀ out : Bool, pairsOk (movingDev out) (aCopy out) = true) out)⟩

/-- Monitors that a write has reached, and one that polls; slice 0 idle; two groups, of which the active one has yielded; a fault. -/
def aMonitor (wide geu : Bool) (line : Option Nat) (val : DWord) : Monitor :=
  { agent := .group 0 0, core := 0, line := line, ea := 0x20000, geu := geu, wide := wide, sreg := 3, val := val, woken := line.isSome, called := false, far := false, since := 0, win := 0, lim := 0, inst := default }
def monDev : Device :=
  { demoDev with now := 2000, monitors := [aMonitor true false (some 0x400) 1, aMonitor false true none 0, aMonitor true true (some 0x400) 9] }
def idleDev : Device := { demoDev.modGroup 0 0 (fun g => g.modSlice 0 (fun u => { u with hold := .idle 0 2 })) with now := 128 }
def swapDev (two : Bool) : Device :=
  (demoDev.modBlock 0 (fun b => { b with groups := b.groups ++ if two then b.groups.map (fun g => { g with slot := 1, pos := none }) else [] })).modGroup 0 0
    (fun g => g.modSlice 0 (fun u => { u with hold := .yield }))
def wantsB (d : Device) (core p : Nat) : Bool :=
  match d.inPos core p with
  | none => false
  | some q => let g := d.groupAt q
    g.yielding || ((g.stopped || d.groupBlocked q.1 q.2) && decide ((Fmap.get 24 d.swapth (core / 32)).toNat < d.now - g.since))
def faultDev : Device :=
  { demoDev with faults := [{ core := 0, agent := .group 0 0, slices := [0], cause := .xlate, pc := 0, word := 0, lane := some 0, addr := 0x80000000, recCnt := 0, rolled := false }] }
theorem witness_UnitEventsCompleteWhatWaits_more :
    (∀ k < 3, ∃ m, monDev.monitors[k]? = some m ∧ monDev.live m.agent = true ∧ monDev.has m.agent = true ∧ (monDev.view m.agent).regsWf = true ∧
       (m.line ≠ none → m.woken = true) ∧ (m.line = none → 1024 ≤ monDev.now - m.since) ∧
       reachB monDev m.agent (monDev.view m.agent).priv .load m.ea (if m.wide then 8 else 4) (memLocs 0x20000 (if m.wide then 8 else 4)) = true) ∧
    idleDev.idlers[0]? = some (.group 0 0, 0, 0, 2) ∧ 64 * 2 ≤ idleDev.now - 0 ∧
    (∀ two : Bool, let d := swapDev two
      d.inPos 0 0 = some (0, 0) ∧ (d.core 0).transfer = none ∧ wantsB d 0 0 = true ∧ d.incoming 0 = (if two then some (0, 1) else none) ∧
        (d.groupAt (0, 0)).yielding = true) ∧
    (∃ f, faultDev.faults[0]? = some f ∧ faultDev.memWf = true ∧ (∀ c ∈ faultDev.ctxs, Fmap.wf 0 c.tables = true) ∧ faultDev.ctxOf f.agent < faultDev.ctxs.length) := by
  refine ⟨?_, ?_, ?_, ?_, ?_⟩
  · decide +kernel
  · decide +kernel
  · decide +kernel
  · intro two; cases two
    · decide +kernel
    · decide +kernel
  · decide +kernel

/-- The flush of a launch with staged contributions whose group has issued `eflush`, and of one whose blocks have ended. -/
def aContribution (lane : Nat) : Contribution :=
  { addr := 0x20000, ea := 0x20000, blk := 0, grp := 0, lane := lane, seq := 0, epoch := 0, fadd := lane == 1, wide := false, x := 1, core := 0, buffered := false }
def flushDev (d : Device) (e : Nat) : Device :=
  (d.modGroup 0 0 (fun g => { g with eflushes := e })).modCtx 0 (fun k => { k with staged := [aContribution 1, aContribution 0] })
theorem witness_UnitEventsCompleteWhatWaits_flush : ∀ p ∈ [(demoDev, 1), (endedDev 0, 0)], let d := flushDev p.1 p.2
    let x := d.ctx 0
    let grps := d.launchGroupsOf 0
    0 < d.ctxs.length ∧ d.memWf = true ∧ d.filesWf = true ∧ x.state = .running ∧ (∀ y ∈ x.staged, d.held [.mem y.addr] = false) ∧ x.staged ≠ [] ∧
      (∀ y ∈ x.staged, y.blk < 2 ^ 32 ∧ y.grp < 16 ∧ y.lane < 256 ∧ y.seq < 2 ^ 32 ∧ (y.fadd = true → y.wide = false)) ∧
      x.staged.Pairwise (fun y z => y.before z ∨ z.before y) ∧
      (p.2 = 1 → (∀ g ∈ grps, g.1 = true ∨ 1 ≤ g.2) ∧ ∃ g ∈ grps, 1 ≤ g.2) ∧ (p.2 = 0 → (¬ ∃ g ∈ grps, 1 ≤ g.2) ∧ ∀ b ∈ d.blocks, b.ctx = 0 → b.ended = true) := by
  intro p hp
  have h : ∀ p ∈ [(demoDev, 1), (endedDev 0, 0)], let d := flushDev p.1 p.2
      let x := d.ctx 0
      let grps := d.launchGroupsOf 0
      (0 < d.ctxs.length ∧ d.memWf = true ∧ d.filesWf = true ∧ x.state = .running ∧ idleEngines d = true ∧ x.staged = [aContribution 1, aContribution 0] ∧
        ((p.2 = 1 → (∀ g ∈ grps, g.1 = true ∨ 1 ≤ g.2) ∧ ∃ g ∈ grps, 1 ≤ g.2) ∧ (p.2 = 0 → (¬ ∃ g ∈ grps, 1 ≤ g.2) ∧ ∀ b ∈ d.blocks, b.ctx = 0 → b.ended = true))) := by
    decide +kernel
  obtain ⟨h1, h2, h3, h4, h5, h6, h7, h8⟩ := h p hp
  refine ⟨h1, h2, h3, h4, fun y _ => held_free h5 _, by rw [h6]; simp, ?_, ?_, h7, h8⟩ <;> rw [h6]
  · decide
  · refine .cons (fun y hy => Or.inr ?_) (.cons (fun y hy => (List.not_mem_nil hy).elim) .nil)
    rw [List.mem_singleton] at hy
    subst hy
    show List.Lex (· < ·) _ _
    decide

/-- A turn of `append` and of an ordered add: the one group of the launch. -/
def turnDev (i : Instr) (n : Nat) : Device :=
  demoDev.modCtx 0 (fun k => { k with streams := [{ ea := 0x20000, isAppend := some (n == 16), past := [], waiting := [{ blk := 0, slot := 0, word := i, locs := memLocs 0x20000 n, issued := 1, lanes := 15, vals := [(0, 1)] }] }] })
theorem witness_UnitEventsCompleteWhatWaits_turn : ∀ p ∈ [(Instr.append (mw 2 false), 16), (.atomOrdAdd (mw 2 false), 4), (.atomOrdAdd (mw 3 false), 8)], let d := turnDev p.1 p.2
    let a := Agent.group 0 0
    ∃ st q, (d.ctx 0).streams[0]? = some st ∧ st.waiting = [q] ∧ q.word = p.1 ∧ q.locs = memLocs 0x20000 p.2 ∧ 0 < d.ctxs.length ∧ (d.ctx 0).state = .running ∧
      d.has a = true ∧ d.live a = true ∧ d.turnReady 0 st ((d.block q.blk).idx * 16 + q.slot) = true ∧ d.held q.locs = false ∧ (∀ l ∈ q.locs, d.answers l) ∧
      (q.locs.map d.cell).Nodup ∧ d.memWf = true ∧ d.filesWf = true := by
  intro p hp
  have h : ∀ p ∈ [(Instr.append (mw 2 false), 16), (.atomOrdAdd (mw 2 false), 4), (.atomOrdAdd (mw 3 false), 8)],
      ∀ l ∈ memLocs 0x20000 p.2, answersB (turnDev p.1 p.2) l = true := by decide +kernel
  have h := h p hp
  simp only [List.mem_cons, List.not_mem_nil, or_false] at hp
  rcases hp with rfl | rfl | rfl <;>
    exact ⟨_, _, rfl, rfl, rfl, rfl, by decide +kernel, by decide +kernel, by decide +kernel, by decide +kernel, by decide +kernel, held_free (by decide +kernel) _,
      fun l hl => answers_of (h l hl), by decide +kernel, by decide +kernel, by decide +kernel⟩


/-! Pre-emption of the small machine's launch. -/

def aPreempt (level : Nat) (cores : List Nat) : Preempt :=
  { level := level, start := 0, levelStart := 0, drainLimit := 100, saveLimit := 100, save := some 0x40000, pdrainMissed := false, psaveMissed := false,
    doubleTrap := false, unresolved := false, cores := cores, requester := none }
/-- The device at cycle 1000 with its launch under a pre-emption, its block resident or not, and firmware or none. -/
def preemptDev (p : Option Preempt) (resident : Bool) (fw : DWord) : Device :=
  let d : Device := { demoDev with now := 1000, ham := { demoDev.ham with handlerBase := fw }, blocks := if resident then demoDev.blocks else [] }
  d.modCtx 0 (fun k => { k with preempt := p, tslice := 10, slice := 10, statusLoc := some (.mem 0x30000) })
theorem witness_PreemptionDrainsSavesResetsAndRestores :
    (let d : Device := { preemptDev none true 0 with ctxs := (preemptDev none true 0).ctxs ++ [{ demoDev.ctx 0 with state := .queued }] }
     let x := d.ctx 0
     x.state = .running ∧ x.preempt = none ∧ x.tslice ≠ 0 ∧ x.tslice.toNat ≤ x.slice.toNat ∧ d.Lives 0 0 ∧ 1 < d.ctxs.length ∧ (d.ctx 1).state = .queued ∧
       (d.ctx 1).preempt = none) ∧
    (∀ r : Bool, let d := preemptDev (some (aPreempt 1 [])) r 0
      0 < d.ctxs.length ∧ d.memWf = true ∧ (d.ctx 0).state = .running ∧ (d.ctx 0).preempt = some (aPreempt 1 []) ∧ 100 ≤ d.now - 0 ∧
        (r = true → d.Lives 0 0) ∧ (r = false → ∀ b, ¬ d.Lives 0 b)) ∧
    (∀ cores ∈ [[0], [0, 1]], ∀ fw ∈ [0, 0x1000], let d := preemptDev (some (aPreempt 2 cores)) true (BitVec.ofNat 64 fw)
      0 < d.ctxs.length ∧ d.memWf = true ∧ (d.ctx 0).preempt = some (aPreempt 2 cores) ∧ 0 ∈ cores ∧ d.fills = [] ∧ d.qfills = [] ∧ d.copies = [] ∧
        d.fab.remotes = [] ∧ d.Lives 0 0 ∧ (d.ctx 0).requester = none ∧ 100 < d.now - 0 ∧ (d.ctx 0).statusLoc = some (.mem 0x30000)) := by
  unfold Device.Lives
  refine ⟨by decide +kernel, fun r => ?_, by decide +kernel⟩
  cases r
  · refine ⟨by decide +kernel, by decide +kernel, by decide +kernel, by decide +kernel, by decide +kernel, fun h => Bool.noConfusion h, fun _ b h => ?_⟩
    exact absurd h.1 (Nat.not_lt_zero b)
  · refine ⟨by decide +kernel, by decide +kernel, by decide +kernel, by decide +kernel, by decide +kernel, fun _ => by decide +kernel, fun h => Bool.noConfusion h⟩
/-- The saved block of a context whose launch stays. -/
def savedV : Saved := { area := 0x40000, ctx := 0, blocks := [(0, demoDev.block 0)], crests := [], walkers := [], drains := [] }
def savedDev : Device := { endedDev 0 with saved := [savedV] }
theorem witness_PreemptionDrainsSavesResetsAndRestores_restore :
    (savedDev.restoreSaved savedV).isSome = true ∧ savedV.ctx < savedDev.ctxs.length ∧ (savedV.blocks.map Prod.fst).Nodup ∧
      (∀ q ∈ savedV.blocks, q.1 < savedDev.blocks.length) := by decide +kernel

/-! Services. A call stands in service block 0, at 0x50000, or comes in a datagram of source 9. -/

def callBytes (service op a0 a1 a2 : Nat) : List Byte :=
  bytesOf 8 1 ++ bytesOf 2 (BitVec.ofNat 64 service) ++ bytesOf 2 (BitVec.ofNat 64 op) ++ bytesOf 4 0 ++ bytesOf 8 (BitVec.ofNat 64 a0) ++
    bytesOf 8 (BitVec.ofNat 64 a1) ++ bytesOf 8 (BitVec.ofNat 64 a2) ++ List.replicate 24 0
/-- The small machine, whose launch's packet lies at 0x20000, with the services' configuration. -/
def servDev (h : Hamada) : Device :=
  (launchDev.modCtx 0 (fun k => { k with va := 0x20000 })).modGroup 0 0 (fun g => { g with stopped := true }) |> fun d =>
    { d with ham := { h with services := [0x50000] ++ List.replicate 7 0, sources := [9] } }
def askDev (h : Hamada) (service op a0 a1 a2 : Nat) : Device := withBytes 0x50000 (callBytes service op a0 a1 a2) (servDev h)
theorem mayStore_of {d : Device} {ls : List Loc} (h1 : d.ham.stores = []) (h2 : idleEngines d = true) (h3 : ls.all (fun l => !d.noMemory l) = true) :
    d.mayStore ls := by
  have h := h2
  simp only [idleEngines, Bool.and_eq_true, List.isEmpty_iff] at h
  refine ⟨h1, ?_, owned_free h2, fun l hl => by simpa using List.all_eq_true.mp h3 l hl⟩
  rw [h.1.2]
  exact fun t ht => (List.not_mem_nil ht).elim
def asksB (d : Device) (r : Req) (c : Call) : Bool :=
  decide (d.callOf r = some c) && !d.unlisted r && d.ham.serving.isEmpty && d.blockTurn r && d.memWf && d.ham.servedSeq.length == d.ham.services.length &&
    d.ham.stores.isEmpty && idleEngines d &&
    match r with | .block i => (memRun (((d.ham.services[i]?).getD 0).toNat + 64) 192).all (fun l => !d.noMemory l) | .datagram _ _ => true
theorem asks_of {d : Device} {r : Req} {c : Call} (h : asksB d r c = true) : d.Asks r c := by
  simp only [asksB, Bool.and_eq_true, decide_eq_true_eq, Bool.not_eq_true', beq_iff_eq, List.isEmpty_iff] at h
  obtain ⟨⟨⟨⟨⟨⟨⟨⟨h1, h2⟩, h3⟩, h6⟩, h4⟩, h5⟩, h7⟩, h8⟩, h9⟩ := h
  refine ⟨h1, ?_, by simp [h3], h6, h4, h5, ?_⟩
  · rintro src bs rfl
    simpa [Device.unlisted] using h2
  · rintro i rfl
    exact mayStore_of h7 h8 h9
/-- Calls of every operation, within its limits and outside, and of one that R411 does not list. -/
def calls : List (Nat × Nat × Nat × Nat × Nat) :=
  [(1, 1, 0x20000, 0, 0), (1, 1, 0x20001, 0, 0), (1, 2, 0, 5, 0), (1, 2, 0, 6, 0), (1, 2, 0, 0, 0), (1, 3, 3, 31, 0), (1, 3, 4, 0, 0), (1, 3, 0, 32, 0),
   (2, 1, 2800, 0, 0), (2, 1, 2200, 0, 0), (2, 1, 1600, 0, 0), (2, 1, 1700, 0, 0), (2, 2, 0, 0, 0), (2, 3, 0x20000, 1, 0x40000), (2, 3, 0x20000, 2, 0x40000),
   (2, 3, 0x20000, 3, 0), (2, 3, 0x20000, 0, 0), (2, 3, 0x20000, 4, 0), (2, 3, 0x20000, 1, 1), (2, 3, 0, 1, 0x40000), (2, 4, 0x40000, 0, 0),
   (2, 4, 0x41000, 0, 0), (2, 4, 1, 0, 0), (3, 1, 0x20000, 0, 0), (3, 1, 0, 0, 0), (3, 2, 0, 0, 0), (3, 3, 0, 0, 0), (3, 3, 16, 0, 0), (3, 3, 1, 0, 0),
   (3, 4, 0, 0, 0), (3, 4, 0, 63, 0), (3, 4, 0, 64, 0), (3, 5, 0, 0, 0), (3, 6, 0, 0, 0), (3, 6, 0, 9, 0), (3, 6, 0, 10, 0), (3, 7, 0, 0, 0), (3, 7, 0, 9, 0),
   (3, 7, 0, 7, 0), (3, 8, 0, 1, 0), (3, 8, 1, 0, 0), (3, 9, 0, 0, 0)]
/-- The same as calls. -/
def callAs (q : Nat × Nat × Nat × Nat × Nat) : Call :=
  { seq := 1, service := q.1, op := q.2.1, dirty := false, args := ([q.2.2.1, q.2.2.2.1, q.2.2.2.2, 0, 0, 0]).map (BitVec.ofNat 64) }
theorem datagrams_ask (h : Hamada) (h1 : (servDev h).memWf = true) (h2 : h.serving = []) (h3 : h.servedSeq.length = 8) : ∀ q ∈ calls,
    (servDev h).Asks (.datagram 9 (callBytes q.1 q.2.1 q.2.2.1 q.2.2.2.1 q.2.2.2.2)) (callAs q) := by
  have hp : ∀ q ∈ calls, parseCall (callBytes q.1 q.2.1 q.2.2.1 q.2.2.2.1 q.2.2.2.2) = callAs q := by decide +kernel
  refine fun q hq => ⟨congrArg some (hp q hq), ?_, ?_, rfl, h1, ?_, fun i h => by cases h⟩
  · rintro src bs ⟨⟩
    exact List.mem_singleton.mpr rfl
  · show ∀ x ∈ h.serving, _
    rw [h2]
    exact fun _ hx => (List.not_mem_nil hx).elim
  · exact h3.trans rfl
theorem witness_ServicesAnswerTheirRequests :
    (askDev demoDev.ham 2 2 0 0 0).Asks (.block 0) (callAs (2, 2, 0, 0, 0)) ∧
    ∀ q ∈ calls, (servDev demoDev.ham).Asks (.datagram 9 (callBytes q.1 q.2.1 q.2.2.1 q.2.2.2.1 q.2.2.2.2)) (callAs q) :=
  ⟨asks_of (by decide +kernel), datagrams_ask _ (by decide +kernel) rfl rfl⟩
/-- Launches and groups that these calls name and do not name; a full and an empty log; a saved context; requests under way. -/
theorem witness_ServicesAnswerTheirRequests_names :
    (servDev demoDev.ham).LaunchAt 0x20000 0 ∧ (∀ k, ¬ (servDev demoDev.ham).LaunchAt 0 k) ∧ (servDev demoDev.ham).Lives 0 0 ∧
    ((servDev demoDev.ham).ctx 0).preempt = none ∧ ((servDev demoDev.ham).ctx 0).requester = none ∧
    (let d := servDev demoDev.ham
     d.decodeRange { d.frontCtx with root := 0x10000 } none 0 true .load 0x20000 128 = .ok (memLocs 0x20000 128)) ∧
    (let h : Hamada := { demoDev.ham with attached := [0] }
     (servDev h).Names 0 0 0 ∧ (∀ b k, ¬ (servDev h).Names 1 b k) ∧ ((servDev h).block 0 |>.group 0).stopped = true ∧
       (((servDev h).block 0 |>.group 0).slice 0).live ≠ 0 ∧ (((servDev h).block 0 |>.group 0).slice 63).live = 0 ∧
       ((servDev h).block 0 |>.group 0).regsWf = true ∧ ((servDev h).block 0 |>.group 0).slices.length = 64) ∧
    demoDev.ham.attached = [] ∧ (9 : BitVec 32) ∈ (servDev demoDev.ham).ham.sources ∧ (8 : BitVec 32) ∉ (servDev demoDev.ham).ham.sources := by
  refine ⟨⟨by decide +kernel, fun j hj => absurd hj (Nat.not_lt_zero j)⟩, fun k h => ?_, ?_, by decide +kernel, by decide +kernel, range_of (by decide +kernel),
    ⟨⟨by decide, by decide, by decide, 0, by decide +kernel, ?_, by decide +kernel, fun b hb => absurd hb (Nat.not_lt_zero b), by decide +kernel, by decide +kernel⟩,
      fun b k h => ?_, by decide +kernel, by decide +kernel, by decide +kernel, by decide +kernel, by decide +kernel⟩, by decide +kernel, by decide +kernel, by decide +kernel⟩
  · have hk : k < 1 := h.1.1
    have h0 : k = 0 := by omega
    exact absurd (h0 ▸ h.1.2.1) (by decide +kernel)
  · unfold Device.Lives; decide +kernel
  · unfold Device.Lives; decide +kernel
  · obtain ⟨-, -, hk, c, -, hl, -, -, hg, -⟩ := h
    have hb : b < 1 := hl.1
    have h0 : b = 0 := by omega
    subst h0
    exact absurd (hk ▸ hg) (by decide +kernel)
/-- A call whose bytes marked zero are not; a request block of the front program at 0x60000 with a packet and without. -/
def frontDev (va root : Nat) : Device :=
  withBytes 0x60000 (bytesOf 8 1 ++ bytesOf 8 (BitVec.ofNat 64 va)) { launchDev with ham := { launchDev.ham with front := [(0x60000, 0)], frontRoot := root } }
theorem witness_ServicesAnswerTheirRequests_front :
    (parseCall (listSet (callBytes 1 1 0 0 0) 12 1)).dirty = true ∧
    (∀ p ∈ [(0x20000, 0x10000), (0x20001, 0x10000), (0x80000000, 0x10000)], let d := frontDev p.1 p.2
      d.ham.front[0]? = some (0x60000, 0) ∧ d.memWf = true ∧ (d.valueAt (memLocs 0x60000 8)) = 1 ∧ (d.valueAt (memLocs 0x60008 8)).toNat = p.1 ∧
        d.heldLaunches 0 < 1024) ∧
    (let d := frontDev 0x20000 0x10000
     d.decodeRange d.frontCtx none 0 true .load 0x20000 128 = .ok (memLocs 0x20000 128) ∧ (∀ l ∈ memLocs 0x20000 128, isRemote l = false) ∧
       d.held (memLocs 0x20000 128) = false ∧ (parsePacket ((memLocs 0x20000 128).map d.byteAt)).replicate = 0) ∧
    (let d := frontDev 0x80000000 0x10000
     d.decodeRange d.frontCtx none 0 true .load 0x80000000 128 = .error (.trap .xlate) ∨
       d.decodeRange d.frontCtx none 0 true .load 0x80000000 128 = .error (.fault .xlate)) :=
  ⟨by decide +kernel, by decide +kernel, ⟨range_of (by decide +kernel), by decide +kernel, held_free (by decide +kernel) _, by decide +kernel⟩,
    bad_of (by decide +kernel)⟩
theorem witness_DebugServiceStopsStepsReadsAndWrites : ∀ q ∈ calls, q.1 = 3 →
    (servDev { demoDev.ham with attached := [0] }).Asks (.datagram 9 (callBytes q.1 q.2.1 q.2.2.1 q.2.2.2.1 q.2.2.2.2)) (callAs q) ∧
      (callAs q).dirty = false :=
  fun q hq _ => ⟨datagrams_ask _ (by decide +kernel) rfl rfl q hq, rfl⟩


/-! Boot, power, heat, self-tests and migration. -/

/-- A key, an image that it has signed, and one with another image's signature. -/
def aKey : XmssKey := { secret := List.replicate 32 1, prf := List.replicate 32 2, seed := List.replicate 32 3 }
def imageBytes : List Byte := [1, 2, 3]
def anImage (v : Bool) : BootImage :=
  { bytes := imageBytes, key := aKey.pub 20, signature := if v then aKey.sign 20 0 imageBytes else [], version := 3, minVersion := 2,
    devices := [(0, 5), (1, 6)], sources := [9], decoders := [], regs := CtxRegs.reset, handlerBase := 0, frontRoot := 0, front := [0x1000] }
/-- A signature of the wrong length verifies under no key. -/
theorem anImage_false : xmssVerify 20 (anImage false).key (anImage false).bytes (anImage false).signature = false := by
  have h : ∀ pub : List Byte, xmssVerify 20 pub imageBytes [] = false := fun pub => by
    have hl : (([] : List Byte).length == 36 + 32 * (wotsLen + 20)) = false := by decide
    unfold xmssVerify
    rw [hl]
    simp only [Bool.and_false, Bool.false_and]
  exact h _
theorem anImage_verifies : xmssVerify 20 (anImage true).key (anImage true).bytes (anImage true).signature = true :=
  XmssKey.verify_sign aKey 20 0 imageBytes (by decide) (by decide) (by decide)
def hamDev (f : Hamada → Hamada) : Device := { demoDev with ham := f demoDev.ham }
def aLine (line : Nat) (dirty : Bool) : L2Line :=
  { line := line, die := 0, slice := 0, set := 0, way := line, exempt := false, behind := if dirty then some (List.replicate 128 5) else none }
theorem witness_BootFencingPowerAndMigration :
    demoDev.boot ≠ .off ∧ demoDev.ham.xmssBits < 1024 ∧ demoDev.ham.minVersion.toNat ≤ (anImage true).version.toNat ∧ (anImage true).bytes.length ≤ 64 * 2 ^ 20 ∧
    xmssVerify 20 (anImage true).key (anImage true).bytes (anImage true).signature = true ∧
    xmssVerify 20 (anImage false).key (anImage false).bytes (anImage false).signature = false ∧
    (let h : Hamada := { demoDev.ham with imageKey := digestOf (anImage true).key }
     digestOf (anImage true).key = h.imageKey) ∧ aKey.seed.length = 32 ∧
    (let d : Device := { demoDev with l2 := [aLine 1 true, aLine 2 false] }
     d.memWf = true ∧ (∀ y ∈ d.l2, ∀ z ∈ d.l2, y.line = z.line → y = z) ∧ (∀ y ∈ d.l2, ∀ bs, y.behind = some bs → bs.length = 128)) ∧
    demoDev.ham.clocks.length = 4 ∧ demoDev.ham.hotDram.length = 4 ∧ demoDev.ham.clocks[3]? = some 1800 ∧
    (hamDev (fun h => { h with xmssBits := 1024 })).ham.xmssBits = 1024 ∧ demoDev.ham.listed = false ∧
    (hamDev (fun h => { h with listed := true })).ham.listed = true := by
  refine ⟨by decide +kernel, by decide +kernel, by decide +kernel, by decide +kernel, anImage_verifies, anImage_false, by simp only, by decide,
    ⟨by decide +kernel, by decide +kernel, fun y hy bs hb => ?_⟩, by decide +kernel⟩
  simp only [List.mem_cons, List.not_mem_nil, or_false] at hy
  rcases hy with rfl | rfl
  · cases hb; rfl
  · cases hb
/-- Pieces under self-test: a lane, a core that works and one that does not, and the only way of an L2 slice. -/
def testDev : Device :=
  { hamDev (fun h => { h with testing := [(.lane 2 7, true), (.core 0 0, false), (.core 1 3, false), (.l2way 0 5 0, false)] }) with waypart := [(0, 1)] }
theorem witness_BootFencingPowerAndMigration_pieces :
    (∀ u ∈ [Piece.lane 2 7, .core 0 0, .core 1 3, .l2way 0 5 0], ∃ c, (u, c) ∈ testDev.ham.testing) ∧ (testDev.ham.fenced = [] ∧ testDev.saved = [] ∧
    Fmap.wf 0xFFFF testDev.waypart = true ∧ testDev.memWf = true ∧
    (¬ ∀ j < 16, ∃ v < 16, (testDev.wayPart 0 (5 / 16)).getLsbD v = true ∧ ¬ (16 * (5 / 16) + j = 5 ∧ v = 0)) ∧
    (∀ j < 16, ∃ v < 16, (demoDev.wayPart 0 (5 / 16)).getLsbD v = true ∧ ¬ (16 * (5 / 16) + j = 5 ∧ v = 0)) ∧
    (testDev.block 0).core = 32 * 0 + 0 ∧ (testDev.block 0).ended = false ∧ (∀ b ∈ testDev.blocks, b.ended = false → b.core ≠ 32 * 1 + 3)) ∧
    testDev.Lives 0 0 ∧ 0 < testDev.ctxs.length ∧ (testDev.ctx 0).preempt = none ∧
    ∀ c b, testDev.Lives c b → (testDev.block b).core = 32 * 0 + 0 → c = 0 := by
  refine ⟨?_, by decide +kernel, by unfold Device.Lives; decide +kernel, by decide +kernel, by decide +kernel, fun c b h _ => ?_⟩
  · intro u hu
    simp only [List.mem_cons, List.not_mem_nil, or_false] at hu
    rcases hu with rfl | rfl | rfl | rfl
    · exact ⟨true, by decide +kernel⟩
    · exact ⟨false, by decide +kernel⟩
    · exact ⟨false, by decide +kernel⟩
    · exact ⟨false, by decide +kernel⟩
  · have hb : b < 1 := h.1
    have h0 : b = 0 := by omega
    subst h0
    exact h.2.1.symm.trans (by decide +kernel)
/-- Pages at 0x100000 and 0x200000 in each size that fits; a page with a staged contribution. -/
theorem witness_BootFencingPowerAndMigration_pages :
    (∀ size ∈ [2 ^ 12, 2 ^ 16, 2 ^ 21], let d := demoDev
      d.memWf = true ∧ 0x200000 % size = 0 ∧ 0x400000 % size = 0 ∧ d.ownMemory 0x200000 = true ∧ d.ownMemory 0x400000 = true ∧ d.pageBusy 0x200000 size = false ∧
        d.pageBusy 0x400000 size = false ∧ d.pagePinned 0x200000 size = false ∧ d.pagePinned 0x400000 size = false ∧ ∀ c ∈ d.ctxs, Fmap.wf 0 c.tables = true) ∧
    (flushDev demoDev 0).pagePinned 0x20000 (2 ^ 12) = true ∧ (flushDev demoDev 0).pageBusy 0x20000 (2 ^ 12) = false ∧
    (flushDev demoDev 0).ownMemory 0x20000 = true ∧ (flushDev demoDev 0).pageBusy 0x30000 (2 ^ 12) = false ∧ (flushDev demoDev 0).memWf = true := by decide +kernel

/-! The fabric. Device 5 of a set of devices 5 and 6 (or 4 and 5) runs the launch. -/

def aDrain : DrainReq := { blk := 0, slot := 0, sreg := 3, inst := default }
def aReq (size : Nat) (op : BitVec 5) : RemoteReq := { src := 6, tag := 1, addr := 0x20000, size := size, op := op, data := 3, cmp := 0, cells := [(0, 3), (1, 0)], counted := true }
def aRemote (kind : BitVec 4) (use : RemoteUse) (lane : Option Nat) : RemoteOp :=
  { plainOp (some (.group 0 0)) 0 6 kind 0 4 with
    use := use, parts := [{ lane := lane, pos := 0, off := 0, cnt := 4 }], reg := 2, size := 2, left := if kind = 8 then [6] else [] }
def listedDev : Device := hamDev (fun h => { h with listed := true, devNum := 5, numbers := [5, 6] })
def awaitDev (kind : BitVec 4) (lane : Option Nat) : Device :=
  { listedDev with
    fills := [{ agent := .group 0 0, issued := [0], v := [(512, 0)], vFull := [], s := [(2, 0)], sFull := [], flags := 0, sets := .flags, await := 1, tag := 7, vErr := [], sErr := false }]
    fab := { Fabric.reset with remotes := [aRemote kind (.fill 7) lane] } }
theorem witness_FabricMessagesAndHostAccesses :
    demoDev.held (memLocs 0x20000 8) = false ∧ demoDev.memWf = true ∧
    (let f : Fabric := { Fabric.reset with hostLines := [0x400] }
     let d : Device := { demoDev with fab := f }
     d.held (memLocs 0x20000 8) = true) ∧
    (∀ k ∈ [0, 4, 8], ∀ lane ∈ [none, some 0], ∃ f, (awaitDev (BitVec.ofNat 4 k) lane).Awaits 0 0 (aRemote (BitVec.ofNat 4 k) (.fill 7) lane) f) ∧
    ((6 : BitVec 12) ∈ (aRemote 8 (.fill 7) none).left ∧ ((awaitDev 0 none).ctx 0).drains = [] ∧
    (∀ drains ∈ [[], [aDrain]],
      let f : Fabric := { Fabric.reset with remotes := [aRemote 2 .done none] }
      let d : Device := { listedDev with fab := f }.modCtx 0 (fun k => { k with drains := drains })
      d.ham.listed = true ∧ d.fab.remotes[0]? = some (aRemote 2 .done none) ∧ (aRemote 2 .done none).failed = false ∧ (aRemote 2 .done none).agent ≠ none ∧
        0 < d.ctxs.length ∧ (d.ctx 0).drains = drains ∧ (d.ctx 0).away = false) ∧
    (let c : CopyOp := { aCopy false with pieces := [(.remote 6 0x100, 32, 16)] }
     let op : RemoteOp := { plainOp (some (.group 0 0)) 0 6 6 0x100 16 with tag := 9, use := .copy 1 0 }
     let d : Device := { listedDev with copies := [c], fab := { Fabric.reset with remotes := [op] } }
     d.ham.listed = true ∧ d.fab.remotes = [op] ∧ op.kind = 6 ∧ op.dev = 6 ∧ op.tag = 9 ∧ op.failed = false ∧ op.use = .copy c.id 0 ∧ d.copies = [c] ∧
       Fmap.wf 0 c.bytes = true ∧ (d.ctx op.ctx).drains = []) ∧
    demoDev.ham.listed = false ∧ listedDev.ham.listed = true ∧ listedDev.memWf = true ∧
    (∀ p ∈ (aReq 4 0).cells, (aReq 4 0).addr % 128 + p.1 < 128) ∧ (∀ l ∈ memLocs 0x20000 8, listedDev.lostByte l = false) ∧
    (let d := demoDev.leave (.memory 0x20000 4)
     d.lostByte (.mem 0x20000) = true ∧ d.lostByte (.mem 0x20004) = false) ∧
    (let d : Device := { demoDev with copies := [aCopy true] }
     d.ownedLocs (memLocs 0x20000 8) = true ∧ d.owned 0x400 = true ∧ d.memWf = true) ∧
    demoDev.ownedLocs (memLocs 0x20000 8) = false) ∧ 2 ^ 50 ≤ 2 ^ 43 * 128 ∧ 2 ^ 43 * 128 < 2 ^ 51 ∧ demoDev.owned (2 ^ 43) = false := by
  refine ⟨held_free (by decide +kernel) _, by decide +kernel, by decide +kernel, fun k hk lane hl => ?_, by decide +kernel, by decide, by decide, owned_free (by decide +kernel) _⟩
  refine ⟨_, 7, rfl, rfl, rfl, rfl, rfl, by decide, ?_, (by decide +kernel : ∀ q ∈ demoDev.qfills, q.tag ≠ 7)⟩
  intro i g h hi
  cases i with
  | zero => exact absurd rfl hi
  | succ n => simp [awaitDev] at h
/-- A replicated launch of devices 5 and 6, issued here, or by device 6; device 5 of devices 5 and 6 roots the tree, and of 4 and 5 it is a leaf. -/
def setDev (devices : Nat) (f : Ctx → Ctx) : Device :=
  { listedDev with now := 2 ^ 24 } |> fun d =>
    d.modCtx 0 (fun k => f { k with packet := { k.packet with replicate := BitVec.ofNat 64 devices, gen := 1 } })
theorem witness_FabricMessagesAndHostAccesses_sets :
    (let d := setDev 0x60 id
     d.ctxs.length = 1 ∧ (d.ctx 0).packet.replicate ≠ 0 ∧ (d.ctx 0).packet.gen = 1 ∧ Fmap.wf 0 d.fab.gens = true ∧ d.memWf = true ∧ (d.ctx 0).origin = none ∧
       (d.ctx 0).answers = [] ∧ (d.ctx 0).requester = none ∧ (d.ctx 0).preempt = none ∧ (d.ctx 0).arrival = 0 ∧ d.allAnswered (d.ctx 0) = false ∧
       d.othersOf (d.ctx 0).packet = [6] ∧ d.treePos 0 = 0 ∧ d.treeChildren 0 = [6] ∧ (d.ctx 0).childSums = [] ∧ (d.ctx 0).phase = 0 ∧ (d.ctx 0).sweepNo = 0 ∧ (d.ctx 0).away = false) ∧
    (let d := setDev 0x60 (fun k => { k with answers := [(5, 0)] })
     d.othersOf (d.ctx 0).packet = [6] ∧ (d.ctx 0).answers = [(5, 0)] ∧ d.ham.devNum = 5) ∧
    (let d := setDev 0x60 (fun k => { k with origin := some 6, state := .read })
     (d.ctx 0).origin = some 6 ∧ (d.ctx 0).state = .read) ∧
    (let d := setDev 0x30 (fun k => { k with sweepSent := true })
     d.treePos 0 = 1 ∧ d.treeChildren 0 = [] ∧ d.treeParent 0 = 4 ∧ (d.ctx 0).sweepSent = true ∧ d.ham.devNum = 5) ∧
    (let d := setDev 0x30 (fun k => { k with drains := [aDrain] })
     d.treePos 0 ≠ 0 ∧ (d.ctx 0).drains ≠ [] ∧ (d.ctx 0).sweepSent = false) ∧
    (let d := setDev 0x60 (fun k => { k with drains := [aDrain], sent := 1, childSums := [(6, 0, 1)], lastSum := some (1, 1) })
     let k := d.ctx 0
     d.treeChildren 0 = [6] ∧ k.childSums = [(6, 0, 1)] ∧ k.childSums.foldl (fun (p : DWord × DWord) q => (p.1 + q.2.1, p.2 + q.2.2)) (k.sent, k.received) = (1, 1) ∧
       k.lastSum = some (1, 1) ∧ (k.drains.map (fun q => (q.blk, q.slot))).Nodup ∧ (∀ q ∈ k.drains, d.has (.group q.blk q.slot) = true) ∧ d.filesWf = true) ∧
    (let d := setDev 0x60 (fun k => { k with drains := [aDrain], sent := 1, childSums := [(6, 0, 1)] })
     (d.ctx 0).lastSum ≠ some (1, 1)) := by
  refine ⟨?_, ?_, ?_, ?_, ?_, ?_, ?_⟩ <;> decide +kernel

/-! The step, the encoder and the invariants. -/

/-- Three `nop` words issue: the packet is fetched, no check finds a cause, and every word may go. -/
def nopS : State := State.reset.withFetchWord 32 0x01000000
def nopsGo : Bool :=
  let s := nopS
  let x := s.dev.issueOf (.group 0 0) ((s.dev.view (.group 0 0)).gangOf 0)
  match s.dev.fetchPacket (.group 0 0) x.slices x.pc with
  | .error _ => false
  | .ok ws =>
    let placed := placeGuards none (readItems ws)
    let s1 : State := { s with agenda := [] }
    let r := s1.performPacket x [] (placed.map Prod.fst)
    (x.packetCause ws placed).isNone && (s1.packetVerdict x (placed.map Prod.fst)).all (fun v => decide (v.2 = .go)) &&
      decide (ws = [0x01000000, 0x01000000, 0x01000000]) && r.trap.isNone && r.stop.isNone && r.fault.isNone
theorem witness_StepRunsTheDecodedPacket :
    nopS.dev.boot = .running ∧ nopS.agenda = [.issue (.group 0 0) 0] ∧ (({ nopS with agenda := [] } : State).turnOf (.group 0 0) 0).map (fun t => (t.agent, t.slice)) = some (.group 0 0, 0) ∧ (nopS.dev.view (.group 0 0)).stepping = none ∧
    nopsGo = true ∧ nopS.dev.reach (.group 0 0) (nopS.dev.view (.group 0 0)).priv .fetch (nopS.dev.codeBase (.group 0 0) [0] + 0) 12 = .ok (memLocs 0x1000 12) := by
  refine ⟨?_, ?_, ?_, ?_, ?_, reach_of (by decide +kernel)⟩ <;> decide +kernel
theorem witness_DecodingUndoesEncoding : (Instr.add (aw 0 false)).WellFormed ∧ encode (.add (aw 0 false)) ≠ [] := by decide +kernel
theorem nopS_idle (x : Issue) : nopS.iss ≠ some x := by
  show (none : Option Issue) ≠ some x
  simp
/-- Each invariant holds at reset, and of a step that does something. -/
theorem witness_EveryStepKeepsMemoryCanonical : State.reset.dev.memWf = true ∧ nopS.dev.memWf = true ∧ (∀ x, nopS.iss ≠ some x) ∧
    (match step nopS with | .next _ => true | _ => false) = true := ⟨by decide +kernel, by decide +kernel, nopS_idle, by decide +kernel⟩
theorem witness_EveryStepKeepsStashesAndRegisterFilesCanonical : State.reset.dev.filesWf = true ∧ nopS.dev.filesWf = true ∧ (∀ x, nopS.iss ≠ some x) ∧
    (match step nopS with | .next _ => true | _ => false) = true := ⟨by decide +kernel, by decide +kernel, nopS_idle, by decide +kernel⟩


/-! The remaining hypotheses. -/

theorem witness_RoundingHelperFollowsItsRule : FFmt.e4m3 ∈ [FFmt.f32, FFmt.f16, FFmt.bf16, FFmt.e5m2, FFmt.e4m3] ∧ (3 : Nat) ≠ 0 := by decide
theorem witness_FixedTreesCombineTheirHalves : 0 < 9 ∧ [5].length = 2 ^ 0 ∧ 8 < 9 ∧ (List.replicate 256 1).length = 2 ^ 8 := by decide
/-- A float word's fill is still to come. -/
def pendingDev : Device :=
  { demoDev with fills := [{ agent := .group 0 0, issued := [0], v := [(256, 1)], vFull := [64], s := [], sFull := [], flags := 1, sets := .flags, await := 0, tag := 0, vErr := [], sErr := false }] }
theorem witness_SystemValuesAreReadAndCleared_pending : ∀ n ∈ [10, 11],
    Fit (issuing (.group 0 0) pendingDev) (pendingDev.issueOf (.group 0 0) [0]) (.getsv { aw 0 false with a := BitVec.ofNat 6 n }) ∧
      pendingDev.flagsPending (.group 0 0) [0] = true := by
  intro n hn
  simp only [List.mem_cons, List.not_mem_nil, or_false] at hn
  rcases hn with rfl | rfl <;> exact ⟨fit_of rfl (by decide +kernel), by decide +kernel⟩
/-- A word whose fields are refused, one with an odd register, and a ridge thread. -/
theorem witness_HashMixFollowsItsFormulaAndIsABijection_stops :
    (demo id).iss = some (demoX id) ∧ (∀ r ∈ [(3, 2), (4, 1)], let w := { aw 0 false with b := 0, d := BitVec.ofNat 6 r.1, a := BitVec.ofNat 6 r.2 }
      w.d.toNat % 2 = 1 ∨ (w.a.toNat < 56 ∧ w.a.toNat % 2 = 1)) ∧
    (demoX id).staticCause (demo id).dev (.hmix { aw 0 false with d := 3 }) ≠ some .illegal ∧
    (demoX id).staticCause (demo id).dev (.hmix { aw 0 false with a := 1 }) ≠ some .illegal ∧ (aw 1 false).t ≠ 0 := by
  refine ⟨rfl, by decide, ?_, ?_, by decide⟩ <;> decide +kernel
theorem witness_FormatWordsSetAndReadFmt_ridge : (ridgeS id).iss = some (ridgeX id) ∧ (ridgeX id).agent = .ridge 0 := ⟨rfl, rfl⟩

/-! Hypotheses of further clauses. -/

/-- A device on which one message is under way. -/
def awayDev (d : Device) (r : RemoteOp) : Device := { d with fab := { d.fab with remotes := [r] } }
/-- The small machine with a page at 1 GiB that lies on device 6. -/
def farDev : Device := demoDev.modCtx 0 (fun k =>
  { k with tables := Fmap.setAll 0 k.tables ((bytesOf 8 (BitVec.ofNat 64 (3 * 2 ^ 50 + 6 * 2 ^ 38 + 0x7B))).mapIdx (fun i b => (0x12008 + i, b))) })
def farLocs (off n : Nat) : List Loc := (List.range n).map (fun i => Loc.remote 6 (off + i))

/-- `pref.own` on a line that a mapped entry holds, and that no engine owns. -/
theorem witness_LoadsFillTheirDestination_own :
    let w : MWord := { mw 6 true with d := 0, base := 4, index := 63, func := 2 }
    Fit (mapS [aMap]) (mapX [aMap]) (.pref w) ∧ w.func.getLsbD 1 = true ∧
      (∀ p ∈ (mapX [aMap]).laneEAs (mapS [aMap]).dev w, (mapS [aMap]).dev.prefLine (mapX [aMap]).agent p.2 = some 0x400) ∧
      (mapS [aMap]).dev.held [.mem (0x400 * 128)] = false :=
  ⟨fit_of rfl (by decide +kernel), by decide, by decide +kernel, held_free (by decide +kernel) _⟩

/-- A message of the group has failed: `st`, `atom` and `red` at `sys` with release order. -/
theorem witness_StoresWriteTheirBytes_release :
    let d := awayDev (demoDev.modGroup 0 0 memRegs) { plainOp (some (.group 0 0)) 0 6 2 0 4 with failed := true }
    let s := issuing (.group 0 0) d
    let x := d.issueOf (.group 0 0) [0]
    let w : MWord := { mw 3 false with scope := 5, order := 2 }
    (∀ i ∈ [Instr.st w, .atom w, .red w], Fit s x i) ∧ ¬ MayRelease w s x ∧
      Reaches s x .store 8 (x.accessing false) (w.address s x) (words 8) ∧ Reaches s x .atomic 8 (x.accessing false) (w.address s x) (words 8) ∧
      ∀ l ∈ x.accessing false, (w.address s x l).toNat % sizeBytes w.size = 0 := by
  refine ⟨fits_all rfl _ (by decide +kernel), fun h => ?_, reaches_of (by decide +kernel), reaches_of (by decide +kernel), by decide +kernel⟩
  exact h rfl (by decide) _ (List.mem_singleton.mpr rfl) ⟨rfl, rfl⟩

/-- `red` that may gather: each lane's word is aligned, and no line is in the update-only state. -/
theorem witness_AtomicsReadModifyWriteInLaneOrder_copies :
    (demo memRegs).dev.copiesShown ∧ ∀ l ∈ (demoX memRegs).accessing false, ∀ pa rest, words 8 l = .mem pa :: rest → pa % 8 = 0 := by
  refine ⟨fun u hu => (List.not_mem_nil ((by decide +kernel : (demo memRegs).dev.ulines = []) ▸ hu)).elim, fun l _ pa rest h => ?_⟩
  obtain ⟨h, -⟩ := List.cons.inj ((by simp [words, List.range_succ_eq_map] : words 8 l = Loc.mem (0x20000 + 8 * l) :: (words 8 l).tail) ▸ h)
  cases h
  omega

/-- No room in the eave buffer, and no page for a spill area whose stream takes one. -/
theorem witness_OrderedFormsStageAndClaim_room :
    (let d := (demoDev.modGroup 0 0 memRegs).modCtx 0 (fun k => { k with staged := List.replicate 4096 { aContribution 0 with buffered := true } })
     4096 < d.eaveUse 0 + (d.issueOf (.group 0 0) [0]).act.length ∧
       Fit (issuing (.group 0 0) d) (d.issueOf (.group 0 0) [0]) (.redOrd { mw 2 false with scope := 4, func := 0x28 })) ∧
    (let d0 := (demoDev.modGroup 0 0 memRegs).modCtx 0 (fun k => { k with streams := [Stream.fresh 0x30000] })
     let d : Device := { d0 with ham := { d0.ham with spillPages := 0 } }
     let w : MWord := { mw 2 false with index := 63, scope := 4 }
     d.spillOver = true ∧ (∀ i ∈ [Instr.redOrd { mw 2 false with scope := 4, func := 0x28 }, .append w, .atomOrdAdd { w with func := 0x20 },
       .appendDecl { w with d := 0, func := 1 }], Fit (issuing (.group 0 0) d) (d.issueOf (.group 0 0) [0]) i) ∧
       (d.modCtx 0 (fun k => k.modStream 0x20000 id)).spillOver = true) :=
  ⟨⟨by decide +kernel, fit_of rfl (by decide +kernel)⟩, by decide +kernel, fits_all rfl _ (by decide +kernel), by decide +kernel⟩

/-- `cpwait` while a batch is open and once an error has met one; `qld` for a group that has exited, and for one that was spawned. -/
theorem witness_CopiesAndQueueLoadsAreHandedToTheirEngines_batches :
    (∀ bs ∈ [[(1, [7])], []], let d := copyDev.modGroup 0 0 (fun g => { g with batches := bs, badBatches := [1], s := Fmap.set 0 g.s 12 1 })
      Fit (issuing (.group 0 0) d) (d.issueOf (.group 0 0) [0]) (.cpwait { mw 3 true with d := 0, base := 0, index := 12, scope := 1, order := 1 })) ∧
    (∀ f ∈ [fun g : Group => { g with exited := true }, fun g => { g with spawned := true }], let d := accessDev.modGroup 0 0 f
      Fit (issuing (.access 0) d) (d.issueOf (.access 0) [0]) (.qld (qldW 0)) ∧ (((d.block 0).group 0).exited = true ∨ ((d.block 0).group 0).spawned = true)) := by
  refine ⟨fun bs hb => ?_, fun f hf => ?_⟩
  · simp only [List.mem_cons, List.not_mem_nil, or_false] at hb
    rcases hb with rfl | rfl <;> exact fit_of rfl (by decide +kernel)
  · simp only [List.mem_cons, List.not_mem_nil, or_false] at hf
    rcases hf with rfl | rfl <;> exact ⟨fit_of rfl (by decide +kernel), by decide +kernel⟩

/-- `monwake.sys` reaches device 6, which is a peer. -/
theorem witness_FencesMonitorsAndDrains_wake :
    let d0 := demoDev.modGroup 0 0 (monRegs 0 0x20000)
    let d : Device := { d0 with ham := { d0.ham with devNum := 5, numbers := [5, 6], ports := [(0, 6, 1)] } }
    let x := d.issueOf (.group 0 0) [0]
    let w : MWord := { mw 6 true with d := 0, scope := 5, order := 2 }
    Fit (issuing (.group 0 0) d) x (.monwake w) ∧ reachB d x.agent x.view.priv .load (w.addrFull (x.view.sAt 2) (x.view.sAt 0)) 1 [.mem 0x20000] = true ∧
      (6 : BitVec 12) ∈ d.peers ∧ (0x20000 : Nat) < 2 ^ 38 :=
  ⟨fit_of rfl (by decide +kernel), by decide +kernel, by decide +kernel, by decide⟩

/-- The walker's slot: every record is read, its map is on this device, and no engine holds it; a save has begun or not. -/
theorem witness_WalkerExaminesAndHandsOut_open :
    (∀ u ∈ [aSlot, waitingAt { aPoint with forced := true }], let d := (walkS u).dev
      (∀ p ∈ (d.wslot 0 1).points, p.unread = false) ∧ (d.ctx (d.block 0).ctx).preempt = none ∧ d.fab.remotes = [] ∧ (d.wslot 0 1).points.length = 1 ∧
        reachOk d (.access 0) (d.ctx (d.block 0).ctx).privLaunch .store (d.wslot 0 1).map = true) ∧
    (∀ hs, (walkS aSlot).dev.mapHeld 0 1 hs = false) ∧
    (let d := (walkDev (waitingAt aPoint)).modCtx 0 (fun k => { k with preempt := some (aPreempt 2 [0]) })
     (d.wslot 0 1).holder = some 0 ∧ (d.wslot 0 1).waiting.length = 1 ∧ (∀ p ∈ (d.wslot 0 1).points, p.unread = false) ∧
       (d.ctx (d.block 0).ctx).preempt = some (aPreempt 2 [0]) ∧ 2 ≤ (aPreempt 2 [0]).level) := by
  refine ⟨by decide +kernel, fun hs => ?_, by decide +kernel⟩
  have h := held_free (d := (walkS aSlot).dev) (by decide +kernel)
  simp only [Device.mapHeld, List.any_eq_false]
  intro i _ hc
  split at hc
  · rw [h] at hc; cases hc
  · cases hc
/-- Prefetches of a line that the host caches, of one that ECC cannot deliver, and of one on device 6. -/
theorem witness_WalkerExaminesAndHandsOut_prefetches :
    let q : Prefetch := { core := 0, slot := 1, serial := 1, point := 0, blk := 0, va := 0x24000 }
    (let d : Device := { walkDev aSlot with prefetches := [q], fab := { Fabric.reset with hostLines := [0x480] } }
     reachB d (.access 0) false .load 0x24000 1 [.mem 0x24000] = true ∧ d.held [.mem 0x24000] = true) ∧
    ((walkDev aSlot).leave (.memory 0x24000 1)).lostByte (.mem 0x24000) = true ∧
    reachB farDev (.access 0) false .load 0x40000000 1 [.remote 6 0] = true := by decide +kernel

/-- A message of the launch is under way, or none: `csrw` and `tlbinv` wait, or take effect; a copy is under way at a scratchpad way. -/
theorem witness_ControlRegistersAndTheWordsThatEndOrHold_waits :
    (let d := awayDev (sysDev 0 0) (plainOp (some (.access 0)) 0 6 2 0 4)
     (∀ i ∈ [Instr.csrw (yw 0 1 1), .csrw (yw 0 1 2), .tlbinv (yw 0 0 0), .tlbinv (yw 0 1 1)],
       Fit (issuing (.group 0 0) d) (d.issueOf (.group 0 0) [0]) i) ∧ ∃ r ∈ d.fab.remotes, r.ctx = d.ctxOf (.group 0 0) ∧ r.binds = true) ∧
    (let d : Device := { sysDev 1 0 with copies := [{ aCopy true with pieces := [(.scratch 0x100000, 0, 4)], lines := [] }] }
     Fit (issuing (.group 0 0) d) (d.issueOf (.group 0 0) [0]) (.csrwWaypart (yw 2 1 0)) ∧
       ∃ c ∈ d.copies, ∃ p ∈ c.pieces, p.1 = .scratch 0x100000 ∧ (d.wayPart 0 0).getLsbD 1 ≠ (1 : DWord).getLsbD 1) :=
  ⟨⟨fits_all rfl _ (by decide +kernel), by decide +kernel⟩, fit_of rfl (by decide +kernel), by decide +kernel⟩

/-- A BKPT of a thread under the debug service. -/
theorem witness_TrapsSaveTheirCauseAndEnterTheHandler_thread :
    let d : Device := { accessDev with ham := { accessDev.ham with attached := [0] } }
    d.has (.access 0) = true ∧ d.ctxOf (.access 0) ∈ d.ham.attached ∧ (d.view (.access 0)).inHandler = false := by decide +kernel

/-- A dependency word and a completion counter on device 6. -/
theorem witness_LaunchesAreAdmittedPlacedAndCompleted_far :
    (let d : Device := { farDev with ctxs := farDev.ctxs ++ [{ farDev.ctx 0 with packet := { aPacket with depAddr := 0x40000008 }, state := .waiting, placed := 0 }] }
     (d.ctx 1).state = .waiting ∧ (d.ctx 1).packet.depAddr ≠ 0 ∧ d.depLocs (d.ctx 1) = some (farLocs 8 8) ∧ d.fab.remotes = []) ∧
    rangeB farDev (farDev.ctx 0) 0 false .store 0x40000010 8 (farLocs 16 8) = true := by decide +kernel

/-- Copies whose source line a copy issued before, or the host, holds; a copy to device 6 whose flits are still to go, under way, and acknowledged. -/
theorem witness_UnitEventsCompleteWhatWaits_copies :
    (let d : Device := { movingDev false with copies := [aCopy false, { aCopy true with id := 0 }] }
     d.copies[0]? = some (aCopy false) ∧ d.ownedBefore 1 0x400 = true ∧ 0x400 ∈ d.linesOf (((aCopy false).pieces.flatMap (pieceLocs 0)).map Prod.fst)) ∧
    (∀ sent : Bool, ∀ away : Bool, let c : CopyOp := { aCopy true with pieces := [(.remote 6 0x100, 0, 4)], lines := [], sent := sent }
      let d0 : Device := { movingDev true with copies := [c] }
      let d := if away then awayDev d0 { plainOp (some (.group 0 0)) 0 6 6 0x100 4 with use := .copy 1 0 } else d0
      d.copies[0]? = some c ∧ c.out = true ∧ (∀ m ∈ d.linesOf ((List.range 4).map (Loc.stash 0)), d.ownedBefore c.id m = false ∧ m ∉ d.fab.hostLines) ∧
        ((∃ r ∈ d.fab.remotes, ∃ p, r.use = .copy c.id p) ↔ away = true)) := by
  refine ⟨by decide +kernel, fun sent away => ?_⟩
  cases sent <;> cases away <;> refine ⟨by decide +kernel, rfl, by decide +kernel, ?_⟩
  · exact iff_of_false (fun ⟨r, hr, _⟩ => (List.not_mem_nil ((by decide +kernel : (movingDev true).fab.remotes = []) ▸ hr)).elim) (by decide)
  · exact iff_of_true ⟨_, List.mem_singleton.mpr rfl, 0, rfl⟩ rfl
  · exact iff_of_false (fun ⟨r, hr, _⟩ => (List.not_mem_nil ((by decide +kernel : (movingDev true).fab.remotes = []) ▸ hr)).elim) (by decide)
  · exact iff_of_true ⟨_, List.mem_singleton.mpr rfl, 0, rfl⟩ rfl
/-- A refused fault of a gang that is stepped. -/
theorem witness_UnitEventsCompleteWhatWaits_stepped :
    let d := faultDev.modGroup 0 0 (fun g => { g with stepping := some (0, .block 0) })
    ∃ f, d.faults[0]? = some f ∧ (d.view f.agent).stepping = some (0, .block 0) := by decide +kernel

/-- A launch that waits for room: none of its blocks can be placed. An image that must wait for a fill, and one that need not. -/
theorem witness_PreemptionDrainsSavesResetsAndRestores_room :
    (let k0 := demoDev.ctx 0
     let d : Device := { preemptDev none true 0 with
       ctxs := (preemptDev none true 0).ctxs ++ [{ k0 with state := .queued, placed := 0, packet := { setPacket 0 1 2 with stash4k := 65535 } }] }
     d.served (d.ctx 1).die = some 1 ∧ (d.nextStep 1).isNone = true) ∧
    (∀ fs ∈ [[], [aFill]], let d : Device := { preemptDev (some (aPreempt 2 [0])) true 0 with fills := fs }
      0 < d.ctxs.length ∧ d.memWf = true ∧ (d.ctx 0).preempt = some (aPreempt 2 [0]) ∧ d.qfills = [] ∧ d.copies = [] ∧ d.fab.remotes = []) ∧
    (let v : Saved := { savedV with blocks := [(0, (ridgeDev plain).block 0)], crests := [(0, { plain Crest.reset with frozen := true })] }
     (savedDev.restoreSaved v).isSome = true ∧ ((ridgeDev plain).block 0).ridge ≠ none) := by decide +kernel

/-- Two named blocks hold calls: block 1, after the block served last, comes first. -/
theorem witness_ServicesAnswerTheirRequests_turn :
    let h : Hamada := { demoDev.ham with services := [0x50000, 0x51000] ++ List.replicate 6 0, lastBlock := 0 }
    let d : Device := withBytes 0x51000 (callBytes 2 2 0 0 0) { askDev demoDev.ham 2 2 0 0 0 with ham := h }
    (d.callOf (.block 0)).isSome = true ∧ (d.callOf (.block 1)).any (d.callReady (.block 1)) = true ∧ d.blockTurn (.block 1) = true ∧
      d.blockTurn (.block 0) = false := by decide +kernel

/-- A byte that no key names reads as the default; so an entry of eight such bytes is not valid, and a table whose first entry alone is
valid maps what that entry maps. -/
theorem get_absent (t : Fmap Byte) (i : Nat) (h : ∀ p ∈ t, p.1 ≠ i) : Fmap.get 0 t i = 0 := by
  induction t with
  | nil => rfl
  | cons p rest ih =>
    have hp : ¬ i = p.1 := fun he => h p (by simp) he.symm
    simp only [Fmap.get, hp, if_false]
    split
    · rfl
    · exact ih (fun q hq => h q (by simp [hq]))
theorem tableEntry_absent (t : Fmap Byte) (pa : Nat) (h : ∀ p ∈ t, p.1 < pa ∨ pa + 8 ≤ p.1) : tableEntry t pa = 0 := by
  have hb : ∀ i < 8, Fmap.get 0 t (pa + i) = 0 := fun i hi => get_absent t _ (fun p hp => by have := h p hp; omega)
  have h0 := hb 0 (by omega)
  simp only [Nat.add_zero] at h0
  simp only [tableEntry, List.range_succ, List.range_zero, List.nil_append, List.cons_append, List.foldr_cons, List.foldr_nil, Nat.add_zero, h0,
    hb 1 (by omega), hb 2 (by omega), hb 3 (by omega), hb 4 (by omega), hb 5 (by omega), hb 6 (by omega), hb 7 (by omega)]
  rfl
theorem pagesOf_first (t : Fmap Byte) (level table : Nat) (h : ∀ p ∈ t, p.1 < table + 8 ∨ table + 4096 ≤ p.1) :
    pagesOf t level table = (let e := tableEntry t table
      let frame := pteBits e 12 40 * 4096
      if pteBits e 0 1 == 0 then []
      else if pteBits e 1 1 == 1 then (if level == 0 && pteBits e 7 1 == 1 then [(frame, 2 ^ 16)] else [(frame, 2 ^ (12 + 9 * level))])
      else match level with | 0 => [] | l + 1 => pagesOf t l frame) := by
  have hz : ∀ n < 511, tableEntry t (table + 8 * (n + 1)) = 0 := fun n hn => tableEntry_absent t _ (fun p hp => by have := h p hp; omega)
  have one : ∀ (n : Nat) (F : Nat → List (Nat × Nat)), (∀ m < n, F (m + 1) = []) → (List.range (n + 1)).flatMap F = F 0 := fun n F hF => by
    rw [List.range_succ_eq_map, List.flatMap_cons, List.flatMap_eq_nil_iff.mpr, List.append_nil]
    intro x hx
    obtain ⟨m, hm, rfl⟩ := List.mem_map.mp hx
    exact hF m (List.mem_range.mp hm)
  have hlen : ∃ n, (if level = 4 then 256 else 512) = n + 1 ∧ n ≤ 511 := by split; exacts [⟨255, rfl, by omega⟩, ⟨511, rfl, by omega⟩]
  obtain ⟨n, hn, hn'⟩ := hlen
  rw [pagesOf, hn]
  refine (one n _ (fun m hm => ?_)).trans ?_
  · simp [hz m (by omega), pteBits]
  · cases level <;> simp
/-- Page 0x200000 of 2 MiB, mapped by itself, and a free place of the CXL tier. -/
def pageDev : Device :=
  let at' := fun (pa x : Nat) => (bytesOf 8 (BitVec.ofNat 64 x)).mapIdx (fun i b => (pa + i, b))
  let d := demoDev.modCtx 0 (fun k => { k with tables := Fmap.setAll 0 [] (at' 0x10000 0x11001 ++ at' 0x11000 0x12001 ++ at' 0x12000 0x13001 ++ at' 0x13000 0x20007B) })
  { d with ham := { d.ham with decoders := [{ first := 0, len := 2 ^ 28, ports := 1, gran := 256 }] } }
theorem witness_BootFencingPowerAndMigration_page : pageDev.pages ≠ [] ∧ ∀ p ∈ pageDev.pages, p = (0x200000, 2 ^ 21) := by
  have h1 : pagesOf (pageDev.ctx 0).tables 4 0x10000 = [(0x200000, 2 ^ 21)] := by
    rw [pagesOf_first _ _ _ (by decide +kernel)]
    have e4 : tableEntry (pageDev.ctx 0).tables 0x10000 = 0x11001 := by decide +kernel
    simp only [e4, show pteBits 0x11001 0 1 = 1 from by decide, show pteBits 0x11001 1 1 = 0 from by decide, show pteBits 0x11001 12 40 * 4096 = 0x11000 from by decide]
    simp only [Nat.reduceBEq, Bool.false_eq_true, if_false]
    rw [pagesOf_first _ _ _ (by decide +kernel)]
    have e3 : tableEntry (pageDev.ctx 0).tables 0x11000 = 0x12001 := by decide +kernel
    simp only [e3, show pteBits 0x12001 0 1 = 1 from by decide, show pteBits 0x12001 1 1 = 0 from by decide, show pteBits 0x12001 12 40 * 4096 = 0x12000 from by decide]
    simp only [Nat.reduceBEq, Bool.false_eq_true, if_false]
    rw [pagesOf_first _ _ _ (by decide +kernel)]
    have e2 : tableEntry (pageDev.ctx 0).tables 0x12000 = 0x13001 := by decide +kernel
    simp only [e2, show pteBits 0x13001 0 1 = 1 from by decide, show pteBits 0x13001 1 1 = 0 from by decide, show pteBits 0x13001 12 40 * 4096 = 0x13000 from by decide]
    simp only [Nat.reduceBEq, Bool.false_eq_true, if_false]
    rw [pagesOf_first _ _ _ (by decide +kernel)]
    have e1 : tableEntry (pageDev.ctx 0).tables 0x13000 = 0x20007B := by decide +kernel
    simp only [e1, show pteBits 0x20007B 0 1 = 1 from by decide, show pteBits 0x20007B 1 1 = 1 from by decide, show pteBits 0x20007B 12 40 * 4096 = 0x200000 from by decide]
    rfl
  have h2 : pagesOf pageDev.mem 4 pageDev.ham.frontRoot = [] := by
    rw [pagesOf_first _ _ _ (by decide +kernel)]
    have e : pteBits (tableEntry pageDev.mem pageDev.ham.frontRoot) 0 1 = 0 := by decide +kernel
    simp [e]
  have h3 : pageDev.pages = pagesOf (pageDev.ctx 0).tables 4 0x10000 ++ pagesOf pageDev.mem 4 pageDev.ham.frontRoot := by
    have : pageDev.ctxs.filter (fun c => c.state != .done && c.state != .failed && c.state != .drained) = [pageDev.ctx 0] := rfl
    have hr : (pageDev.ctx 0).root = 0x10000 := by decide +kernel
    simp only [Device.pages, this, List.flatMap_cons, List.flatMap_nil, List.append_nil, hr]
  simp [h3, h1, h2]
theorem witness_BootFencingPowerAndMigration_page_free : pageDev.ownMemory 0x200000 = true ∧ pageDev.ownMemory (2 ^ 43) = true ∧ pageDev.memWf = true ∧
      pageDev.pageBusy 0x200000 (2 ^ 21) = false ∧ pageDev.pageBusy (2 ^ 43) (2 ^ 21) = false ∧ pageDev.pagePinned 0x200000 (2 ^ 21) = false ∧
      pageDev.pagePinned (2 ^ 43) (2 ^ 21) = false ∧ (2 ^ 43) % 2 ^ 21 = 0 ∧ ∀ c ∈ pageDev.ctxs, Fmap.wf 0 c.tables = true := by decide +kernel
/-- Link training with a number that a neighbour on another port has; a dirty line of a way under test that SECDED cannot deliver. -/
theorem witness_BootFencingPowerAndMigration_more :
    (let h := { demoDev.ham with listed := true, devNum := 5, ports := [(1, 6, 77)] }
     h.listed = true ∧ ∃ p ∈ h.ports.filter (fun p => p.1 != 0), p.2.1 = 6 ∧ p.2.2 ≠ 78) ∧
    (let d : Device := { demoDev with l2 := [{ aLine 1 true with slice := 5, way := 0 }], ham := { demoDev.ham with testing := [(.l2way 0 5 0, false)] } }.leave (.memory 128 4)
     d.badLine 1 = true ∧ (∀ y ∈ d.l2, y.die = 0 ∧ y.slice = 5 ∧ y.way = 0 ∧ y.behind ≠ none ∧ ∀ bs, y.behind = some bs → bs.length = 128) ∧ d.memWf = true ∧
       (d.l2.map L2Line.line).Nodup ∧ Fmap.wf false demoDev.poison = true) := by
  refine ⟨by decide, by decide +kernel, fun y hy => ?_, by decide +kernel, by decide +kernel, by decide +kernel⟩
  obtain rfl := List.mem_singleton.mp hy
  exact ⟨rfl, rfl, rfl, by simp [aLine], fun bs hb => by cases hb; rfl⟩
/-- A phase that another device of the set reports as failed, and a launch that is away. -/
theorem witness_FabricMessagesAndHostAccesses_fails :
    (let d := setDev 0x60 (fun k => { k with drains := [aDrain] })
     (6 : BitVec 12) ∈ d.replicas 0 ∧ (d.ctx 0).away = false ∧ (d.ctx 0).drains ≠ []) ∧
    ((demoDev.modCtx 0 (fun k => { k with state := .saved })).ctx 0).away = true := by decide +kernel
/-- A word of a later chain that waits by its own entry, with no transfer before it; one of the first chain that asks for bytes. -/
theorem witness_StepRunsTheDecodedPacket_waits :
    let d := awayDev demoDev { plainOp (some (.group 0 0)) 0 6 0 0 4 with acq := true, use := .fill 7 }
    let w : MWord := { mw 3 false with index := 0 }
    d.orderWaits (.group 0 0) [0] (.st w) = true ∧ demoDev.orderWaits (.group 0 0) [0] (.st w) = false ∧ unguardable (.st w) = false ∧
      (d.issueOf (.group 0 0) [0]).act ≠ [] := by decide +kernel

/-- The group's other gang has begun the instance that the gang in issue completes. -/
def grpDev : Device := pairDev.modGroup 0 0 (fun g =>
  { g with grpInsts := [{ k := 0, word := .stmap (mw 3 true), pc := 0, idx := 0, issued := 2, lanes := 0xF0, vals := [] }] })
theorem witness_ActsNow_second : ActsNow (issuing (.group 0 0) grpDev) (grpDev.issueOf (.group 0 0) [0]) (.stmap (mw 3 true)) := by
  have f : GangOk (issuing (.group 0 0) grpDev) (grpDev.issueOf (.group 0 0) [0]) :=
    (fit_of (i := .nop false) rfl (by decide +kernel) : Fit (issuing (.group 0 0) grpDev) (grpDev.issueOf (.group 0 0) [0]) (.nop false)).2.1
  exact ⟨f, fun _ => by decide +kernel⟩

/-- A handler's forms on a frozen context that has work pending. -/
def frozenDev (k : Crest) : Device :=
  ({ demoDev with handlers := [(0, 0, { Thread.fresh 0 0 with priv := true, inHandler := true, s := Fmap.setAll 0 [] [(4, 0x20000)] })] } : Device).modCrest 0 0
    (fun _ => { k with blk := some 0, frozen := true, ops := [mulOp true 0] })
theorem witness_MatrixWordsActOnTheirContext_frozen :
    (∀ k ∈ [plain Crest.reset, ranked Crest.reset], let d := frozenDev k
      (d.crest 0 0).ops ≠ [] ∧ (d.crest 0 0).frozen = true ∧ d.imageAway 0 0 = false ∧ 0 < d.cores.length ∧ 0 < (d.core 0).crest.length) ∧
    (∀ i ∈ [Instr.mdrain (qw 0 0x02000F), .mdrain (qw 1 0x10000F), .mdrain (qw 3 0x10000F), .mload (qw 0 0x100000), .mload (qw 2 0x100000), .crstat (qw 0 0x10000F),
        .mma (qw 0 0x02010F), .mtile (qw 0 0x105000)],
      Fit (issuing (.handler 0) (frozenDev (plain Crest.reset))) ((frozenDev (plain Crest.reset)).issueOf (.handler 0) [0]) i) ∧
    (∀ i ∈ [Instr.crdrain (qw 0 0x02000F), .crdrain (qw 1 0x10000F), .crload (qw 0 0x100000), .crload (qw 2 0x100000), .crmerge (qw 0 0x100000)],
      Fit (issuing (.handler 0) (frozenDev (ranked Crest.reset))) ((frozenDev (ranked Crest.reset)).issueOf (.handler 0) [0]) i) ∧
    (let d := frozenDev (ranked Crest.reset)
     let x := d.issueOf (.handler 0) [0]
     match x.image d 0 (d.crest 0 0) .store 0x20000 128 8 with | .ok q => decide (q = [(Loc.mem 0x20000, 0, 128)]) | .error _ => false) = true :=
  ⟨by decide +kernel, fits_all rfl _ (by decide +kernel), fits_all rfl _ (by decide +kernel), by decide +kernel⟩

/-- Bytes of DRAM can be stored to while nothing waits and no engine owns a line: the save area of the small machine's launch. -/
theorem mayStore_run {d : Device} (h1 : d.ham.stores = []) (h2 : idleEngines d = true) (pa n : Nat) (h : pa + n ≤ 2 ^ 43) : d.mayStore (memRun pa n) := by
  refine mayStore_of h1 h2 (List.all_eq_true.mpr fun l hl => ?_)
  obtain ⟨i, hi, rfl⟩ := List.mem_map.mp hl
  have hi := List.mem_range.mp hi
  have hz : (pa + i) / 8796093022208 = 0 := Nat.div_eq_of_lt (by omega)
  simp [Device.noMemory, Device.settle, Device.unmapped, pteBits, hz]
theorem witness_PreemptionDrainsSavesResetsAndRestores_kept :
    (let d := preemptDev (some (aPreempt 1 [])) true 0
     d.Kept 0 0 ∧ (∀ r ∈ d.fab.remotes, r.ctx = 0 → r.binds = false) ∧ d.mayStore (memRun (0x40000 + 64) 4032) ∧
       d.mayStore (memRun (Config.saveArea 0 % 2 ^ 26 * 4096 + 64) 4032)) ∧
    (let d := preemptDev (some (aPreempt 1 [])) false 0
     ∀ b, ¬ d.Kept 0 b ∧ ¬ d.Lives 0 b) := by
  refine ⟨⟨?_, by decide +kernel, mayStore_run (by decide +kernel) (by decide +kernel) _ _ (by decide),
    mayStore_run (by decide +kernel) (by decide +kernel) _ _ ?_⟩, fun b => ⟨fun h => absurd h.1 (Nat.not_lt_zero b), fun h => absurd h.1 (Nat.not_lt_zero b)⟩⟩
  · unfold Device.Kept; decide +kernel
  · have := Nat.mod_lt (Config.saveArea 0) (show 0 < 2 ^ 26 by decide); omega
/-- A saved block that holds a walker slot with one point handed out and one pending. -/
theorem witness_PreemptionDrainsSavesResetsAndRestores_walker :
    let W : WSlot := { aSlot with points := [{ aPoint with handed := true }, aPoint], desc := setBytes }
    let v : Saved := { savedV with walkers := [(0, 1, W)] }
    (savedDev.restoreSaved v).isSome = true ∧ W.waiting = [] ∧ 32 ≤ W.desc.length ∧ (savedV.blocks.map (fun q => q.2.ctx)) = [0] ∧
      (∀ x ∈ [W.handed, W.deferrals, W.forced, W.completions], x < 2 ^ 32) ∧ (∀ k ∈ savedDev.cores, ∀ u ∈ k.walker, u.waiting = []) ∧
      ∀ k ∈ savedDev.cores, k.walker.length = 4 := by decide +kernel

/-- A store of the firmware to a line that a copy owns, one behind it, and one that no engine hinders. -/
theorem witness_ServicesAnswerTheirRequests_stores :
    (let d := movingDev true
     d.ham.stores = [] ∧ (∃ n ∈ d.linesOf [Loc.mem 0x20000], d.owned n = true)) ∧
    (let d : Device := { movingDev true with ham := { demoDev.ham with stores := [[(.mem 0x20000, 1)]] } }
     ∃ n ∈ d.linesOf (((d.ham.stores ++ [[(Loc.mem 0x30000, 2)]]).headD []).map Prod.fst), d.owned n = true) ∧
    demoDev.ham.stores = [] ∧ (∀ n, demoDev.owned n = false) ∧ demoDev.underTest [.mem 0x30000] = false ∧ demoDev.noMemory (.mem 0x30000) = false :=
  ⟨by decide +kernel, by decide +kernel, by decide +kernel, owned_free (by decide +kernel), by decide +kernel, by decide +kernel⟩

/-- A row of a core under test, the core in use or not; a line of the way under test that the host caches; a way tested while no engine moves; the
last reservation of signatures; an image whose path fuse bit 0 names; and a fenced frame in the way of a page. -/
theorem witness_BootFencingPowerAndMigration_rows :
    (∀ u ∈ [Piece.coreRow 0 0 1, .coreRow 1 3 1], let d := hamDev (fun h => { h with testing := [(u, false)] })
      (u, false) ∈ d.ham.testing ∧ d.ham.fenced = [] ∧ d.saved = [] ∧ 0 < d.ctxs.length ∧ (d.ctx 0).preempt = none) ∧
    (let d := hamDev (fun h => { h with testing := [(.coreRow 0 0 1, false)] })
     d.Lives 0 0 ∧ d.Kept 0 0 ∧ (d.block 0).core = 32 * 0 + 0 ∧ (∀ b ∈ d.blocks, b.ended = false → b.core ≠ 32 * 1 + 3) ∧
       d.mayStore (memRun (Config.saveArea 0 % 2 ^ 26 * 4096 + 64) 4032)) ∧
    (let d : Device := { testDev with l2 := [{ aLine 1 true with slice := 5, way := 0 }], fab := { Fabric.reset with hostLines := [1] } }
     ∃ y ∈ d.l2, (y.die = 0 ∧ y.slice = 5 ∧ y.way = 0) ∧ y.line ∈ d.fab.hostLines) ∧
    (testDev.copies = [] ∧ testDev.qfills = [] ∧ (∀ k ∈ testDev.cores, ∀ x ∈ k.crest, x.ops = []) ∧ testDev.fab.hostLines = []) ∧
    (let h := (hamDev (fun h => { h with xmssBits := 1023, xmssNext := 1024 * 1023 })).ham
     h.xmssBits = 1023 ∧ decide (1024 * h.xmssBits ≤ h.xmssNext) = true) ∧
    (hamDev (fun h => { h with bootPath := true })).ham.bootPath = true ∧
    (∃ f, Piece.dramFrame 0 f ∈ [Piece.dramFrame 0 1] ∧ 2 ^ 21 * f < 0x200000 + 2 ^ 21 ∧ 0x200000 < 2 ^ 21 * (f + 1)) ∧
    (demoDev.fills = [] ∧ ({ demoDev with fills := [aFill], qfills := [aQFill] } : Device).fills[0]? = some aFill) := by
  refine ⟨by decide +kernel, ⟨?_, ?_, by decide +kernel, by decide +kernel, ⟨by decide +kernel, ?_, fun n => ?_, fun l hl => ?_⟩⟩, by decide +kernel, by decide +kernel, by decide,
    by decide, ⟨1, by decide⟩, by decide +kernel⟩
  · unfold Device.Lives; decide +kernel
  · unfold Device.Kept; decide +kernel
  · intro t ht
    obtain rfl := List.mem_singleton.mp ht
    exact ⟨fun _ _ _ h => (by cases h), fun _ _ h => (by cases h)⟩
  · exact owned_free (d := demoDev) (by decide +kernel) n
  · exact (mayStore_run (d := demoDev) (by decide +kernel) (by decide +kernel) _ _ (by
      have := Nat.mod_lt (Config.saveArea 0) (show 0 < 2 ^ 26 by decide); omega)).2.2.2 l hl

/-- A replica whose launch has ended elsewhere; a message of an image, and one that brings a record's line. -/
theorem witness_FabricMessagesAndHostAccesses_ends :
    (let d := setDev 0x60 (fun k => { k with origin := some 6 })
     d.ham.listed = true ∧ (d.ctx 0).origin = some 6 ∧ (d.ctx 0).packet.gen = 1 ∧ (d.ctx 0).state = .running) ∧
    (let op := aRemote 2 (.image 0 0 15) none
     (awayDev listedDev op).fab.remotes[0]? = some op ∧ op.failed = false ∧ op.kind = 2) ∧
    (let op := aRemote 0 (.bring 0 1 1 0) none
     let d := { walkDev aSlot with fab := { Fabric.reset with remotes := [op] } }
     d.fab.remotes[0]? = some op ∧ op.failed = false ∧ (d.wslot 0 1).serial = 1 ∧ (d.wslot 0 1).waiting = [] ∧ 0 < (d.wslot 0 1).points.length ∧
       0 < d.cores.length ∧ 1 < (d.core 0).walker.length ∧ (d.ctx op.ctx).drains = []) := by decide +kernel

/-- Two words of a packet: one waits for a batch, and one, in a later chain, is misaligned. -/
theorem witness_StepRunsTheDecodedPacket_cancels :
    let d := (copyDev.modGroup 0 0 memRegs).modGroup 0 0 (fun g => { oddRegs g with batches := [(1, [7])], s := Fmap.set 0 (oddRegs g).s 12 1 })
    let s : State := { dev := d, iss := none, agenda := [], turn := 0 }
    let x := d.issueOf (.group 0 0) [0]
    let p : Item := { idx := 0, instr := some (.cpwait { mw 3 true with d := 0, base := 0, index := 12, scope := 1, order := 1 }), chain := 0, guard := none, taken := false }
    let q : Item := { idx := 1, instr := some (.atom (mw 2 false)), chain := 1, guard := none, taken := false }
    let s0 : State := { s with iss := some x }
    (s0.perform x p s.dev).status = .waits ∧ (s0.perform x q s.dev).status = .trapped ∧ ∀ k ∈ q.reads, k ∉ p.writes := by decide +kernel

end Sys2Proof.Tests
end

section
/-! PROOFS. What the checks of a word say of its encoding and role, and the shared shape of the results of lanes that set no flag. -/

namespace Sys2Proof

/-! Destinations. -/

/-- A word that does not act for its gang has a v destination. -/
theorem AWord.dst_vd_ne_nil (w : AWord) (wide : Bool) (hu : w.u = false) : (w.dst wide).vd ≠ [] := by
  rw [AWord.dst, hu, if_neg Bool.false_ne_true, vDst]
  split
  · show spanned w.d 2 2 ≠ []
    unfold spanned
    split <;> simp
  · simp

theorem AWord.add_dst_vd_ne_nil (w : AWord) (o : Opnds) (wide : Bool) (hu : w.u = false) : (o.add (w.dst wide)).vd ≠ [] :=
  List.append_ne_nil_of_right_ne_nil _ (w.dst_vd_ne_nil wide hu)

end Sys2Proof

namespace Sys2Proof.Machine

/-! The checks on a word's encoding (R59, R75). -/

/-- A word that its row, its entry or its agent's role does not allow stops ILLEGAL before any other check. -/
theorem Issue.staticCause_illegal (x : Issue) (d : Device) (i : Instr)
    (h : rowOk i = false ∨ legal i = false ∨ roleOk x.agent i = false) : x.staticCause d i = some .illegal := by
  unfold Issue.staticCause
  rcases h with h | h | h <;> simp [h]

/-- Such a word takes the trap, whatever the registers hold. -/
theorem State.runLanes_illegal (s : State) (x : Issue) (i : Instr) (eff : Issue → Device → Eff) (hx : s.iss = some x)
    (h : rowOk i = false ∨ legal i = false ∨ roleOk x.agent i = false) :
    s.runLanes i eff = .next (s.trapped x .illegal none 0) :=
  s.runWord_trap x i false false eff .illegal none hx (by simp only [Issue.verdict, x.staticCause_illegal s.dev i h])

/-- A word that passes its checks is one that its row, its entry and its agent's role allow. -/
theorem Cleared.allowed {s : State} {x : Issue} {i : Instr} (h : Cleared s x i) :
    rowOk i = true ∧ legal i = true ∧ roleOk x.agent i = true := by
  have key : ¬ (rowOk i = false ∨ legal i = false ∨ roleOk x.agent i = false) := fun hn => by
    simpa [x.staticCause_illegal s.dev i hn] using h.static
  simpa [not_or] using key

/-! Lane results. -/

/-- Values that already fit a 32-bit register are written as they are. -/
theorem narrow_eq_self {wide : Bool} {v : DWord} (h : wide = false → v.toNat < 2 ^ 32) : narrow wide v = v := by
  cases wide with
  | true => rfl
  | false =>
    apply BitVec.eq_of_toNat_eq
    simp only [narrow, Bool.false_eq_true, if_false, zext, bitsOf, BitVec.toNat_setWidth, BitVec.extractLsb'_toNat, Nat.shiftRight_zero]
    have := h rfl
    omega

/-- In the uniform form an unsigned result is written as in a lane (R138). -/
theorem uniValue_unsigned (wide : Bool) (v : DWord) : uniValue wide false v = narrow wide v := rfl

theorem foldl_or_zero (ls : List Nat) : ls.foldl (fun (m : BitVec 5) _ => m ||| 0) 0 = 0 := by
  induction ls with
  | nil => rfl
  | cons l ls ih => simp

/-- Lanes that set no flag leave the sticky flags. -/
theorem orFlags_lanesWith_zero (x : Issue) (v : Nat → DWord) : orFlags (x.lanesWith (fun l => (v l, 0))) = 0 := by
  simp only [orFlags, Issue.lanesWith, List.foldl_map]
  exact foldl_or_zero x.act

theorem zext_toNat_lt {n : Nat} (v : BitVec n) (h : n ≤ 32) : (zext v).toNat < 2 ^ 32 := by
  have := lt_of_lt_of_le v.isLt (Nat.pow_le_pow_right (show 0 < 2 by decide) h)
  rw [zext, BitVec.toNat_setWidth]
  exact lt_of_le_of_lt (Nat.mod_le _ _) this

end Sys2Proof.Machine
end

section
/-! PROOFS. `cmp` and `sel` (R143, R144). -/

namespace Sys2Proof.Machine

/-- An element read as the model reads it is the signed number of its bit vector. -/
theorem asSigned_toNat {n : Nat} (hn : 0 < n) (a : BitVec n) : asSigned n a.toNat = a.toInt := by
  obtain ⟨k, rfl⟩ : ∃ k, n = k + 1 := ⟨n - 1, by omega⟩
  rw [asSigned, BitVec.toInt_eq_toNat_cond, Nat.add_sub_cancel, Nat.pow_succ]
  simp only [show 2 ^ k ≤ a.toNat ↔ ¬ 2 * a.toNat < 2 ^ k * 2 by omega, ite_not]
  push_cast
  rfl

theorem elemWidth_pos (t : BitVec 3) : 0 < elemWidth t := by revert t; decide

/-- Element 0 of a value as the integer that its type makes of it (R141). -/
theorem elemInt_element (t : BitVec 3) (v : DWord) :
    elemInt t (elemWidth t) (elemAt (elemWidth t) v 0) =
      if signedT t then (element (elemWidth t) v 0).toInt else (element (elemWidth t) v 0).toNat := by
  rw [← element_toNat, elemInt]
  split
  · exact asSigned_toNat (elemWidth_pos t) _
  · rfl

/-- The order of the integers that two bit vectors stand for. -/
theorem below_iff (signed : Bool) {n : Nat} (a b : BitVec n) :
    below signed a b = decide ((if signed then a.toInt else (a.toNat : Int)) < if signed then b.toInt else (b.toNat : Int)) := by
  cases signed
  · simp [below, BitVec.ult]
  · simp [below, BitVec.slt]

theorem beq_iff_int (signed : Bool) {n : Nat} (a b : BitVec n) :
    (a == b) = decide ((if signed then a.toInt else (a.toNat : Int)) = if signed then b.toInt else (b.toNat : Int)) := by
  rw [Bool.eq_iff_iff, beq_iff_eq, decide_eq_true_iff]
  cases signed
  · simp [BitVec.toNat_inj]
  · simp [BitVec.toInt_inj]

/-- The model's condition on integers is the comparison of the bit vectors. -/
theorem condHolds_eq_compares (c : BitVec 3) (signed : Bool) {n : Nat} (a b : BitVec n) :
    condHolds c (if signed then a.toInt else (a.toNat : Int)) (if signed then b.toInt else (b.toNat : Int)) =
      compares c signed a b := by
  have le_iff : ∀ p q : Int, decide (p ≤ q) = !decide (q < p) := fun p q => by rw [← decide_not, decide_eq_decide, not_lt]
  unfold condHolds compares
  simp only [below_iff, beq_iff_int signed, le_iff]
  generalize c.toNat = k
  rcases k with _ | _ | _ | _ | _ | _ | k <;> rfl

/-- A packed type, or a condition code of 6 or 7, is no legal `cmp`. -/
theorem cmp_illegal (w : AWord) (h : (2 ≤ w.t.toNat ∧ w.t.toNat ≤ 5) ∨ 6 ≤ w.cnd.toNat) : legal (.cmp w) = false := by
  have packed : ∀ t : BitVec 3, 2 ≤ t.toNat ∧ t.toNat ≤ 5 → scalarT t = false := by decide
  show (intOk scalarT w && decide (w.cnd.toNat ≤ 5)) = false
  rcases h with h | h
  · rw [intOk, packed w.t h, Bool.false_and, Bool.false_and]
  · rw [decide_eq_false (by omega), Bool.and_false]

/-- A `cmp` that is ready writes the comparison of the elements 0 (R143). -/
theorem cmp_writes (s : State) (x : Issue) (w : AWord) (hr : Ready s x (.cmp w)) (hg : GangOk s x)
    (hw : (s.dev.view x.agent).regsWf = true) :
    ∃ t, exec (.cmp w) s = .next t ∧
      WroteP s t x w.pDst.toNat (fun l =>
        compares w.cnd (signedT w.t)
          (element (elemWidth w.t) (w.aVal x.view (s.dev.view x.agent) (wideT w.t) (if w.u then x.lead else l)) 0)
          (element (elemWidth w.t) (w.bVal (intImm w.t) x.view (s.dev.view x.agent) (wideT w.t) (if w.u then x.lead else l)) 0)) 0 := by
  obtain ⟨t, ht, hp⟩ := s.predA_lanes x (.cmp w) w w.pDst
    (fun x d l => (condHolds w.cnd
      (elemInt w.t (elemWidth w.t) (elemAt (elemWidth w.t) (w.aVal x.view (d.view x.agent) (wideT w.t) l) 0))
      (elemInt w.t (elemWidth w.t) (elemAt (elemWidth w.t) (w.bVal (intImm w.t) x.view (d.view x.agent) (wideT w.t) l) 0)), 0))
    (cmpEff w) rfl hr hg hw
  refine ⟨t, ht, ?_⟩
  simpa only [elemInt_element, condHolds_eq_compares, foldl_or_zero] using hp

/-- Both operands of a `sel` that does not act for its gang are of 32 bits. -/
theorem sel_operand_lt (w : AWord) (hu : w.u = false) (gr gq : Group) (c : Bool) (l : Nat) :
    (if c then w.aVal gr gq false l else w.bVal zext gr gq false l).toNat < 2 ^ 32 := by
  have reg : ∀ (r : RegNo) (k : Nat), (vOperand gr gq r false k l).toNat < 2 ^ 32 := fun r k => by
    simp only [vOperand, Bool.false_eq_true, if_false]
    split <;> exact zext_toNat_lt _ (le_refl 32)
  cases c with
  | true => simpa [AWord.aVal, hu] using reg w.a 0
  | false =>
    cases he : w.ext with
    | none => simpa [AWord.bVal, he, hu] using reg w.b _
    | some p => simpa [AWord.bVal, he] using zext_toNat_lt p (by decide)

/-- A `sel` that is ready writes the operand that its predicate names (R144). -/
theorem sel_writes (s : State) (x : Issue) (w : AWord) (hr : Ready s x (.sel w)) (hg : GangOk s x)
    (hw : (s.dev.view x.agent).regsWf = true) :
    let v := fun l => if x.view.pAt w.t.toNat l then w.aVal x.view (s.dev.view x.agent) false l
      else w.bVal zext x.view (s.dev.view x.agent) false l
    ∃ t, exec (.sel w) s = .next t ∧
      (w.u = false → WroteLanes s t x w.d.toNat false v 0) ∧ (w.u = true → WroteS s t x w.d.toNat (v x.lead) 0) := by
  intro v
  let f : Issue → Device → Nat → LaneVal := fun x d l =>
    (if x.view.pAt w.t.toNat l then w.aVal x.view (d.view x.agent) false l else w.bVal zext x.view (d.view x.agent) false l, 0)
  cases hu : w.u with
  | false =>
    have he : selEff w x s.dev = putA w x s.dev false false (f x s.dev) := by simp [selEff, hu, f]
    obtain ⟨t, ht, hp⟩ := s.putA_lanes x (.sel w) w false false f (selEff w) he hr hg hw hu
      (List.append_ne_nil_of_left_ne_nil (w.add_dst_vd_ne_nil _ false hu) _)
    refine ⟨t, ht, fun _ => ?_, by simp⟩
    rw [show orFlags (x.lanesWith (f x s.dev)) = 0 from orFlags_lanesWith_zero x v] at hp
    simpa only [f, narrow_eq_self (fun _ => sel_operand_lt w hu _ _ _ _)] using hp
  | true =>
    have he : selEff w x s.dev = putA w x s.dev true false (f x s.dev) := by simp [selEff, hu, f]
    obtain ⟨t, ht, hp⟩ := s.putA_uni x (.sel w) w true false f (selEff w) he hr hg hw hu
    exact ⟨t, ht, by simp, fun _ => hp⟩

/-- Settles O4: an illegal `cmp` takes its trap, and each word writes what its rule says. -/
theorem compareAndSelectWriteTheirResults : Obligations.CompareAndSelectWriteTheirResults :=
  ⟨fun s x w hx h => s.runLanes_illegal x (.cmp w) (cmpEff w) hx (.inr (.inl (cmp_illegal w h))), cmp_writes, sel_writes⟩

end Sys2Proof.Machine
end

section
/-! PROOFS. `fmtset` and `fmtget` (R159, R160). -/

namespace Sys2Proof.Machine

/-- An agent whose role allows `fmtset` has lanes. -/
theorem isGroup_of_roleOk_fmtset {a : Agent} {w : AWord} (h : roleOk a (.fmtset w) = true) : a.isGroup = true := by
  cases a with
  | group b k => rfl
  | access b => exact absurd h Bool.false_ne_true
  | ridge b => exact absurd h Bool.false_ne_true
  | handler c => exact absurd h Bool.false_ne_true

/-- The `fmt` that a `fmtset` stores, before its reserved bits are cleared: its payload, or the low half of its s register. -/
def fmtValue (w : AWord) (g : Group) : Word :=
  match w.ext with | some p => p.setWidth 32 | none => bitsOf (g.sAt w.a.toNat) 0 32

/-- A word without v sources pops no queue. -/
theorem fmtset_pops (w : AWord) : (operands (.fmtset w)).pops = [] := by
  show (if w.u then sSrc w.a false else Opnds.nil).pops = []
  cases w.u <;> rfl

/-- A `fmtset` that is ready stores its value in the slices that perform it and changes nothing else (R159). -/
theorem fmtset_writes (s : State) (x : Issue) (w : AWord) (hr : Ready s x (.fmtset w)) (hg : GangOk s x) :
    ∃ t, exec (.fmtset w) s = .next t ∧
      t.dev.view x.agent = { s.dev.view x.agent with slices := (t.dev.view x.agent).slices } ∧
      (∀ i, (t.dev.view x.agent).slice i =
        if i ∈ x.actSlices then { (s.dev.view x.agent).slice i with fmt := fmtValue w x.view &&& 3 }
        else (s.dev.view x.agent).slice i) ∧
      s.sameBeside t x.agent ∧ t.dev.fills = s.dev.fills := by
  let f : Slice → Slice := fun sl => { sl with fmt := fmtValue w x.view &&& 3 }
  let g := s.dev.view x.agent
  have heff : fmtsetEff w x s.dev = .ok { s.dev.putView x.agent (g.modSlices x.actSlices f) with fills := s.dev.fills } :=
    congrArg Eff.ok (by rw [← Device.putView_fills s.dev x.agent (g.modSlices x.actSlices f)]; rfl)
  obtain ⟨hview, hbeside, hfills⟩ := s.after_put x (.fmtset w) (g.modSlices x.actSlices f) s.dev.fills hr.1.1 hg.1
    (.inl (isGroup_of_roleOk_fmtset hr.1.allowed.2.2))
  rw [fmtset_pops, Group.pop_nil] at hview
  refine ⟨_, s.runLanes_ok x (.fmtset w) (fmtsetEff w) _ hr heff, by rw [hview]; rfl, fun i => ?_, hbeside, hfills⟩
  rw [hview, Group.slice_modSlices]
  by_cases hi : i < g.slices.length
  · simp only [hi, if_true, List.contains_iff_mem]; rfl
  · have hnot : i ∉ x.actSlices := fun h => hi (hg.2.2.2 i (List.mem_of_mem_filter h)).2
    rw [if_neg hi, if_neg hnot, Group.slice, List.getElem?_eq_none (Nat.le_of_not_lt hi)]
    rfl

/-- A `fmtget` that is ready reads the `fmt` of each lane's slice, or of the leading lane's (R160). -/
theorem fmtget_writes (s : State) (x : Issue) (w : AWord) (hr : Ready s x (.fmtget w)) (hg : GangOk s x)
    (hw : (s.dev.view x.agent).regsWf = true) :
    ∃ t, exec (.fmtget w) s = .next t ∧
      (w.u = false → WroteLanes s t x w.d.toNat false (fun l => zext (x.fmtAt l)) 0) ∧
      (w.u = true → WroteS s t x w.d.toNat (zext (x.fmtAt x.lead)) 0) := by
  let f : Issue → Device → Nat → LaneVal := fun x _ l => (zext (x.fmtAt l), 0)
  have fits : ∀ l, narrow false (zext (x.fmtAt l)) = zext (x.fmtAt l) := fun l =>
    narrow_eq_self fun _ => zext_toNat_lt _ (le_refl 32)
  cases hu : w.u with
  | false =>
    obtain ⟨t, ht, hp⟩ := s.putA_lanes x (.fmtget w) w false false f (fmtgetEff w) rfl hr hg hw hu
      (w.dst_vd_ne_nil false hu)
    rw [show orFlags (x.lanesWith (f x s.dev)) = 0 from orFlags_lanesWith_zero x _] at hp
    exact ⟨t, ht, fun _ => by simpa only [f, fits] using hp, by simp⟩
  | true =>
    obtain ⟨t, ht, hp⟩ := s.putA_uni x (.fmtget w) w false false f (fmtgetEff w) rfl hr hg hw hu
    exact ⟨t, ht, by simp, fun _ => by simpa only [f, uniValue_unsigned, fits] using hp⟩

/-- A field of `fmtget` that its row fixes to 0 and that is not makes the word illegal (R59). -/
theorem rowOk_fmtget_false (w : AWord) (h : w.a ≠ 0 ∨ w.b ≠ 0 ∨ w.t ≠ 0 ∨ w.ea = true ∨ w.eb = true) : rowOk (.fmtget w) = false := by
  refine Bool.eq_false_iff.mpr fun hk => ?_
  change (w.a == 0 && w.b == 0 && w.t == 0 && !w.ea && !w.eb && w.noExt) = true at hk
  simp only [Bool.and_eq_true, beq_iff_eq, Bool.not_eq_true'] at hk
  obtain ⟨⟨⟨⟨⟨ha, hb⟩, ht⟩, hea⟩, heb⟩, -⟩ := hk
  simp [ha, hb, ht, hea, heb] at h

/-- Settles O15: the traps come from the checks on role and row; `fmtset` puts the slices, and `fmtget` reads them. -/
theorem formatWordsSetAndReadFmt : Obligations.FormatWordsSetAndReadFmt := by
  refine ⟨fun s x w b hx ha => ⟨?_, ?_⟩, fun s x w hx h => ?_, fmtset_writes, fmtget_writes⟩
  · exact s.runLanes_illegal x (.fmtset w) (fmtsetEff w) hx (.inr (.inr (by rw [ha]; rfl)))
  · exact s.runLanes_illegal x (.fmtget w) (fmtgetEff w) hx (.inr (.inr (by rw [ha]; rfl)))
  · exact s.runLanes_illegal x (.fmtget w) (fmtgetEff w) hx (.inl (rowOk_fmtget_false w h))

end Sys2Proof.Machine
end

section
/-! PROOFS. `fcmp` (R149). -/

namespace Sys2Proof.Machine

/-- A finite value in units of 2^lo. -/
theorem FVal.rat_eq_scaled (neg : Bool) (m : Nat) (e lo : Int) (h : lo ≤ e) :
    (FVal.fin neg m e).rat = (((if neg then -(m : Int) else m) * 2 ^ (e - lo).toNat : Int) : ℚ) * 2 ^ lo := by
  have hpow : (2 : ℚ) ^ e = 2 ^ (e - lo).toNat * 2 ^ lo := by
    rw [← zpow_natCast, ← zpow_add₀ (by norm_num), Int.toNat_of_nonneg (by omega), sub_add_cancel]
  rw [FVal.rat, hpow]
  cases neg
  · simp only [Bool.false_eq_true, if_false]
    push_cast
    ring
  · simp only [if_true]
    push_cast
    ring

/-- The model's order is the order of the values. -/
theorem FVal.lt_iff_less (x y : FVal) : x.lt y = true ↔ x.Less y := by
  cases x with
  | nan s => simp [FVal.lt, FVal.Less]
  | inf s => cases y <;> cases s <;> simp [FVal.lt, FVal.Less]
  | fin s m e =>
    cases y with
    | nan t => simp [FVal.lt, FVal.Less]
    | inf t => simp [FVal.lt, FVal.Less]
    | fin t n g =>
      have hx := FVal.rat_eq_scaled s m e (min e g) (min_le_left e g)
      have hy := FVal.rat_eq_scaled t n g (min e g) (min_le_right e g)
      simp only [FVal.lt, FVal.Less, decide_eq_true_eq, hx, hy]
      rw [mul_lt_mul_iff_left₀ (by positivity), Int.cast_lt]

/-- The result of a comparison holds when the condition does. -/
theorem FFmt.cmp_holds_iff (f : FFmt) (c : BitVec 3) (p q : Nat) :
    let a := f.decode p
    let b := f.decode q
    let un := a.isNan = true ∨ b.isNan = true
    (f.cmp c p q).1 = true ↔ match c.toNat with
      | 0 => ¬ un ∧ ¬ a.Less b ∧ ¬ b.Less a
      | 1 => un ∨ a.Less b ∨ b.Less a
      | 2 => a.Less b
      | 3 => ¬ un ∧ ¬ b.Less a
      | 4 => b.Less a
      | 5 => ¬ un ∧ ¬ a.Less b
      | _ => un := by
  intro a b un
  simp only [FFmt.cmp, ← FVal.lt_iff_less, un, a, b]
  generalize c.toNat = k
  rcases k with _ | _ | _ | _ | _ | _ | k <;> simp [and_assoc, or_assoc]

/-- The flags of a comparison: invalid for a signalling NaN, and for any NaN under an order. -/
theorem FFmt.cmp_flags (f : FFmt) (c : BitVec 3) (p q : Nat) :
    let a := f.decode p
    let b := f.decode q
    (f.cmp c p q).2 = if a = .nan true ∨ b = .nan true ∨ ((a.isNan = true ∨ b.isNan = true) ∧ 2 ≤ c.toNat ∧ c.toNat ≤ 5)
      then fInvalid else 0 := by
  intro a b
  have hsig : sigFlag [a, b] = if a = .nan true ∨ b = .nan true then fInvalid else 0 := by simp [sigFlag]
  have hfl : (f.cmp c p q).2 = if (a.isNan = true ∨ b.isNan = true) ∧ 2 ≤ c.toNat ∧ c.toNat ≤ 5 then fInvalid
      else sigFlag [a, b] := by simp [FFmt.cmp, a, b]
  rw [hfl, hsig, ← ite_or]
  exact if_congr (by tauto) rfl rfl

/-- A type other than f32 is no row of `fcmp`. -/
theorem fcmp_illegal (w : AWord) (h : w.t ≠ 0) : rowOk (.fcmp w) = false := beq_false_of_ne h

/-- A `fcmp` that is ready writes its comparison, and joins the flags of its lanes (R149, R155). -/
theorem fcmp_writes (s : State) (x : Issue) (w : AWord) (hr : Ready s x (.fcmp w)) (hg : GangOk s x)
    (hw : (s.dev.view x.agent).regsWf = true) :
    let v := fun l => FFmt.f32.cmp w.cnd
      (elemAt 32 (w.aVal x.view (s.dev.view x.agent) false (if w.u then x.lead else l)) 0)
      (elemAt 32 (w.bVal (floatImm w.t) x.view (s.dev.view x.agent) false (if w.u then x.lead else l)) 0)
    ∃ t, exec (.fcmp w) s = .next t ∧
      WroteP s t x w.pDst.toNat (fun l => (v l).1) (x.act.foldl (fun m l => m ||| (v l).2) 0) :=
  s.predA_lanes x (.fcmp w) w w.pDst
    (fun x d l => FFmt.f32.cmp w.cnd (elemAt 32 (w.aVal x.view (d.view x.agent) false l) 0)
      (elemAt 32 (w.bVal (floatImm w.t) x.view (d.view x.agent) false l) 0))
    (fcmpEff w) rfl hr hg hw

/-- Settles O8: the trap comes from the check on the row; the comparison is that of the operands' values. -/
theorem floatComparisonFollowsItsTable : Obligations.FloatComparisonFollowsItsTable := by
  refine ⟨fun s x w hx h => s.runLanes_illegal x (.fcmp w) (fcmpEff w) hx (.inl (fcmp_illegal w h)), fun s x w hr hg hw => ?_⟩
  obtain ⟨t, ht, hp⟩ := fcmp_writes s x w hr hg hw
  refine ⟨t, _, ht, hp, fun l _ => ?_⟩
  simp only [element_toNat]
  exact ⟨FFmt.f32.cmp_holds_iff w.cnd _ _, FFmt.f32.cmp_flags w.cnd _ _⟩

end Sys2Proof.Machine
end

section
/-! PROOFS. Rounding to an integer (R152, R263): where a value lies past the integer below it, and the integer that a mode takes. -/

namespace Sys2Proof.Machine

/-! Bit lengths. -/

theorem lt_two_pow_bitLen (m : Nat) : m < 2 ^ bitLen m := by
  unfold bitLen
  split
  · next h => simp [h]
  · exact Nat.lt_log2_self

theorem two_pow_le_of_bitLen {m : Nat} (h : m ≠ 0) {k : Nat} (hk : k < bitLen m) : 2 ^ k ≤ m := by
  rw [bitLen, if_neg h] at hk
  exact le_trans (Nat.pow_le_pow_right (by decide) (by omega)) (Nat.log2_self_le h)

/-- A number between two powers of two has the bit length of the upper one. -/
theorem bitLen_eq {m k : Nat} (hl : 2 ^ k ≤ m) (hu : m < 2 ^ (k + 1)) : bitLen m = k + 1 := by
  have hm : m ≠ 0 := by have := Nat.two_pow_pos k; omega
  rw [bitLen, if_neg hm, (Nat.log2_eq_iff hm).mpr ⟨hl, hu⟩]

/-! The integer below a value and the rest. -/

/-- x lies this far past the integer n. -/
def Rest.Of (n : Nat) (x : ℚ) : Rest → Prop
  | .zero => x = n
  | .low => n < x ∧ x < n + 1 / 2
  | .half => x = n + 1 / 2
  | .high => n + 1 / 2 < x ∧ x < n + 1

/-- The rest of a division by a power of two. -/
theorem Rest.of_div (n r d : Nat) (hd : 0 < d) (hr : r < 2 ^ d) :
    Rest.Of n (((2 ^ d * n + r : Nat) : ℚ) / 2 ^ d)
      (if r = 0 then .zero else if r < 2 ^ (d - 1) then .low else if r = 2 ^ (d - 1) then .half else .high) := by
  obtain ⟨k, rfl⟩ : ∃ k, d = k + 1 := ⟨d - 1, by omega⟩
  have hx : ((2 ^ (k + 1) * n + r : Nat) : ℚ) / 2 ^ (k + 1) = n + r / 2 ^ (k + 1) := by
    push_cast; field_simp
  have hpos : (0 : ℚ) < 2 ^ k := by positivity
  have hr' : (r : ℚ) < 2 * 2 ^ k := by rw [pow_succ'] at hr; exact_mod_cast hr
  rw [hx, Nat.add_sub_cancel, pow_succ']
  split
  · next h => simp [Rest.Of, h]
  · next h =>
    have h0 : (0 : ℚ) < r := by exact_mod_cast Nat.pos_of_ne_zero h
    split
    · next hl =>
      have hl' : (r : ℚ) < 2 ^ k := by exact_mod_cast hl
      refine ⟨by simp only [lt_add_iff_pos_right]; positivity, ?_⟩
      rw [add_lt_add_iff_left, div_lt_iff₀ (by positivity)]
      linarith
    · next hl =>
      split
      · next he =>
        simp only [Rest.Of, he, Nat.cast_pow, Nat.cast_ofNat]
        field_simp
      · next hne =>
        have hg : (2 ^ k : ℚ) < r := by exact_mod_cast lt_of_le_of_ne (not_lt.mp hl) (Ne.symm hne)
        constructor
        · rw [add_lt_add_iff_left, lt_div_iff₀ (by positivity)]; linarith
        · rw [add_lt_add_iff_left, div_lt_iff₀ (by positivity)]; linarith

/-- What `splitAt` answers for an exact magnitude. -/
theorem splitAt_spec (m d : Nat) : Rest.Of (splitAt m d false).1 (m / 2 ^ d) (splitAt m d false).2 := by
  unfold splitAt
  by_cases hbig : bitLen m + 1 < d
  · rw [if_pos hbig]
    by_cases hm : m = 0
    · simp [hm, Rest.Of]
    · have hlt : m * 2 < 2 ^ d := by
        calc m * 2 < 2 ^ bitLen m * 2 := by have := lt_two_pow_bitLen m; omega
          _ = 2 ^ (bitLen m + 1) := (pow_succ 2 _).symm
          _ ≤ 2 ^ d := Nat.pow_le_pow_right (by decide) (by omega)
      have hlt' : (m : ℚ) * 2 < 2 ^ d := by exact_mod_cast hlt
      have h0 : (0 : ℚ) < m := by exact_mod_cast Nat.pos_of_ne_zero hm
      rw [show (if (m = 0 && !false) = true then Rest.zero else .low) = .low by simp [hm]]
      refine ⟨by simp only [Nat.cast_zero]; positivity, ?_⟩
      rw [Nat.cast_zero, zero_add, div_lt_div_iff₀ (by positivity) (by norm_num)]
      linarith
  · rw [if_neg hbig]
    by_cases hd : d = 0
    · simp [hd, Rest.Of]
    · have h := Rest.of_div (m / 2 ^ d) (m % 2 ^ d) d (Nat.pos_of_ne_zero hd) (Nat.mod_lt _ (Nat.two_pow_pos d))
      rw [Nat.div_add_mod] at h
      simpa [hd] using h

/-- The integer below m * 2^-down and the rest, as rounding takes them. -/
def cutAt (m : Nat) (down : Int) : Nat × Rest :=
  if down < 0 then (m * 2 ^ (-down).toNat, .zero) else splitAt m down.toNat false

theorem cutAt_spec (m : Nat) (down : Int) : Rest.Of (cutAt m down).1 (m * 2 ^ (-down)) (cutAt m down).2 := by
  unfold cutAt
  split
  · next h =>
    obtain ⟨k, hk⟩ : ∃ k : Nat, -down = k := ⟨(-down).toNat, by omega⟩
    simp [Rest.Of, hk]
  · next h =>
    obtain ⟨k, rfl⟩ : ∃ k : Nat, down = k := ⟨down.toNat, by omega⟩
    have := splitAt_spec m k
    rwa [div_eq_mul_inv, ← zpow_natCast, ← zpow_neg] at this

/-! The integer that a mode takes. -/

/-- The integer taken in a mode, from the integer below and the rest (R262). -/
def stepUp (mode : RMode) (neg : Bool) (nr : Nat × Rest) : Nat :=
  if roundsUp mode neg (nr.1 % 2 == 1) nr.2 then nr.1 + 1 else nr.1

/-- Staying at the integer below goes toward zero. -/
theorem Rest.Of.floor {n : Nat} {x : ℚ} {r : Rest} (h : r.Of n x) : (n : ℚ) ≤ x ∧ x < n + 1 := by
  cases r <;> simp only [Rest.Of] at h <;> constructor <;> linarith

/-- Leaving it for any rest goes away from zero. -/
theorem Rest.Of.ceil {n : Nat} {x : ℚ} {r : Rest} (h : r.Of n x) :
    x ≤ (if r != .zero then n + 1 else n : Nat) ∧ ((if r != .zero then n + 1 else n : Nat) : ℚ) < x + 1 := by
  cases r <;> simp [Rest.Of] at h ⊢ <;> constructor <;> linarith

/-- Leaving it past the half, or at the half when it is odd, goes to the nearest, a tie to the even one. -/
theorem Rest.Of.nearest {n : Nat} {x : ℚ} {r : Rest} (h : r.Of n x) :
    let k := if r == .high || (r == .half && n % 2 == 1) then n + 1 else n
    |x - k| ≤ 1 / 2 ∧ (|x - k| = 1 / 2 → k % 2 = 0) := by
  cases r with
  | zero =>
    have h : x = n := h
    change |x - (n : ℚ)| ≤ 1 / 2 ∧ (|x - (n : ℚ)| = 1 / 2 → n % 2 = 0)
    norm_num [h]
  | low =>
    obtain ⟨h1, h2⟩ : n < x ∧ x < n + 1 / 2 := h
    have habs : |x - n| < 1 / 2 := abs_sub_lt_iff.mpr ⟨by linarith, by linarith⟩
    exact ⟨habs.le, fun he => absurd he habs.ne⟩
  | half =>
    have h : x = n + 1 / 2 := h
    rcases Nat.mod_two_eq_zero_or_one n with heven | hodd
    · rw [show (if (Rest.half == .high || (Rest.half == .half && n % 2 == 1)) = true then n + 1 else n) = n by simp [heven]]
      norm_num [h, heven]
    · rw [show (if (Rest.half == .high || (Rest.half == .half && n % 2 == 1)) = true then n + 1 else n) = n + 1 by simp [hodd]]
      refine ⟨?_, fun _ => by omega⟩
      rw [h, abs_of_neg] <;> push_cast <;> linarith
  | high =>
    obtain ⟨h1, h2⟩ : n + 1 / 2 < x ∧ x < n + 1 := h
    have habs : |x - (n + 1 : Nat)| < 1 / 2 := abs_sub_lt_iff.mpr ⟨by push_cast; linarith, by push_cast; linarith⟩
    exact ⟨habs.le, fun he => absurd he habs.ne⟩

/-- The integer that the model takes is the one that the mode names. -/
theorem stepUp_roundsToInt (mode : RMode) (neg : Bool) {nr : Nat × Rest} {x : ℚ} (h : nr.2.Of nr.1 x) :
    RoundsToInt mode neg x (stepUp mode neg nr) := by
  cases mode with
  | rne => exact h.nearest
  | rz => exact h.floor
  | ru =>
    cases neg with
    | true => simpa [stepUp, roundsUp, RoundsToInt] using h.floor
    | false => simpa [stepUp, roundsUp, RoundsToInt] using h.ceil
  | rd =>
    cases neg with
    | true => simpa [stepUp, roundsUp, RoundsToInt] using h.ceil
    | false => simpa [stepUp, roundsUp, RoundsToInt] using h.floor

/-- An exact magnitude stays. -/
theorem stepUp_zero (mode : RMode) (neg : Bool) (n : Nat) : stepUp mode neg (n, .zero) = n := by cases mode <;> rfl

/-- The step is exact only from an exact magnitude. -/
theorem stepUp_eq_iff (mode : RMode) (neg : Bool) {nr : Nat × Rest} {x : ℚ} (h : nr.2.Of nr.1 x) :
    ((stepUp mode neg nr : Nat) : ℚ) = x ↔ nr.2 = .zero := by
  obtain ⟨n, r⟩ := nr
  by_cases hr : r = .zero
  · subst hr
    simp only [stepUp_zero, iff_true]
    exact (show x = n from h).symm
  · have hlt : (n : ℚ) < x := by cases r <;> simp [Rest.Of] at h hr <;> linarith
    simp only [hr, iff_false]
    intro hk
    have h1 : n < stepUp mode neg (n, r) := by rw [← hk] at hlt; exact_mod_cast hlt
    have h2 : stepUp mode neg (n, r) < n + 1 := by have := h.floor.2; rw [← hk] at this; exact_mod_cast this
    omega

/-- `roundInt` takes the integer that the mode names (R263). -/
theorem roundInt_spec (mode : RMode) (neg : Bool) (m : Nat) (e : Int) :
    RoundsToInt mode neg (m * 2 ^ e) (roundInt mode neg m e).1 := by
  unfold roundInt
  by_cases he : 0 ≤ e
  · obtain ⟨k, rfl⟩ : ∃ k : Nat, e = k := ⟨e.toNat, by omega⟩
    have h : Rest.Of (m * 2 ^ k) (m * 2 ^ (k : Int)) .zero := by simp [Rest.Of]
    rw [if_pos he, Int.toNat_natCast]
    simpa only [stepUp_zero] using stepUp_roundsToInt mode neg (nr := (m * 2 ^ k, .zero)) h
  · have h := stepUp_roundsToInt mode neg (cutAt_spec m (-e))
    rw [neg_neg, cutAt, if_neg (by omega)] at h
    rw [if_neg he]
    exact h

end Sys2Proof.Machine
end

section
/-! PROOFS. Rounding to the grid of a format (R262): an integer number of the last units of a magnitude, rounded as R263 says, is the
grid point that R262 asks for. -/

namespace Sys2Proof.Machine

/-- q is the exponent of the last bit that a positive magnitude keeps: no larger than its precision needs, and at least the
subnormals'. -/
def FFmt.Scale (f : FFmt) (a : ℚ) (q : Int) : Prop :=
  f.emin ≤ q ∧ a < 2 ^ (f.fbits + 1) * 2 ^ q ∧ (q = f.emin ∨ 2 ^ f.fbits * 2 ^ q ≤ a)

/-- A number of units over the reals is the one over the rationals. -/
theorem real_units (m : Nat) (j : Int) : (m * 2 ^ j : ℝ) = ((m * 2 ^ j : ℚ) : ℝ) := by push_cast; rfl

/-- A grid point at or above that exponent is a whole number of units. -/
theorem grid_units (m : Nat) {j q : Int} (h : q ≤ j) : ∃ i : Nat, (m * 2 ^ j : ℚ) = i * 2 ^ q := by
  refine ⟨m * 2 ^ (j - q).toNat, ?_⟩
  push_cast
  rw [mul_assoc, ← zpow_natCast, ← zpow_add₀ (by norm_num), Int.toNat_of_nonneg (by omega), sub_add_cancel]

/-- A grid point below it is too small for the format's normal values at q. -/
theorem FFmt.Grid.lt_normal {f : FFmt} {m : Nat} {j q : Int} (hg : f.Grid m j) (h : j < q) : (m * 2 ^ j : ℚ) < 2 ^ f.fbits * 2 ^ q := by
  have hm : (m : ℚ) < 2 ^ (f.fbits + 1) := by exact_mod_cast hg.1
  calc (m * 2 ^ j : ℚ) < 2 ^ (f.fbits + 1) * 2 ^ j := by gcongr
    _ = 2 ^ f.fbits * 2 ^ (j + 1) := by rw [zpow_add_one₀ (by norm_num)]; ring
    _ ≤ 2 ^ f.fbits * 2 ^ q := by gcongr <;> [norm_num; omega]

/-- Between a magnitude and a grid point below it lies a whole number of units. -/
theorem FFmt.Scale.between_le {f : FFmt} {a : ℚ} {q : Int} (hs : f.Scale a q) {m : Nat} {j : Int} (hg : f.Grid m j)
    (h : (m * 2 ^ j : ℚ) ≤ a) : ∃ i : Nat, (m * 2 ^ j : ℚ) ≤ i * 2 ^ q ∧ (i * 2 ^ q : ℚ) ≤ a := by
  rcases le_or_gt q j with hj | hj
  · obtain ⟨i, hi⟩ := grid_units m hj
    exact ⟨i, hi.le, hi ▸ h⟩
  · obtain ⟨-, -, rfl | hn⟩ := hs
    · exact absurd hj (not_lt.mpr hg.2.1)
    · exact ⟨2 ^ f.fbits, by exact_mod_cast (hg.lt_normal hj).le, by exact_mod_cast hn⟩

/-- And between it and one above it. -/
theorem FFmt.Scale.between_ge {f : FFmt} {a : ℚ} {q : Int} (hs : f.Scale a q) {m : Nat} {j : Int} (hg : f.Grid m j)
    (h : a ≤ (m * 2 ^ j : ℚ)) : ∃ i : Nat, a ≤ i * 2 ^ q ∧ (i * 2 ^ q : ℚ) ≤ m * 2 ^ j := by
  rcases le_or_gt q j with hj | hj
  · obtain ⟨i, hi⟩ := grid_units m hj
    exact ⟨i, hi ▸ h, hi.ge⟩
  · obtain ⟨-, -, rfl | hn⟩ := hs
    · exact absurd hj (not_lt.mpr hg.2.1)
    · exact absurd (lt_of_lt_of_le (hg.lt_normal hj) hn) (not_lt.mpr h)

/-! Each direction. -/

section directions
variable {f : FFmt} {a : ℚ} {q : Int} (hs : f.Scale a q) {n : Nat}
include hs

/-- Toward zero, no grid point lies between the result and the magnitude. -/
theorem FFmt.Scale.floor (h : (n : ℚ) ≤ a / 2 ^ q ∧ a / 2 ^ q < n + 1) :
    (n * 2 ^ q : ℚ) ≤ a ∧ ∀ m j, f.Grid m j → (m * 2 ^ j : ℚ) ≤ a → (m * 2 ^ j : ℚ) ≤ n * 2 ^ q := by
  obtain ⟨hl, hu⟩ := h
  refine ⟨(le_div_iff₀ (by positivity)).mp hl, fun m j hg hm => ?_⟩
  obtain ⟨i, h1, h2⟩ := hs.between_le hg hm
  have hi : (i : ℚ) < n + 1 := lt_of_le_of_lt ((le_div_iff₀ (by positivity)).mpr h2) hu
  have hi : i ≤ n := Nat.lt_succ_iff.mp (by exact_mod_cast hi)
  exact h1.trans (by gcongr)

/-- Nor away from zero. -/
theorem FFmt.Scale.ceil (h : a / 2 ^ q ≤ n ∧ (n : ℚ) < a / 2 ^ q + 1) :
    a ≤ n * 2 ^ q ∧ ∀ m j, f.Grid m j → a ≤ (m * 2 ^ j : ℚ) → (n * 2 ^ q : ℚ) ≤ m * 2 ^ j := by
  obtain ⟨hl, hu⟩ := h
  refine ⟨(div_le_iff₀ (by positivity)).mp hl, fun m j hg hm => ?_⟩
  obtain ⟨i, h1, h2⟩ := hs.between_ge hg hm
  have hi : (n : ℚ) < i + 1 := lt_of_lt_of_le hu (by linarith [(div_le_iff₀ (by positivity)).mpr h1])
  have hi : n ≤ i := Nat.lt_succ_iff.mp (by exact_mod_cast hi)
  exact le_trans (by gcongr) h2

/-- To the nearest, no grid point is nearer, and one as near leaves the result even. -/
theorem FFmt.Scale.nearest (h : |a / 2 ^ q - n| ≤ 1 / 2 ∧ (|a / 2 ^ q - n| = 1 / 2 → n % 2 = 0)) (m : Nat) (j : Int) (hg : f.Grid m j) :
    |a - n * 2 ^ q| ≤ |a - m * 2 ^ j| ∧ (|a - n * 2 ^ q| = |a - m * 2 ^ j| → (m * 2 ^ j : ℚ) ≠ n * 2 ^ q → n % 2 = 0) := by
  obtain ⟨hhalf, heven⟩ := h
  have hu : (0 : ℚ) < 2 ^ q := by positivity
  obtain ⟨i, hi, hmi⟩ : ∃ i : Nat, |a - i * 2 ^ q| ≤ |a - m * 2 ^ j| ∧
      (|a - i * 2 ^ q| = |a - m * 2 ^ j| → (m * 2 ^ j : ℚ) = i * 2 ^ q) := by
    rcases le_total (m * 2 ^ j : ℚ) a with hm | hm
    · obtain ⟨i, h1, h2⟩ := hs.between_le hg hm
      rw [abs_of_nonneg (sub_nonneg.mpr hm)]
      exact ⟨i, by rw [abs_of_nonneg (sub_nonneg.mpr h2)]; constructor <;> intros <;> linarith⟩
    · obtain ⟨i, h1, h2⟩ := hs.between_ge hg hm
      rw [abs_of_nonpos (sub_nonpos.mpr hm)]
      exact ⟨i, by rw [abs_of_nonpos (sub_nonpos.mpr h1)]; constructor <;> intros <;> linarith⟩
  have scaled : ∀ k : Nat, |a - k * 2 ^ q| = |a / 2 ^ q - k| * 2 ^ q := fun k => by
    rw [← abs_of_pos hu, ← abs_mul, abs_of_pos hu, sub_mul, div_mul_cancel₀ _ hu.ne']
  by_cases hin : i = n
  · subst hin
    exact ⟨hi, fun he hne => absurd (hmi he) hne⟩
  · have hdist : (1 : ℚ) ≤ |a / 2 ^ q - i| + |a / 2 ^ q - n| := by
      have h1 : (1 : ℚ) ≤ |(n : ℚ) - i| := by
        exact_mod_cast Int.one_le_abs (sub_ne_zero.mpr (show (n : Int) ≠ i by omega))
      calc (1 : ℚ) ≤ |(n : ℚ) - i| := h1
        _ = |(a / 2 ^ q - i) - (a / 2 ^ q - n)| := by ring_nf
        _ ≤ _ := abs_sub _ _
    rw [scaled] at hi ⊢
    have hnear : |a / 2 ^ q - n| * 2 ^ q ≤ |a / 2 ^ q - i| * 2 ^ q := mul_le_mul_of_nonneg_right (by linarith) hu.le
    refine ⟨hnear.trans hi, fun he _ => heven ?_⟩
    have : |a / 2 ^ q - i| * 2 ^ q ≤ |a / 2 ^ q - n| * 2 ^ q := hi.trans he.ge
    have := le_of_mul_le_mul_right this hu
    linarith

end directions

/-- The magnitude rounded to a whole number of units lies within one of them. -/
theorem RoundsToInt.near {mode : RMode} {neg : Bool} {x : ℚ} {n : Nat} (h : RoundsToInt mode neg x n) : x < n + 1 ∧ (n : ℚ) < x + 1 := by
  have floor : (n : ℚ) ≤ x ∧ x < n + 1 → x < n + 1 ∧ (n : ℚ) < x + 1 := fun ⟨hl, hu⟩ => ⟨hu, by linarith⟩
  have ceil : x ≤ n ∧ (n : ℚ) < x + 1 → x < n + 1 ∧ (n : ℚ) < x + 1 := fun ⟨hl, hu⟩ => ⟨by linarith, hu⟩
  cases mode with
  | rne =>
    obtain ⟨hl, hu⟩ := abs_le.mp h.1
    constructor <;> linarith
  | rz => exact floor h
  | ru =>
    cases neg with
    | true => exact floor h
    | false => exact ceil h
  | rd =>
    cases neg with
    | true => exact ceil h
    | false => exact floor h

/-- A grid point of the value n * 2^q, even when n is, is the rounding that R262 asks for. -/
theorem FFmt.Scale.roundsTo {f : FFmt} {a : ℚ} {q : Int} (hs : f.Scale a q) {mode : RMode} {neg : Bool} {n : Nat}
    (h : RoundsToInt mode neg (a / 2 ^ q) n) {n' : Nat} {k : Int} (hg : f.Grid n' k) (hv : (n' * 2 ^ k : ℚ) = n * 2 ^ q)
    (heven : n % 2 = 0 → n' % 2 = 0) : f.RoundsTo mode neg (a : ℝ) n' k := by
  have hfloor : (n : ℚ) ≤ a / 2 ^ q ∧ a / 2 ^ q < n + 1 →
      (n' * 2 ^ k : ℝ) ≤ a ∧ ∀ m j, f.Grid m j → (m * 2 ^ j : ℝ) ≤ a → (m * 2 ^ j : ℝ) ≤ n' * 2 ^ k := fun h => by
    simpa only [real_units, Rat.cast_le, hv] using hs.floor h
  have hceil : a / 2 ^ q ≤ n ∧ (n : ℚ) < a / 2 ^ q + 1 →
      (a : ℝ) ≤ n' * 2 ^ k ∧ ∀ m j, f.Grid m j → (a : ℝ) ≤ m * 2 ^ j → (n' * 2 ^ k : ℝ) ≤ m * 2 ^ j := fun h => by
    simpa only [real_units, Rat.cast_le, hv] using hs.ceil h
  refine ⟨hg, ?_⟩
  cases mode with
  | rne =>
    intro m j hm
    obtain ⟨hle, htie⟩ := hs.nearest h m j hm
    simp only [real_units, hv, ← Rat.cast_sub, ← Rat.cast_abs, Rat.cast_le, Rat.cast_inj, ne_eq]
    exact ⟨hle, fun he hne => heven (htie he hne)⟩
  | rz => exact hfloor h
  | ru =>
    cases neg with
    | true => exact hfloor h
    | false => exact hceil h
  | rd =>
    cases neg with
    | true => exact hceil h
    | false => exact hfloor h

/-- A magnitude that is itself a grid point is rounded to itself. -/
theorem FFmt.RoundsTo.exact {f : FFmt} {mode : RMode} {neg : Bool} {a : ℝ} {n : Nat} {k : Int} (h : f.RoundsTo mode neg a n k)
    {m : Nat} {j : Int} (hg : f.Grid m j) (ha : (m * 2 ^ j : ℝ) = a) : (n * 2 ^ k : ℝ) = a := by
  obtain ⟨-, h⟩ := h
  cases mode with
  | rne =>
    have := (h m j hg).1
    rw [ha, sub_self, abs_zero, abs_nonpos_iff, sub_eq_zero] at this
    exact this.symm
  | rz => exact le_antisymm h.1 (ha ▸ h.2 m j hg ha.le)
  | ru =>
    cases neg with
    | true => exact le_antisymm h.1 (ha ▸ h.2 m j hg ha.le)
    | false => exact le_antisymm (ha ▸ h.2 m j hg ha.ge) h.1
  | rd =>
    cases neg with
    | true => exact le_antisymm (ha ▸ h.2 m j hg ha.ge) h.1
    | false => exact le_antisymm h.1 (ha ▸ h.2 m j hg ha.le)

/-- A value of few enough bits is a grid point. -/
theorem FFmt.exists_grid (f : FFmt) {m : Nat} {j : Int} (hm : m < 2 ^ (f.fbits + 1)) (hj : f.emin ≤ j) :
    ∃ n k, f.Grid n k ∧ k ≤ j ∧ (n * 2 ^ k : ℚ) = m * 2 ^ j := by
  obtain ⟨d, hd⟩ : ∃ d : Nat, j = f.emin + d := ⟨(j - f.emin).toNat, by omega⟩
  induction d generalizing m j with
  | zero => exact ⟨m, j, ⟨hm, hj, .inr (by omega)⟩, le_rfl, rfl⟩
  | succ d ih =>
    by_cases hn : 2 ^ f.fbits ≤ m
    · exact ⟨m, j, ⟨hm, hj, .inl hn⟩, le_rfl, rfl⟩
    · obtain ⟨n, k, hg, hk, hv⟩ := ih (m := m * 2) (j := j - 1) (by rw [pow_succ]; omega) (by omega) (by omega)
      refine ⟨n, k, hg, by omega, hv.trans ?_⟩
      rw [zpow_sub_one₀ (by norm_num)]
      push_cast
      ring

end Sys2Proof.Machine
end

section
/-! PROOFS. The rounding helper (R262) of the formats with infinities: the grid point it finds, its encoding and its flags. -/

namespace Sys2Proof.Machine

/-- A format with infinities whose largest exponent equals its bias: every one but E4M3 (R255). -/
def FFmt.HasInf (f : FFmt) : Prop := f.noInf = false ∧ 0 < f.fbits ∧ f.fbits ≤ f.bias ∧ 2 ^ f.ebits = 2 * f.bias + 2

theorem FFmt.hasInf_f32 : FFmt.f32.HasInf := by unfold FFmt.HasInf; decide
theorem hasInf_floatFmt (t : BitVec 3) : (floatFmt t).HasInf := by unfold FFmt.HasInf; revert t; decide

/-! Encodings. -/

/-- The encoding of a grid point (R255, R256). -/
def FFmt.encode (f : FFmt) (neg : Bool) (n : Nat) (k : Int) : Nat :=
  (if neg then 2 ^ (f.ebits + f.fbits) else 0) +
    (if n < 2 ^ f.fbits then n else (k + f.bias + f.fbits).toNat * 2 ^ f.fbits + (n - 2 ^ f.fbits))

/-- The fields of an encoding. -/
theorem fields_of_encoding (eb fb E fr : Nat) (neg : Bool) (hE : E < 2 ^ eb) (hfr : fr < 2 ^ fb) :
    let b := (if neg then 2 ^ (eb + fb) else 0) + (E * 2 ^ fb + fr)
    b.testBit (eb + fb) = neg ∧ b / 2 ^ fb % 2 ^ eb = E ∧ b % 2 ^ fb = fr ∧ b < 2 ^ (1 + eb + fb) := by
  intro b
  have hlow : E * 2 ^ fb + fr < 2 ^ (eb + fb) := by
    calc E * 2 ^ fb + fr < (E + 1) * 2 ^ fb := by rw [Nat.add_mul]; omega
      _ ≤ 2 ^ eb * 2 ^ fb := Nat.mul_le_mul_right _ hE
      _ = 2 ^ (eb + fb) := (pow_add 2 eb fb).symm
  have htop : 2 ^ (1 + eb + fb) = 2 * 2 ^ (eb + fb) := by rw [add_assoc, add_comm, pow_succ']
  obtain ⟨s, hs, hb⟩ : ∃ s, s = neg.toNat ∧ b = 2 ^ fb * (2 ^ eb * s + E) + fr := by
    refine ⟨neg.toNat, rfl, ?_⟩
    cases neg <;> simp only [b, pow_add, Bool.toNat_true, Bool.toNat_false, if_true, Bool.false_eq_true, if_false] <;> ring
  refine ⟨?_, ?_, ?_, ?_⟩
  · have hdiv : b / 2 ^ (eb + fb) = neg.toNat := by
      cases neg
      · simpa [b] using hlow
      · simp only [b, if_true, Bool.toNat_true, Nat.add_div_left _ (Nat.two_pow_pos _), Nat.div_eq_of_lt hlow]
    rw [Nat.testBit_eq_decide_div_mod_eq, hdiv]
    cases neg <;> rfl
  · rw [hb, Nat.mul_add_div (Nat.two_pow_pos fb), Nat.div_eq_of_lt hfr, add_zero, Nat.mul_add_mod, Nat.mod_eq_of_lt hE]
  · rw [hb, Nat.mul_add_mod, Nat.mod_eq_of_lt hfr]
  · rw [htop]
    cases neg <;> simp only [b, if_true, Bool.false_eq_true, if_false] <;> omega

/-- The encoding of a grid point whose exponent is in range decodes to it. -/
theorem FFmt.decode_encode {f : FFmt} (hf : f.HasInf) (neg : Bool) {n : Nat} {k : Int} (hg : f.Grid n k)
    (hk : ¬ (2 ^ f.fbits ≤ n ∧ (f.bias : Int) - f.fbits < k)) :
    f.encode neg n k < 2 ^ f.width ∧ f.decode (f.encode neg n k) = .fin neg n k := by
  obtain ⟨hinf, hfb, -, heb⟩ := hf
  obtain ⟨hn, hmin, hnorm⟩ := hg
  by_cases hsmall : n < 2 ^ f.fbits
  · have hkm : k = f.emin := hnorm.resolve_left (by omega)
    obtain ⟨hs, he, hfr, hlt⟩ := fields_of_encoding f.ebits f.fbits 0 n neg (Nat.two_pow_pos _) hsmall
    rw [FFmt.encode, if_pos hsmall]
    rw [zero_mul, zero_add] at hs he hfr hlt
    exact ⟨hlt, by simp only [FFmt.decode, hs, he, hfr, if_true, hkm]⟩
  · obtain ⟨E, hE⟩ : ∃ E : Nat, k + f.bias + f.fbits = E := ⟨(k + f.bias + f.fbits).toNat, by unfold FFmt.emin at hmin; omega⟩
    have h1 : 1 ≤ E := by unfold FFmt.emin at hmin; omega
    have h2 : E + 1 < 2 ^ f.ebits := by omega
    obtain ⟨hs, he, hfr, hlt⟩ := fields_of_encoding f.ebits f.fbits E (n - 2 ^ f.fbits) neg (by omega) (by rw [pow_succ] at hn; omega)
    rw [FFmt.encode, if_neg hsmall, hE, Int.toNat_natCast]
    refine ⟨hlt, ?_⟩
    simp only [FFmt.decode, hs, he, hfr, hinf, Bool.not_false, Bool.and_true, Bool.and_false, Bool.false_and, decide_eq_true_eq,
      show E ≠ 0 by omega, show E ≠ 2 ^ f.ebits - 1 by omega, if_false, Bool.false_eq_true]
    rw [show 2 ^ f.fbits + (n - 2 ^ f.fbits) = n by omega, show (E : Int) - f.bias - f.fbits = k by omega]

/-- The largest finite value. -/
theorem FFmt.decode_maxFin {f : FFmt} (hf : f.HasInf) (neg : Bool) :
    f.maxFin neg < 2 ^ f.width ∧ f.decode (f.maxFin neg) = .fin neg (2 ^ (f.fbits + 1) - 1) (f.bias - f.fbits) := by
  have hp := Nat.two_pow_pos f.fbits
  have hpp : 2 ^ (f.fbits + 1) = 2 * 2 ^ f.fbits := pow_succ' 2 _
  obtain ⟨hinf, hfb, hbias, heb⟩ := id hf
  have hmax : f.maxFin neg = f.encode neg (2 ^ (f.fbits + 1) - 1) (f.bias - f.fbits) := by
    rw [FFmt.maxFin, FFmt.encode, hinf]
    congr 1
    rw [if_neg Bool.false_ne_true, if_neg (by omega), heb, show ((f.bias : Int) - f.fbits + f.bias + f.fbits).toNat = 2 * f.bias by omega,
      show 2 * f.bias + 2 - 1 = 2 * f.bias + 1 by omega, Nat.add_mul]
    omega
  rw [hmax]
  exact FFmt.decode_encode hf neg ⟨by omega, by unfold FFmt.emin; omega, .inl (by omega)⟩ (by omega)

/-- The grid points past the largest finite value are those of an exponent out of range. -/
theorem FFmt.maxFin_lt_iff {f : FFmt} (hf : f.HasInf) {n : Nat} {k : Int} (hg : f.Grid n k) :
    (f.decode (f.maxFin false)).rat < n * 2 ^ k ↔ 2 ^ f.fbits ≤ n ∧ (f.bias : Int) - f.fbits < k := by
  have hp := Nat.two_pow_pos f.fbits
  have hpp : 2 ^ (f.fbits + 1) = 2 * 2 ^ f.fbits := pow_succ' 2 _
  obtain ⟨-, hfb, hbias, -⟩ := id hf
  have hrat : (f.decode (f.maxFin false)).rat = ((2 ^ (f.fbits + 1) - 1 : Nat) : ℚ) * 2 ^ ((f.bias : Int) - f.fbits) := by
    rw [(FFmt.decode_maxFin hf false).2, FVal.rat]; simp
  rw [hrat]
  constructor
  · intro h
    by_contra hno
    have hk : k ≤ f.bias - f.fbits := by
      rcases hg.2.2 with hn | hmin
      · exact not_lt.mp fun hlt => hno ⟨hn, hlt⟩
      · rw [hmin, FFmt.emin]; omega
    have hn : (n : ℚ) ≤ (2 ^ (f.fbits + 1) - 1 : Nat) := by exact_mod_cast Nat.le_sub_one_of_lt hg.1
    have : (n * 2 ^ k : ℚ) ≤ ((2 ^ (f.fbits + 1) - 1 : Nat) : ℚ) * 2 ^ ((f.bias : Int) - f.fbits) := by gcongr; norm_num
    linarith
  · rintro ⟨hn, hk⟩
    have hn' : ((2 : ℚ) ^ f.fbits) ≤ n := by exact_mod_cast hn
    have hlt : ((2 ^ (f.fbits + 1) - 1 : Nat) : ℚ) < 2 ^ (f.fbits + 1) := by exact_mod_cast Nat.sub_lt (Nat.two_pow_pos _) one_pos
    calc ((2 ^ (f.fbits + 1) - 1 : Nat) : ℚ) * 2 ^ ((f.bias : Int) - f.fbits)
        < 2 ^ (f.fbits + 1) * 2 ^ ((f.bias : Int) - f.fbits) := by gcongr
      _ = 2 ^ f.fbits * 2 ^ ((f.bias : Int) - f.fbits + 1) := by rw [zpow_add_one₀ (by norm_num)]; ring
      _ ≤ n * 2 ^ k := by gcongr <;> [norm_num; omega]

/-- The grid points below the smallest normal value are those of fewer bits. -/
theorem FFmt.lt_normal_iff {f : FFmt} {n : Nat} {k : Int} (hg : f.Grid n k) :
    (n * 2 ^ k : ℚ) < 2 ^ ((f.fbits : Int) + f.emin) ↔ n < 2 ^ f.fbits := by
  have hsplit : (2 : ℚ) ^ ((f.fbits : Int) + f.emin) = 2 ^ f.fbits * 2 ^ f.emin := by rw [zpow_add₀ (by norm_num), zpow_natCast]
  rw [hsplit]
  constructor
  · intro h
    by_contra hn
    have hn' : ((2 : ℚ) ^ f.fbits) ≤ n := by exact_mod_cast not_lt.mp hn
    have : (2 ^ f.fbits * 2 ^ f.emin : ℚ) ≤ n * 2 ^ k := by gcongr <;> [norm_num; exact hg.2.1]
    linarith
  · intro h
    have hn' : (n : ℚ) < 2 ^ f.fbits := by exact_mod_cast h
    rw [hg.2.2.resolve_left (by omega)]
    gcongr

end Sys2Proof.Machine
end

section
/-! PROOFS. The rounding helper gives what R262 asks for. -/

namespace Sys2Proof.Machine

/-- The exponent of the last bit that m * 2^e keeps in a format. -/
def FFmt.quantum (f : FFmt) (m : Nat) (e : Int) : Int := max ((bitLen m : Int) + e - (f.fbits + 1)) f.emin

theorem FFmt.scale_quantum (f : FFmt) {m : Nat} (hm : m ≠ 0) (e : Int) : f.Scale (m * 2 ^ e) (f.quantum m e) := by
  have hpow : ∀ (i : Nat) (j : Int), (2 : ℚ) ^ i * 2 ^ j = 2 ^ ((i : Int) + j) := fun i j => by
    rw [zpow_add₀ (by norm_num), zpow_natCast]
  have hlt : (m : ℚ) < 2 ^ bitLen m := by exact_mod_cast lt_two_pow_bitLen m
  refine ⟨le_max_right _ _, ?_, ?_⟩
  · calc (m * 2 ^ e : ℚ) < 2 ^ bitLen m * 2 ^ e := by gcongr
      _ = 2 ^ ((bitLen m : Int) + e) := hpow _ _
      _ ≤ 2 ^ (((f.fbits + 1 : Nat) : Int) + f.quantum m e) := by
        have : (bitLen m : Int) + e - (f.fbits + 1) ≤ f.quantum m e := le_max_left _ _
        exact zpow_le_zpow_right₀ (by norm_num) (by push_cast; omega)
      _ = 2 ^ (f.fbits + 1) * 2 ^ f.quantum m e := (hpow _ _).symm
  · rcases le_total ((bitLen m : Int) + e - (f.fbits + 1)) f.emin with h | h
    · exact .inl (max_eq_right h)
    · right
      obtain ⟨b, hb⟩ : ∃ b, bitLen m = b + 1 := ⟨m.log2, by rw [bitLen, if_neg hm]⟩
      have hle : (2 : ℚ) ^ b ≤ m := by exact_mod_cast two_pow_le_of_bitLen hm (show b < bitLen m by omega)
      rw [FFmt.quantum, max_eq_left h, hpow, show (f.fbits : Int) + (bitLen m + e - (f.fbits + 1)) = b + e by rw [hb]; push_cast; ring, ← hpow]
      gcongr

/-- The grid point of n units of 2^q: past the precision it is the first of the next exponent. -/
def FFmt.point (f : FFmt) (n : Nat) (q : Int) : Nat × Int := if n = 2 ^ (f.fbits + 1) then (2 ^ f.fbits, q + 1) else (n, q)

/-- The number of units stays within the precision, or is the next power of two. -/
def FFmt.Units (f : FFmt) (n : Nat) (q : Int) : Prop := n ≤ 2 ^ (f.fbits + 1) ∧ f.emin ≤ q ∧ (2 ^ f.fbits ≤ n ∨ q = f.emin)

theorem FFmt.Scale.units {f : FFmt} {a : ℚ} {q : Int} (hs : f.Scale a q) {mode : RMode} {neg : Bool} {n : Nat}
    (h : RoundsToInt mode neg (a / 2 ^ q) n) : f.Units n q := by
  obtain ⟨hq, hhi, hlo⟩ := hs
  obtain ⟨h1, h2⟩ := h.near
  have hu : (0 : ℚ) < 2 ^ q := by positivity
  refine ⟨?_, hq, ?_⟩
  · have : (n : ℚ) < 2 ^ (f.fbits + 1) + 1 := by linarith [(div_lt_iff₀ hu).mpr hhi]
    exact Nat.lt_succ_iff.mp (by exact_mod_cast this)
  · refine hlo.symm.imp_left fun hlo => ?_
    have : (2 ^ f.fbits : ℚ) < n + 1 := by linarith [(le_div_iff₀ hu).mpr hlo]
    exact Nat.lt_succ_iff.mp (by exact_mod_cast this)

theorem FFmt.Units.point_grid {f : FFmt} {n : Nat} {q : Int} (h : f.Units n q) : f.Grid (f.point n q).1 (f.point n q).2 := by
  obtain ⟨hn, hq, hnorm⟩ := h
  have hpp : 2 ^ (f.fbits + 1) = 2 * 2 ^ f.fbits := pow_succ' 2 _
  have hp := Nat.two_pow_pos f.fbits
  unfold FFmt.point
  split
  · exact ⟨by omega, by omega, .inl le_rfl⟩
  · exact ⟨by omega, hq, hnorm⟩

theorem FFmt.point_value (f : FFmt) (n : Nat) (q : Int) : ((f.point n q).1 * 2 ^ (f.point n q).2 : ℚ) = n * 2 ^ q := by
  unfold FFmt.point
  split
  · next h => rw [h, zpow_add_one₀ (by norm_num)]; push_cast; ring
  · rfl

theorem FFmt.point_even {f : FFmt} (hf : 0 < f.fbits) {n : Nat} {q : Int} (h : n % 2 = 0) : (f.point n q).1 % 2 = 0 := by
  unfold FFmt.point
  split
  · exact Nat.even_iff.mp ((Nat.even_pow.mpr ⟨even_two, hf.ne'⟩))
  · exact h

/-- The model's test for overflow is on the exponent of the grid point. -/
theorem FFmt.Units.overflow_iff {f : FFmt} (hf : f.HasInf) {n : Nat} {q : Int} (h : f.Units n q) :
    (n ≠ 0 ∧ (f.bias : Int) + 1 < bitLen n + q) ↔ 2 ^ f.fbits ≤ (f.point n q).1 ∧ (f.bias : Int) - f.fbits < (f.point n q).2 := by
  obtain ⟨hn, hq, hnorm⟩ := h
  obtain ⟨-, hfb, hbias, -⟩ := hf
  have hpp : 2 ^ (f.fbits + 1) = 2 * 2 ^ f.fbits := pow_succ' 2 _
  have hp := Nat.two_pow_pos f.fbits
  unfold FFmt.point
  by_cases htop : n = 2 ^ (f.fbits + 1)
  · have hlen : bitLen n = f.fbits + 1 + 1 := bitLen_eq htop.ge (by rw [htop]; exact Nat.pow_lt_pow_right (by decide) (by omega))
    rw [if_pos htop, hlen]
    push_cast
    omega
  · rw [if_neg htop]
    by_cases hsmall : n < 2 ^ f.fbits
    · have hlen : bitLen n ≤ f.fbits := by
        by_contra hlt
        by_cases h0 : n = 0
        · simp [h0, bitLen] at hlt
        · exact absurd (two_pow_le_of_bitLen h0 (not_le.mp hlt)) (by omega)
      have hmin : q = f.emin := hnorm.resolve_left (by omega)
      unfold FFmt.emin at hmin
      omega
    · have hlen : bitLen n = f.fbits + 1 := bitLen_eq (by omega) (by omega)
      rw [hlen]
      push_cast
      omega

/-- The end of the rounding helper: n units of 2^q with their sign and flags, or an overflow (R262). -/
def FFmt.pack (f : FFmt) (mode : RMode) (neg : Bool) (n : Nat) (q : Int) (inexact : Bool) : Nat × Flags :=
  let top := (bitLen n : Int) + q
  if n != 0 && (decide ((f.bias : Int) + 1 < (if f.noInf then top - 1 else top)) || (f.noInf && top == (f.bias : Int) + 2 && n == 15)) then
    (f.overflow mode neg, fOverflow ||| fInexact)
  else
    let sgn := if neg then 2 ^ (f.ebits + f.fbits) else 0
    let fl : Flags := if inexact then (if n < 2 ^ f.fbits then fInexact ||| fUnderflow else fInexact) else 0
    if n < 2 ^ f.fbits then (sgn + n, fl)
    else
      (sgn + ((if n = 2 ^ (f.fbits + 1) then q + 1 else q) + f.bias + f.fbits).toNat * 2 ^ f.fbits +
        ((if n = 2 ^ (f.fbits + 1) then n / 2 else n) - 2 ^ f.fbits), fl)

/-- The rounding helper cuts the magnitude at its last bit, steps as the mode says, and packs. -/
theorem FFmt.round_eq_pack (f : FFmt) (mode : RMode) (neg : Bool) {m : Nat} (hm : m ≠ 0) (e : Int) :
    f.round mode neg m e false = f.pack mode neg (stepUp mode neg (cutAt m (f.quantum m e - e))) (f.quantum m e)
      ((cutAt m (f.quantum m e - e)).2 != .zero) := by
  unfold FFmt.round
  rw [if_neg (by simp [hm])]
  rfl

/-- Packing, said by the grid point. -/
theorem FFmt.Units.pack_eq {f : FFmt} (hf : f.HasInf) (mode : RMode) (neg : Bool) {n : Nat} {q : Int} (h : f.Units n q) (inexact : Bool) :
    f.pack mode neg n q inexact =
      if 2 ^ f.fbits ≤ (f.point n q).1 ∧ (f.bias : Int) - f.fbits < (f.point n q).2 then (f.overflow mode neg, fOverflow ||| fInexact)
      else (f.encode neg (f.point n q).1 (f.point n q).2,
        if inexact then (if (f.point n q).1 < 2 ^ f.fbits then fInexact ||| fUnderflow else fInexact) else 0) := by
  have hpp : 2 ^ (f.fbits + 1) = 2 * 2 ^ f.fbits := pow_succ' 2 _
  have hp := Nat.two_pow_pos f.fbits
  unfold FFmt.pack
  simp only [hf.1, Bool.false_and, Bool.or_false, Bool.false_eq_true, if_false, Bool.and_eq_true, bne_iff_ne, decide_eq_true_eq,
    h.overflow_iff hf]
  refine if_congr Iff.rfl rfl ?_
  unfold FFmt.point FFmt.encode
  by_cases htop : n = 2 ^ (f.fbits + 1)
  · simp only [htop, if_true, lt_irrefl, if_false, show ¬ 2 ^ (f.fbits + 1) < 2 ^ f.fbits by omega,
      show 2 ^ (f.fbits + 1) / 2 = 2 ^ f.fbits by omega, add_assoc]
  · by_cases hsmall : n < 2 ^ f.fbits
    · simp only [htop, hsmall, if_true, if_false]
    · simp only [htop, hsmall, if_false, add_assoc]

/-- What an overflow gives. -/
theorem FFmt.overflow_overflows (f : FFmt) (mode : RMode) (neg : Bool) : f.Overflows mode neg (f.overflow mode neg) := by
  unfold FFmt.Overflows FFmt.overflow
  split
  · rfl
  · cases mode <;> cases neg <;> rfl

/-- Packing the units of a rounded magnitude gives what R262 asks for. -/
theorem FFmt.Units.pack_rounded {f : FFmt} (hf : f.HasInf) {mode : RMode} {neg : Bool} {n : Nat} {q : Int} (h : f.Units n q) {a : ℚ}
    (hto : f.RoundsTo mode neg (a : ℝ) (f.point n q).1 (f.point n q).2) {inexact : Bool} (hin : inexact = false ↔ (n * 2 ^ q : ℚ) = a) :
    f.Rounded mode neg (a : ℝ) (f.pack mode neg n q inexact) := by
  rw [h.pack_eq hf]
  have hg := h.point_grid
  rw [← f.point_value] at hin
  generalize f.point n q = p at *
  obtain ⟨n', k⟩ := p
  have hover : ((f.decode (f.maxFin false)).rat : ℝ) < n' * 2 ^ k ↔ 2 ^ f.fbits ≤ n' ∧ (f.bias : Int) - f.fbits < k := by
    rw [real_units, Rat.cast_lt, FFmt.maxFin_lt_iff hf hg]
  have hsmall : (n' * 2 ^ k : ℝ) < 2 ^ ((f.fbits : Int) + f.emin) ↔ n' < 2 ^ f.fbits := by
    rw [← FFmt.lt_normal_iff hg, ← Rat.cast_lt (K := ℝ)]
    push_cast
    rfl
  have hexact : (n' * 2 ^ k : ℝ) = a ↔ inexact = false := by rw [hin, real_units, Rat.cast_inj]
  refine ⟨n', k, hto, ?_⟩
  by_cases hov : 2 ^ f.fbits ≤ n' ∧ (f.bias : Int) - f.fbits < k
  · rw [if_pos (hover.mpr hov), if_pos hov]
    exact ⟨f.overflow_overflows mode neg, rfl⟩
  · obtain ⟨hlt, hdec⟩ := FFmt.decode_encode hf neg hg hov
    rw [if_neg (mt hover.mp hov), if_neg hov]
    refine ⟨hlt, ⟨n', k, hdec, rfl⟩, ?_⟩
    simp only [hexact, hsmall]
    cases inexact <;> rfl

/-- An overflow gives an infinity or the largest finite value. -/
theorem FFmt.Overflows.cases {f : FFmt} {mode : RMode} {neg : Bool} {r : Nat} (h : f.Overflows mode neg r) :
    r = f.inf neg ∨ r = f.maxFin neg := by
  unfold FFmt.Overflows at h
  split at h
  · exact .inr h
  · split at h <;> simp [h]

/-- The rounding helper rounds a magnitude that is not zero as R262 says. -/
theorem FFmt.round_rounded {f : FFmt} (hf : f.HasInf) (mode : RMode) (neg : Bool) {m : Nat} (hm : m ≠ 0) (e : Int) :
    f.Rounded mode neg ((m * 2 ^ e : ℚ) : ℝ) (f.round mode neg m e false) := by
  have hs := f.scale_quantum hm e
  have hcut := cutAt_spec m (f.quantum m e - e)
  rw [neg_sub, zpow_sub₀ (by norm_num), ← mul_div_assoc] at hcut
  have hint := stepUp_roundsToInt mode neg hcut
  have hunits := hs.units hint
  rw [f.round_eq_pack mode neg hm e]
  refine hunits.pack_rounded hf (hs.roundsTo hint hunits.point_grid (f.point_value _ _) (FFmt.point_even hf.2.1)) ?_
  rw [← eq_div_iff (by positivity), stepUp_eq_iff mode neg hcut, bne_eq_false_iff_eq]

/-- A zero keeps its sign. -/
theorem FFmt.round_zero (f : FFmt) (mode : RMode) (neg : Bool) (e : Int) : f.round mode neg 0 e false = (f.zero neg, 0) := rfl

theorem FFmt.decode_zero {f : FFmt} (hf : f.HasInf) (neg : Bool) :
    f.zero neg < 2 ^ f.width ∧ f.decode (f.zero neg) = .fin neg 0 f.emin := by
  have h := FFmt.decode_encode hf neg (n := 0) (k := f.emin) ⟨Nat.two_pow_pos _, le_rfl, .inr rfl⟩
    (fun hn => absurd hn.1 (not_le.mpr (Nat.two_pow_pos _)))
  rwa [FFmt.encode, if_pos (Nat.two_pow_pos _), add_zero] at h

/-- The encodings with the largest exponent field fit the format. -/
theorem FFmt.special_lt_width {f : FFmt} (hf : f.HasInf) (neg : Bool) : f.inf neg < 2 ^ f.width ∧ f.nan < 2 ^ f.width := by
  have hE : 2 ^ f.ebits - 1 < 2 ^ f.ebits := Nat.sub_lt (Nat.two_pow_pos _) one_pos
  obtain ⟨-, -, -, hinf⟩ := fields_of_encoding f.ebits f.fbits (2 ^ f.ebits - 1) 0 neg hE (Nat.two_pow_pos _)
  obtain ⟨-, -, -, hnan⟩ := fields_of_encoding f.ebits f.fbits (2 ^ f.ebits - 1) (2 ^ (f.fbits - 1)) false hE
    (Nat.pow_lt_pow_right (by decide) (Nat.sub_lt hf.2.1 one_pos))
  refine ⟨by simpa [FFmt.inf, FFmt.width] using hinf, ?_⟩
  rw [FFmt.nan, hf.1]
  simpa [FFmt.width] using hnan

/-- What R262 gives fits the format. -/
theorem FFmt.Rounded.lt_width {f : FFmt} (hf : f.HasInf) {mode : RMode} {neg : Bool} {a : ℝ} {r : Nat × Flags} (h : f.Rounded mode neg a r) :
    r.1 < 2 ^ f.width := by
  obtain ⟨n, k, -, h⟩ := h
  split at h
  · obtain ⟨hov, -⟩ := h
    rcases hov.cases with h | h
    · exact h ▸ (FFmt.special_lt_width hf neg).1
    · exact h ▸ (FFmt.decode_maxFin hf neg).1
  · exact h.1

theorem FFmt.round_lt_width {f : FFmt} (hf : f.HasInf) (mode : RMode) (neg : Bool) (m : Nat) (e : Int) :
    (f.round mode neg m e false).1 < 2 ^ f.width := by
  by_cases hm : m = 0
  · rw [hm, f.round_zero]
    exact (FFmt.decode_zero hf neg).1
  · exact (FFmt.round_rounded hf mode neg hm e).lt_width hf

/-- A value that the format holds is rounded to itself, whatever the mode. -/
theorem FFmt.round_exact {f : FFmt} (hf : f.HasInf) (mode : RMode) (neg : Bool) (m : Nat) (e : Int) {g : Nat} {j : Int}
    (hg : g < 2 ^ (f.fbits + 1)) (hj : f.emin ≤ j) (hj' : j ≤ (f.bias : Int) - f.fbits) (hv : (m * 2 ^ e : ℚ) = g * 2 ^ j) :
    (f.round mode neg m e false).2 = 0 ∧ ∃ n k, f.decode (f.round mode neg m e false).1 = .fin neg n k ∧ (n * 2 ^ k : ℚ) = m * 2 ^ e := by
  obtain ⟨g', j', hgrid, hle, hgv⟩ := f.exists_grid hg hj
  by_cases hm : m = 0
  · rw [hm, f.round_zero]
    exact ⟨rfl, 0, f.emin, (FFmt.decode_zero hf neg).2, by simp⟩
  · obtain ⟨n, k, hto, hr⟩ := FFmt.round_rounded hf mode neg hm e
    have hval : (n * 2 ^ k : ℝ) = ((m * 2 ^ e : ℚ) : ℝ) := hto.exact hgrid (by rw [real_units, hgv, hv])
    have hin : ¬ ((f.decode (f.maxFin false)).rat : ℝ) < n * 2 ^ k := by
      rw [hval, hv, ← hgv, Rat.cast_lt, FFmt.maxFin_lt_iff hf hgrid]
      omega
    rw [if_neg hin, if_pos hval] at hr
    obtain ⟨-, ⟨n', k', hdec, hn'⟩, hfl⟩ := hr
    refine ⟨hfl, n', k', hdec, ?_⟩
    rw [hval, real_units, Rat.cast_inj] at hn'
    exact hn'

/-- The bounds of a finite value. -/
theorem FFmt.decode_bounds {f : FFmt} (hf : f.HasInf) {b : Nat} {neg : Bool} {n : Nat} {e : Int} (h : f.decode b = .fin neg n e) :
    n < 2 ^ (f.fbits + 1) ∧ f.emin ≤ e ∧ e ≤ (f.bias : Int) - f.fbits := by
  obtain ⟨hinf, hfb, hbias, heb⟩ := hf
  have hfr : b % 2 ^ f.fbits < 2 ^ f.fbits := Nat.mod_lt _ (Nat.two_pow_pos _)
  have hE : b / 2 ^ f.fbits % 2 ^ f.ebits < 2 ^ f.ebits := Nat.mod_lt _ (Nat.two_pow_pos _)
  have hpp : 2 ^ (f.fbits + 1) = 2 * 2 ^ f.fbits := pow_succ' 2 _
  generalize hfr' : b % 2 ^ f.fbits = fr at *
  generalize hE' : b / 2 ^ f.fbits % 2 ^ f.ebits = E at *
  simp only [FFmt.decode, hfr', hE', hinf, Bool.not_false, Bool.and_true, Bool.and_false, Bool.false_and, Bool.false_eq_true, if_false,
    decide_eq_true_eq] at h
  unfold FFmt.emin at *
  split at h
  · cases h
    omega
  · split at h
    · split at h <;> cases h
    · cases h
      omega

end Sys2Proof.Machine
end

section
/-! PROOFS. The shared shape of float words: a value in each lane or once for the gang, element by element (R138, R145). -/

namespace Sys2Proof.Machine

/-- What a float word computes in a lane, from its operands and the lane's rounding mode. -/
def floatLane (w : AWord) (imm : Payload → DWord) (F : BitVec 3 → RMode → DWord → DWord → DWord → LaneVal) (x : Issue) (d : Device)
    (l : Nat) : LaneVal :=
  F w.t (floatMode w.t (x.fmtAt l)) (w.aVal x.view (d.view x.agent) false l) (w.bVal imm x.view (d.view x.agent) false l)
    (w.dVal x.view false l)

/-- A float word completes, when for every legal type its function gives related values that fit its destination. -/
theorem floatWord_of (mk : AWord → Instr) (imm : BitVec 3 → Payload → DWord) (wide : Bool)
    (F : BitVec 3 → RMode → DWord → DWord → DWord → LaneVal) (P : BitVec 3 → RMode → DWord → DWord → DWord → LaneVal → Prop)
    (hx : ∀ w s, exec (mk w) s = s.runLanes (mk w) (fun x d => putA w x d wide false (floatLane w (imm w.t) F x d)))
    (hd : ∀ w, w.u = false → (operands (mk w)).vd ≠ [])
    (hF : ∀ w, legal (mk w) = true → ∀ m a b d,
      P w.t m a b d (F w.t m a b d) ∧ (wide = false → (F w.t m a b d).1.toNat < 2 ^ 32)) :
    FloatWord mk imm wide P := by
  intro s x w hr hg hw a b d
  have hlane : ∀ l, P w.t (floatMode w.t (x.fmtAt l)) (a l) (b l) (d l) (floatLane w (imm w.t) F x s.dev l) ∧
      narrow wide (floatLane w (imm w.t) F x s.dev l).1 = (floatLane w (imm w.t) F x s.dev l).1 := fun l => by
    obtain ⟨hP, hfit⟩ := hF w hr.1.allowed.2.1 (floatMode w.t (x.fmtAt l)) (a l) (b l) (d l)
    exact ⟨hP, narrow_eq_self hfit⟩
  let eff : Issue → Device → Eff := fun x d => putA w x d wide false (floatLane w (imm w.t) F x d)
  cases hu : w.u with
  | false =>
    obtain ⟨t, ht, hwr⟩ := s.putA_lanes x (mk w) w wide false (floatLane w (imm w.t) F) eff rfl hr hg hw hu (hd w hu)
    refine ⟨t, floatLane w (imm w.t) F x s.dev, (hx w s).trans ht, fun _ => ⟨?_, fun l _ => (hlane l).1⟩, by simp⟩
    simpa only [(hlane _).2] using hwr
  | true =>
    obtain ⟨t, ht, hwr⟩ := s.putA_uni x (mk w) w wide false (floatLane w (imm w.t) F) eff rfl hr hg hw hu
    refine ⟨t, floatLane w (imm w.t) F x s.dev, (hx w s).trans ht, by simp, fun _ => ⟨?_, (hlane _).1⟩⟩
    rwa [uniValue_unsigned, (hlane _).2] at hwr

/-- Two elements put together: the number they make, and the elements read back. -/
theorem pair_elements (n lo hi : Nat) (hn : n ≤ 32) (hlo : lo < 2 ^ n) (hhi : hi < 2 ^ n) :
    (BitVec.ofNat 64 (lo + 2 ^ n * hi)).toNat = lo + 2 ^ n * hi ∧
      elemAt n (BitVec.ofNat 64 (lo + 2 ^ n * hi)) 0 = lo ∧ elemAt n (BitVec.ofNat 64 (lo + 2 ^ n * hi)) 1 = hi := by
  have hlt : lo + 2 ^ n * hi < 2 ^ 64 := by
    calc lo + 2 ^ n * hi < 2 ^ n * (hi + 1) := by rw [Nat.mul_add]; omega
      _ ≤ 2 ^ n * 2 ^ n := Nat.mul_le_mul_left _ hhi
      _ = 2 ^ (n + n) := (pow_add 2 n n).symm
      _ ≤ 2 ^ 64 := Nat.pow_le_pow_right (by decide) (by omega)
  have hv : (BitVec.ofNat 64 (lo + 2 ^ n * hi)).toNat = lo + 2 ^ n * hi := by rw [BitVec.toNat_ofNat, Nat.mod_eq_of_lt hlt]
  refine ⟨hv, ?_, ?_⟩
  · simp [elemAt, hv, Nat.mod_eq_of_lt hlo]
  · rw [elemAt, hv, mul_one, Nat.add_mul_div_left _ _ (Nat.two_pow_pos n), Nat.div_eq_of_lt hlo, zero_add, Nat.mod_eq_of_lt hhi]

/-- A value of 32 bits has zeros above. -/
theorem high_zero {v : DWord} (h : v.toNat < 2 ^ 32) : bitsOf v 32 32 = 0 := by
  apply BitVec.eq_of_toNat_eq
  rw [bitsOf, BitVec.extractLsb'_toNat, Nat.shiftRight_eq_div_pow, Nat.div_eq_of_lt h]
  rfl

theorem width_floatFmt (t : BitVec 3) : (floatFmt t).width = if t = 1 ∨ t = 2 then 16 else 32 := by revert t; decide

theorem packedF_eq (t : BitVec 3) : packedF t = decide (t = 1 ∨ t = 2) := by revert t; decide

/-- An operation on each element gives related values, when it does on elements of the format's width. -/
theorem perFloat_perFloat (t : BitVec 3) (f : FFmt → Nat → Nat → Nat → Nat × Flags) (P : FFmt → Nat → Nat → Nat → Nat × Flags → Prop)
    (hf : ∀ a b d, a < 2 ^ (floatFmt t).width → b < 2 ^ (floatFmt t).width →
      P (floatFmt t) a b d (f (floatFmt t) a b d) ∧ (f (floatFmt t) a b d).1 < 2 ^ (floatFmt t).width) (a b d : DWord) :
    PerFloat t P a b d (perFloat t f a b d) ∧ (perFloat t f a b d).1.toNat < 2 ^ 32 := by
  have hw := width_floatFmt t
  by_cases ht : t = 1 ∨ t = 2
  · rw [if_pos ht] at hw
    rw [hw] at hf
    obtain ⟨hlo, hlo'⟩ := hf (elemAt 16 a 0) (elemAt 16 b 0) (elemAt 16 d 0) (elemAt_lt _ _ _) (elemAt_lt _ _ _)
    obtain ⟨hhi, hhi'⟩ := hf (elemAt 16 a 1) (elemAt 16 b 1) (elemAt 16 d 1) (elemAt_lt _ _ _) (elemAt_lt _ _ _)
    simp only [PerFloat, perFloat, packedF_eq, ht, decide_true, if_true, element_toNat]
    generalize f (floatFmt t) (elemAt 16 a 0) (elemAt 16 b 0) (elemAt 16 d 0) = lo at *
    generalize f (floatFmt t) (elemAt 16 a 1) (elemAt 16 b 1) (elemAt 16 d 1) = hi at *
    obtain ⟨hv, h0, h1⟩ := pair_elements 16 lo.1 hi.1 (by decide) hlo' hhi'
    rw [h0, h1]
    have hfit : (BitVec.ofNat 64 (lo.1 + 2 ^ 16 * hi.1)).toNat < 2 ^ 32 := by rw [hv]; omega
    exact ⟨⟨lo.2, hi.2, hlo, hhi, rfl, high_zero hfit⟩, hfit⟩
  · rw [if_neg ht] at hw
    rw [hw] at hf
    obtain ⟨hP, hlt⟩ := hf (elemAt 32 a 0) (elemAt 32 b 0) (elemAt 32 d 0) (elemAt_lt _ _ _) (elemAt_lt _ _ _)
    simp only [PerFloat, perFloat, packedF_eq, ht, decide_false, Bool.false_eq_true, if_false, element_toNat]
    generalize f (floatFmt t) (elemAt 32 a 0) (elemAt 32 b 0) (elemAt 32 d 0) = r at *
    obtain ⟨hv, h0, -⟩ := pair_elements 32 r.1 0 (by decide) hlt (by decide)
    rw [mul_zero, add_zero] at hv h0
    rw [h0]
    have hfit : (BitVec.ofNat 64 r.1).toNat < 2 ^ 32 := by rw [hv]; exact hlt
    exact ⟨⟨hP, high_zero hfit⟩, hfit⟩

end Sys2Proof.Machine
end

section
/-! PROOFS. `fscale`, `frnd`, `fpack` and `funpk` (R151, R152, R154). -/

namespace Sys2Proof.Machine

/-! `fscale` -/

/-- The exponent of `fscale` is the signed element of b. -/
theorem scaleBy_eq (t : BitVec 3) (m : RMode) (a b d : Nat) (hb : b < 2 ^ (floatFmt t).width) :
    scaleBy m (floatFmt t) a b d =
      (floatFmt t).scale m a (if t = 1 ∨ t = 2 then (BitVec.ofNat 16 b).toInt else (BitVec.ofNat 32 b).toInt) := by
  have hs : ∀ n : Nat, 0 < n → b < 2 ^ n → asSigned n b = (BitVec.ofNat n b).toInt := fun n hn h => by
    rw [← asSigned_toNat hn, BitVec.toNat_ofNat, Nat.mod_eq_of_lt h]
  rw [scaleBy]
  rw [width_floatFmt] at hb ⊢
  by_cases ht : t = 1 ∨ t = 2
  · simp only [ht, if_true] at hb ⊢
    rw [if_neg (by decide), hs 16 (by decide) hb]
  · simp only [ht, if_false, if_true] at hb ⊢
    rw [hs 32 (by decide) hb]

/-- `fscale` of one value: one rounding, and nothing to round in a zero, an infinity or a NaN (R151). -/
theorem FFmt.scale_spec {f : FFmt} (hf : f.HasInf) (m : RMode) (a : Nat) (c : Int) (ha : a < 2 ^ f.width) :
    (match f.decode a with
      | .nan g => f.scale m a c = (f.nan, if g then fInvalid else 0)
      | .inf _ => f.scale m a c = (a, 0)
      | .fin neg n e => if n = 0 then f.scale m a c = (a, 0) else f.Rounded m neg ((n * 2 ^ (e + c) : ℚ) : ℝ) (f.scale m a c)) ∧
    (f.scale m a c).1 < 2 ^ f.width := by
  unfold FFmt.scale
  cases f.decode a with
  | nan g => exact ⟨rfl, (FFmt.special_lt_width hf false).2⟩
  | inf neg => exact ⟨rfl, ha⟩
  | fin neg n e =>
    by_cases hn : n = 0
    · simpa [hn] using ha
    · simp only [hn, if_false]
      have hr := FFmt.round_rounded hf m neg hn (e + c)
      exact ⟨hr, hr.lt_width hf⟩

/-! `frnd` -/

/-- The integer that a finite value of a format is rounded to is one of the format's values. -/
theorem FFmt.round_roundInt {f : FFmt} (hf : f.HasInf) (mode m' : RMode) (neg : Bool) {n : Nat} {e : Int} (hn : n < 2 ^ (f.fbits + 1))
    (he : f.emin ≤ e) (he' : e ≤ (f.bias : Int) - f.fbits) :
    ∃ g j, f.decode (f.round m' neg (roundInt mode neg n e).1 0 false).1 = .fin neg g j ∧
      (g * 2 ^ j : ℚ) = (roundInt mode neg n e).1 := by
  obtain ⟨-, hfb, hbias, -⟩ := id hf
  rcases le_or_gt 0 e with h0 | h0
  · obtain ⟨k, rfl⟩ : ∃ k : Nat, e = k := ⟨e.toNat, by omega⟩
    have hv : ((roundInt mode neg n k).1 * 2 ^ (0 : Int) : ℚ) = n * 2 ^ (k : Int) := by simp [roundInt]
    obtain ⟨-, g, j, hdec, hgj⟩ := FFmt.round_exact hf m' neg _ 0 hn he he' hv
    exact ⟨g, j, hdec, by rw [hgj, zpow_zero, mul_one]⟩
  · have hk : (roundInt mode neg n e).1 < 2 ^ (f.fbits + 1) := by
      have hnear := (roundInt_spec mode neg n e).near.2
      have hn' : (n : ℚ) < 2 ^ (f.fbits + 1) := by exact_mod_cast hn
      have hhalf : (n * 2 ^ e : ℚ) < 2 ^ f.fbits := by
        calc (n * 2 ^ e : ℚ) < 2 ^ (f.fbits + 1) * 2 ^ e := by gcongr
          _ ≤ 2 ^ (f.fbits + 1) * 2 ^ (-1 : Int) := by gcongr <;> [norm_num; omega]
          _ = 2 ^ f.fbits := by rw [pow_succ, zpow_neg_one, mul_assoc]; norm_num
      have hlt : (roundInt mode neg n e).1 < 2 ^ f.fbits + 1 := by
        have : (((roundInt mode neg n e).1 : Nat) : ℚ) < 2 ^ f.fbits + 1 := by linarith
        exact_mod_cast this
      have := Nat.one_lt_two_pow hfb.ne'
      rw [pow_succ]
      omega
    obtain ⟨-, g, j, hdec, hgj⟩ := FFmt.round_exact hf m' neg _ 0 hk (by unfold FFmt.emin; omega) (by omega) rfl
    exact ⟨g, j, hdec, by rw [hgj, zpow_zero, mul_one]⟩

/-- `frnd` of one value: an integer of the format, and no flag but for a signalling NaN (R152). -/
theorem FFmt.integral_spec {f : FFmt} (hf : f.HasInf) (m : RMode) (a : Nat) (ha : a < 2 ^ f.width) :
    (match f.decode a with
      | .nan g => f.integral m a = (f.nan, if g then fInvalid else 0)
      | .inf _ => f.integral m a = (a, 0)
      | .fin neg n e =>
        if n = 0 then f.integral m a = (a, 0)
        else (f.integral m a).2 = 0 ∧ ∃ k g j, RoundsToInt m neg (n * 2 ^ e) k ∧ f.decode (f.integral m a).1 = .fin neg g j ∧
          (g * 2 ^ j : ℚ) = k) ∧
    (f.integral m a).1 < 2 ^ f.width := by
  unfold FFmt.integral
  cases hdec : f.decode a with
  | nan g => exact ⟨rfl, (FFmt.special_lt_width hf false).2⟩
  | inf neg => exact ⟨rfl, ha⟩
  | fin neg n e =>
    by_cases hn : n = 0
    · simpa [hn] using ha
    · obtain ⟨hlt, he, he'⟩ := FFmt.decode_bounds hf hdec
      obtain ⟨g, j, hg, hgj⟩ := FFmt.round_roundInt hf m m neg hlt he he'
      simp only [hn, if_false]
      exact ⟨⟨trivial, _, g, j, roundInt_spec m neg n e, hg, hgj⟩, FFmt.round_lt_width hf m neg _ 0⟩

/-! `fpack` -/

/-- The sign and magnitude of a finite value that is not zero. -/
theorem FVal.rat_fin (neg : Bool) {n : Nat} (hn : n ≠ 0) (e : Int) :
    (FVal.fin neg n e).rat ≠ 0 ∧ decide ((FVal.fin neg n e).rat < 0) = neg ∧ |(FVal.fin neg n e).rat| = n * 2 ^ e := by
  have hn' : (0 : ℚ) < n := by exact_mod_cast Nat.pos_of_ne_zero hn
  have h0 : (0 : ℚ) < n * 2 ^ e := by positivity
  cases neg
  · have : (FVal.fin false n e).rat = n * 2 ^ e := by simp [FVal.rat]
    rw [this]
    exact ⟨h0.ne', by simpa using h0.le, abs_of_pos h0⟩
  · have : (FVal.fin true n e).rat = -(n * 2 ^ e) := by simp [FVal.rat]
    rw [this]
    exact ⟨neg_ne_zero.mpr h0.ne', by simpa using h0, by rw [abs_neg, abs_of_pos h0]⟩

/-- One value converted to a format is the sum of itself alone. -/
theorem convertFloat_sumOf {f : FFmt} (hf : f.HasInf) (src : FFmt) (m : RMode) (a : Nat) :
    f.SumOf m [src.decode a] [src.decode a] (convertFloat src f m a) ∧ (convertFloat src f m a).1 < 2 ^ f.width := by
  unfold convertFloat
  cases src.decode a with
  | nan g => exact ⟨by simp [FFmt.SumOf, FVal.isNan, FFmt.rnd, sigFlag], (FFmt.special_lt_width hf false).2⟩
  | inf neg =>
    simp only [FFmt.rnd, hf.1]
    exact ⟨by cases neg <;> simp [FFmt.SumOf, FVal.isNan, sigFlag], (FFmt.special_lt_width hf neg).1⟩
  | fin neg n e =>
    have hflag : sigFlag [.fin neg n e] = 0 := rfl
    refine ⟨?_, FFmt.round_lt_width hf m neg n e⟩
    simp only [FFmt.rnd, hflag]
    by_cases hn : n = 0
    · subst hn
      have hrat : (FVal.fin neg 0 e).rat = 0 := by simp [FVal.rat]
      rw [f.round_zero]
      cases neg <;> simp [FFmt.SumOf, FVal.isNan, FVal.isNeg, hrat]
    · obtain ⟨hne, hneg, habs⟩ := FVal.rat_fin neg hn e
      simpa [FFmt.SumOf, FVal.isNan, hne, hneg, habs] using FFmt.round_rounded hf m neg hn e

/-! `funpk` -/

/-- `funpk` of the two halves of a value (R154). -/
def unpackHalves (t : BitVec 3) (_m : RMode) (a _b _d : DWord) : LaneVal :=
  let lo := convertFloat (floatFmt t) .f32 .rne (elemAt 16 a 0)
  let hi := convertFloat (floatFmt t) .f32 .rne (elemAt 16 a 1)
  (BitVec.ofNat 64 (lo.1 + 2 ^ 32 * hi.1), lo.2 ||| hi.2)

/-- A value of a format that f32 contains is converted exactly. -/
theorem convertFloat_widen {f : FFmt} (hf : f.HasInf) (hfb : f.fbits ≤ 23) (hbias : f.bias ≤ 127) (a : Nat) :
    let r := convertFloat f .f32 .rne a
    ((f.decode a).isNan = true → r.1 = FFmt.f32.nan) ∧ (∀ neg, f.decode a = .inf neg → r.1 = FFmt.f32.inf neg) ∧
      (∀ neg n e, f.decode a = .fin neg n e → ∃ g j, FFmt.f32.decode r.1 = .fin neg g j ∧ (g * 2 ^ j : ℚ) = n * 2 ^ e) ∧
      r.2 = if f.decode a = .nan true then fInvalid else 0 := by
  simp only [convertFloat]
  cases hdec : f.decode a with
  | nan g => simp [FFmt.rnd, FVal.isNan, sigFlag]
  | inf neg => simp [FFmt.rnd, FVal.isNan, sigFlag, FFmt.f32]
  | fin neg n e =>
    obtain ⟨hn, he, he'⟩ := FFmt.decode_bounds hf hdec
    have hfit : n * 2 ^ (23 - f.fbits) < 2 ^ (FFmt.f32.fbits + 1) := by
      calc n * 2 ^ (23 - f.fbits) < 2 ^ (f.fbits + 1) * 2 ^ (23 - f.fbits) := Nat.mul_lt_mul_of_pos_right hn (Nat.two_pow_pos _)
        _ = 2 ^ (FFmt.f32.fbits + 1) := by rw [← pow_add]; congr 1; show _ = 23 + 1; omega
    have hv : (n * 2 ^ e : ℚ) = (n * 2 ^ (23 - f.fbits) : Nat) * 2 ^ (e - (23 - f.fbits : Nat)) := by
      push_cast
      rw [mul_assoc, ← zpow_natCast, ← zpow_add₀ (by norm_num), add_sub_cancel]
    have hmin : FFmt.f32.emin = -149 := rfl
    have hmax : (FFmt.f32.bias : Int) - FFmt.f32.fbits = 104 := rfl
    unfold FFmt.emin at he
    obtain ⟨hfl, g, j, hg, hgj⟩ := FFmt.round_exact FFmt.hasInf_f32 .rne neg n e hfit (by omega) (by omega) hv
    refine ⟨by simp [FVal.isNan], by simp, ?_, ?_⟩
    · rintro _ _ _ ⟨⟩
      exact ⟨g, j, hg, hgj⟩
    · simp [FFmt.rnd, hfl, sigFlag]

/-- Both halves, and the flags of either (R154). -/
theorem unpackHalves_spec (t : BitVec 3) (m : RMode) (a b d : DWord) :
    ∀ i < 2, let x := (floatFmt t).decode (element 16 a i).toNat
      (x.isNan = true → (element 32 (unpackHalves t m a b d).1 i).toNat = FFmt.f32.nan) ∧
      (∀ neg, x = .inf neg → (element 32 (unpackHalves t m a b d).1 i).toNat = FFmt.f32.inf neg) ∧
      (∀ neg n e, x = .fin neg n e → ∃ g j, FFmt.f32.decode (element 32 (unpackHalves t m a b d).1 i).toNat = .fin neg g j ∧
        (g * 2 ^ j : ℚ) = n * 2 ^ e) ∧
      (unpackHalves t m a b d).2 =
        if (floatFmt t).decode (element 16 a 0).toNat = .nan true ∨ (floatFmt t).decode (element 16 a 1).toNat = .nan true
        then fInvalid else 0 := by
  have hbits : (floatFmt t).fbits ≤ 23 ∧ (floatFmt t).bias ≤ 127 := by revert t; decide
  have hwiden := convertFloat_widen (hasInf_floatFmt t) hbits.1 hbits.2
  have hlt : ∀ n, (convertFloat (floatFmt t) .f32 .rne n).1 < 2 ^ 32 := fun n => (convertFloat_sumOf FFmt.hasInf_f32 _ _ _).2
  obtain ⟨hnan0, hinf0, hfin0, hfl0⟩ := hwiden (elemAt 16 a 0)
  obtain ⟨hnan1, hinf1, hfin1, hfl1⟩ := hwiden (elemAt 16 a 1)
  obtain ⟨-, h0, h1⟩ := pair_elements 32 _ _ (by decide) (hlt (elemAt 16 a 0)) (hlt (elemAt 16 a 1))
  have hflags : (unpackHalves t m a b d).2 = if (floatFmt t).decode (elemAt 16 a 0) = .nan true ∨
      (floatFmt t).decode (elemAt 16 a 1) = .nan true then fInvalid else 0 := by
    simp only [unpackHalves, hfl0, hfl1]
    by_cases hs0 : (floatFmt t).decode (elemAt 16 a 0) = .nan true <;>
      by_cases hs1 : (floatFmt t).decode (elemAt 16 a 1) = .nan true <;> simp [hs0, hs1]
  simp only [element_toNat, hflags]
  intro i hi
  obtain rfl | rfl : i = 0 ∨ i = 1 := by omega
  · simp only [unpackHalves, h0]
    exact ⟨hnan0, hinf0, hfin0, trivial⟩
  · simp only [unpackHalves, h1]
    exact ⟨hnan1, hinf1, hfin1, trivial⟩

/-- Two f32 values rounded to halves (R154). -/
theorem packHalves_spec (t : BitVec 3) (ht : t = 1 ∨ t = 2) (m : RMode) (a b d : DWord) :
    let r := packHalves t m a b d
    let x := fun (v : DWord) => FFmt.f32.decode (element 32 v 0).toNat
    (∃ lo hi, (floatFmt t).SumOf m [x a] [x a] ((element 16 r.1 0).toNat, lo) ∧
      (floatFmt t).SumOf m [x b] [x b] ((element 16 r.1 1).toNat, hi) ∧ r.2 = lo ||| hi ∧ bitsOf r.1 32 32 = 0) ∧
    r.1.toNat < 2 ^ 32 := by
  obtain ⟨hlo, hlo'⟩ := convertFloat_sumOf (hasInf_floatFmt t) .f32 m (elemAt 32 a 0)
  obtain ⟨hhi, hhi'⟩ := convertFloat_sumOf (hasInf_floatFmt t) .f32 m (elemAt 32 b 0)
  rw [width_floatFmt, if_pos ht] at hlo' hhi'
  simp only [packHalves, element_toNat]
  generalize convertFloat .f32 (floatFmt t) m (elemAt 32 a 0) = lo at *
  generalize convertFloat .f32 (floatFmt t) m (elemAt 32 b 0) = hi at *
  obtain ⟨hv, h0, h1⟩ := pair_elements 16 lo.1 hi.1 (by decide) hlo' hhi'
  rw [h0, h1]
  have hfit : (BitVec.ofNat 64 (lo.1 + 2 ^ 16 * hi.1)).toNat < 2 ^ 32 := by rw [hv]; omega
  exact ⟨⟨lo.2, hi.2, hlo, hhi, rfl, high_zero hfit⟩, hfit⟩

/-- The types of `fpack`. -/
theorem fpack_type {w : AWord} (h : legal (.fpack w) = true) : w.t = 1 ∨ w.t = 2 := by
  change ((w.t == 1 || w.t == 2) && plainOk w) = true at h
  simp only [Bool.and_eq_true, Bool.or_eq_true, beq_iff_eq] at h
  exact h.1

/-- Settles O9: each word computes, in each element, what the rules of rounding and conversion relate to its operands. -/
theorem floatScalingAndPackingWords : Obligations.FloatScalingAndPackingWords := by
  refine ⟨?_, ?_, ?_, ?_⟩
  · refine floatWord_of .fscale scaleImm false (fun t m a b d => perFloat t (scaleBy m) a b d) _ (fun _ _ => rfl)
      (fun w => w.add_dst_vd_ne_nil _ _) (fun w _ m a b d => ?_)
    refine (perFloat_perFloat w.t (scaleBy m) _ (fun a b d ha hb => ?_) a b d).imp_right fun h _ => h
    rw [scaleBy_eq w.t m a b d hb]
    exact FFmt.scale_spec (hasInf_floatFmt w.t) m a _ ha
  · refine floatWord_of .frnd floatImm false (fun t m a b d => perFloat t (fun g a _ _ => g.integral m a) a b d) _ (fun _ _ => rfl)
      (fun w => w.add_dst_vd_ne_nil _ _) (fun w _ m a b d => ?_)
    exact (perFloat_perFloat w.t (fun g a _ _ => g.integral m a) _ (fun a b d ha hb => FFmt.integral_spec (hasInf_floatFmt w.t) m a ha)
      a b d).imp_right fun h _ => h
  · exact floatWord_of .fpack (fun _ => floatImm 0) false packHalves _ (fun _ _ => rfl) (fun w => w.add_dst_vd_ne_nil _ _)
      (fun w hl m a b d => (packHalves_spec w.t (fpack_type hl) m a b d).imp_right fun h _ => h)
  · exact floatWord_of .funpk floatImm true unpackHalves _ (fun _ _ => rfl)
      (fun w => w.add_dst_vd_ne_nil _ _) (fun w _ m a b d => ⟨unpackHalves_spec w.t m a b d, by simp⟩)

end Sys2Proof.Machine
end

section
/-! PROOFS. `hmix` (R349). -/

namespace Sys2Proof.Machine

/-! The mix. -/

/-- A value xored with itself shifted right determines each bit, from the highest down. -/
theorem getLsbD_eq_of_xorShift_eq {w n : Nat} (hn : 0 < n) {x y : BitVec w} (h : x ^^^ x >>> n = y ^^^ y >>> n) (i : Nat) :
    x.getLsbD i = y.getLsbD i := by
  by_cases hi : i < w
  · have hbit := congrArg (BitVec.getLsbD · i) h
    simp only [BitVec.getLsbD_xor, BitVec.getLsbD_ushiftRight, getLsbD_eq_of_xorShift_eq hn h (n + i)] at hbit
    exact Bool.xor_left_inj.mp hbit
  · rw [BitVec.getLsbD_of_ge x i (by omega), BitVec.getLsbD_of_ge y i (by omega)]
termination_by w - i

theorem xorShift_injective {w n : Nat} (hn : 0 < n) : Function.Injective fun x : BitVec w => x ^^^ x >>> n :=
  fun _ _ h => BitVec.eq_of_getLsbD_eq fun i _ => getLsbD_eq_of_xorShift_eq hn h i

/-- Multiplication by an odd number modulo a power of 2 cancels. -/
theorem mul_odd_injective {w : Nat} {c : BitVec w} (hc : Odd c.toNat) : Function.Injective fun x : BitVec w => x * c := by
  intro x y h
  have hmod : x.toNat * c.toNat ≡ y.toNat * c.toNat [MOD 2 ^ w] := by
    simpa only [BitVec.toNat_mul, Nat.ModEq] using congrArg BitVec.toNat h
  have hcop : Nat.gcd (2 ^ w) c.toNat = 1 := (Nat.coprime_two_left.mpr hc).pow_left w
  exact BitVec.eq_of_toNat_eq ((Nat.ModEq.cancel_right_of_coprime hcop hmod).eq_of_lt_of_lt x.isLt y.isLt)

/-- The three shifts and the two odd multipliers each lose nothing. -/
theorem hmixVal_injective : Function.Injective hmixVal :=
  (xorShift_injective (n := 32) (by decide)).comp <|
    (mul_odd_injective (c := 0x6C1BE4F093A72D45) (by decide)).comp <| (xorShift_injective (n := 29) (by decide)).comp <|
    (mul_odd_injective (c := 0x8F3C5A29D14E6B73) (by decide)).comp <| xorShift_injective (n := 31) (by decide)

theorem hmixVal_bijective : Function.Bijective hmixVal := hmixVal_injective.bijective_of_finite

/-! The word. -/

/-- A field of `hmix` that its row fixes to 0 and that is not makes the word illegal (R59). -/
theorem rowOk_hmix_false (w : AWord) (h : w.b ≠ 0 ∨ w.t ≠ 0 ∨ w.eb = true) : rowOk (.hmix w) = false := by
  refine Bool.eq_false_iff.mpr fun hk => ?_
  change (w.b == 0 && w.t == 0 && !w.eb && w.noExt) = true at hk
  simp only [Bool.and_eq_true, beq_iff_eq, Bool.not_eq_true'] at hk
  obtain ⟨⟨⟨hb, ht⟩, heb⟩, -⟩ := hk
  simp [hb, ht, heb] at h

/-- The 64-bit operands of an `hmix` that does not act for its gang are a and d. -/
theorem hmix_wide (w : AWord) (hu : w.u = false) : (operands (.hmix w)).wide = [w.a.toNat, w.d.toNat] := by
  show ((w.srcs true true false false true).add (w.dst true)).wide = _
  simp [AWord.srcs, AWord.dst, hu, Opnds.add, Opnds.sum, Opnds.nil, vSrc, vDst]

theorem hmix_misaligned (w : AWord) (hu : w.u = false) (h : w.d.toNat % 2 = 1 ∨ w.a.toNat % 2 = 1) :
    (operands (.hmix w)).misaligned = true := by
  rw [Opnds.misaligned, hmix_wide w hu]
  rcases h with h | h <;> simp [h]

/-- A word that is not illegal and has an odd 64-bit operand stops MISALIGN (R28, R76). -/
theorem Issue.staticCause_misalign (x : Issue) (d : Device) (i : Instr) (hl : x.staticCause d i ≠ some .illegal)
    (hm : (operands i).misaligned = true) : x.staticCause d i = some .misalign := by
  unfold Issue.staticCause at hl ⊢
  simp only [hm, if_true] at hl ⊢
  split at hl
  · exact absurd rfl hl
  · next h => rw [if_neg h]

/-- Such a word takes the trap, whatever the registers hold. -/
theorem State.runLanes_misalign (s : State) (x : Issue) (i : Instr) (eff : Issue → Device → Eff) (hx : s.iss = some x)
    (hl : x.staticCause s.dev i ≠ some .illegal) (hm : (operands i).misaligned = true) :
    s.runLanes i eff = .next (s.trapped x .misalign none 0) :=
  s.runWord_trap x i false false eff .misalign none hx (by simp only [Issue.verdict, x.staticCause_misalign s.dev i hl hm])

/-- An `hmix` that is ready marks its destination and leaves the mix of its operand to the fill (R31, R349). -/
theorem hmix_marks (s : State) (x : Issue) (w : AWord) (hr : Ready s x (.hmix w)) (hg : GangOk s x)
    (hw : (s.dev.view x.agent).regsWf = true) :
    let v := fun l => hmixVal (w.aVal x.view (s.dev.view x.agent) true l)
    ∃ t, exec (.hmix w) s = .next t ∧
      (w.u = false → MarkedLanes s t x w.d.toNat true v 0) ∧ (w.u = true → MarkedS s t x w.d.toNat (v x.lead) 0) := by
  intro v
  let f : Issue → Device → Nat → LaneVal := fun x d l => (hmixVal (w.aVal x.view (d.view x.agent) true l), 0)
  cases hu : w.u with
  | false =>
    obtain ⟨t, ht, hp⟩ := s.laterA_lanes x (.hmix w) w true f .nothing (hmixEff w) rfl hr hg hw hu (w.add_dst_vd_ne_nil _ true hu)
    rw [show orFlags (x.lanesWith (f x s.dev)) = 0 from orFlags_lanesWith_zero x v] at hp
    exact ⟨t, ht, fun _ => hp, by simp⟩
  | true =>
    obtain ⟨t, ht, hp⟩ := s.laterA_uni x (.hmix w) w true f .nothing (hmixEff w) rfl hr hg hw hu
    exact ⟨t, ht, by simp, fun _ => hp⟩

/-- Settles O23: the traps come from the checks on the row and on the pairs; each step of the mix is injective on 64-bit values. -/
theorem hashMixFollowsItsFormulaAndIsABijection : Obligations.HashMixFollowsItsFormulaAndIsABijection := by
  refine ⟨by decide, fun s x w hx h => ?_, fun s x w hx hu h hl => ?_, by decide, hmixVal_bijective, hmix_marks⟩
  · exact s.runLanes_illegal x (.hmix w) (hmixEff w) hx (.inl (rowOk_hmix_false w h))
  · exact s.runLanes_misalign x (.hmix w) (hmixEff w) hx hl (hmix_misaligned w hu (h.imp_right And.right))

end Sys2Proof.Machine
end
